-- ==== Sys2Proof/Word.lean ====
section
/-!
DEFINITION. The word types of the WebLink SWIO link block (R10): 32-bit payloads, target addresses and result codes,
8-bit bytes and opcodes, 7-bit register commands.
-/
namespace Sys2Proof

/-- `u32`: a frame payload, a target address, a target word, a command-port operand; also an `i32` result code (R10). -/
abbrev Word := BitVec 32

/-- `u8`: one byte of target memory, of a byte string, or an opcode (R10, R100). -/
abbrev Byte := BitVec 8

/-- `u7`: the command field of a frame, the number of a debug-module register (R10, R60). -/
abbrev Cmd := BitVec 7

end Sys2Proof
end

