-- ==== Sys2Proof/Config.lean ====
section
/-!
DEFINITION. What an implementation fixes (the parameters of R9, a record that the machine carries and no step changes)
and the free values (opaque constants without a body: the target's answers, the clock, the response fields no rule
names).

Time base: every duration is a natural number of ticks, and `tau` says how many ticks one unit of `preciseDelay` is
(DESIGN CHOICE, log 3), so that `READ_LOW`, which R9 puts strictly between 0 and 2 units, need not be a whole unit.
-/
namespace Sys2Proof.Config

/-- `HIGH_DRIVE` (R9, R29): how the PHY makes the line high. -/
inductive HighDrive where
  | release
  | driveHigh
deriving DecidableEq, Repr, Inhabited

/-- One step of a step list (R250), the type of `SEQ_PRE`, `SEQ_MODE(m)`, `SEQ_BOOTKEYS`, `SEQ_INIT`, `SEQ_OPTDEFAULT`. -/
inductive SeqStep where
  | fw (cmd : Cmd) (value : Word)
  | fr (cmd : Cmd)
  | memWriteWord (addr value : Word)
  | memReadWord (addr : Word)
  | flashUnlock
  | flashWaitNotBusy
  | wait (ticks : Nat)
deriving DecidableEq, Repr, Inhabited

/-- The target's part of one read slot (R124): the level at the sample, and the index of the first poll that sees the
line high (`none`: never). An index of `READ_POLL_LIMIT` or more is never reached, so it too means "never". -/
structure SlotDraw where
  level : Bool
  highAt : Option Nat
deriving DecidableEq, Repr, Inhabited

/-- The parameters of R9. The entries R9 gives one value are constants below (`gpioWidth`, `autoOff`, `flashBase`,
`massPollLimit`, `defaultRetries`); `THRESH` is an argument of the line monitor (`Decode.lean`). -/
structure Params where
  tau : Nat
  resetCoeff : Word
  coeffMax : Word
  /-- `READ_LOW * TAU`, in ticks -/
  readLow : Nat
  readPollLimit : Nat
  pollTime : Nat
  frameGap : Nat
  /-- `TIMING_TOL` as a fraction (numerator, denominator); no rule of the model uses it (R9, R335) -/
  timingTol : Nat × Nat
  highDrive : HighDrive
  testPort : Bool
  dmData0 : Cmd
  dmData1 : Cmd
  dmControl : Cmd
  dmStatus : Cmd
  dmAbstractCs : Cmd
  dmCommand : Cmd
  dmAbstractAuto : Cmd
  dmProgbuf : Vector Cmd 8
  dmCfgr : Cmd
  dmShdwCfgr : Cmd
  csBusy : Word
  csErr : Word
  csErrClear : Word
  absPollLimit : Nat
  cmdExec : Word
  autoRead : Word
  autoWrite : Word
  progReadPlain : List Word
  progReadInc : List Word
  progWriteRam : List Word
  progWriteFlash : List Word
  progRByte : List Word
  progWByte : List Word
  flashSize : Nat
  flashKeyr : Word
  flashObkeyr : Word
  flashModekeyr : Word
  flashBootModekeyr : Word
  flashStatr : Word
  flashCtlr : Word
  flashAddr : Word
  key1 : Word
  key2 : Word
  lockReg : Word
  lockMask : Word
  crPg : Word
  crPer : Word
  crMer : Word
  crStrt : Word
  crBufload : Word
  srBsy : Word
  srWrprt : Word
  busyPollLimit : Nat
  verifyRetries : Nat
  maxBinary : Nat
  watchdogTimeout : Nat
  retryMax : Nat
  seqPre : List SeqStep
  seqHaltReset : List SeqStep
  seqReboot : List SeqStep
  seqResume : List SeqStep
  seqRebootBoot : List SeqStep
  seqHaltNoReset : List SeqStep
  seqBootKeys : List SeqStep
  seqInit : List SeqStep
  hasPowerGate : Bool
  unbrickTries : Nat
  powerOffTime : Nat
  powerOnTime : Nat
  seqOptDefault : List SeqStep
  haltedMask : Word
  chipInfoAddrs : List Word
deriving DecidableEq, Repr

/-- `GPIO_WIDTH` = 32 (R9). -/
def gpioWidth : Nat := 32

/-- `AUTO_OFF` = 0 (R9, D14). -/
def autoOff : Word := 0

/-- `FLASH_BASE` = 0x08000000 (R9, R62, D20). -/
def flashBase : Nat := 0x08000000

/-- `MASS_POLL_LIMIT` = 500 (R9, R195, D25). -/
def massPollLimit : Nat := 500

/-- `DEFAULT_RETRIES` = 0 (R9, D33). -/
def defaultRetries : Word := 0

/-- "one bit set" (R9). -/
abbrev oneBit (m : Word) : Prop := m ≠ 0 ∧ m &&& (m - 1) = 0

/-- A flash peripheral register's address: 4-aligned and outside flash (R9). -/
abbrev peripheral (flashSize : Nat) (a : Word) : Prop :=
  a.toNat % 4 = 0 ∧ ¬ (flashBase ≤ a.toNat ∧ a.toNat < flashBase + flashSize)

/-- A micro-program has 1 to 8 words (R9). -/
abbrev progLen (ws : List Word) : Prop := 1 ≤ ws.length ∧ ws.length ≤ 8

/-- The link-init handshake is made of `FW`, `FR` and `Wait` steps (R235). -/
def SeqStep.isHandshake : SeqStep → Bool
  | .fw _ _ => true
  | .fr _ => true
  | .wait _ => true
  | _ => false

/-- The constraints R9 puts on the parameters. That `RESET_COEFF` does not pass `COEFF_MAX` is R22's ("the register never
holds another value") and R322's ("which is legal"); that `SEQ_INIT` holds only frames and waits is R235's (DEDUCED, log 4). -/
structure Params.Valid (p : Params) : Prop where
  tau : 0 < p.tau
  resetCoeff_ge : 2 ≤ p.resetCoeff.toNat
  resetCoeff_le : p.resetCoeff.toNat ≤ p.coeffMax.toNat
  coeffMax : 4 * p.coeffMax.toNat < 2 ^ 32
  readLow_pos : 0 < p.readLow
  readLow_lt : p.readLow < 2 * p.tau
  readPollLimit : 1 ≤ p.readPollLimit
  pollTime : 0 < p.pollTime
  frameGap : 0 < p.frameGap
  data_distinct : p.dmData0 ≠ p.dmData1
  csBusy : oneBit p.csBusy
  csErr : p.csErr ≠ 0
  cs_disjoint : p.csErr &&& p.csBusy = 0
  absPollLimit : 1 ≤ p.absPollLimit
  progReadPlain : progLen p.progReadPlain
  progReadInc : progLen p.progReadInc
  progWriteRam : progLen p.progWriteRam
  progWriteFlash : progLen p.progWriteFlash
  progRByte : progLen p.progRByte
  progWByte : progLen p.progWByte
  flashSize : p.flashSize % 64 = 0
  flashEnd : flashBase + p.flashSize ≤ 2 ^ 32
  flashKeyr : peripheral p.flashSize p.flashKeyr
  flashObkeyr : peripheral p.flashSize p.flashObkeyr
  flashModekeyr : peripheral p.flashSize p.flashModekeyr
  flashBootModekeyr : peripheral p.flashSize p.flashBootModekeyr
  flashStatr : peripheral p.flashSize p.flashStatr
  flashCtlr : peripheral p.flashSize p.flashCtlr
  flashAddr : peripheral p.flashSize p.flashAddr
  lockMask : p.lockMask ≠ 0
  cr_bits : oneBit p.crPg ∧ oneBit p.crPer ∧ oneBit p.crMer ∧ oneBit p.crStrt ∧ oneBit p.crBufload
  cr_distinct : [p.crPg, p.crPer, p.crMer, p.crStrt, p.crBufload].Pairwise (· ≠ ·)
  sr_bits : oneBit p.srBsy ∧ oneBit p.srWrprt ∧ p.srBsy ≠ p.srWrprt
  busyPollLimit : 1 ≤ p.busyPollLimit
  maxBinary : 64 ≤ p.maxBinary
  watchdogTimeout : 0 < p.watchdogTimeout
  seqInit : p.seqInit.all SeqStep.isHandshake = true
  unbrickTries : 1 ≤ p.unbrickTries
  powerOffTime : 0 < p.powerOffTime
  powerOnTime : 0 < p.powerOnTime
  haltedMask : p.haltedMask ≠ 0
  chipInfoAddrs : ∀ a ∈ p.chipInfoAddrs, a.toNat % 4 = 0

/-- One set of parameters that meets every constraint: the set VP of `spec/95_test_vectors.md` section 2, its symbolic
entries given arbitrary numbers. It only shows that the constraints can be met, and serves the tests; no rule reads it. -/
def Params.sample : Params where
  tau := 1
  resetCoeff := 2
  coeffMax := 1000
  readLow := 1
  readPollLimit := 4
  pollTime := 1
  frameGap := 7
  timingTol := (0, 1)
  highDrive := .release
  testPort := true
  dmData0 := 0x04
  dmData1 := 0x05
  dmControl := 0x10
  dmStatus := 0x11
  dmAbstractCs := 0x16
  dmCommand := 0x17
  dmAbstractAuto := 0x18
  dmProgbuf := #v[0x20, 0x21, 0x22, 0x23, 0x24, 0x25, 0x26, 0x27]
  dmCfgr := 0x7D
  dmShdwCfgr := 0x7E
  csBusy := 0x1000
  csErr := 0x700
  csErrClear := 0x700
  absPollLimit := 4
  cmdExec := 0x00040000
  autoRead := 0x0A
  autoWrite := 0x0B
  progReadPlain := [0x101, 0x102]
  progReadInc := [0x111, 0x112, 0x113]
  progWriteRam := [0x121, 0x122, 0x123]
  progWriteFlash := [0x131, 0x132, 0x133]
  progRByte := [0x141, 0x142]
  progWByte := [0x151, 0x152]
  flashSize := 16384
  flashKeyr := 0x40022004
  flashObkeyr := 0x40022008
  flashModekeyr := 0x40022024
  flashBootModekeyr := 0x40022028
  flashStatr := 0x4002200C
  flashCtlr := 0x40022010
  flashAddr := 0x40022014
  key1 := 0x45670123
  key2 := 0xCDEF89AB
  lockReg := 0x40022010
  lockMask := 0x8080
  crPg := 0x10000
  crPer := 0x20000
  crMer := 0x4
  crStrt := 0x40
  crBufload := 0x40000
  srBsy := 0x1
  srWrprt := 0x10
  busyPollLimit := 4
  verifyRetries := 1
  maxBinary := 16384
  watchdogTimeout := 100
  retryMax := 8
  seqPre := []
  seqHaltReset := [.fw 0x10 0xC0]
  seqReboot := [.fw 0x10 0xC1]
  seqResume := [.fw 0x10 0xC2]
  seqRebootBoot := [.fw 0x10 0xC3]
  seqHaltNoReset := [.fw 0x10 0xC4]
  seqBootKeys := []
  seqInit := []
  hasPowerGate := false
  unbrickTries := 3
  powerOffTime := 5
  powerOnTime := 6
  seqOptDefault := []
  haltedMask := 0x300
  chipInfoAddrs := [0x20000100, 0x20000108, 0x2000010C]

theorem Params.sample_chipInfoAddrs : ∀ a ∈ Params.sample.chipInfoAddrs, a.toNat % 4 = 0 := by
  intro a h
  simp only [Params.sample, List.mem_cons, List.not_mem_nil, or_false] at h
  rcases h with rfl | rfl | rfl <;> rfl

theorem Params.sample_valid : Params.sample.Valid := by
  constructor
  case chipInfoAddrs => exact Params.sample_chipInfoAddrs
  all_goals decide

/-- FREE VALUE: an unspecified element of a type that has one. It has no body: nothing is known of what it answers. -/
opaque anyOf (α : Type) [Inhabited α] : α

/-- The parameters of the machine that `State.reset` describes: OPEN (R9), so nothing is known of them but that they meet
R9's constraints and that `HIGH_DRIVE` has the value R9 gives it. `Params.sample` only shows that such parameters exist. -/
def chosen : { p : Params // p.Valid ∧ p.highDrive = .release } :=
  @anyOf _ ⟨⟨Params.sample, Params.sample_valid, rfl⟩⟩

/-- The parameters of the machine after reset (R9, R322: "fixed before reset and never change"). -/
def params : Params := chosen.1

theorem params_valid : params.Valid := chosen.2.1

theorem params_highDrive : params.highDrive = .release := chosen.2.2

/-- FREE VALUE: the target's answer to the n-th read slot no script of `State` fixes (R124, U1: any value). -/
opaque freeSlot : Nat → SlotDraw

/-- FREE VALUE: by how much the wall clock has advanced at the n-th reading no script of `State` fixes (R246, U19: `now`
never decreases; nothing else is known of it). -/
opaque freeClock : Nat → Nat

/-- FREE VALUE: `rspValue` of a response whose rule names no value (U11, U15). -/
opaque freeRspValue : Nat → Word

/-- FREE VALUE: `rspData` of a response whose rule names no byte string (U11). -/
opaque freeRspData : Nat → List Byte

end Sys2Proof.Config
end

