-- ==== Sys2Proof/Syntax.lean ====
section
/-!
DEFINITION. The abstract syntax: one constructor of `Instr` for each row of `spec/opcode_table.json`.

The first 35 constructors are requests of the command port (R101). An operand register `A`, `B` or `C` that an opcode
uses is an `Option`: `none` says that the host did not supply it (its `present` bit is 0, R100, R102). An operand the
opcode does not use is ignored (R102) and has no place here. The last five are the wire formats (R90 to R95).
-/
namespace Sys2Proof

/-- The operations of the block, R101 and R90 to R95, in the order of the opcode table. -/
inductive Instr where
  -- host operations (always accepted)
  | rawWrite (reg value : Option Word)
  | rawRead (reg : Option Word)
  | uploadBegin (offset size retries : Option Word)
  | uploadData (data : List Byte) (last : Bool)
  | status
  | readBlob (offset size : Option Word)
  | unbrick
  | chipInfo
  | haltReset
  | reboot
  | resume
  | rebootBoot
  | haltNoReset
  | setPin (mask : Option Word)
  | setCoeff (coeff : Option Word)
  -- internal operations (accepted on the command port only when TEST_PORT is true)
  | phyDelay (units : Option Word)
  | phySend1
  | phySend0
  | phyReadBit
  | frameWrite (cmd value : Option Word)
  | frameRead (cmd : Option Word)
  | seqReadWord (addr : Option Word) (ai : Option Bool)
  | seqWriteWord (addr value : Option Word)
  | seqReadByte (addr : Option Word)
  | seqWriteByte (addr : Option Word) (byte : Option Byte)
  | seqWaitAbstract
  | seqInvalidate
  | flashUnlock
  | flashWaitNotBusy
  | flashErasePages (addr len : Option Word)
  | flashEraseChip
  | flashWriteBlock64 (addr : Option Word) (data : List Byte)
  | blobWrite (addr size : Option Word) (data : List Byte)
  | blobRead (addr size : Option Word)
  | linkInit
  -- wire formats (strings of symbols and slots at the frame port)
  | sym1
  | sym0
  | readSlot
  | writeFrame (cmd : Cmd) (value : Word)
  | readFrame (cmd : Cmd)
deriving DecidableEq, Repr

end Sys2Proof
end

