-- ==== Sys2Proof/Decode.lean ====
section
/-!
DEFINITION. The two encodings of the block, read and written.

* The command port (R100, R101): a request `(op, A, B, C, present, final, data)`.
* The wire (R90 to R96): a string of symbols `S1`, `S0` and read slots `RS`.

`decode` is total on both and rejects by name; `encode` writes the encoding of an instruction. The line monitor of R92,
which reads a frame from the lengths of its low phases, is at the end.
-/
namespace Sys2Proof

/-! ### The command port -/

/-- A request of the command port as its registers hold it (R43, R100). -/
structure Request where
  op : Byte
  a : Word
  b : Word
  c : Word
  /-- bit 0: `A` supplied, bit 1: `B`, bit 2: `C` -/
  present : BitVec 3
  last : Bool
  data : List Byte
deriving DecidableEq, Repr, Inhabited

/-- One symbol or slot on the wire: `S1` and `S0` (R90), the read slot `RS` (R91). -/
inductive WireTok where
  | s1
  | s0
  | rs
deriving DecidableEq, Repr, Inhabited

/-- What is presented for decoding: a request at the command port, or a string at the frame port. -/
inductive Encoded where
  | port (r : Request)
  | wire (w : List WireTok)
deriving DecidableEq, Repr

/-- Why an encoding is rejected. -/
inductive DecodeError where
  /-- R103: an opcode that is not in R101's map -/
  | unknownOpcode (op : Byte)
  /-- an empty wire string -/
  | wireEmpty
  /-- R95: a frame begins with the symbol `S1` -/
  | wireNoStart
  /-- R95: the start symbol is not followed by 7 command symbols and a separator symbol -/
  | wireBadHeader
  /-- R93: the separator 1 is not followed by exactly 32 symbols -/
  | wireBadPayload
  /-- R94: the separator 0 is not followed by exactly 32 read slots -/
  | wireBadSlots
deriving DecidableEq, Repr

/-- Operand `A`, if the host supplied it. -/
def Request.opA (r : Request) : Option Word := if r.present.getLsbD 0 then some r.a else none

/-- Operand `B`, if the host supplied it. -/
def Request.opB (r : Request) : Option Word := if r.present.getLsbD 1 then some r.b else none

/-- Operand `C`, if the host supplied it. -/
def Request.opC (r : Request) : Option Word := if r.present.getLsbD 2 then some r.c else none

/-- R101 and R105: the instruction of a request. `B[0]` of `SEQ_READ_WORD` is the auto-increment flag and `B[7:0]` of
`SEQ_WRITE_BYTE` the byte (R105); operands an opcode does not use are ignored (R102); R103's opcodes are rejected. -/
def decodeRequest (r : Request) : Except DecodeError Instr :=
  match r.op.toNat with
  | 0x40 => .ok (.rawWrite r.opA r.opB)
  | 0x41 => .ok (.rawRead r.opA)
  | 0x42 => .ok (.uploadBegin r.opA r.opB r.opC)
  | 0x43 => .ok (.uploadData r.data r.last)
  | 0x44 => .ok .status
  | 0x45 => .ok (.readBlob r.opA r.opB)
  | 0x46 => .ok .unbrick
  | 0x48 => .ok .chipInfo
  | 0x50 => .ok .haltReset
  | 0x51 => .ok .reboot
  | 0x52 => .ok .resume
  | 0x53 => .ok .rebootBoot
  | 0x54 => .ok .haltNoReset
  | 0x60 => .ok (.setPin r.opA)
  | 0x61 => .ok (.setCoeff r.opA)
  | 0x01 => .ok (.phyDelay r.opA)
  | 0x02 => .ok .phySend1
  | 0x03 => .ok .phySend0
  | 0x04 => .ok .phyReadBit
  | 0x05 => .ok (.frameWrite r.opA r.opB)
  | 0x06 => .ok (.frameRead r.opA)
  | 0x10 => .ok (.seqReadWord r.opA (r.opB.map fun b => b.getLsbD 0))
  | 0x11 => .ok (.seqWriteWord r.opA r.opB)
  | 0x12 => .ok (.seqReadByte r.opA)
  | 0x13 => .ok (.seqWriteByte r.opA (r.opB.map fun b => b.extractLsb' 0 8))
  | 0x14 => .ok .seqWaitAbstract
  | 0x15 => .ok .seqInvalidate
  | 0x20 => .ok .flashUnlock
  | 0x21 => .ok .flashWaitNotBusy
  | 0x22 => .ok (.flashErasePages r.opA r.opB)
  | 0x23 => .ok .flashEraseChip
  | 0x24 => .ok (.flashWriteBlock64 r.opA r.data)
  | 0x25 => .ok (.blobWrite r.opA r.opB r.data)
  | 0x26 => .ok (.blobRead r.opA r.opB)
  | 0x27 => .ok .linkInit
  | _ => .error (.unknownOpcode r.op)

/-- R101's second table: the internal operations, which the command port accepts only when `TEST_PORT` is true. -/
def isInternal : Instr → Bool
  | .phyDelay _ | .phySend1 | .phySend0 | .phyReadBit => true
  | .frameWrite _ _ | .frameRead _ => true
  | .seqReadWord _ _ | .seqWriteWord _ _ | .seqReadByte _ | .seqWriteByte _ _ => true
  | .seqWaitAbstract | .seqInvalidate => true
  | .flashUnlock | .flashWaitNotBusy | .flashErasePages _ _ | .flashEraseChip => true
  | .flashWriteBlock64 _ _ | .blobWrite _ _ _ | .blobRead _ _ | .linkInit => true
  | _ => false

/-! ### The wire -/

/-- The bit a symbol stands for (R90); a read slot is no symbol of the block's. -/
def symbolBit : WireTok → Option Bool
  | .s1 => some true
  | .s0 => some false
  | .rs => none

/-- The symbol of a bit (R90). -/
def bitSymbol (b : Bool) : WireTok := if b then .s1 else .s0

/-- The bits of a value in send order, most significant first (R65). -/
def msbBits {w : Nat} (v : BitVec w) : List Bool := (List.range w).map fun k => v.getMsbD k

/-- R96: `v <- 0; for each bit: v <- (v << 1) | bit`. -/
def assemble (w : Nat) (bs : List Bool) : BitVec w :=
  bs.foldl (fun v b => (v <<< 1) ||| (if b then 1#w else 0#w)) 0#w

/-- The next `n` symbols of a string as bits, and the rest of the string; none if there are not `n` symbols. -/
def takeBits : Nat → List WireTok → Option (List Bool × List WireTok)
  | 0, ts => some ([], ts)
  | _ + 1, [] => none
  | n + 1, t :: ts =>
    match symbolBit t, takeBits n ts with
    | some b, some (bs, rest) => some (b :: bs, rest)
    | _, _ => none

/-- The 9 header bits of a frame in send order: start 1, the command, the separator (R95). -/
def headerBits (cmd : Cmd) (separator : Bool) : List Bool := true :: msbBits cmd ++ [separator]

/-- The 41 bits of a write frame in send order (R93). -/
def writeFrameBits (cmd : Cmd) (value : Word) : List Bool := headerBits cmd true ++ msbBits value

/-- R93 to R95: the frame, or the lone symbol or slot, that a string at the frame port is. -/
def decodeWire : List WireTok → Except DecodeError Instr
  | [] => .error .wireEmpty
  | [.s1] => .ok .sym1
  | [.s0] => .ok .sym0
  | [.rs] => .ok .readSlot
  | .s1 :: rest =>
    match takeBits 7 rest with
    | none => .error .wireBadHeader
    | some (cmd, .s1 :: body) =>
      match takeBits 32 body with
      | some (bits, []) => .ok (.writeFrame (assemble 7 cmd) (assemble 32 bits))
      | _ => .error .wireBadPayload
    | some (cmd, .s0 :: body) =>
      if body = List.replicate 32 .rs then .ok (.readFrame (assemble 7 cmd)) else .error .wireBadSlots
    | some _ => .error .wireBadHeader
  | _ => .error .wireNoStart

/-- The instruction of an encoding. -/
def decode : Encoded → Except DecodeError Instr
  | .port r => decodeRequest r
  | .wire w => decodeWire w

/-! ### The encoder -/

/-- A request with the given opcode and operands. A register whose operand is not supplied holds 0. -/
def mkRequest (op : Byte) (a b c : Option Word) (last : Bool) (data : List Byte) : Request where
  op := op
  a := a.getD 0
  b := b.getD 0
  c := c.getD 0
  present := (if a.isSome then 1#3 else 0#3) ||| (if b.isSome then 2#3 else 0#3) ||| (if c.isSome then 4#3 else 0#3)
  last := last
  data := data

/-- A request that carries operand registers only. -/
def plainRequest (op : Byte) (a b c : Option Word) : Request := mkRequest op a b c false []

/-- The flag `B[0]` as an operand register (R105). -/
def flagWord (b : Bool) : Word := if b then 1 else 0

/-- The encoding of an instruction, from R101's map for requests and from R93 and R94 for frames. -/
def encode : Instr → Encoded
  | .rawWrite a b => .port (plainRequest 0x40 a b none)
  | .rawRead a => .port (plainRequest 0x41 a none none)
  | .uploadBegin a b c => .port (plainRequest 0x42 a b c)
  | .uploadData d l => .port (mkRequest 0x43 none none none l d)
  | .status => .port (plainRequest 0x44 none none none)
  | .readBlob a b => .port (plainRequest 0x45 a b none)
  | .unbrick => .port (plainRequest 0x46 none none none)
  | .chipInfo => .port (plainRequest 0x48 none none none)
  | .haltReset => .port (plainRequest 0x50 none none none)
  | .reboot => .port (plainRequest 0x51 none none none)
  | .resume => .port (plainRequest 0x52 none none none)
  | .rebootBoot => .port (plainRequest 0x53 none none none)
  | .haltNoReset => .port (plainRequest 0x54 none none none)
  | .setPin a => .port (plainRequest 0x60 a none none)
  | .setCoeff a => .port (plainRequest 0x61 a none none)
  | .phyDelay a => .port (plainRequest 0x01 a none none)
  | .phySend1 => .port (plainRequest 0x02 none none none)
  | .phySend0 => .port (plainRequest 0x03 none none none)
  | .phyReadBit => .port (plainRequest 0x04 none none none)
  | .frameWrite a b => .port (plainRequest 0x05 a b none)
  | .frameRead a => .port (plainRequest 0x06 a none none)
  | .seqReadWord a ai => .port (plainRequest 0x10 a (ai.map flagWord) none)
  | .seqWriteWord a b => .port (plainRequest 0x11 a b none)
  | .seqReadByte a => .port (plainRequest 0x12 a none none)
  | .seqWriteByte a b => .port (plainRequest 0x13 a (b.map fun v => v.setWidth 32) none)
  | .seqWaitAbstract => .port (plainRequest 0x14 none none none)
  | .seqInvalidate => .port (plainRequest 0x15 none none none)
  | .flashUnlock => .port (plainRequest 0x20 none none none)
  | .flashWaitNotBusy => .port (plainRequest 0x21 none none none)
  | .flashErasePages a b => .port (plainRequest 0x22 a b none)
  | .flashEraseChip => .port (plainRequest 0x23 none none none)
  | .flashWriteBlock64 a d => .port (mkRequest 0x24 a none none false d)
  | .blobWrite a b d => .port (mkRequest 0x25 a b none false d)
  | .blobRead a b => .port (plainRequest 0x26 a b none)
  | .linkInit => .port (plainRequest 0x27 none none none)
  | .sym1 => .wire [.s1]
  | .sym0 => .wire [.s0]
  | .readSlot => .wire [.rs]
  | .writeFrame cmd value => .wire ((writeFrameBits cmd value).map bitSymbol)
  | .readFrame cmd => .wire ((headerBits cmd false).map bitSymbol ++ List.replicate 32 .rs)

/-! ### The line monitor (R92) -/

/-- R92: a low phase shorter than `THRESH` is a 1, a longer one a 0. A low phase of exactly `THRESH` is neither. -/
def monitorBit (thresh low : Nat) : Option WireTok :=
  if low < thresh then some .s1 else if thresh < low then some .s0 else none

/-- The string a monitor with the threshold `thresh` sees in the low phases of one frame: the separator, the ninth low
phase, tells whether the phases after it are symbols or the low pulses of read slots (R92, R95). -/
def monitorWire (thresh : Nat) (lows : List Nat) : Option (List WireTok) :=
  let header := (lows.take 9).mapM (monitorBit thresh)
  let body := lows.drop 9
  match header with
  | none => none
  | some h =>
    if h.getLast? = some .s0 then
      if body.all (· < thresh) then some (h ++ body.map fun _ => .rs) else none
    else (body.mapM (monitorBit thresh)).map (h ++ ·)

/-! ### Words as the opcode table numbers their bits -/

/-- The request whose bits are `w`: the opcode in bits 7..0, then `A` (39..8), `B` (71..40), `C` (103..72), `present`
(106..104) and `final` (107); the byte string is empty. -/
def requestOfWord (w : Nat) : Request where
  op := BitVec.ofNat 8 w
  a := BitVec.ofNat 32 (w >>> 8)
  b := BitVec.ofNat 32 (w >>> 40)
  c := BitVec.ofNat 32 (w >>> 72)
  present := BitVec.ofNat 3 (w >>> 104)
  last := w.testBit 107
  data := []

/-- Is a word of `nbits` bits a wire frame? A frame's row of the opcode table is 41 bits (48 in whole bytes). -/
def isWireWidth (nbits : Nat) : Bool := nbits == 41 || nbits == 48

/-- The wire string whose k-th symbol in send order is bit k of `w` (the table's numbering: "bit 8 (separator)"). After a
separator 0 the 32 positions are read slots, whose bits the target supplies (R94). -/
def wireOfWord (w : Nat) : List WireTok :=
  let sym := fun k => bitSymbol (w.testBit k)
  (List.range 9).map sym ++
    (if w.testBit 8 then (List.range 32).map fun k => sym (k + 9) else List.replicate 32 .rs)

/-- The instruction the decoder reads from a word of `nbits` bits, numbered as `spec/opcode_table.json` numbers them. -/
def decodeTableWord (nbits w : Nat) : Option Instr :=
  if isWireWidth nbits then (decodeWire (wireOfWord w)).toOption
  else (decodeRequest (requestOfWord w)).toOption

end Sys2Proof
end

