-- ==== Sys2Proof/Machine/State.lean ====
section
/-!
DEFINITION. The state of the link block (`spec/10_state.md`), as plain data, and its value after reset (R55, R320).

Four kinds of field: the registers of the block (R20 to R45); the parameters of R9, which no step changes; the agents
around the block (R8: target, clock, terminal, host), each held as the list of what it does next, so that a statement
about every state is a statement about every behaviour of theirs; and two records of what the block did (line and frames),
which nothing reads.
-/
namespace Sys2Proof.Machine

open Sys2Proof.Config (Params SlotDraw)

/-! ### Enumerated registers -/

/-- `sessionTag` (R23): which micro-program is resident in the target's program buffer. -/
inductive SessionTag where
  | none
  | readSequence
  | writeSequence
  | terminal
  | started
  | invalidated
deriving DecidableEq, Repr, Inhabited

/-- `pinDrive` (R29): the block's output on the SWIO line. -/
inductive PinDrive where
  | released
  | driveLow
  | driveHigh
deriving DecidableEq, Repr, Inhabited

/-- The issuers of frames (R8, R32). -/
inductive Issuer where
  | control
  | terminal
deriving DecidableEq, Repr, Inhabited

/-- `portOwner` (R32): the agent that is inside a frame. -/
inductive PortOwner where
  | free
  | held (who : Issuer)
deriving DecidableEq, Repr, Inhabited

/-- `status` (R34): the state of the flasher session. -/
inductive Status where
  | idle
  | uploading
  | updating
  | success
  | failed
deriving DecidableEq, Repr, Inhabited

/-- The error kinds of R281. -/
inductive ErrKind where
  | bitTimeout
  | busFault
  | abstractCommandError
  | flashBusyTimeout
  | flashWriteProtected
  | flashUnlockFailed
  | verifyMismatch
  | uploadSizeMismatch
  | parameterMissing
  | outOfRange
  | sessionBusy
  | timeout
  | initFailure
  | unimplemented
  | unknownCommand
  | misaligned
deriving DecidableEq, Repr, Inhabited

/-- The modes of the halt/reset controller (R250). -/
inductive HaltMode where
  | haltReset
  | reboot
  | resume
  | rebootBoot
  | haltNoReset
deriving DecidableEq, Repr, Inhabited

/-! ### The upload buffer -/

/-- The upload buffer (R40, R60): (index, byte) pairs in one canonical form, indices strictly rising. An index that is not
listed holds no value (R40, U10), so no listed byte can equal what an unlisted index reads as. -/
abbrev Memory := List Host.Cell

/-! ### What the block did -/

/-- What the block did on its outputs and its line, oldest first (the model's own record; nothing reads it). -/
inductive LineEvent where
  /-- the frame port is taken, with the timing coefficient latched for what follows, and `irqMasked` is set (R140) -/
  | take (who : Issuer) (coeff : Nat)
  /-- the output is `pin` for `ticks` (R121 to R123) -/
  | drive (pin : PinDrive) (ticks : Nat)
  /-- the output is held as it is for `ticks` (R120, `Wait`) -/
  | hold (ticks : Nat)
  /-- the sample of a read slot (R123) -/
  | sample (level : Bool)
  /-- the polls of a read slot: how many waits of `POLL_TIME` they took, and whether a poll saw the line high (R123) -/
  | polls (waits : Nat) (high : Bool)
  /-- `irqMasked` is cleared (R140) -/
  | unmask
  /-- the gap after a frame (R145) -/
  | gap (ticks : Nat)
  /-- the frame port is free again (R140) -/
  | release (who : Issuer)
  /-- the power-gate output is set (R259) -/
  | power (on : Bool)
deriving DecidableEq, Repr

/-- A frame's direction and content. A read's result is the value, or none for a bus fault (R143). -/
inductive FrameKind where
  | write (cmd : Cmd) (value : Word)
  | read (cmd : Cmd) (result : Option Word)
deriving DecidableEq, Repr

/-- One frame the block put on the line (the model's own record, oldest first; nothing reads it). -/
structure FrameEvent where
  who : Issuer
  kind : FrameKind
deriving DecidableEq, Repr

/-! ### What the agents around the block do next -/

/-- One action of the terminal agent (R297). -/
inductive TermAct where
  /-- it asks to connect; refused while `active` = 1 (R297 (b)) -/
  | connect
  /-- its transport disconnects (R297 (e)) -/
  | disconnect
  /-- it presents a string at the frame port; done only while `terminalConnected` = 1 (R297 (d)) -/
  | issue (w : List WireTok)
deriving DecidableEq, Repr

/-- One action of the host agent (R43, R44). -/
inductive HostAct where
  /-- it writes a request, which it may do only when `reqValid` = 0; else it waits (R43) -/
  | submit (r : Request)
  /-- it has read the response and clears `rspValid` (R44) -/
  | ack
  /-- it does nothing during one iteration of the control loop -/
  | pass
deriving DecidableEq, Repr

/-! ### The state -/

structure State where
  /-- the parameters of R9, fixed for a run (the model's own field) -/
  cfg : Params
  -- link state, R20
  /-- R21 -/
  pinMask : Word
  /-- R22 -/
  timingCoefficient : Word
  /-- R23 -/
  sessionTag : SessionTag
  /-- R24 -/
  cachedAddress : Word
  /-- R25 -/
  autoIncrementActive : Bool
  /-- R26 -/
  lastWriteWasFlash : Bool
  /-- R27 -/
  flashUnlocked : Bool
  -- line and port state
  /-- R29 -/
  pinDrive : PinDrive
  /-- R31: true = target powered -/
  powerGate : Bool
  /-- R32 -/
  portOwner : PortOwner
  /-- R33 -/
  irqMasked : Bool
  -- flasher session
  /-- R34 -/
  status : Status
  /-- R35 -/
  error : Word
  /-- R36 -/
  offset : Word
  /-- R36 -/
  size : Word
  /-- R37 -/
  retryBudget : Word
  /-- R37 -/
  currentRetry : Word
  /-- R38, in the clock's unit -/
  watchdogDeadline : Nat
  /-- R39 -/
  received : Word
  /-- R40 -/
  uploadBuffer : Memory
  /-- R41 -/
  active : Bool
  /-- R42 -/
  terminalConnected : Bool
  -- command port: the request, R43
  reqValid : Bool
  reqOp : Byte
  reqA : Word
  reqB : Word
  reqC : Word
  reqPresent : BitVec 3
  reqFinal : Bool
  reqData : List Byte
  -- command port: the response, R44
  rspValid : Bool
  rspCode : Word
  rspValue : Word
  rspData : List Byte
  /-- R45: the opcode of the operation in progress, `none` between operations -/
  ctl : Option Byte
  -- the clock agent (R8, R246)
  /-- the clock's reading at the last time it was read -/
  now : Nat
  /-- by how much the clock has advanced at each of its next readings -/
  clockIn : List Nat
  /-- the advance at every reading after those; none: unknown -/
  clockRest : Option Nat
  /-- how many unknown advances were read -/
  clockCount : Nat
  -- the target agent (R8, R124)
  /-- its answers to the next read slots -/
  slotIn : List SlotDraw
  /-- its answer to every slot after those (a floating or stuck line, U12); none: unknown -/
  slotRest : Option SlotDraw
  /-- how many unknown answers were drawn -/
  slotCount : Nat
  /-- the terminal agent's turns (R75): what it does each time the frame port is free for it -/
  termIn : List (List TermAct)
  /-- the host agent's next actions -/
  hostIn : List HostAct
  /-- how many unnamed response fields were given a free value (U11, U15) -/
  freeCount : Nat
  /-- what happened on the line -/
  lineLog : List LineEvent
  /-- the frames that were sent -/
  frameLog : List FrameEvent
deriving DecidableEq, Repr

/-- Why a step stops the machine. Both are reads or writes that no run of the block's rules reaches (U10); the spec's
treatment is "a model must stop with a fault". -/
inductive Fault where
  /-- Raised by the update run when it reads the byte of the upload buffer at `index` and no `UPLOAD_DATA` has written it
  since the last `UPLOAD_BEGIN` (R40, R56, U10). Safe: the model stops where the spec gives no value. -/
  | uploadByteUnwritten (index : Nat)
  /-- Raised by `UPLOAD_DATA` when it would store at `index`, past the `MAX_BINARY` bytes of the upload buffer (R40, R60:
  the address does not exist). Safe: the model stops where the spec has no such byte. -/
  | uploadIndexOutOfBuffer (index : Nat)
deriving DecidableEq, Repr

/-- Why a step refuses an instruction. -/
inductive Refusal where
  /-- Raised by an arm of `exec` whose instruction has no meaning yet. Safe: the model says nothing of it. No arm does. -/
  | notModelled (mnemonic : String)
deriving DecidableEq, Repr

/-- The outcome of a step. -/
abbrev Out := Host.Outcome State Fault Refusal

/-- The result of an operation of the block (R280): `Ok` with a value, or `Err(E)`; both with the state they leave (R282:
an error records only its kind, and the state it leaves is the state at the raise). -/
inductive Res (α : Type) where
  | ok (a : α) (s : State)
  | err (e : ErrKind) (s : State)
deriving DecidableEq, Repr

/-- The machine right after block reset with the parameters `p` (R55, R320). `cachedAddress`, `watchdogDeadline`, the
request fields but `reqValid` and the response fields but `rspValid`, which R55 leaves unspecified, are 0 or empty
(DESIGN CHOICE, log 1). The agents have done nothing, and nothing is known of what the target and the clock will do. -/
def State.resetWith (p : Params) : State where
  cfg := p
  pinMask := 0
  timingCoefficient := p.resetCoeff
  sessionTag := .none
  cachedAddress := 0
  autoIncrementActive := false
  lastWriteWasFlash := false
  flashUnlocked := false
  pinDrive := .released
  powerGate := true
  portOwner := .free
  irqMasked := false
  status := .idle
  error := 0
  offset := 0
  size := 0
  retryBudget := 0
  currentRetry := 0
  watchdogDeadline := 0
  received := 0
  uploadBuffer := []
  active := false
  terminalConnected := false
  reqValid := false
  reqOp := 0
  reqA := 0
  reqB := 0
  reqC := 0
  reqPresent := 0
  reqFinal := false
  reqData := []
  rspValid := false
  rspCode := 0
  rspValue := 0
  rspData := []
  ctl := none
  now := 0
  clockIn := []
  clockRest := none
  clockCount := 0
  slotIn := []
  slotRest := none
  slotCount := 0
  termIn := []
  hostIn := []
  freeCount := 0
  lineLog := []
  frameLog := []

/-- The machine right after block reset (R55, R320), with the parameters of R9 left open. -/
def State.reset : State := State.resetWith Config.params

end Sys2Proof.Machine
end

