-- ==== Sys2Proof/Machine/Flags.lean ====
section
/-!
DEFINITION. The block's status flags (R46: it has no condition codes): the numeric codes of the enumerated registers and of
the error kinds, the results of operations and how errors propagate (R280), and the response of a request (R44, R265).
-/
namespace Sys2Proof.Machine

/-! ### Codes -/

/-- The result codes of R281, as `i32` two's complement values. Success is 0. -/
def ErrKind.code : ErrKind → Word
  | .bitTimeout => BitVec.ofInt 32 (-1)
  | .busFault => BitVec.ofInt 32 (-2)
  | .abstractCommandError => BitVec.ofInt 32 (-3)
  | .flashBusyTimeout => BitVec.ofInt 32 (-4)
  | .flashWriteProtected => BitVec.ofInt 32 (-5)
  | .flashUnlockFailed => BitVec.ofInt 32 (-6)
  | .verifyMismatch => BitVec.ofInt 32 (-7)
  | .uploadSizeMismatch => BitVec.ofInt 32 (-8)
  | .parameterMissing => BitVec.ofInt 32 (-9)
  | .outOfRange => BitVec.ofInt 32 (-10)
  | .sessionBusy => BitVec.ofInt 32 (-11)
  | .timeout => BitVec.ofInt 32 (-12)
  | .initFailure => BitVec.ofInt 32 (-13)
  | .unimplemented => BitVec.ofInt 32 (-14)
  | .unknownCommand => BitVec.ofInt 32 (-15)
  | .misaligned => BitVec.ofInt 32 (-16)

/-- The codes of `sessionTag` (R23). -/
def SessionTag.code : SessionTag → BitVec 3
  | .none => 0
  | .readSequence => 1
  | .writeSequence => 2
  | .terminal => 3
  | .started => 4
  | .invalidated => 5

/-- The codes of `pinDrive` (R29). -/
def PinDrive.code : PinDrive → BitVec 2
  | .released => 0
  | .driveLow => 1
  | .driveHigh => 2

/-- The codes of `portOwner` (R32). -/
def PortOwner.code : PortOwner → BitVec 2
  | .free => 0
  | .held .control => 1
  | .held .terminal => 2

/-- The codes of `status` (R34), as `STATUS` and `UPLOAD_DATA` report them (R247, R241). -/
def Status.code : Status → Word
  | .idle => 0
  | .uploading => 1
  | .updating => 2
  | .success => 3
  | .failed => 4

/-- The message of a `#<code>;<message>` reply is the error kind's name (R44, R281, D54). -/
def ErrKind.message : ErrKind → String
  | .bitTimeout => "BitTimeout"
  | .busFault => "BusFault"
  | .abstractCommandError => "AbstractCommandError"
  | .flashBusyTimeout => "FlashBusyTimeout"
  | .flashWriteProtected => "FlashWriteProtected"
  | .flashUnlockFailed => "FlashUnlockFailed"
  | .verifyMismatch => "VerifyMismatch"
  | .uploadSizeMismatch => "UploadSizeMismatch"
  | .parameterMissing => "ParameterMissing"
  | .outOfRange => "OutOfRange"
  | .sessionBusy => "SessionBusy"
  | .timeout => "Timeout"
  | .initFailure => "InitFailure"
  | .unimplemented => "Unimplemented"
  | .unknownCommand => "UnknownCommand"
  | .misaligned => "Misaligned"

/-- Is an upload or an update in flight (R238)? -/
def inFlight (s : State) : Bool := s.status == .uploading || s.status == .updating

/-! ### Results -/

/-- The state a result leaves. -/
def Res.state {α : Type} : Res α → State
  | .ok _ s => s
  | .err _ s => s

/-- The next operation runs if this one ended with `Ok`; an error ends the caller too and is passed up unchanged (R280). -/
def Res.bind {α β : Type} (r : Res α) (f : α → State → Res β) : Res β :=
  match r with
  | .ok a s => f a s
  | .err e s => .err e s

/-- What a rule does to the state when an operation of its ends with an error, before the error propagates (R169). -/
def Res.onErr {α : Type} (r : Res α) (f : State → State) : Res α :=
  match r with
  | .ok a s => .ok a s
  | .err e s => .err e (f s)

/-- An error that a rule converts into another on its way up (R283). -/
def Res.convert {α : Type} (r : Res α) (f : ErrKind → ErrKind) : Res α :=
  match r with
  | .ok a s => .ok a s
  | .err e s => .err (f e) s

/-- What a rule does to the state when an operation of its ends, with `Ok` or with an error. -/
def Res.after {α : Type} (r : Res α) (f : State → State) : Res α :=
  match r with
  | .ok a s => .ok a (f s)
  | .err e s => .err e (f s)

/-- One operation for each element of a list, in order; the first error ends it (R11, R250). -/
def runEach {β : Type} (f : β → State → Res Unit) : List β → State → Res Unit
  | [], s => .ok () s
  | b :: bs, s => (f b s).bind fun _ s => runEach f bs s

/-- The same, with the values of the operations collected in order. -/
def collectEach {α β : Type} (f : β → State → Res α) : List β → State → Res (List α)
  | [], s => .ok [] s
  | b :: bs, s => (f b s).bind fun a s => (collectEach f bs s).bind fun as s => .ok (a :: as) s

/-! ### The response -/

/-- A request begins: `ctl` holds its opcode (R45). -/
def begin (op : Byte) (s : State) : State := { s with ctl := some op }

/-- The end of a request (R265): the response is written, the request is consumed, and no operation is in progress. A
field of the response that the rule does not name takes a free value (U11, U15; log 8). -/
def respond (code : Word) (value : Option Word) (data : Option (List Byte)) (s : State) : State :=
  { s with
    rspValid := true
    rspCode := code
    rspValue := value.getD (Config.freeRspValue s.freeCount)
    rspData := data.getD (Config.freeRspData s.freeCount)
    freeCount := s.freeCount + 1
    reqValid := false
    ctl := none }

/-- A request that ends with an error, and names no other response field. -/
def respondErr (e : ErrKind) (s : State) : State := respond e.code none none s

/-- The response of an operation without a value (R107). -/
def finish : Res Unit → State
  | .ok _ s => respond 0 none none s
  | .err e s => respondErr e s

/-- The response of an operation with a value (R107). -/
def finishValue : Res Word → State
  | .ok v s => respond 0 (some v) none s
  | .err e s => respondErr e s

/-- The response of an operation with a byte string; an error returns no data (R199, R258). -/
def finishData : Res (List Byte) → State
  | .ok d s => respond 0 none (some d) s
  | .err e s => respond e.code none (some []) s

/-- R103: an opcode that is not in the map, or is internal with `TEST_PORT` = false, "changes no state but
`rspValid`/`rspCode`"; the request is consumed (R265). -/
def refuseUnknown (s : State) : State :=
  { s with rspValid := true, rspCode := ErrKind.unknownCommand.code, reqValid := false }

end Sys2Proof.Machine
end

