-- ==== Sys2Proof/Machine/Operands.lean ====
section
/-!
DEFINITION. The operand forms: ranges and their classification (R62, R63), alignment (R68, R69), 64-byte chunks (R193), the
plan of word and byte accesses of a blob (R197, R199), little-endian packing (R66), and the legal values of the
configuration registers (R21, R22). Range ends are unbounded integers, so that a wrapping range is seen (R14).
-/
namespace Sys2Proof.Machine

open Sys2Proof.Config (Params)

/-! ### Addresses and ranges -/

/-- `isFlash(a) := FLASH_BASE <= a < FLASH_BASE + FLASH_SIZE` (R62), for an unbounded address. -/
def isFlashAt (p : Params) (a : Nat) : Bool :=
  decide (Config.flashBase ≤ a) && decide (a < Config.flashBase + p.flashSize)

/-- `isFlash(a)` of a target address (R62). -/
def isFlash (p : Params) (a : Word) : Bool := isFlashAt p a.toNat

/-- The kinds of a request range (R63). -/
inductive RangeKind where
  | flash
  | nonFlash
  | mixed
deriving DecidableEq, Repr

/-- R63: the range `[a, a + n)`, `n >= 1`, is flash when both its ends are, non-flash when neither end is and no flash
address lies between them, and mixed otherwise. -/
def classify (p : Params) (a n : Nat) : RangeKind :=
  let last := a + n - 1
  if isFlashAt p a && isFlashAt p last then .flash
  else if !isFlashAt p a && !isFlashAt p last
      && !(decide (a < Config.flashBase) && decide (Config.flashBase ≤ last) && decide (0 < p.flashSize)) then .nonFlash
  else .mixed

/-- Does the range `[a, a + n)` pass 2^32 (R10, R14)? -/
def wraps (a n : Nat) : Bool := decide (2 ^ 32 < a + n)

/-- `a mod 4 = 0` (R68). -/
def aligned4 (a : Word) : Bool := a.toNat % 4 == 0

/-- `a mod 64 = 0` (R69). -/
def aligned64 (a : Word) : Bool := a.toNat % 64 == 0

/-- The bases of the 64-byte chunks that `[a, a + n)` touches, in order: from `a & ~63` by 64 while below `a + n` (R193, R198).
There are `ceil(((a mod 64) + n) / 64)` of them (R193 corner case (c)). -/
def chunks (a n : Nat) : List Nat :=
  (List.range ((a % 64 + n + 63) / 64)).map fun k => a - a % 64 + 64 * k

/-! ### Words and bytes -/

/-- R66: `word(a) = b[a+3] ++ b[a+2] ++ b[a+1] ++ b[a]`. -/
def packWord (b0 b1 b2 b3 : Byte) : Word := b3 ++ b2 ++ b1 ++ b0

/-- R66: the bytes of a word, the one at the lowest address first. -/
def wordBytes (w : Word) : List Byte :=
  [w.extractLsb' 0 8, w.extractLsb' 8 8, w.extractLsb' 16 8, w.extractLsb' 24 8]

/-- The words of a byte string of whole words, in address order (R66). -/
def packWords : List Byte → List Word
  | b0 :: b1 :: b2 :: b3 :: rest => packWord b0 b1 b2 b3 :: packWords rest
  | _ => []

/-- "padding any partial tail with 0xFF" (R194). -/
def padBlock (data : List Byte) : List Byte := data ++ List.replicate (64 - data.length) 0xFF

/-- One access of a blob write to RAM (R197). -/
inductive RamWrite where
  | word (a v : Word)
  | byte (a : Word) (b : Byte)
deriving DecidableEq, Repr

/-- The accesses of `BlobWriteRam` from address `p` (R197): a word where `p` is 4-aligned and at least 4 bytes remain, else
a byte. The first argument bounds the number of accesses; the length of the data is enough. -/
def ramWrites : Nat → Nat → List Byte → List RamWrite
  | 0, _, _ => []
  | _ + 1, _, [] => []
  | fuel + 1, p, b0 :: rest =>
    if p % 4 = 0 then
      match rest with
      | b1 :: b2 :: b3 :: rest' =>
        .word (BitVec.ofNat 32 p) (packWord b0 b1 b2 b3) :: ramWrites fuel (p + 4) rest'
      | _ => .byte (BitVec.ofNat 32 p) b0 :: ramWrites fuel (p + 1) rest
    else .byte (BitVec.ofNat 32 p) b0 :: ramWrites fuel (p + 1) rest

/-- One access of a blob read (R199). -/
inductive BlobAccess where
  | word (a : Word)
  | byte (a : Word)
deriving DecidableEq, Repr

/-- The accesses of `BLOB_READ` for `n` bytes from address `p` (R199): a word where "remaining range and alignment allow a
4-byte read", else a byte. The first argument bounds the number of accesses; `n` is enough. -/
def blobReads : Nat → Nat → Nat → List BlobAccess
  | 0, _, _ => []
  | fuel + 1, p, n =>
    if n = 0 then []
    else if p % 4 = 0 ∧ 4 ≤ n then .word (BitVec.ofNat 32 p) :: blobReads fuel (p + 4) (n - 4)
    else .byte (BitVec.ofNat 32 p) :: blobReads fuel (p + 1) (n - 1)

/-- The new content of the block at `base` (R198): the bytes of the range `[addr, addr + data.length)` come from `data`,
the others keep the value read back. -/
def splice (addr base : Nat) (data old : List Byte) : List Byte :=
  old.mapIdx fun i o =>
    if addr ≤ base + i ∧ base + i < addr + data.length then data.getD (base + i - addr) o else o

/-- The 64 bytes of an aligned range that fall into the block at `base` (R198). -/
def blockSlice (addr base : Nat) (data : List Byte) : List Byte := (data.drop (base - addr)).take 64

/-! ### Configuration operands -/

/-- A legal pin mask is 0 or has exactly one bit set, and fits `GPIO_WIDTH` (R21, R262). -/
def legalPin (m : Word) : Bool := m &&& (m - 1) == 0 && decide (m.toNat < 2 ^ Config.gpioWidth)

/-- A legal timing coefficient is 2 ..= `COEFF_MAX` (R22, R263). -/
def legalCoeff (p : Params) (c : Word) : Bool := decide (2 ≤ c.toNat) && decide (c.toNat ≤ p.coeffMax.toNat)

/-- The step list of a mode (R250). -/
def modeSteps (p : Params) : HaltMode → List Config.SeqStep
  | .haltReset => p.seqHaltReset
  | .reboot => p.seqReboot
  | .resume => p.seqResume
  | .rebootBoot => p.seqRebootBoot
  | .haltNoReset => p.seqHaltNoReset

/-- `PROG_READ(ai)` (R9). -/
def progRead (p : Params) (ai : Bool) : List Word := if ai then p.progReadInc else p.progReadPlain

/-- `PROG_WRITE(fl)` (R9). -/
def progWrite (p : Params) (fl : Bool) : List Word := if fl then p.progWriteFlash else p.progWriteRam

end Sys2Proof.Machine
end

