-- ==== Sys2Proof/Machine/Ops.lean ====
section
/-!
DEFINITION. The named operations every meaning is built from: the upload buffer, the wall clock and the watchdog, the frame
port, the bit PHY (R120 to R129), the frame encoder and decoder (R140 to R145), and the terminal agent's turns (R75, R297).

Taking an exception and returning from one: there is neither. "An error saves no state, changes no mode, and transfers
control nowhere but to the end of the operation" (R289): `Res.bind` of `Flags.lean` is that rule.
-/
namespace Sys2Proof.Machine

open Sys2Proof.Config (Params SlotDraw)

/-! ### The upload buffer (R40, R60) -/

/-- The canonical form: indices strictly rising. -/
abbrev Memory.wf (m : Memory) : Prop := m.Pairwise fun c d => c.1 < d.1

/-- The byte at an index; none if it holds no value (R40, U10). -/
def Memory.read : Memory → Nat → Option Byte
  | [], _ => none
  | (j, b) :: rest, i => if j = i then some b else Memory.read rest i

/-- The buffer with one byte written. -/
def Memory.write : Memory → Nat → Byte → Memory
  | [], i, b => [(i, b)]
  | (j, c) :: rest, i, b =>
    if i < j then (i, b) :: (j, c) :: rest
    else if i = j then (i, b) :: rest
    else (j, c) :: Memory.write rest i b

/-- The buffer with a byte string written from an index on (R241). -/
def Memory.writeBytes : Memory → Nat → List Byte → Memory
  | m, _, [] => m
  | m, i, b :: bs => Memory.writeBytes (Memory.write m i b) (i + 1) bs

/-- The `n` bytes from an index on, or the first index of them that holds no value. -/
def Memory.readBytes (m : Memory) : Nat → Nat → Except Nat (List Byte)
  | _, 0 => .ok []
  | i, n + 1 =>
    match Memory.read m i, Memory.readBytes m (i + 1) n with
    | none, _ => .error i
    | some _, .error j => .error j
    | some b, .ok bs => .ok (b :: bs)

/-! ### The clock and the watchdog (R245, R246) -/

/-- A reading of the wall clock (R246): `now` never decreases. -/
def readClock (s : State) : State :=
  match s.clockIn with
  | d :: ds => { s with now := s.now + d, clockIn := ds }
  | [] =>
    match s.clockRest with
    | some d => { s with now := s.now + d }
    | none => { s with now := s.now + Config.freeClock s.clockCount, clockCount := s.clockCount + 1 }

/-- R245: `S.watchdogDeadline <- now + WATCHDOG_TIMEOUT`. -/
def refresh (s : State) : State :=
  let s := readClock s
  { s with watchdogDeadline := s.now + s.cfg.watchdogTimeout }

/-- R246: what an expiry does. -/
def expire (s : State) : State :=
  if inFlight s then { s with error := ErrKind.timeout.code, status := .idle, active := false }
  else { s with status := .idle }

/-- The watchdog check (R246): expiry is `S.status != Idle and now > S.watchdogDeadline`. It answers whether the session
expired. The clock is read only when `status` is not `Idle` (R38). -/
def watchdogCheck (s : State) : Bool × State :=
  if s.status = .idle then (false, s)
  else
    let s := readClock s
    if s.watchdogDeadline < s.now then (true, expire s) else (false, s)

/-- `WatchdogStep` (R246): the check followed, when it does not expire, by `Refresh`. -/
def watchdogStep (s : State) : Bool × State :=
  match watchdogCheck s with
  | (true, s) => (true, s)
  | (false, s) => (false, refresh s)

/-! ### The line (R29, R30) -/

/-- `HighOut()` (R121): how the high phase is made. -/
def highOut (p : Params) : PinDrive :=
  match p.highDrive with
  | .driveHigh => .driveHigh
  | .release => .released

/-- `Sample()` (R11, R30): the line is low if the block drives low, and otherwise at the level the target leaves it, drawn
in {0, 1}; so is the level of a contention with `DriveHigh` (U3). -/
def sampleLevel (pin : PinDrive) (drawn : Bool) : Bool :=
  match pin with
  | .driveLow => false
  | .released => drawn
  | .driveHigh => drawn

/-- The target's answer to the next read slot (R124): from its script, else unknown. -/
def nextDraw (s : State) : SlotDraw × State :=
  match s.slotIn with
  | d :: ds => (d, { s with slotIn := ds })
  | [] =>
    match s.slotRest with
    | some d => (d, s)
    | none => (Config.freeSlot s.slotCount, { s with slotCount := s.slotCount + 1 })

/-- Something happened on the line. -/
def logLine (es : List LineEvent) (s : State) : State := { s with lineLog := s.lineLog ++ es }

/-- A frame was sent. -/
def logFrame (who : Issuer) (k : FrameKind) (s : State) : State := { s with frameLog := s.frameLog ++ [⟨who, k⟩] }

/-- `Wait(d)` (R11): the output is held. -/
def wait (ticks : Nat) (s : State) : State := logLine [.hold ticks] s

/-- The waveform of a bit (R90, R121, R122): low for `1*c` units (1) or `4*c` units (0), then high for `1*c` units. -/
def symbolEvents (p : Params) (c : Nat) (b : Bool) : List LineEvent :=
  [.drive .driveLow ((if b then 1 else 4) * c * p.tau), .drive (highOut p) (1 * c * p.tau)]

/-- Bits sent one after the other, with no gap between their symbols (R127). After the last one the output stays as its
high phase made it. -/
def sendBits (c : Nat) (bits : List Bool) (s : State) : State :=
  { s with
    pinDrive := if bits.isEmpty then s.pinDrive else highOut s.cfg
    lineLog := s.lineLog ++ bits.flatMap (symbolEvents s.cfg c) }

/-- The index of the first poll of a slot that sees the line high, if one of the `READ_POLL_LIMIT` polls does (R123, R124). -/
def seenHigh (p : Params) (d : SlotDraw) : Option Nat :=
  match d.highAt with
  | some h => if h < p.readPollLimit then some h else none
  | none => none

/-- A read slot (R123, R124): its bit, or none for `TIMEOUT`. The output is low for `READ_LOW`, released for `2*c` units,
sampled, and polled until the line is high; after a timeout it stays `Released`, else the high output is made. -/
def readBit (c : Nat) (s : State) : Option Bool × State :=
  let (d, s) := nextDraw s
  let s := logLine [.drive .driveLow s.cfg.readLow, .drive .released (2 * c * s.cfg.tau)] { s with pinDrive := .released }
  let level := sampleLevel s.pinDrive d.level
  match seenHigh s.cfg d with
  | some h => (some level, { logLine [.sample level, .polls h true] s with pinDrive := highOut s.cfg })
  | none => (none, logLine [.sample level, .polls s.cfg.readPollLimit false] s)

/-- The next `n` read slots of a read frame; `v` holds the bits received so far (R143). The first timeout ends them (R144). -/
def readSlots (c : Nat) : Nat → Word → State → Option Word × State
  | 0, v, s => (some v, s)
  | n + 1, v, s =>
    match readBit c s with
    | (none, s) => (none, s)
    | (some b, s) => readSlots c n ((v <<< 1) ||| (if b then 1 else 0)) s

/-! ### The frame port (R125, R140) -/

/-- "wait until S.portOwner = Free" (R140): the hold is lifted by the other issuer's frame ending. -/
def awaitPort (s : State) : State :=
  match s.portOwner with
  | .free => { s with irqMasked := false }
  | .held who => { s with portOwner := .free, irqMasked := false, lineLog := s.lineLog ++ [.release who] }

/-- The port is taken, the coefficient latched and `irqMasked` set (R140, R125). -/
def takePort (who : Issuer) (s : State) : State :=
  let s := awaitPort s
  { s with
    portOwner := .held who
    irqMasked := true
    lineLog := s.lineLog ++ [.take who s.timingCoefficient.toNat] }

/-- `irqMasked` is cleared and, after the gap a frame is followed by (R145), the port freed (R140). -/
def freePort (who : Issuer) (gap : List LineEvent) (s : State) : State :=
  { s with
    irqMasked := false
    portOwner := .free
    lineLog := s.lineLog ++ (.unmask :: gap ++ [.release who]) }

/-- A PHY operation run alone (R125): it takes the port, runs masked, and frees the port without a gap. With no pin
configured it ends with `InitFailure` before any output change (R126). -/
def phyAlone {α : Type} (who : Issuer) (f : Nat → State → α × State) (s : State) : Res α :=
  if s.pinMask = 0 then .err .initFailure s
  else
    match f s.timingCoefficient.toNat (takePort who s) with
    | (a, s) => .ok a (freePort who [] s)

/-! ### Frames (R140 to R145) -/

/-- A write frame of either issuer (R140, R141): it "always returns `Ok` once its symbols are sent" (R142). -/
def frameWrite (who : Issuer) (cmd : Cmd) (value : Word) (s : State) : Res Unit :=
  if s.pinMask = 0 then .err .initFailure s
  else
    let s := sendBits s.timingCoefficient.toNat (writeFrameBits cmd value) (takePort who s)
    .ok () (logFrame who (.write cmd value) (freePort who [.gap s.cfg.frameGap] s))

/-- A read frame of either issuer (R140, R143, R144): the value, or `BusFault` at the first timeout; either way the gap. -/
def frameRead (who : Issuer) (cmd : Cmd) (s : State) : Res Word :=
  if s.pinMask = 0 then .err .initFailure s
  else
    let c := s.timingCoefficient.toNat
    match readSlots c 32 0 (sendBits c (headerBits cmd false) (takePort who s)) with
    | (r, s) =>
      let s := logFrame who (.read cmd r) (freePort who [.gap s.cfg.frameGap] s)
      match r with
      | some v => .ok v s
      | none => .err .busFault s

/-! ### The terminal agent (R52, R150, R297) -/

/-- The terminal's write frame: `sessionTag` becomes `Terminal` before it (R52, R297 (d)). -/
def termWrite (cmd : Cmd) (value : Word) (s : State) : State :=
  (frameWrite .terminal cmd value { s with sessionTag := .terminal }).state

/-- The terminal's read frame; a bus fault is fatal to the terminal session only (R150, R297 (c)). -/
def termRead (cmd : Cmd) (s : State) : State :=
  match frameRead .terminal cmd s with
  | .ok _ s => s
  | .err .busFault s => { s with terminalConnected := false }
  | .err _ s => s

/-- A lone symbol presented at the frame port: the PHY operation of R121 or R122 run alone (R125; log 6). -/
def termSymbol (b : Bool) (s : State) : State :=
  (phyAlone .terminal (fun c s => ((), sendBits c [b] s)) s).state

/-- A lone read slot presented at the frame port: the PHY operation of R123 run alone (R125; log 6). -/
def termSlot (s : State) : State := (phyAlone .terminal readBit s).state

/-- What a wire format does when the terminal agent presents it at the frame port. -/
def wireEffect (i : Instr) (s : State) : State :=
  match i with
  | .sym1 => termSymbol true s
  | .sym0 => termSymbol false s
  | .readSlot => termSlot s
  | .writeFrame cmd value => termWrite cmd value s
  | .readFrame cmd => termRead cmd s
  | _ => s

/-- The terminal asks to connect (R297 (b)): the check of `active` and the set are one indivisible step (R78). -/
def termConnect (s : State) : State := if s.active then s else { s with terminalConnected := true }

/-- The terminal's transport disconnects (R297 (e)). -/
def termDisconnect (s : State) : State := { s with terminalConnected := false }

/-- One action of the terminal agent. It issues only while `terminalConnected` = 1 (R297 (d)); a string that is no frame
(R95) never reaches the line (log 6). -/
def termAct (a : TermAct) (s : State) : State :=
  match a with
  | .connect => termConnect s
  | .disconnect => termDisconnect s
  | .issue w =>
    if s.terminalConnected then
      match decodeWire w with
      | .ok i => wireEffect i s
      | .error _ => s
    else s

/-- The actions of one turn, in order. -/
def termActs : List TermAct → State → State
  | [], s => s
  | a :: as, s => termActs as (termAct a s)

/-- The terminal agent's turn at a frame boundary of the control agent (R75): the next turn of its script. -/
def termTurn (s : State) : State :=
  match s.termIn with
  | [] => s
  | t :: ts => termActs t { s with termIn := ts }

/-! ### The control agent's frames -/

/-- A use of the frame port by the control agent. The terminal agent may take the port before it (R75, U20), and so between any two
frames of an operation; after an operation's last frame, its next chance is the next step. What the block does between two frames, it
does before the terminal's frames there (DESIGN CHOICE, log 25). -/
def withTurns {α : Type} (f : State → Res α) (s : State) : Res α := f (termTurn s)

/-- `FW(cmd, value)` (R141). -/
def fw (cmd : Cmd) (value : Word) : State → Res Unit := withTurns (frameWrite .control cmd value)

/-- `FR(cmd)` (R143). -/
def fr (cmd : Cmd) : State → Res Word := withTurns (frameRead .control cmd)

/-- A PHY operation of the test port (R125). -/
def phyPort {α : Type} (f : Nat → State → α × State) : State → Res α := withTurns (phyAlone .control f)

end Sys2Proof.Machine
end

