-- ==== Sys2Proof/Machine/Sequencer.lean ====
section
/-!
DEFINITION. The sequencer and its program-buffer cache (R160 to R173): the operations through which the flash engine reaches
target memory, and their meanings on the test port.
-/
namespace Sys2Proof.Machine

/-! ### The cache (R161) -/

/-- `readProgHit(ai)` (R161). -/
def readProgHit (ai : Bool) (s : State) : Bool := s.sessionTag == .readSequence && s.autoIncrementActive == ai

/-- `writeProgHit(fl)` (R161). -/
def writeProgHit (fl : Bool) (s : State) : Bool := s.sessionTag == .writeSequence && s.lastWriteWasFlash == fl

/-- `addrHit(a)` (R161); read only when the matching program hit holds. -/
def addrHit (a : Word) (s : State) : Bool := s.cachedAddress == a

/-- `S.sessionTag <- Invalidated` (R169, R170). -/
def invalidate (s : State) : State := { s with sessionTag := .invalidated }

/-- The frames that write the words of a micro-program, in increasing register number (R162). -/
def writeProgram (prog : List Word) (s : State) : Res Unit :=
  runEach (fun (rw : Cmd × Word) => fw rw.1 rw.2) (s.cfg.dmProgbuf.toList.zip prog) s

/-- `Reprogram(prog, autoOn)` (R162). `autoOn` is none for the one-shot byte programs. -/
def reprogram (prog : List Word) (autoOn : Option Word) (s : State) : Res Unit :=
  (fw s.cfg.dmAbstractAuto Config.autoOff (invalidate s)).bind fun _ s =>
  (writeProgram prog s).bind fun _ s =>
  match autoOn with
  | some v => fw s.cfg.dmAbstractAuto v s
  | none => .ok () s

/-! ### Completion (R168) -/

/-- The poll of `SEQ_WAIT_ABSTRACT`, at most `n` more reads (R168). -/
def pollAbstract : Nat → State → Res Unit
  | 0, s => .err .abstractCommandError s
  | n + 1, s =>
    (fr s.cfg.dmAbstractCs s).bind fun v s =>
    if v &&& s.cfg.csBusy = 0 then
      if v &&& s.cfg.csErr ≠ 0 then
        (fw s.cfg.dmAbstractCs s.cfg.csErrClear s).bind fun _ s => .err .abstractCommandError s
      else .ok () s
    else pollAbstract n s

/-- `SEQ_WAIT_ABSTRACT` (R168), with R169's invalidation on an error. -/
def waitAbstract (s : State) : Res Unit := (pollAbstract s.cfg.absPollLimit s).onErr invalidate

/-- `FW(DM_COMMAND, CMD_EXEC)` and the completion poll: the execute step (R163, R165). -/
def execute (s : State) : Res Unit :=
  (fw s.cfg.dmCommand s.cfg.cmdExec s).bind fun _ s => waitAbstract s

/-! ### Word access (R163, R165) -/

/-- The program of a word read is made resident if it is not; answers whether the cached address is `a` (R163). The tag is assigned
right after `Reprogram`'s last frame, before the terminal's next frame, and whatever the terminal did during `Reprogram` (DESIGN CHOICE,
log 25). -/
def prepareRead (a : Word) (ai : Bool) (s : State) : Res Bool :=
  if readProgHit ai s then .ok (addrHit a s) s
  else
    (reprogram (progRead s.cfg ai) (some s.cfg.autoRead) s).bind fun _ s =>
    .ok false { s with sessionTag := .readSequence, autoIncrementActive := ai }

/-- The program of a word write is made resident if it is not; answers whether the cached address is `a` (R165). The tag is assigned
as in `prepareRead` (DESIGN CHOICE, log 25). -/
def prepareWrite (a : Word) (fl : Bool) (s : State) : Res Bool :=
  if writeProgHit fl s then .ok (addrHit a s) s
  else
    (reprogram (progWrite s.cfg fl) (some s.cfg.autoWrite) s).bind fun _ s =>
    .ok false { s with sessionTag := .writeSequence, lastWriteWasFlash := fl }

/-- "only updates one address register": the address frame, unless the cached address is known to match (R163, R165). -/
def sendAddress (known : Bool) (a : Word) (s : State) : Res Unit :=
  if known then .ok () s else fw s.cfg.dmData1 a s

/-- `MemReadWord(a, ai)` (R163). -/
def memReadWord (a : Word) (ai : Bool) (s : State) : Res Word :=
  if !aligned4 a then .err .misaligned s
  else
    ((prepareRead a ai s).bind fun known s =>
      (sendAddress known a s).bind fun _ s =>
      (execute s).bind fun _ s =>
      (fr s.cfg.dmData0 s).bind fun v s =>
      .ok v { s with cachedAddress := if ai then a + 4 else a }).onErr invalidate

/-- `MemWriteWord(a, v)` (R165). -/
def memWriteWord (a v : Word) (s : State) : Res Unit :=
  if !aligned4 a then .err .misaligned s
  else
    ((prepareWrite a (isFlash s.cfg a) s).bind fun known s =>
      (sendAddress known a s).bind fun _ s =>
      (fw s.cfg.dmData0 v s).bind fun _ s =>
      (execute s).bind fun _ s =>
      .ok () { s with cachedAddress := a + 4 }).onErr invalidate

/-! ### Byte access (R166, R167) -/

/-- `MemReadByte(a)` (R166): bits 7:0 of the data register. The tag is `Invalidated` "afterwards, whatever happens", also where the
terminal set it to `Terminal` in the course of it (R52; DESIGN CHOICE, log 27). -/
def memReadByte (a : Word) (s : State) : Res Byte :=
  ((reprogram s.cfg.progRByte none s).bind fun _ s =>
    (fw s.cfg.dmData1 a s).bind fun _ s =>
    (execute s).bind fun _ s =>
    (fr s.cfg.dmData0 s).bind fun v s =>
    .ok (v.extractLsb' 0 8) s).after invalidate

/-- `MemWriteByte(a, b)` (R167): the byte is sent zero-extended. The tag is `Invalidated` afterwards, as in `memReadByte` (DESIGN CHOICE,
log 27). -/
def memWriteByte (a : Word) (b : Byte) (s : State) : Res Unit :=
  ((reprogram s.cfg.progWByte none s).bind fun _ s =>
    (fw s.cfg.dmData1 a s).bind fun _ s =>
    (fw s.cfg.dmData0 (b.setWidth 32) s).bind fun _ s =>
    execute s).after invalidate

/-! ### The meanings -/

/-- The response of a byte read: the byte, zero-extended (R107, R166). -/
def finishByte : Res Byte → State
  | .ok b s => respond 0 (some (b.setWidth 32)) none s
  | .err e s => respondErr e s

/-- `SEQ_READ_WORD a, ai` (R163). -/
def execSeqReadWord (addr : Option Word) (ai : Option Bool) (s : State) : Out :=
  .next <| match addr, ai with
    | some a, some ai => finishValue (memReadWord a ai (begin 0x10 s))
    | _, _ => respondErr .parameterMissing s

/-- `SEQ_WRITE_WORD a, v` (R165). -/
def execSeqWriteWord (addr value : Option Word) (s : State) : Out :=
  .next <| match addr, value with
    | some a, some v => finish (memWriteWord a v (begin 0x11 s))
    | _, _ => respondErr .parameterMissing s

/-- `SEQ_READ_BYTE a` (R166). -/
def execSeqReadByte (addr : Option Word) (s : State) : Out :=
  .next <| match addr with
    | some a => finishByte (memReadByte a (begin 0x12 s))
    | none => respondErr .parameterMissing s

/-- `SEQ_WRITE_BYTE a, b` (R167). -/
def execSeqWriteByte (addr : Option Word) (byte : Option Byte) (s : State) : Out :=
  .next <| match addr, byte with
    | some a, some b => finish (memWriteByte a b (begin 0x13 s))
    | _, _ => respondErr .parameterMissing s

/-- `SEQ_WAIT_ABSTRACT` (R168). -/
def execSeqWaitAbstract (s : State) : Out := .next (finish (waitAbstract (begin 0x14 s)))

/-- `SEQ_INVALIDATE` (R170): no frame. -/
def execSeqInvalidate (s : State) : Out := .next (finish (.ok () (invalidate (begin 0x15 s))))

end Sys2Proof.Machine
end

