-- ==== Sys2Proof/Machine/Flash.lean ====
section
/-!
DEFINITION. The flash programming engine (R190 to R204): unlock, busy polls, page and chip erase, block program with verify
and retry, blob write and read, and their meanings on the test port. Every target access is a sequencer operation.
-/
namespace Sys2Proof.Machine

/-! ### Unlock (R190, R200) -/

/-- The six key writes of `FLASH_UNLOCK`, in order (R190). -/
def keyWrites (s : State) : List (Word × Word) :=
  [s.cfg.flashKeyr, s.cfg.flashObkeyr, s.cfg.flashModekeyr].flatMap fun reg => [(reg, s.cfg.key1), (reg, s.cfg.key2)]

/-- A list of target word writes, in order. -/
def memWrites : List (Word × Word) → State → Res Unit := runEach fun (av : Word × Word) => memWriteWord av.1 av.2

/-- `FLASH_UNLOCK` (R190). -/
def flashUnlock (s : State) : Res Unit :=
  (memWrites (keyWrites s) s).bind fun _ s =>
  (memReadWord s.cfg.lockReg false s).bind fun v s =>
  if v &&& s.cfg.lockMask ≠ 0 then .err .flashUnlockFailed s
  else .ok () { s with flashUnlocked := true }

/-- `EnsureUnlocked` (R200). -/
def ensureUnlocked (s : State) : Res Unit := if s.flashUnlocked then .ok () s else flashUnlock s

/-! ### Busy polls (R191, R192) -/

/-- `WaitBusy(limit, checkWP)` (R191). -/
def waitBusy (checkWP : Bool) : Nat → State → Res Unit
  | 0, s => .err .flashBusyTimeout s
  | n + 1, s =>
    (memReadWord s.cfg.flashStatr false s).bind fun v s =>
    if v &&& s.cfg.srBsy = 0 then
      if checkWP ∧ v &&& s.cfg.srWrprt ≠ 0 then .err .flashWriteProtected s else .ok () s
    else waitBusy checkWP n s

/-- `FLASH_WAIT_NOT_BUSY` (R192). -/
def flashWaitNotBusy (s : State) : Res Unit := waitBusy false s.cfg.busyPollLimit s

/-! ### Erase (R193, R195) -/

/-- One chunk of a page erase (R193). -/
def eraseChunk (chunk : Nat) (s : State) : Res Unit :=
  (waitBusy false s.cfg.busyPollLimit s).bind fun _ s =>
  (memWriteWord s.cfg.flashCtlr s.cfg.crPer s).bind fun _ s =>
  (memWriteWord s.cfg.flashAddr (BitVec.ofNat 32 chunk) s).bind fun _ s =>
  (memWriteWord s.cfg.flashCtlr (s.cfg.crStrt ||| s.cfg.crPer) s).bind fun _ s =>
  (waitBusy true s.cfg.busyPollLimit s).bind fun _ s =>
  memWriteWord s.cfg.flashCtlr 0 s

/-- `FLASH_ERASE_PAGES addr, len` (R193). -/
def flashErasePages (addr len : Nat) (s : State) : Res Unit :=
  if len = 0 then .ok () s
  else if wraps addr len || classify s.cfg addr len != .flash then .err .outOfRange s
  else (ensureUnlocked s).bind fun _ s => runEach eraseChunk (chunks addr len) s

/-- `FLASH_ERASE_CHIP` (R195): the control register is not cleared afterwards. -/
def flashEraseChip (s : State) : Res Unit :=
  (ensureUnlocked s).bind fun _ s =>
  (memWriteWord s.cfg.flashCtlr s.cfg.crMer s).bind fun _ s =>
  (memWriteWord s.cfg.flashCtlr (s.cfg.crMer ||| s.cfg.crStrt) s).bind fun _ s =>
  waitBusy true Config.massPollLimit s

/-! ### Block program (R194) -/

/-- The sixteen word writes of a block (R194). -/
def blockWrites (addr : Nat) (data : List Byte) : List (Word × Word) :=
  (packWords (padBlock data)).mapIdx fun j w => (BitVec.ofNat 32 (addr + 4 * j), w)

/-- `FLASH_WRITE_BLOCK64 addr, data` (R194). -/
def flashWriteBlock (addr : Nat) (data : List Byte) (s : State) : Res Unit :=
  if addr % 64 ≠ 0 then .err .misaligned s
  else if data.length = 0 ∨ 64 < data.length then .err .outOfRange s
  else if classify s.cfg addr 64 ≠ .flash then .err .outOfRange s
  else
    (ensureUnlocked s).bind fun _ s =>
    (memWriteWord s.cfg.flashCtlr (s.cfg.crPg ||| s.cfg.crBufload) s).bind fun _ s =>
    (memWrites (blockWrites addr data) s).bind fun _ s =>
    (memWriteWord s.cfg.flashAddr (BitVec.ofNat 32 addr) s).bind fun _ s =>
    (memWriteWord s.cfg.flashCtlr (s.cfg.crPg ||| s.cfg.crStrt) s).bind fun _ s =>
    waitBusy true s.cfg.busyPollLimit s

/-! ### Blobs (R196 to R199, R201) -/

/-- The bytes one access of a blob read gives (R199). -/
def blobAccess (x : BlobAccess) (s : State) : Res (List Byte) :=
  match x with
  | .word a => (memReadWord a true s).bind fun w s => .ok (wordBytes w) s
  | .byte a => (memReadByte a s).bind fun b s => .ok [b] s

/-- `BLOB_READ addr, size` (R199): no classification of the range; the first error ends the read, without a partial result. -/
def blobRead (addr size : Nat) (s : State) : Res (List Byte) :=
  if wraps addr size then .err .outOfRange s
  else (collectEach blobAccess (blobReads size addr size) s).bind fun parts s => .ok parts.flatten s

/-- One access of a blob write to RAM (R197). -/
def ramWrite (x : RamWrite) (s : State) : Res Unit :=
  match x with
  | .word a v => memWriteWord a v s
  | .byte a b => memWriteByte a b s

/-- `BlobWriteRam` (R197). -/
def blobWriteRam (addr : Nat) (data : List Byte) (s : State) : Res Unit :=
  runEach ramWrite (ramWrites data.length addr data) s

/-- One attempt of `WriteVerifyBlock`: erase, program, read back; answers whether the read-back matches (R201). -/
def writeVerifyOnce (base : Nat) (content : List Byte) (s : State) : Res Bool :=
  (flashErasePages base 64 s).bind fun _ s =>
  (flashWriteBlock base content s).bind fun _ s =>
  (blobRead base 64 s).bind fun back s => .ok (back == content) s

/-- `WriteVerifyBlock` with `n` attempts left after this one (R201): only a mismatch is retried. -/
def writeVerify (base : Nat) (content : List Byte) : Nat → State → Res Unit
  | 0, s =>
    (writeVerifyOnce base content s).bind fun same s => if same then .ok () s else .err .verifyMismatch s
  | n + 1, s =>
    (writeVerifyOnce base content s).bind fun same s => if same then .ok () s else writeVerify base content n s

/-- One block of `BlobWriteFlash` (R198): the aligned path takes the block's bytes from the data, the other splices them
into the bytes read back. -/
def blobFlashBlock (addr : Nat) (data : List Byte) (base : Nat) (s : State) : Res Unit :=
  if addr % 64 = 0 ∧ data.length % 64 = 0 then
    writeVerify base (blockSlice addr base data) s.cfg.verifyRetries s
  else
    (blobRead base 64 s).bind fun old s => writeVerify base (splice addr base data old) s.cfg.verifyRetries s

/-- `BlobWriteFlash` (R198). -/
def blobWriteFlash (addr : Nat) (data : List Byte) (s : State) : Res Unit :=
  (ensureUnlocked s).bind fun _ s => runEach (blobFlashBlock addr data) (chunks addr data.length) s

/-- `BLOB_WRITE addr, size, data` (R196). -/
def blobWrite (addr size : Nat) (data : List Byte) (s : State) : Res Unit :=
  if size = 0 then .ok () s
  else if data.length ≠ size then .err .uploadSizeMismatch s
  else if wraps addr size then .err .outOfRange s
  else
    match classify s.cfg addr size with
    | .mixed => .err .outOfRange s
    | .nonFlash => blobWriteRam addr data s
    | .flash => blobWriteFlash addr data s

/-! ### The meanings -/

/-- `FLASH_UNLOCK` (R190). -/
def execFlashUnlock (s : State) : Out := .next (finish (flashUnlock (begin 0x20 s)))

/-- `FLASH_WAIT_NOT_BUSY` (R192). -/
def execFlashWaitNotBusy (s : State) : Out := .next (finish (flashWaitNotBusy (begin 0x21 s)))

/-- `FLASH_ERASE_PAGES addr, len` (R193). -/
def execFlashErasePages (addr len : Option Word) (s : State) : Out :=
  .next <| match addr, len with
    | some a, some n => finish (flashErasePages a.toNat n.toNat (begin 0x22 s))
    | _, _ => respondErr .parameterMissing s

/-- `FLASH_ERASE_CHIP` (R195). -/
def execFlashEraseChip (s : State) : Out := .next (finish (flashEraseChip (begin 0x23 s)))

/-- `FLASH_WRITE_BLOCK64 addr, data` (R194). -/
def execFlashWriteBlock64 (addr : Option Word) (data : List Byte) (s : State) : Out :=
  .next <| match addr with
    | some a => finish (flashWriteBlock a.toNat data (begin 0x24 s))
    | none => respondErr .parameterMissing s

/-- `BLOB_WRITE addr, size, data` (R196). -/
def execBlobWrite (addr size : Option Word) (data : List Byte) (s : State) : Out :=
  .next <| match addr, size with
    | some a, some n => finish (blobWrite a.toNat n.toNat data (begin 0x25 s))
    | _, _ => respondErr .parameterMissing s

/-- `BLOB_READ addr, size` (R199). -/
def execBlobRead (addr size : Option Word) (s : State) : Out :=
  .next <| match addr, size with
    | some a, some n => finishData (blobRead a.toNat n.toNat (begin 0x26 s))
    | _, _ => respondErr .parameterMissing s

end Sys2Proof.Machine
end

