-- ==== Sys2Proof/Machine/Frame.lean ====
section
/-!
DEFINITION. The meanings of the frame operations (R140 to R150): the test port's frames, the host's raw register commands,
and the wire frames of the terminal agent.
-/
namespace Sys2Proof.Machine

/-- A command value is 0..127 (R96); the 7-bit command of an operand, or none where it is out of range. -/
def cmdOf (a : Word) : Option Cmd := if a.toNat < 128 then some (a.setWidth 7) else none

/-- R146, R147, R250: a resident word program is no longer known: `ReadSequence` and `WriteSequence` become `Invalidated`. -/
def dropProgram (s : State) : State :=
  if s.sessionTag = .readSequence ∨ s.sessionTag = .writeSequence then { s with sessionTag := .invalidated } else s

/-- The body of `RAW_WRITE` (R146): the invalidation comes before the frame. -/
def rawWrite (cmd : Cmd) (value : Word) (s : State) : Res Unit := fw cmd value (dropProgram s)

/-- The body of `RAW_READ` (R147). -/
def rawRead (cmd : Cmd) (s : State) : Res Word := fr cmd (dropProgram s)

/-- `FRAME_WRITE` (R141). It leaves `sessionTag` as it was ("Flags: none"; R160 does not list it among the writers of the tag), also
where it writes a program-buffer or abstract-auto register of a target whose program is resident; R28's invariant would have the tag
dropped there (DESIGN CHOICE, log 24). -/
def execFrameWrite (cmd value : Option Word) (s : State) : Out :=
  .next <| match cmd, value with
    | some a, some v =>
      match cmdOf a with
      | some c => finish (fw c v (begin 0x05 s))
      | none => respondErr .outOfRange s
    | _, _ => respondErr .parameterMissing s

/-- `FRAME_READ` (R143). It leaves `sessionTag` as it was, like `FRAME_WRITE` (DESIGN CHOICE, log 24). -/
def execFrameRead (cmd : Option Word) (s : State) : Out :=
  .next <| match cmd with
    | some a =>
      match cmdOf a with
      | some c => finishValue (fr c (begin 0x06 s))
      | none => respondErr .outOfRange s
    | none => respondErr .parameterMissing s

/-- `RAW_WRITE reg, value` (R146). -/
def execRawWrite (reg value : Option Word) (s : State) : Out :=
  .next <| match reg, value with
    | some a, some v =>
      match cmdOf a with
      | some c => finish (rawWrite c v (begin 0x40 s))
      | none => respondErr .outOfRange s
    | _, _ => respondErr .parameterMissing s

/-- `RAW_READ reg` (R147). -/
def execRawRead (reg : Option Word) (s : State) : Out :=
  .next <| match reg with
    | some a =>
      match cmdOf a with
      | some c => finishValue (rawRead c (begin 0x41 s))
      | none => respondErr .outOfRange s
    | none => respondErr .parameterMissing s

/-- A write frame (R93, R141) presented at the frame port by the terminal agent (R150). -/
def execWriteFrame (cmd : Cmd) (value : Word) (s : State) : Out := .next (wireEffect (.writeFrame cmd value) s)

/-- A read frame (R94, R143) presented at the frame port by the terminal agent (R150). -/
def execReadFrame (cmd : Cmd) (s : State) : Out := .next (wireEffect (.readFrame cmd) s)

end Sys2Proof.Machine
end

