-- ==== Sys2Proof/Machine/Orchestrator.lean ====
section
/-!
DEFINITION. The flasher orchestrator (R235 to R264): link init, the halt/reset controller, the upload and update state
machine with its retries and its watchdog, the other host commands and the configuration setters.
-/
namespace Sys2Proof.Machine

/-! ### Step lists, link init, halt/reset controller (R235, R250, R261) -/

/-- One step of a step list (R250); the value of a read is discarded. An `FW` step leaves `sessionTag` as it was, like `FRAME_WRITE`
(R141, R160; log 24). -/
def runStep (x : Config.SeqStep) (s : State) : Res Unit :=
  match x with
  | .fw cmd v => fw cmd v s
  | .fr cmd => (fr cmd s).bind fun _ s => .ok () s
  | .memWriteWord a v => memWriteWord a v s
  | .memReadWord a => (memReadWord a false s).bind fun _ s => .ok () s
  | .flashUnlock => flashUnlock s
  | .flashWaitNotBusy => flashWaitNotBusy s
  | .wait ticks => .ok () (wait ticks s)

/-- A step list, run in order; the first error ends it (R250). -/
def runSteps : List Config.SeqStep → State → Res Unit := runEach runStep

/-- A bus fault during the link-init handshake becomes `InitFailure` (R235, R283 (b)). -/
def handshakeError : ErrKind → ErrKind
  | .busFault => .initFailure
  | e => e

/-- "discarding the whole LinkState (re-init)": the cache fields and `flashUnlocked`; the configuration is kept (R235). -/
def discardLink (s : State) : State :=
  { s with sessionTag := .none, autoIncrementActive := false, lastWriteWasFlash := false, flashUnlocked := false }

/-- `LINK_INIT` (R235): no value the handshake reads decides its success. A failure leaves the link state discarded, the tag `None`
(corner case (c), R261), also where a connected terminal's write frame during the handshake had set it to `Terminal` (R52), which the
pseudocode alone would leave (DESIGN CHOICE, log 26). -/
def linkInit (s : State) : Res Unit :=
  let s := discardLink s
  if s.pinMask = 0 then .err .initFailure s
  else
    (((runSteps s.cfg.seqInit s).convert handshakeError).onErr discardLink).bind fun _ s =>
    .ok () { s with sessionTag := .started }

/-- `EnsureLink` (R261). -/
def ensureLink (s : State) : Res Unit := if s.sessionTag = .none then linkInit s else .ok () s

/-- `HALTCTL(mode)` (R250). -/
def haltctl (mode : HaltMode) (s : State) : Res Unit :=
  (runSteps s.cfg.seqPre (dropProgram s)).bind fun _ s =>
  (if mode = .rebootBoot then runSteps s.cfg.seqBootKeys s else .ok () s).bind fun _ s =>
  (runSteps (modeSteps s.cfg mode) s).bind fun _ s =>
  waitAbstract s

/-! ### Entering and leaving flasher commands (R238, R239) -/

/-- `Enter` (R239): `active` is set and the terminal disconnected (R297 (a)). -/
def enter (s : State) : State := { s with active := true, terminalConnected := false }

/-- `S.active <- 0` at the end of a flasher command (R239). -/
def leave (s : State) : State := { s with active := false }

/-- A flasher command with no range checks (R239, R264): `SessionBusy` while an upload or update is in flight, else its body
between `Enter` and `S.active <- 0`, on an error too. -/
def flasherCommand {α : Type} (op : Byte) (body : State → Res α) (fin : Res α → State) (s : State) : State :=
  if inFlight s then respondErr .sessionBusy s else fin ((body (enter (begin op s))).after leave)

/-- The body of the halt, reboot and resume commands (R251 to R255). -/
def haltBody (mode : HaltMode) (s : State) : Res Unit := (ensureLink s).bind fun _ s => haltctl mode s

/-! ### The update run (R242 to R246) -/

/-- `Fail(E)`: `S.error <- E; S.status <- Failed; S.active <- 0; Refresh`. -/
def failSession (e : ErrKind) (s : State) : State :=
  refresh { s with error := e.code, status := .failed, active := false }

/-- How an attempt ends (R242): it succeeds, it fails, or the watchdog aborts the run (R246). -/
inductive AttemptEnd where
  | done (s : State)
  | failed (e : ErrKind) (s : State)
  | aborted (s : State)

/-- A `WatchdogStep` and what follows it (R242, R246). -/
def watched (s : State) (k : State → AttemptEnd) : AttemptEnd :=
  match watchdogStep s with
  | (true, s) => .aborted s
  | (false, s) => k s

/-- One step of an attempt and what follows it; its error is the attempt's (R242). -/
def attemptStep (r : Res Unit) (k : State → AttemptEnd) : AttemptEnd :=
  match r with
  | .ok _ s => watched s k
  | .err e s => .failed e s

/-- `WatchdogStep` and then `Attempt()` (R242): link init, halt (with reset for a flash destination), write. -/
def attempt (toFlash : Bool) (data : List Byte) (s : State) : AttemptEnd :=
  watched s fun s =>
  attemptStep (linkInit s) fun s =>
  attemptStep (haltctl (if toFlash then .haltReset else .haltNoReset) s) fun s =>
  attemptStep (blobWrite s.offset.toNat s.size.toNat data s) .done

/-- `Finish` (R244): reboot after a flash update, resume after a RAM update; a failure of it is not retried. -/
def finishUpdate (toFlash : Bool) (s : State) : State :=
  match haltctl (if toFlash then .reboot else .resume) s with
  | .err e s => failSession e s
  | .ok _ s => refresh { s with error := 0, status := .success, active := false }

/-- `AttemptFailed(r)` with budget left (R243). -/
def retryUpdate (e : ErrKind) (s : State) : State :=
  refresh { s with error := e.code, currentRetry := s.currentRetry + 1 }

/-- The loop of `UpdateRun` with `left` = `retryBudget - currentRetry` retries left (R242, R243). -/
def updateLoop (toFlash : Bool) (data : List Byte) : Nat → State → State
  | 0, s =>
    match attempt toFlash data s with
    | .done s => finishUpdate toFlash s
    | .failed e s => failSession e s
    | .aborted s => s
  | left + 1, s =>
    match attempt toFlash data s with
    | .done s => finishUpdate toFlash s
    | .failed e s => updateLoop toFlash data left (retryUpdate e s)
    | .aborted s => s

/-- `UpdateRun` (R242) on the bytes of the upload buffer. -/
def updateRun (data : List Byte) (s : State) : State :=
  updateLoop (classify s.cfg s.offset.toNat s.size.toNat == .flash) data
    (s.retryBudget.toNat - s.currentRetry.toNat) s

/-! ### Upload (R240, R241) -/

/-- R240's range checks, in order; an optional `retries` may not pass `RETRY_MAX`. -/
def uploadRangeOk (s : State) (offset size : Word) (retries : Option Word) : Bool :=
  size != 0 && decide (size.toNat ≤ s.cfg.maxBinary) && !wraps offset.toNat size.toNat
    && classify s.cfg offset.toNat size.toNat != .mixed
    && (match retries with
      | some r => decide (r.toNat ≤ s.cfg.retryMax)
      | none => true)

/-- The body of `UPLOAD_BEGIN` (R240). The upload buffer holds no value after it (R40; log 7). -/
def openUpload (offset size : Word) (retries : Option Word) (s : State) : State :=
  refresh { enter s with
    offset := offset
    size := size
    retryBudget := retries.getD Config.defaultRetries
    currentRetry := 0
    received := 0
    uploadBuffer := []
    error := 0
    status := .uploading }

/-- A chunk is stored after the bytes received so far (R241). -/
def storeChunk (data : List Byte) (s : State) : State :=
  { s with
    uploadBuffer := Memory.writeBytes s.uploadBuffer s.received.toNat data
    received := s.received + BitVec.ofNat 32 data.length }

/-- A final chunk whose upload is complete: the update runs on the bytes received, and the response carries its result
(R241, R246). It faults where a byte of the upload holds no value (U10). -/
def runUpload (s : State) : Out :=
  match Memory.readBytes s.uploadBuffer 0 s.size.toNat with
  | .error i => .fault (.uploadByteUnwritten i)
  | .ok bytes =>
    let s := updateRun bytes { s with status := .updating }
    .next (respond s.error (some s.status.code) none s)

/-- `UPLOAD_DATA data [, final]` in `Uploading` (R241). -/
def acceptChunk (data : List Byte) (last : Bool) (s : State) : Out :=
  let s := refresh (begin 0x43 s)
  if s.size.toNat < s.received.toNat + data.length then
    .next (respondErr .uploadSizeMismatch (failSession .uploadSizeMismatch s))
  else if s.cfg.maxBinary < s.received.toNat + data.length then .fault (.uploadIndexOutOfBuffer s.cfg.maxBinary)
  else
    let s := storeChunk data s
    if !last then .next (respond 0 none none s)
    else if s.received ≠ s.size then
      .next (respondErr .uploadSizeMismatch (failSession .uploadSizeMismatch s))
    else runUpload s

/-! ### Unbrick and chip-info (R259, R260) -/

/-- The power gate is set and the output held (R259). -/
def setPower (on : Bool) (ticks : Nat) (s : State) : State :=
  wait ticks (logLine [.power on] { s with powerGate := on })

/-- One try of the unbrick loop (R259): link init, halt-and-reset, status. -/
def unbrickTry (s : State) : Res Word :=
  (linkInit s).bind fun _ s => (haltctl .haltReset s).bind fun _ s => fr s.cfg.dmStatus s

/-- At most `n` more tries (R259): errors inside a try are absorbed (R283 (d)); answers whether one found a valid halted
state. -/
def unbrickLoop : Nat → State → Bool × State
  | 0, s => (false, s)
  | n + 1, s =>
    match unbrickTry s with
    | .ok v s => if v &&& s.cfg.haltedMask = s.cfg.haltedMask then (true, s) else unbrickLoop n s
    | .err _ s => unbrickLoop n s

/-- The body of `UNBRICK` (R259). -/
def unbrickBody (s : State) : Res Unit :=
  let s := setPower true s.cfg.powerOnTime (setPower false s.cfg.powerOffTime s)
  match unbrickLoop s.cfg.unbrickTries s with
  | (false, s) => .err .initFailure s
  | (true, s) => (runSteps s.cfg.seqOptDefault s).bind fun _ s => flashEraseChip s

/-- The body of `CHIP_INFO` (R260): the words at `CHIPINFO_ADDRS`, framed by halt-without-reset and resume. -/
def chipInfoBody (s : State) : Res (List Word) :=
  (ensureLink s).bind fun _ s =>
  (haltctl .haltNoReset s).bind fun _ s =>
  (collectEach (fun a => memReadWord a false) s.cfg.chipInfoAddrs s).bind fun ws s =>
  (haltctl .resume s).bind fun _ s => .ok ws s

/-- The response of `CHIP_INFO` (R260): each word as 4 bytes little-endian. -/
def finishWords : Res (List Word) → State
  | .ok ws s => respond 0 none (some (ws.flatMap wordBytes)) s
  | .err e s => respondErr e s

/-- The body of `READ_BLOB` (R258). -/
def readBlobBody (offset size : Nat) (s : State) : Res (List Byte) :=
  (ensureLink s).bind fun _ s =>
  (haltctl .haltNoReset s).bind fun _ s =>
  (blobRead offset size s).bind fun out s =>
  (haltctl .resume s).bind fun _ s => .ok out s

/-! ### The meanings -/

/-- `LINK_INIT` (R235). -/
def execLinkInit (s : State) : Out := .next (finish (linkInit (begin 0x27 s)))

/-- `UPLOAD_BEGIN offset, size [, retries]` (R240). -/
def execUploadBegin (offset size retries : Option Word) (s : State) : Out :=
  .next <| match offset, size with
    | some a, some n =>
      if !uploadRangeOk s a n retries then respondErr .outOfRange s
      else if inFlight s then respondErr .sessionBusy s
      else respond 0 none none (openUpload a n retries (begin 0x42 s))
    | _, _ => respondErr .parameterMissing s

/-- `UPLOAD_DATA data [, final]` (R241): data with no open upload is refused. -/
def execUploadData (data : List Byte) (last : Bool) (s : State) : Out :=
  if s.status ≠ .uploading then .next (respondErr .uploadSizeMismatch s) else acceptChunk data last s

/-- `STATUS` (R247): the session's code and state are reported, and a result is consumed. -/
def execStatus (s : State) : Out :=
  let t := respond s.error (some s.status.code) none s
  .next (if s.status = .success ∨ s.status = .failed then { t with status := .idle } else t)

/-- `READ_BLOB offset, size` (R258). -/
def execReadBlob (offset size : Option Word) (s : State) : Out :=
  .next <| match offset, size with
    | some a, some n =>
      if n = 0 ∨ s.cfg.maxBinary < n.toNat ∨ wraps a.toNat n.toNat then respondErr .outOfRange s
      else flasherCommand 0x45 (readBlobBody a.toNat n.toNat) finishData s
    | _, _ => respondErr .parameterMissing s

/-- `UNBRICK` (R259, R104). -/
def execUnbrick (s : State) : Out :=
  .next <| if !s.cfg.hasPowerGate then respondErr .unimplemented s
    else flasherCommand 0x46 unbrickBody finish s

/-- `CHIP_INFO` (R260). -/
def execChipInfo (s : State) : Out := .next (flasherCommand 0x48 chipInfoBody finishWords s)

/-- `HALT_RESET` (R251). -/
def execHaltReset (s : State) : Out := .next (flasherCommand 0x50 (haltBody .haltReset) finish s)

/-- `REBOOT` (R252). -/
def execReboot (s : State) : Out := .next (flasherCommand 0x51 (haltBody .reboot) finish s)

/-- `RESUME` (R253). -/
def execResume (s : State) : Out := .next (flasherCommand 0x52 (haltBody .resume) finish s)

/-- `REBOOT_BOOT` (R254). -/
def execRebootBoot (s : State) : Out := .next (flasherCommand 0x53 (haltBody .rebootBoot) finish s)

/-- `HALT_NORESET` (R255). -/
def execHaltNoReset (s : State) : Out := .next (flasherCommand 0x54 (haltBody .haltNoReset) finish s)

/-- `SETPIN mask` (R262): "a new line is a new session". -/
def execSetPin (mask : Option Word) (s : State) : Out :=
  .next <| match mask with
    | some m =>
      if !legalPin m then respondErr .outOfRange s
      else if inFlight s then respondErr .sessionBusy s
      else respond 0 none none { s with pinMask := m, sessionTag := .none, flashUnlocked := false }
    | none => respondErr .parameterMissing s

/-- `SETCOEFF c` (R263): allowed in every state. -/
def execSetCoeff (coeff : Option Word) (s : State) : Out :=
  .next <| match coeff with
    | some c =>
      if !legalCoeff s.cfg c then respondErr .outOfRange s
      else respond 0 none none { s with timingCoefficient := c }
    | none => respondErr .parameterMissing s

end Sys2Proof.Machine
end

