-- ==== Sys2Proof/Machine/Phy.lean ====
section
/-!
DEFINITION. The meanings of the bit PHY's operations on the test port (R120 to R129) and of the wire symbols and slots.
-/
namespace Sys2Proof.Machine

/-- `PHY_DELAY n` (R120): the output is held for `n * TAU`. -/
def phyDelay (n : Word) : State → Res Unit :=
  phyPort fun _ s => ((), wait (n.toNat * s.cfg.tau) s)

/-- `sendBit(b)` (R121, R122) on the test port. -/
def phySend (b : Bool) : State → Res Unit := phyPort fun c s => ((), sendBits c [b] s)

/-- `readBit()` (R123) on the test port. -/
def phyReadBit : State → Res (Option Bool) := phyPort readBit

/-- The response of `PHY_READBIT` (R107, R123): value 0 or 1; a `TIMEOUT` responds code `BitTimeout` with value 2. -/
def finishBit : Res (Option Bool) → State
  | .ok (some b) s => respond 0 (some (if b then 1 else 0)) none s
  | .ok none s => respond ErrKind.bitTimeout.code (some 2) none s
  | .err e s => respondErr e s

/-- `PHY_DELAY` (R120). -/
def execPhyDelay (units : Option Word) (s : State) : Out :=
  .next <| match units with
    | none => respondErr .parameterMissing s
    | some n => finish (phyDelay n (begin 0x01 s))

/-- `PHY_SEND1` (R121). -/
def execPhySend1 (s : State) : Out := .next (finish (phySend true (begin 0x02 s)))

/-- `PHY_SEND0` (R122). -/
def execPhySend0 (s : State) : Out := .next (finish (phySend false (begin 0x03 s)))

/-- `PHY_READBIT` (R123). -/
def execPhyReadBit (s : State) : Out := .next (finishBit (phyReadBit (begin 0x04 s)))

/-- The wire symbol `S1` (R90, R121), presented at the frame port. -/
def execSym1 (s : State) : Out := .next (wireEffect .sym1 s)

/-- The wire symbol `S0` (R90, R122), presented at the frame port. -/
def execSym0 (s : State) : Out := .next (wireEffect .sym0 s)

/-- The read slot `RS` (R91, R123), presented at the frame port. -/
def execReadSlot (s : State) : Out := .next (wireEffect .readSlot s)

end Sys2Proof.Machine
end

