-- ==== Sys2Proof/Machine/Dispatch.lean ====
section
/-! DEFINITION. The dispatch of the meanings: one arm for each constructor of `Instr`. -/
namespace Sys2Proof.Machine

def exec (i : Instr) (s : State) : Host.Outcome State Fault Refusal :=
  match i with
  | .rawWrite reg value => Sys2Proof.Machine.execRawWrite reg value s
  | .rawRead reg => Sys2Proof.Machine.execRawRead reg s
  | .uploadBegin offset size retries => Sys2Proof.Machine.execUploadBegin offset size retries s
  | .uploadData data last => Sys2Proof.Machine.execUploadData data last s
  | .status => Sys2Proof.Machine.execStatus s
  | .readBlob offset size => Sys2Proof.Machine.execReadBlob offset size s
  | .unbrick => Sys2Proof.Machine.execUnbrick s
  | .chipInfo => Sys2Proof.Machine.execChipInfo s
  | .haltReset => Sys2Proof.Machine.execHaltReset s
  | .reboot => Sys2Proof.Machine.execReboot s
  | .resume => Sys2Proof.Machine.execResume s
  | .rebootBoot => Sys2Proof.Machine.execRebootBoot s
  | .haltNoReset => Sys2Proof.Machine.execHaltNoReset s
  | .setPin mask => Sys2Proof.Machine.execSetPin mask s
  | .setCoeff coeff => Sys2Proof.Machine.execSetCoeff coeff s
  | .phyDelay units => Sys2Proof.Machine.execPhyDelay units s
  | .phySend1 => Sys2Proof.Machine.execPhySend1 s
  | .phySend0 => Sys2Proof.Machine.execPhySend0 s
  | .phyReadBit => Sys2Proof.Machine.execPhyReadBit s
  | .frameWrite cmd value => Sys2Proof.Machine.execFrameWrite cmd value s
  | .frameRead cmd => Sys2Proof.Machine.execFrameRead cmd s
  | .seqReadWord addr ai => Sys2Proof.Machine.execSeqReadWord addr ai s
  | .seqWriteWord addr value => Sys2Proof.Machine.execSeqWriteWord addr value s
  | .seqReadByte addr => Sys2Proof.Machine.execSeqReadByte addr s
  | .seqWriteByte addr byte => Sys2Proof.Machine.execSeqWriteByte addr byte s
  | .seqWaitAbstract => Sys2Proof.Machine.execSeqWaitAbstract s
  | .seqInvalidate => Sys2Proof.Machine.execSeqInvalidate s
  | .flashUnlock => Sys2Proof.Machine.execFlashUnlock s
  | .flashWaitNotBusy => Sys2Proof.Machine.execFlashWaitNotBusy s
  | .flashErasePages addr len => Sys2Proof.Machine.execFlashErasePages addr len s
  | .flashEraseChip => Sys2Proof.Machine.execFlashEraseChip s
  | .flashWriteBlock64 addr data => Sys2Proof.Machine.execFlashWriteBlock64 addr data s
  | .blobWrite addr size data => Sys2Proof.Machine.execBlobWrite addr size data s
  | .blobRead addr size => Sys2Proof.Machine.execBlobRead addr size s
  | .linkInit => Sys2Proof.Machine.execLinkInit s
  | .sym1 => Sys2Proof.Machine.execSym1 s
  | .sym0 => Sys2Proof.Machine.execSym0 s
  | .readSlot => Sys2Proof.Machine.execReadSlot s
  | .writeFrame cmd value => Sys2Proof.Machine.execWriteFrame cmd value s
  | .readFrame cmd => Sys2Proof.Machine.execReadFrame cmd s

end Sys2Proof.Machine
end

