-- ==== Sys2Proof/Machine/Fetch.lean ====
section
/-!
DEFINITION. Where the next instruction comes from. The block has no program counter (R45): its control loop takes the request
in the command port's registers (R265), and the terminal agent presents strings at the frame port (R150). One step is one
action of one agent: the terminal's next action, else the host's, else one iteration of the control loop.
-/
namespace Sys2Proof.Machine

/-- The request in the command port's registers (R43, R100). -/
def requestOf (s : State) : Request where
  op := s.reqOp
  a := s.reqA
  b := s.reqB
  c := s.reqC
  present := s.reqPresent
  last := s.reqFinal
  data := s.reqData

/-- The host writes a request into the command port (R43). -/
def loadRequest (r : Request) (s : State) : State :=
  { s with
    reqValid := true
    reqOp := r.op
    reqA := r.a
    reqB := r.b
    reqC := r.c
    reqPresent := r.present
    reqFinal := r.last
    reqData := r.data }

/-- The request is decoded and run (R265). An opcode that is not in the map, or is internal with `TEST_PORT` = false, ends
with `UnknownCommand` (R103). -/
def handleRequest (s : State) : Out :=
  match decodeRequest (requestOf s) with
  | .error _ => .next (refuseUnknown s)
  | .ok i => if isInternal i && !s.cfg.testPort then .next (refuseUnknown s) else exec i s

/-- One iteration of the control loop (R265): the watchdog check, then the request, if there is one. -/
def controlCycle (s : State) : Out :=
  let s := (watchdogCheck s).2
  if s.reqValid then handleRequest s else .next s

/-- Does the port have room for the request's byte string, "at most `MAX_BINARY` bytes" (R43)? -/
def fitsPort (p : Config.Params) (r : Request) : Bool := decide (r.data.length ≤ p.maxBinary)

/-- The host agent's next action, if it may take it now, else one iteration of the control loop. A request waits for the
port (R43); one that the port has no room for is never written into it (DESIGN CHOICE, log 19). -/
def hostCycle (s : State) : Out :=
  match s.hostIn with
  | [] => controlCycle s
  | .submit r :: hs =>
    if s.reqValid then controlCycle s
    else if fitsPort s.cfg r then .next (loadRequest r { s with hostIn := hs })
    else .next { s with hostIn := hs }
  | .ack :: hs => .next { s with hostIn := hs, rspValid := false }
  | .pass :: hs => controlCycle { s with hostIn := hs }

/-- One action of the terminal agent (`termAct`), its frames run as instructions. -/
def terminalCycle (a : TermAct) (s : State) : Out :=
  match a with
  | .issue w =>
    if s.terminalConnected then
      match decodeWire w with
      | .ok i => exec i s
      | .error _ => .next s
    else .next s
  | a => .next (termAct a s)

/-- One step of the machine. While `irqMasked` is set nothing is admitted (R33, R140): the frame on the line ends first. -/
def cycle (s : State) : Out :=
  if s.irqMasked then .next (awaitPort s)
  else
    match s.termIn with
    | [] => hostCycle s
    | [] :: ts => hostCycle { s with termIn := ts }
    | (a :: as) :: ts => terminalCycle a { s with termIn := as :: ts }

/-- The state in which the very next step runs the instruction of a table word: a request in the command port, with
`TEST_PORT` set where the opcode is internal; or a wire string as the connected terminal's next action (log 6). -/
def placeWord (s : State) (nbits w : Nat) : State :=
  if isWireWidth nbits then
    { s with termIn := [[.issue (wireOfWord w)]], terminalConnected := true, irqMasked := false }
  else
    let r := requestOfWord w
    let internal := match decodeRequest r with
      | .ok i => isInternal i
      | .error _ => false
    loadRequest r
      { s with
        termIn := []
        hostIn := []
        irqMasked := false
        cfg := { s.cfg with testPort := internal || s.cfg.testPort } }

end Sys2Proof.Machine
end

