-- ==== Sys2Proof/Safety.lean ====
section
/-!
DEFINITION. The terms the claims are stated in: waveforms and durations on the line, what a target answers, which part of
the state an operation of the link leaves alone, and the invariants of a state between two steps.
-/
namespace Sys2Proof.Safety

open Sys2Proof.Machine
open Sys2Proof.Config (Params SlotDraw SeqStep)

/-! ### The line -/

/-- How long an event lasts, in ticks; the waits of a read slot's polls last `POLL_TIME` each (R124). -/
def ticksOf (p : Params) : LineEvent → Nat
  | .drive _ t => t
  | .hold t => t
  | .polls n _ => n * p.pollTime
  | .gap t => t
  | .take _ _ => 0
  | .sample _ => 0
  | .unmask => 0
  | .release _ => 0
  | .power _ => 0

/-- How long a list of events lasts. -/
def ticks (p : Params) (es : List LineEvent) : Nat := (es.map (ticksOf p)).sum

/-- The lengths of the low phases the block drove. -/
def lowPhases (es : List LineEvent) : List Nat :=
  es.filterMap fun e => match e with
    | .drive .driveLow t => some t
    | _ => none

/-- What a write frame puts on the line (R93, R140, R141). -/
def writeFrameEvents (p : Params) (who : Issuer) (c : Nat) (cmd : Cmd) (value : Word) : List LineEvent :=
  .take who c :: (writeFrameBits cmd value).flatMap (symbolEvents p c) ++ [.unmask, .gap p.frameGap, .release who]

/-- What a read slot with the target's answer `d` puts on the line (R123). -/
def slotEvents (p : Params) (c : Nat) (d : SlotDraw) : List LineEvent :=
  [.drive .driveLow p.readLow, .drive .released (2 * c * p.tau), .sample d.level,
    match seenHigh p d with
    | some h => .polls h true
    | none => .polls p.readPollLimit false]

/-- What a read frame whose slots are answered by `ds` puts on the line (R94, R140, R143). -/
def readFrameEvents (p : Params) (who : Issuer) (c : Nat) (cmd : Cmd) (ds : List SlotDraw) : List LineEvent :=
  .take who c :: (headerBits cmd false).flatMap (symbolEvents p c) ++ ds.flatMap (slotEvents p c)
    ++ [.unmask, .gap p.frameGap, .release who]

/-- How many of the bits are 1. -/
def ones (bits : List Bool) : Nat := bits.countP id

/-- The waits of `POLL_TIME` a read slot takes (R124): as many as the index of the poll that sees the line high, or all. -/
def slotWaits (p : Params) (d : SlotDraw) : Nat := (seenHigh p d).getD p.readPollLimit

/-! ### What one use of the frame port leaves -/

/-- The state after a symbol sent alone (R121, R122, R125). -/
def afterSymbol (who : Issuer) (b : Bool) (s : State) : State :=
  { s with
    pinDrive := highOut s.cfg
    portOwner := .free
    irqMasked := false
    lineLog := s.lineLog ++ [.take who s.timingCoefficient.toNat,
      .drive .driveLow ((if b then 1 else 4) * s.timingCoefficient.toNat * s.cfg.tau),
      .drive (highOut s.cfg) (1 * s.timingCoefficient.toNat * s.cfg.tau), .unmask, .release who] }

/-- The state after a read slot run alone that the target answers with `d` (R123, R124, R125). -/
def afterSlot (who : Issuer) (d : SlotDraw) (s : State) : State :=
  { s with
    pinDrive := if (seenHigh s.cfg d).isSome then highOut s.cfg else .released
    portOwner := .free
    irqMasked := false
    slotIn := s.slotIn.tail
    lineLog := s.lineLog ++ (.take who s.timingCoefficient.toNat :: slotEvents s.cfg s.timingCoefficient.toNat d
      ++ [.unmask, .release who]) }

/-- The state after a write frame (R93, R140, R141). -/
def afterWrite (who : Issuer) (cmd : Cmd) (value : Word) (s : State) : State :=
  { s with
    pinDrive := highOut s.cfg
    portOwner := .free
    irqMasked := false
    lineLog := s.lineLog ++ writeFrameEvents s.cfg who s.timingCoefficient.toNat cmd value
    frameLog := s.frameLog ++ [⟨who, .write cmd value⟩] }

/-- The state after a read frame whose slots were answered by `ds`, with its result (R94, R140, R143, R144). -/
def afterRead (who : Issuer) (cmd : Cmd) (ds : List SlotDraw) (result : Option Word) (s : State) : State :=
  { s with
    pinDrive := if result.isSome then highOut s.cfg else .released
    portOwner := .free
    irqMasked := false
    slotIn := s.slotIn.drop ds.length
    lineLog := s.lineLog ++ readFrameEvents s.cfg who s.timingCoefficient.toNat cmd ds
    frameLog := s.frameLog ++ [⟨who, .read cmd result⟩] }

/-- The state after the control agent's write frames `ws`, in order. -/
def afterWrites (ws : List (Cmd × Word)) (s : State) : State :=
  ws.foldl (fun s w => afterWrite .control w.1 w.2 s) s

/-- The state after the control agent's reads of one register, each with its answers and its value, in order. -/
def afterReads (cmd : Cmd) (rs : List (List SlotDraw × Word)) (s : State) : State :=
  rs.foldl (fun s r => afterRead .control cmd r.1 (some r.2) s) s

/-- The write frames of a reprogramming, in order (R162). -/
def reprogramFrames (p : Params) (prog : List Word) (autoOn : Option Word) : List (Cmd × Word) :=
  (p.dmAbstractAuto, Config.autoOff) :: p.dmProgbuf.toList.zip prog ++ autoOn.toList.map fun v => (p.dmAbstractAuto, v)

/-- The session tag after a raw register command's invalidation, or the halt/reset controller's (R146, R147, R250). -/
def tagDropped : SessionTag → SessionTag
  | .readSequence => .invalidated
  | .writeSequence => .invalidated
  | t => t

/-! ### Frames sent -/

/-- The frames sent between two states. -/
def sent (s t : State) : List FrameEvent := t.frameLog.drop s.frameLog.length

/-- The frames of the control agent among `fs`. -/
def ofControl (fs : List FrameEvent) : List FrameEvent := fs.filter fun f => f.who == .control

/-- The terminal sent one of the frames, and it is a write frame (R52). -/
def terminalWrote (fs : List FrameEvent) : Prop := ∃ cmd value, (⟨.terminal, .write cmd value⟩ : FrameEvent) ∈ fs

/-- The write frames among the steps of a step list (R250). -/
def stepFrames (xs : List SeqStep) : List FrameEvent :=
  xs.filterMap fun x => match x with
    | .fw cmd v => some ⟨.control, .write cmd v⟩
    | _ => none

/-- A step that reads nothing: a write frame or a wait. -/
def sendsOnly : SeqStep → Bool
  | .fw _ _ => true
  | .wait _ => true
  | _ => false

/-- A step that is a read frame. -/
def readsRegister : SeqStep → Bool
  | .fr _ => true
  | _ => false

/-- What the block remembers of the target: its sequencer cache and `flashUnlocked` (R23 to R27). -/
structure Cache where
  tag : SessionTag
  addr : Word
  ai : Bool
  fl : Bool
  unlocked : Bool
deriving DecidableEq, Repr

/-- The cache of a state. -/
def cacheOf (s : State) : Cache :=
  ⟨s.sessionTag, s.cachedAddress, s.autoIncrementActive, s.lastWriteWasFlash, s.flashUnlocked⟩

/-- What the control agent does on the link, as the statements list it: a frame of its own, an access to the target that
needs one completion poll, or a change of the cache that sends nothing. -/
inductive Act where
  /-- a frame (R141, R143) -/
  | frame (k : FrameKind)
  /-- a word write (R165) -/
  | writeWord (a v : Word)
  /-- a word read that gives `v` (R163) -/
  | readWord (a : Word) (ai : Bool) (v : Word)
  /-- a byte write (R167) -/
  | writeByte (a : Word) (b : Byte)
  /-- a byte read of a data register that holds `v` (R166) -/
  | readByte (a v : Word)
  /-- a resident program is no longer known (R146, R250) -/
  | drop
  /-- an error of the sequencer has invalidated the cache (R169) -/
  | invalidate
  /-- the link state is discarded (R235) -/
  | discard
  /-- a link init has succeeded (R235) -/
  | started
  /-- an unlock has succeeded (R190) -/
  | unlock
deriving DecidableEq, Repr

/-- Write frames of the control agent. -/
def writesOf (ws : List (Cmd × Word)) : List FrameEvent := ws.map fun w => ⟨.control, .write w.1 w.2⟩

/-- `pre` is what a word access sends up to the end of its reprogramming with the program `prog` (R162): nothing where the program is
resident; else the control agent's frames of the reprogramming, the last of them at the end, and what the terminal sends before it. -/
def UpToReprogram (p : Params) (prog : List Word) (autoOn : Word) (resident : Prop) (pre : List FrameEvent) : Prop :=
  (resident ∧ pre = []) ∨
  (¬ resident ∧ (∃ mid, pre = mid ++ [⟨.control, .write p.dmAbstractAuto autoOn⟩]) ∧
    ofControl pre = writesOf (reprogramFrames p prog (some autoOn)))

/-- A read frame of the control agent that gave `v`. -/
def readOf (cmd : Cmd) (v : Word) : FrameEvent := ⟨.control, .read cmd (some v)⟩

/-- The execute step, whose first poll is neither busy nor in error (R163, R168). -/
def executeFrames (p : Params) : List FrameEvent := [⟨.control, .write p.dmCommand p.cmdExec⟩, readOf p.dmAbstractCs 0]

/-- The frames of an act, with the cache `c` before it (R161 to R167): a reprogramming unless the program is resident, the
address frame unless the cached address is known to match, the data frame and the execute step in their order. -/
def actFrames (p : Params) (c : Cache) : Act → List FrameEvent
  | .frame k => [⟨.control, k⟩]
  | .writeWord a v =>
    let fl := isFlash p a
    let resident : Prop := c.tag = .writeSequence ∧ c.fl = fl
    (if resident then [] else
        writesOf (reprogramFrames p (if fl then p.progWriteFlash else p.progWriteRam) (some p.autoWrite)))
      ++ (if resident ∧ c.addr = a then [] else writesOf [(p.dmData1, a)]) ++ writesOf [(p.dmData0, v)] ++ executeFrames p
  | .readWord a ai v =>
    let resident : Prop := c.tag = .readSequence ∧ c.ai = ai
    (if resident then [] else
        writesOf (reprogramFrames p (if ai then p.progReadInc else p.progReadPlain) (some p.autoRead)))
      ++ (if resident ∧ c.addr = a then [] else writesOf [(p.dmData1, a)]) ++ executeFrames p ++ [readOf p.dmData0 v]
  | .writeByte a b =>
    writesOf (reprogramFrames p p.progWByte none ++ [(p.dmData1, a), (p.dmData0, b.setWidth 32)]) ++ executeFrames p
  | .readByte a v => writesOf (reprogramFrames p p.progRByte none ++ [(p.dmData1, a)]) ++ executeFrames p ++ [readOf p.dmData0 v]
  | .drop => []
  | .invalidate => []
  | .discard => []
  | .started => []
  | .unlock => []

/-- The cache after an act (R163, R165 to R167, R169, R190, R235, R250). -/
def actCache (p : Params) (c : Cache) : Act → Cache
  | .frame _ => c
  | .writeWord a _ => { c with tag := .writeSequence, addr := a + 4, fl := isFlash p a }
  | .readWord a ai _ => { c with tag := .readSequence, addr := if ai then a + 4 else a, ai := ai }
  | .writeByte _ _ => { c with tag := .invalidated }
  | .readByte _ _ => { c with tag := .invalidated }
  | .drop => { c with tag := tagDropped c.tag }
  | .invalidate => { c with tag := .invalidated }
  | .discard => { c with tag := .none, ai := false, fl := false, unlocked := false }
  | .started => { c with tag := .started }
  | .unlock => { c with unlocked := true }

/-- The frames of a list of acts, in order. -/
def trace (p : Params) : Cache → List Act → List FrameEvent
  | _, [] => []
  | c, a :: as => actFrames p c a ++ trace p (actCache p c a) as

/-- The cache after a list of acts. -/
def traceCache (p : Params) (c : Cache) (as : List Act) : Cache := as.foldl (actCache p) c

/-- Between `s` and `t` the control agent did exactly these acts, and no other agent sent a frame: these frames were sent, in
order and no other, and the cache is what they leave. -/
structure Sent (s t : State) (as : List Act) : Prop where
  frames : sent s t = trace s.cfg (cacheOf s) as
  cache : cacheOf t = traceCache s.cfg (cacheOf s) as

/-- The acts of an operation that the terminal agent may interrupt between frames (R75, R298): their frames are among those
sent, in order; with a silent terminal they are all that is sent. -/
structure Sends (s t : State) (as : List Act) : Prop where
  frames : (trace s.cfg (cacheOf s) as).Sublist (sent s t)
  silent : s.termIn = [] → Sent s t as

/-! ### What the operations do on a target that answers every read slot with 0 -/

/-- The keys of `FLASH_UNLOCK` (R190): both to each key register. -/
def keyActs (p : Params) : List Act :=
  [.writeWord p.flashKeyr p.key1, .writeWord p.flashKeyr p.key2, .writeWord p.flashObkeyr p.key1,
    .writeWord p.flashObkeyr p.key2, .writeWord p.flashModekeyr p.key1, .writeWord p.flashModekeyr p.key2]

/-- `FLASH_UNLOCK` (R190): the keys, and the check of the lock register. -/
def unlockActs (p : Params) : List Act := keyActs p ++ [.readWord p.lockReg false 0, .unlock]

/-- `EnsureUnlocked` (R200). -/
def ensureActs (p : Params) (unlocked : Bool) : List Act := if unlocked then [] else unlockActs p

/-- A busy poll that sees the flash not busy at once (R191). -/
def idleActs (p : Params) : List Act := [.readWord p.flashStatr false 0]

/-- The commands that start the erase of a chunk (R193). -/
def eraseStartActs (p : Params) (c : Nat) : List Act :=
  [.writeWord p.flashCtlr p.crPer, .writeWord p.flashAddr (BitVec.ofNat 32 c),
    .writeWord p.flashCtlr (p.crStrt ||| p.crPer)]

/-- One chunk of a page erase (R193). -/
def eraseChunkActs (p : Params) (c : Nat) : List Act :=
  idleActs p ++ eraseStartActs p c ++ idleActs p ++ [.writeWord p.flashCtlr 0]

/-- The commands that start a chip erase (R195). -/
def chipStartActs (p : Params) : List Act :=
  [.writeWord p.flashCtlr p.crMer, .writeWord p.flashCtlr (p.crMer ||| p.crStrt)]

/-- A chip erase after the unlock (R195). -/
def eraseChipActs (p : Params) : List Act := chipStartActs p ++ idleActs p

/-- The program of a block after the unlock (R194): sixteen words, a partial tail padded with 0xFF. -/
def programActs (p : Params) (a : Nat) (data : List Byte) : List Act :=
  [.writeWord p.flashCtlr (p.crPg ||| p.crBufload)]
    ++ ((packWords (data ++ List.replicate (64 - data.length) 0xFF)).mapIdx fun j w =>
        .writeWord (BitVec.ofNat 32 (a + 4 * j)) w)
    ++ [.writeWord p.flashAddr (BitVec.ofNat 32 a), .writeWord p.flashCtlr (p.crPg ||| p.crStrt)] ++ idleActs p

/-- A blob read (R199). -/
def blobReadActs (a n : Nat) : List Act :=
  (blobReads n a n).map fun x => match x with
    | .word a => .readWord a true 0
    | .byte a => .readByte a 0

/-- A blob write to RAM (R197). -/
def ramActs (a : Nat) (data : List Byte) : List Act :=
  (ramWrites data.length a data).map fun x => match x with
    | .word a v => .writeWord a v
    | .byte a b => .writeByte a b

/-- One attempt at a block (R201): erase, program, read back. -/
def attemptActs (p : Params) (c : Nat) (content : List Byte) : List Act :=
  eraseChunkActs p c ++ programActs p c content ++ blobReadActs c 64

/-- What is read back of a block before its first attempt (R198): nothing where address and size are 64-aligned. -/
def spliceActs (a n c : Nat) : List Act := if a % 64 = 0 ∧ n % 64 = 0 then [] else blobReadActs c 64

/-- The new content of the block at `c`, where the target holds zeros: the bytes of the data at their addresses, 0 elsewhere
(R198). -/
def newBlock (a c : Nat) (data : List Byte) : List Byte :=
  (List.range 64).map fun i => if a ≤ c + i ∧ c + i < a + data.length then data.getD (c + i - a) 0 else 0

/-- Blocks that verify at their first attempt, because all they get is zeros (R198, R201). -/
def zeroBlocksActs (p : Params) (a n : Nat) (cs : List Nat) : List Act :=
  cs.flatMap fun c => spliceActs a n c ++ attemptActs p c (List.replicate 64 0)

/-- A step of a step list (R250). -/
def stepActs (p : Params) : SeqStep → List Act
  | .fw cmd v => [.frame (.write cmd v)]
  | .fr cmd => [.frame (.read cmd (some 0))]
  | .memWriteWord a v => [.writeWord a v]
  | .memReadWord a => [.readWord a false 0]
  | .flashUnlock => unlockActs p
  | .flashWaitNotBusy => idleActs p
  | .wait _ => []

/-- A step list (R250). -/
def stepsActs (p : Params) (xs : List SeqStep) : List Act := xs.flatMap (stepActs p)

/-- `LINK_INIT` (R235). -/
def initActs (p : Params) : List Act := .discard :: stepsActs p p.seqInit ++ [.started]

/-- `EnsureLink` (R261). -/
def linkActs (s : State) : List Act := if s.sessionTag = .none then initActs s.cfg else []

/-- The steps of a halt/reset mode before its completion poll (R250). -/
def haltSteps (p : Params) (m : HaltMode) : List SeqStep :=
  p.seqPre ++ (if m = .rebootBoot then p.seqBootKeys else []) ++ modeSteps p m

/-- `HALTCTL(mode)` (R250). -/
def haltActs (p : Params) (m : HaltMode) : List Act :=
  .drop :: stepsActs p (haltSteps p m) ++ [.frame (.read p.dmAbstractCs (some 0))]

/-- Does a step list unlock the flash? -/
def unlocks (xs : List SeqStep) : Bool := xs.contains .flashUnlock

/-- The mode that halts the target for an update, and the mode that ends it (R242, R244). -/
def openMode (flash : Bool) : HaltMode := if flash then .haltReset else .haltNoReset

/-- The mode that ends an update (R244). -/
def closeMode (flash : Bool) : HaltMode := if flash then .reboot else .resume

/-- The blob write of an update (R242), of zeros where the destination is flash. -/
def updateWriteActs (p : Params) (flash : Bool) (a : Nat) (data : List Byte) : List Act :=
  if flash then ensureActs p (unlocks (haltSteps p .haltReset)) ++ zeroBlocksActs p a data.length (chunks a data.length)
  else ramActs a data

/-- The bytes of an upload (R242). -/
def uploadedBytes (buffer : Memory) (n : Nat) : List Byte := (List.range n).map fun i => (Memory.read buffer i).getD 0

/-- The bytes an access of a blob write to RAM stores, with their target addresses (R66, R197). -/
def accessBytes : RamWrite → List (Word × Byte)
  | .word a v => (wordBytes v).mapIdx fun i b => (a + BitVec.ofNat 32 i, b)
  | .byte a b => [(a, b)]

/-- The target addresses an access of a blob read reads (R199). -/
def accessAddresses : BlobAccess → List Word
  | .word a => [a, a + 1, a + 2, a + 3]
  | .byte a => [a]

/-- The opcodes R103 reserves. -/
def reservedOp (op : Byte) : Bool :=
  [(0x00, 0x00), (0x07, 0x0F), (0x16, 0x1F), (0x28, 0x3F), (0x47, 0x47), (0x49, 0x4F), (0x55, 0x5F), (0x62, 0xFF)].any
    fun r => decide (r.1 ≤ op.toNat ∧ op.toNat ≤ r.2)

/-- Is an operand missing that the operation needs (R102)? The optional `C` of `UPLOAD_BEGIN` is not. -/
def operandMissing : Instr → Bool
  | .rawWrite a b | .frameWrite a b | .seqWriteWord a b => a.isNone || b.isNone
  | .uploadBegin a b _ | .readBlob a b | .flashErasePages a b | .blobWrite a b _ | .blobRead a b => a.isNone || b.isNone
  | .rawRead a | .setPin a | .setCoeff a | .phyDelay a | .frameRead a | .seqReadByte a | .flashWriteBlock64 a _ => a.isNone
  | .seqReadWord a ai => a.isNone || ai.isNone
  | .seqWriteByte a b => a.isNone || b.isNone
  | _ => false

/-! ### The agents -/

/-- A read slot that is answered: some poll sees the line high (R124). -/
abbrev answered (p : Params) (d : SlotDraw) : Prop := (seenHigh p d).isSome

/-- The answers `ds` to the 32 slots of a read frame give the value `v`, most significant bit first (R65, R143). -/
structure Answers (p : Params) (ds : List SlotDraw) (v : Word) : Prop where
  bits : ds.map SlotDraw.level = msbBits v
  all : ∀ d ∈ ds, answered p d

/-- A pin is configured, the terminal agent does nothing, and nobody is inside a frame. -/
structure LinkReady (s : State) : Prop where
  pin : s.pinMask ≠ 0
  silent : s.termIn = []
  port : s.portOwner = .free

/-- The answer 0, given at the first poll. -/
def zeroDraw : SlotDraw := ⟨false, some 0⟩

/-- A step whose target address, if it has one, is 4-aligned (R68). -/
def stepAligned : SeqStep → Bool
  | .memWriteWord a _ => aligned4 a
  | .memReadWord a => aligned4 a
  | _ => true

/-- Every step list of the halt/reset controller and of link init uses aligned addresses only, and so does the unlock check. -/
structure AlignedConfig (p : Params) : Prop where
  pre : p.seqPre.all stepAligned = true
  modes : ∀ m, (modeSteps p m).all stepAligned = true
  boot : p.seqBootKeys.all stepAligned = true
  opt : p.seqOptDefault.all stepAligned = true
  lock : aligned4 p.lockReg = true

/-- A target that answers every read slot with 0 at the first poll: no register it is asked for is busy, has an error or is
locked, and it holds nothing but zeros. The terminal agent is unrestricted. -/
structure ZeroTarget (s : State) : Prop where
  valid : s.cfg.Valid
  aligned : AlignedConfig s.cfg
  pin : s.pinMask ≠ 0
  script : s.slotIn = []
  rest : s.slotRest = some zeroDraw

/-- A target that answers every read slot, with values of its own choice. The terminal agent is unrestricted. -/
structure AnswersAll (s : State) : Prop where
  script : ∀ d ∈ s.slotIn, answered s.cfg d
  rest : ∃ d, s.slotRest = some d ∧ answered s.cfg d

/-- The answer that ends a read frame: the line never goes high. -/
def deadDraw (level : Bool) : SlotDraw := ⟨level, none⟩

/-- Reads of the target: for each the answers of its data frame, and the value they give. -/
abbrev Reads := List (List SlotDraw × Word)

/-- `rs` are `n` reads, each with answers that give its value. -/
structure ReadsOk (p : Params) (n : Nat) (rs : Reads) : Prop where
  length : rs.length = n
  all : ∀ r ∈ rs, Answers p r.1 r.2

/-- The answers to reads of the target (R163, R166): each completion poll answers 0, then the data register gives the value. -/
def readScript (rs : Reads) : List SlotDraw := rs.flatMap fun r => List.replicate 32 zeroDraw ++ r.1

/-- The bytes of a word read, in address order (R66): bits 7:0 are the byte at its address. -/
def wordData (v : Word) : List Byte := [v.extractLsb' 0 8, v.extractLsb' 8 8, v.extractLsb' 16 8, v.extractLsb' 24 8]

/-- The bytes of the reads `rs` of words. -/
def wordsData (rs : Reads) : List Byte := rs.flatMap fun r => wordData r.2

/-- The bytes of the accesses `xs` of a blob read with the reads `rs` (R199): the four of a word, bits 7:0 of a byte read. -/
def readData (xs : List BlobAccess) (rs : Reads) : List Byte :=
  (List.zipWith (fun x r => match x with
    | .word _ => wordData r.2
    | .byte _ => [r.2.extractLsb' 0 8]) xs rs).flatten

/-- These accesses, as acts. -/
def readActs (xs : List BlobAccess) (rs : Reads) : List Act :=
  List.zipWith (fun x r => match x with
    | .word a => .readWord a true r.2
    | .byte a => .readByte a r.2) xs rs

/-- The status reads of a busy poll. -/
def statusActs (p : Params) (rs : Reads) : List Act := rs.map fun r => .readWord p.flashStatr false r.2

/-- The answers `r.1` give a status value `r.2` that is busy (R191). -/
abbrev busyStatus (p : Params) (r : List SlotDraw × Word) : Prop := Answers p r.1 r.2 ∧ r.2 &&& p.srBsy ≠ 0

/-- What the target answers to the write of one flash block (R198, R201): what is read back of it first, unless the range is made
of whole blocks; what is read back after each attempt that fails; and what is read back after the last. -/
structure BlockRun where
  base : Nat
  old : Reads
  failed : List Reads
  last : Reads
deriving DecidableEq, Repr

/-- The new content of the block (R198): the bytes of the data at their addresses, elsewhere what was read back. -/
def BlockRun.content (a : Nat) (data : List Byte) (b : BlockRun) : List Byte :=
  (List.range 64).map fun i =>
    if a ≤ b.base + i ∧ b.base + i < a + data.length then data.getD (b.base + i - a) 0 else (wordsData b.old).getD i 0

/-- The block verifies, after no more retries than `VERIFY_RETRIES`: every read-back but the last differs from the content. -/
structure BlockRun.Verifies (p : Params) (a : Nat) (data : List Byte) (b : BlockRun) : Prop where
  old : ReadsOk p (if a % 64 = 0 ∧ data.length % 64 = 0 then 0 else 16) b.old
  failed : ∀ rs ∈ b.failed, ReadsOk p 16 rs ∧ wordsData rs ≠ b.content a data
  retries : b.failed.length ≤ p.verifyRetries
  last : ReadsOk p 16 b.last
  same : wordsData b.last = b.content a data

/-- The answers to one attempt at a block (R201): its erase and its program need 29 polls, each answered 0, before it is read back. -/
def attemptScript (back : Reads) : List SlotDraw := List.replicate (29 * 32) zeroDraw ++ readScript back

/-- The answers to the write of the block. -/
def BlockRun.script (b : BlockRun) : List SlotDraw := readScript b.old ++ (b.failed ++ [b.last]).flatMap attemptScript

/-- What the write of the block does (R198, R201): the same content is erased, programmed and read back until it matches. -/
def BlockRun.acts (p : Params) (a : Nat) (data : List Byte) (b : BlockRun) : List Act :=
  readActs (blobReads 64 b.base 64) b.old ++ (b.failed ++ [b.last]).flatMap fun back =>
    eraseChunkActs p b.base ++ programActs p b.base (b.content a data) ++ readActs (blobReads 64 b.base 64) back

/-- How a busy poll of at most `limit` status reads ends (R191): the reads that were made, and the error, if there is one. -/
inductive PollEnds (p : Params) (checkWP : Bool) (limit : Nat) : Reads → Option ErrKind → Prop where
  /-- the first value that is not busy ends the poll; its write-protect bit is clear, or is not checked -/
  | ready (busy : Reads) (r : List SlotDraw × Word) : (∀ x ∈ busy, busyStatus p x) →
    busy.length < limit → Answers p r.1 r.2 → r.2 &&& p.srBsy = 0 → (checkWP = true → r.2 &&& p.srWrprt = 0) →
    PollEnds p checkWP limit (busy ++ [r]) none
  /-- the first value that is not busy has the write-protect bit set, and it is checked -/
  | writeProtected (busy : Reads) (r : List SlotDraw × Word) : (∀ x ∈ busy, busyStatus p x) →
    busy.length < limit → Answers p r.1 r.2 → r.2 &&& p.srBsy = 0 → checkWP = true → r.2 &&& p.srWrprt ≠ 0 →
    PollEnds p checkWP limit (busy ++ [r]) (some .flashWriteProtected)
  /-- every value up to the limit is busy -/
  | timeout (busy : Reads) : (∀ x ∈ busy, busyStatus p x) → busy.length = limit →
    PollEnds p checkWP limit busy (some .flashBusyTimeout)

/-- How the erase of the chunks `cs` ends, with the flash unlocked and completion polls that read 0 (R191, R193): the answers to it, what
it does, and the error, if there is one. -/
inductive EraseEnds (p : Params) : List Nat → List SlotDraw → List Act → Option ErrKind → Prop where
  /-- no chunk is left -/
  | done : EraseEnds p [] [] [] none
  /-- both polls of the first chunk find the flash ready, after any busy reads; the control register is cleared, and the erase goes on -/
  | erased (c : Nat) (cs : List Nat) (before after : Reads) (ds : List SlotDraw) (as : List Act) (result : Option ErrKind) :
    PollEnds p false p.busyPollLimit before none → PollEnds p true p.busyPollLimit after none → EraseEnds p cs ds as result →
    EraseEnds p (c :: cs)
      (readScript before ++ List.replicate (3 * 32) zeroDraw ++ readScript after ++ List.replicate 32 zeroDraw ++ ds)
      (statusActs p before ++ eraseStartActs p c ++ statusActs p after ++ [.writeWord p.flashCtlr 0] ++ as) result
  /-- the poll before the first chunk's commands ends with an error -/
  | notReady (c : Nat) (cs : List Nat) (before : Reads) (e : ErrKind) : PollEnds p false p.busyPollLimit before (some e) →
    EraseEnds p (c :: cs) (readScript before) (statusActs p before) (some e)
  /-- the poll after the first chunk's commands ends with an error, and the clear is not sent -/
  | failed (c : Nat) (cs : List Nat) (before after : Reads) (e : ErrKind) : PollEnds p false p.busyPollLimit before none →
    PollEnds p true p.busyPollLimit after (some e) →
    EraseEnds p (c :: cs) (readScript before ++ List.replicate (3 * 32) zeroDraw ++ readScript after)
      (statusActs p before ++ eraseStartActs p c ++ statusActs p after) (some e)

/-- A try of `UNBRICK` that does not find the target halted (R259), where the lists of its link init and its halt only send. -/
inductive FailedTry where
  /-- the halt completes, and the status register reads `v`, which the answers `ds` give -/
  | running (ds : List SlotDraw) (v : Word)
  /-- the first slot of the halt's completion poll times out -/
  | haltError (d : SlotDraw)
  /-- the halt completes, and the first slot of the status read times out -/
  | statusError (d : SlotDraw)
deriving DecidableEq, Repr

/-- Not every bit of `HALTED_MASK` is set in the status read; or the slot does time out. -/
def FailedTry.Fails (p : Params) : FailedTry → Prop
  | .running ds v => Answers p ds v ∧ v &&& p.haltedMask ≠ p.haltedMask
  | .haltError d => ¬ answered p d
  | .statusError d => ¬ answered p d

/-- The answers to the read slots of the try; the completion poll that does not time out is answered 0. -/
def FailedTry.script : FailedTry → List SlotDraw
  | .running ds _ => List.replicate 32 zeroDraw ++ ds
  | .haltError d => [d]
  | .statusError d => List.replicate 32 zeroDraw ++ [d]

/-- What the try does: a link init, a halt-and-reset and a status read, as far as it comes (R259, R283). -/
def FailedTry.acts (p : Params) : FailedTry → List Act
  | .running _ v => initActs p ++ haltActs p .haltReset ++ [.frame (.read p.dmStatus (some v))]
  | .haltError _ => initActs p ++ .drop :: stepsActs p (haltSteps p .haltReset)
      ++ [.frame (.read p.dmAbstractCs none), .invalidate]
  | .statusError _ => initActs p ++ haltActs p .haltReset ++ [.frame (.read p.dmStatus none)]

/-- The code of a result (R281). -/
def codeOf : Option ErrKind → Word
  | none => 0
  | some e => e.code

/-- A target, or a line, that never goes high again after a read slot's low pulse: every slot times out (R123 (c)). -/
structure DeadLine (s : State) : Prop where
  valid : s.cfg.Valid
  pin : s.pinMask ≠ 0
  script : s.slotIn = []
  rest : ∃ b, s.slotRest = some ⟨b, none⟩

/-- The watchdog does not expire: the clock stands still from here on, not past the deadline a refresh sets. -/
structure ClockStill (s : State) : Prop where
  script : s.clockIn = []
  rest : s.clockRest = some 0

/-! ### What an operation of the link leaves alone -/

/-- `t` differs from `s` at most in what the link's own operations write: the sequencer cache and `flashUnlocked`, the line
and the frame port (each left as it was or idle), the terminal's connection (never made while `active` is set), what is left
of the target's and the terminal's scripts, the records of what was sent (which only grow), and the response of the command
port (with `reqValid` and `ctl`). Every configuration register, every register of the flasher session, the power gate, every
request operand and every byte of the upload buffer is as before. -/
structure OnlyLink (s t : State) : Prop where
  cfg : t.cfg = s.cfg
  pinMask : t.pinMask = s.pinMask
  timingCoefficient : t.timingCoefficient = s.timingCoefficient
  powerGate : t.powerGate = s.powerGate
  status : t.status = s.status
  error : t.error = s.error
  offset : t.offset = s.offset
  size : t.size = s.size
  retryBudget : t.retryBudget = s.retryBudget
  currentRetry : t.currentRetry = s.currentRetry
  watchdogDeadline : t.watchdogDeadline = s.watchdogDeadline
  received : t.received = s.received
  uploadBuffer : t.uploadBuffer = s.uploadBuffer
  active : t.active = s.active
  reqOp : t.reqOp = s.reqOp
  reqA : t.reqA = s.reqA
  reqB : t.reqB = s.reqB
  reqC : t.reqC = s.reqC
  reqPresent : t.reqPresent = s.reqPresent
  reqFinal : t.reqFinal = s.reqFinal
  reqData : t.reqData = s.reqData
  now : t.now = s.now
  clockIn : t.clockIn = s.clockIn
  clockRest : t.clockRest = s.clockRest
  clockCount : t.clockCount = s.clockCount
  slotRest : t.slotRest = s.slotRest
  slotIn : t.slotIn <:+ s.slotIn
  termIn : t.termIn <:+ s.termIn
  hostIn : t.hostIn = s.hostIn
  pinDrive : t.pinDrive = s.pinDrive ∨ t.pinDrive = .released ∨ t.pinDrive = highOut s.cfg
  portOwner : t.portOwner = s.portOwner ∨ t.portOwner = .free
  irqMasked : t.irqMasked = s.irqMasked ∨ t.irqMasked = false
  connected : t.terminalConnected = true → s.terminalConnected = true ∨ s.active = false
  lineLog : s.lineLog <+: t.lineLog
  frameLog : s.frameLog <+: t.frameLog

/-- A request ended with this code (R265): the response is valid, the request consumed, no operation in progress. -/
structure Responded (code : Word) (t : State) : Prop where
  rspValid : t.rspValid = true
  rspCode : t.rspCode = code
  reqValid : t.reqValid = false
  ctl : t.ctl = none

/-! ### Invariants of a state between two steps -/

/-- The configuration registers hold legal values (R9, R21, R22). -/
structure ConfigOk (s : State) : Prop where
  valid : s.cfg.Valid
  pin : s.pinMask = 0 ∨ ∃ k, k < Config.gpioWidth ∧ s.pinMask = 1#32 <<< k
  coeff_ge : 2 ≤ s.timingCoefficient.toNat
  coeff_le : s.timingCoefficient.toNat ≤ s.cfg.coeffMax.toNat

/-- The line is idle and nobody is inside a frame or an operation (R32, R33, R45, R127, R31). -/
structure LineIdle (s : State) : Prop where
  port : s.portOwner = .free
  mask : s.irqMasked = false
  ctl : s.ctl = none
  pin : s.pinDrive = .released ∨ (s.pinDrive = .driveHigh ∧ s.cfg.highDrive = .driveHigh)
  power : s.powerGate = true

/-- The request's byte string fits the command port (R43). -/
structure PortOk (s : State) : Prop where
  data : s.reqData.length ≤ s.cfg.maxBinary

/-- The flasher session between two requests (R34 to R42, R237, R238, R240): `active` says that an upload is open; the
bytes received so far are in the buffer; the window and the retry counts are legal. -/
structure SessionOk (s : State) : Prop where
  active : s.active = true ↔ s.status = .uploading
  notUpdating : s.status ≠ .updating
  terminal : s.active = true → s.terminalConnected = false
  retry : s.currentRetry.toNat ≤ s.retryBudget.toNat
  budget : s.retryBudget.toNat ≤ s.cfg.retryMax
  buffer : Memory.wf s.uploadBuffer
  error : s.status = .uploading → s.error = 0
  size_pos : s.status = .uploading → 1 ≤ s.size.toNat
  size_le : s.status = .uploading → s.size.toNat ≤ s.cfg.maxBinary
  range : s.status = .uploading → s.offset.toNat + s.size.toNat ≤ 2 ^ 32
  unmixed : s.status = .uploading → classify s.cfg s.offset.toNat s.size.toNat ≠ .mixed
  received : s.status = .uploading → s.received.toNat ≤ s.size.toNat
  stored : s.status = .uploading → ∀ i, i < s.received.toNat → (Memory.read s.uploadBuffer i).isSome

/-- The result codes of R281. -/
def resultCodes : List Word :=
  [0, ErrKind.code .bitTimeout, ErrKind.code .busFault, ErrKind.code .abstractCommandError, ErrKind.code .flashBusyTimeout,
    ErrKind.code .flashWriteProtected, ErrKind.code .flashUnlockFailed, ErrKind.code .verifyMismatch,
    ErrKind.code .uploadSizeMismatch, ErrKind.code .parameterMissing, ErrKind.code .outOfRange, ErrKind.code .sessionBusy,
    ErrKind.code .timeout, ErrKind.code .initFailure, ErrKind.code .unimplemented, ErrKind.code .unknownCommand,
    ErrKind.code .misaligned]

/-- `rspCode` and `error` hold result codes only (R281). -/
structure CodesOk (s : State) : Prop where
  rspCode : s.rspCode ∈ resultCodes
  error : s.error ∈ resultCodes

/-- The transitions of `status` that one step may make (R237): a step may handle a watchdog expiry and then a request, and
`Updating` is entered and left inside one step. -/
def statusStep : Status → Status → Bool
  | .idle, .idle | .idle, .uploading => true
  | .uploading, .idle | .uploading, .uploading | .uploading, .success | .uploading, .failed => true
  | .updating, .idle | .updating, .uploading | .updating, .updating => true
  | .success, .idle | .success, .uploading | .success, .success => true
  | .failed, .idle | .failed, .uploading | .failed, .failed => true
  | _, _ => false

end Sys2Proof.Safety
end

