-- ==== Sys2Proof/Certificates/Slice0/Obligations.lean ====
section
/-!
DEFINITION. The statements made about the model, in the order of `OBLIGATIONS.json`: encodings, the step, configuration and
upload, the bit PHY, frames, the sequencer, the flash engine, the orchestrator, codes, and the invariants.

Terms used throughout: `LinkReady` (a pin is configured, the terminal is silent, nobody is inside a frame), `ZeroTarget` (a
target that answers every read slot with 0; the terminal is unrestricted), `AnswersAll` (a target that answers every read slot,
with any value), `DeadLine` (every read slot times out), `ClockStill` (the clock does not move), `OnlyLink s t` (nothing but the
link's own state differs), `Sent s t acts` (exactly the frames of these acts were sent, and the cache is the one they leave),
`Sends s t acts` (their frames are among those sent, in order; with a silent terminal, exactly), all in `Safety.lean`.
-/
open Sys2Proof Sys2Proof.Machine Sys2Proof.Safety
open Sys2Proof.Config (Params SlotDraw SeqStep)

/-! ### Encodings -/

/-- Decoding the encoding of an instruction gives it back, for every instruction and every value of its operands (R90 to R95,
R100, R101, R105). -/
def Obligations.DecodeEncodeRoundTrip : Prop :=
  ∀ i : Instr, decode (encode i) = .ok i

/-- A wire string that decodes is the encoding of what it decodes to: no symbol of a frame is dropped (R93, R94, R95). -/
def Obligations.WireStringsReencode : Prop :=
  ∀ (w : List WireTok) (i : Instr), decodeWire w = .ok i → encode i = .wire w

/-- Words written out from the spec's encodings decode to the instructions they stand for: `RAW_WRITE` and `RAW_READ` (P1, steps 2
and 3), `UPLOAD_BEGIN` without `C` and a last `UPLOAD_DATA` (P4 step 2, P3 step 4), `SEQ_READ_WORD` with `B` = 0xFFFFFFF1 and
`SEQ_WRITE_BYTE` with `B` = 0x1A5 (written for this statement, from R105), the frames V-FRM-1 and V-FRM-9, and the lone symbols. -/
def Obligations.SpecWordsDecode : Prop :=
  decodeRequest ⟨0x40#8, 17#32, 1234#32, 0#32, 0b011#3, false, []⟩ = .ok (.rawWrite (some 17#32) (some 1234#32)) ∧
  decodeRequest ⟨0x41#8, 17#32, 0#32, 0#32, 0b001#3, false, []⟩ = .ok (.rawRead (some 17#32)) ∧
  decodeRequest ⟨0x42#8, 0x08000000#32, 100#32, 0#32, 0b011#3, false, []⟩
    = .ok (.uploadBegin (some 0x08000000#32) (some 100#32) none) ∧
  decodeRequest ⟨0x43#8, 0#32, 0#32, 0#32, 0b000#3, true, [4#8, 5#8, 6#8, 7#8]⟩
    = .ok (.uploadData [4#8, 5#8, 6#8, 7#8] true) ∧
  decodeRequest ⟨0x10#8, 0x20000000#32, 0xFFFFFFF1#32, 0#32, 0b011#3, false, []⟩
    = .ok (.seqReadWord (some 0x20000000#32) (some true)) ∧
  decodeRequest ⟨0x13#8, 0x20000001#32, 0x1A5#32, 0#32, 0b011#3, false, []⟩
    = .ok (.seqWriteByte (some 0x20000001#32) (some 0xA5#8)) ∧
  decodeWire
    [.s1, .s0, .s0, .s1, .s0, .s0, .s0, .s1, .s1, .s0, .s0, .s0, .s0, .s0, .s0, .s0, .s0, .s0, .s0, .s0, .s0, .s0,
    .s0, .s0, .s0, .s0, .s0, .s0, .s0, .s0, .s1, .s0, .s0, .s1, .s1, .s0, .s1, .s0, .s0, .s1, .s0]
    = .ok (.writeFrame 0x11#7 0x000004D2#32) ∧
  decodeWire
    [.s1, .s0, .s0, .s1, .s0, .s1, .s1, .s0, .s0, .rs, .rs, .rs, .rs, .rs, .rs, .rs, .rs, .rs, .rs, .rs, .rs, .rs,
    .rs, .rs, .rs, .rs, .rs, .rs, .rs, .rs, .rs, .rs, .rs, .rs, .rs, .rs, .rs, .rs, .rs, .rs, .rs]
    = .ok (.readFrame 0x16#7) ∧
  decodeWire [.s1] = .ok .sym1 ∧ decodeWire [.s0] = .ok .sym0 ∧ decodeWire [.rs] = .ok .readSlot

/-- A line monitor with a threshold between the two low phases (R92) reads every frame back from the lengths of its low phases (R93
to R95), and a read slot's low pulse is shorter than the low phase of either symbol. That it tells a read slot by its place after a
read frame's separator, and not by the length, is the model's choice (log 17). -/
def Obligations.MonitorReadsFrames : Prop :=
  ∀ (p : Params) (who : Issuer) (c thresh : Nat) (cmd : Cmd) (value : Word) (ds : List SlotDraw),
    p.Valid → 2 ≤ c → 1 * c * p.tau < thresh → thresh < 4 * c * p.tau → ds.length = 32 →
    (∃ w, monitorWire thresh (lowPhases (writeFrameEvents p who c cmd value)) = some w ∧
      decodeWire w = .ok (.writeFrame cmd value)) ∧
    (∃ w, monitorWire thresh (lowPhases (readFrameEvents p who c cmd ds)) = some w ∧
      decodeWire w = .ok (.readFrame cmd)) ∧
    p.readLow < 1 * c * p.tau ∧ p.readLow < 4 * c * p.tau

/-! ### The step -/

/-- The command port (R43, R44, R265). When its request decodes to an instruction the port accepts, and no other agent acts first
(the terminal has nothing to do, and the host has nothing to do or waits with its next request), the step is the watchdog check of
R265 followed by exactly that instruction. When the port is empty and the host has a request that fits, the step writes it, field by
field, into the port, with `reqValid` set; when the host has read a response, the step clears `rspValid`; neither changes anything
else. (That one request is one step, and the order of the agents, are the model's choices, logs 5 and 15; that a request that is too
long is dropped, log 19.) -/
def Obligations.StepRunsRequest : Prop :=
  (∀ (s : State) (i : Instr),
    s.irqMasked = false → s.termIn = [] → (s.hostIn = [] ∨ ∃ r hs, s.hostIn = .submit r :: hs) → s.reqValid = true →
    decodeRequest (requestOf s) = .ok i → (isInternal i = true → s.cfg.testPort = true) →
    step s = exec i (watchdogCheck s).2) ∧
  ∀ s : State, s.irqMasked = false → (s.termIn = [] ∨ ∃ ts, s.termIn = [] :: ts) →
    (∀ (r : Request) (hs : List HostAct), s.hostIn = .submit r :: hs → s.reqValid = false →
      if r.data.length ≤ s.cfg.maxBinary then
        step s = .next { s with
          termIn := s.termIn.tail
          hostIn := hs
          reqValid := true
          reqOp := r.op
          reqA := r.a
          reqB := r.b
          reqC := r.c
          reqPresent := r.present
          reqFinal := r.last
          reqData := r.data }
      else step s = .next { s with termIn := s.termIn.tail, hostIn := hs }) ∧
    ∀ hs : List HostAct, s.hostIn = .ack :: hs →
      step s = .next { s with termIn := s.termIn.tail, hostIn := hs, rspValid := false }

/-- When the connected terminal's next action presents a string at the frame port that decodes, the step is exactly that
instruction, with the action taken off the terminal's script. (The order of the agents is the model's choice, log 15.) -/
def Obligations.StepRunsWireString : Prop :=
  ∀ (s : State) (i : Instr) (w : List WireTok) (as : List TermAct) (ts : List (List TermAct)),
    s.irqMasked = false → s.termIn = (.issue w :: as) :: ts → s.terminalConnected = true → decodeWire w = .ok i →
    step s = exec i { s with termIn := as :: ts }

/-- R103: the opcodes that decode are exactly those R103 does not reserve; a reserved opcode, and an internal one when
`TEST_PORT` is false, ends the request (R265 clears `reqValid`) with `UnknownCommand` and changes nothing else. -/
def Obligations.UnknownOpcodesRefused : Prop :=
  (∀ r : Request, (∃ i, decodeRequest r = .ok i) ↔ reservedOp r.op = false) ∧
  ∀ s : State, s.irqMasked = false → s.termIn = [] → s.hostIn = [] → s.reqValid = true →
    (reservedOp s.reqOp = true ∨
      ∃ i, decodeRequest (requestOf s) = .ok i ∧ isInternal i = true ∧ s.cfg.testPort = false) →
    step s = .next { (watchdogCheck s).2 with
      rspValid := true, rspCode := BitVec.ofInt 32 (-15), reqValid := false }

/-- R102: a missing operand ends the request with `ParameterMissing` before any frame and before every other check, `UNBRICK`'s
excepted, which needs none; a command of 128 or more is refused with `OutOfRange` before any symbol (R96). A refused request
changes no state other than the response (R265). -/
def Obligations.RefusedOperands : Prop :=
  (∀ (i : Instr) (s : State), operandMissing i = true → exec i s = .next (respondErr .parameterMissing s)) ∧
  (∀ (a v : Word) (s : State), 128 ≤ a.toNat →
    exec (.rawWrite (some a) (some v)) s = .next (respondErr .outOfRange s) ∧
    exec (.rawRead (some a)) s = .next (respondErr .outOfRange s) ∧
    exec (.frameWrite (some a) (some v)) s = .next (respondErr .outOfRange s) ∧
    exec (.frameRead (some a)) s = .next (respondErr .outOfRange s)) ∧
  (∀ (e : ErrKind) (s : State), Responded e.code (respondErr e s) ∧ ∃ value data, respondErr e s = { s with
    rspValid := true, rspCode := e.code, rspValue := value, rspData := data, freeCount := s.freeCount + 1,
    reqValid := false, ctl := none })

/-- No command, configuration write or other issuer is admitted while `irqMasked` is set (R33, R140): such a step only ends
the frame on the line. (That a frame left on the line between two steps ends at once is the model's choice, log 5.) -/
def Obligations.MaskedStepEndsTheFrame : Prop :=
  ∀ s : State, s.irqMasked = true →
    step s = .next { s with
      portOwner := .free
      irqMasked := false
      lineLog := s.lineLog ++ (match s.portOwner with
        | .free => []
        | .held who => [.release who]) }

/-! ### Configuration and status -/

/-- R262: `SETPIN` for every operand and every state. A legal mask is 0 or has exactly one bit set. -/
def Obligations.SetPinRule : Prop :=
  (∀ r : Request, r.op = 0x60 → decodeRequest r = .ok (.setPin r.opA)) ∧
  ∀ s : State,
    exec (.setPin none) s = .next (respondErr .parameterMissing s) ∧
    ∀ m : Word,
      if ¬ (m = 0 ∨ ∃ k, k < 32 ∧ m = 1#32 <<< k) then exec (.setPin (some m)) s = .next (respondErr .outOfRange s)
      else if s.status = .uploading ∨ s.status = .updating then
        exec (.setPin (some m)) s = .next (respondErr .sessionBusy s)
      else
        exec (.setPin (some m)) s
            = .next (respond 0 none none { s with pinMask := m, sessionTag := .none, flashUnlocked := false }) ∧
          (m = 0 → ∀ who cmd v t, t.pinMask = m →
            frameWrite who cmd v t = .err .initFailure t ∧ frameRead who cmd t = .err .initFailure t)

/-- `SETCOEFF` (R263) for every operand, in every state: 2 to `COEFF_MAX` is stored, anything else refused. -/
def Obligations.SetCoeffRule : Prop :=
  ∀ s : State,
    exec (.setCoeff none) s = .next (respondErr .parameterMissing s) ∧
    ∀ c : Word,
      if c.toNat < 2 ∨ s.cfg.coeffMax.toNat < c.toNat then
        exec (.setCoeff (some c)) s = .next (respondErr .outOfRange s)
      else exec (.setCoeff (some c)) s = .next (respond 0 none none { s with timingCoefficient := c })

/-- R247: `STATUS` reports the session's code and state and consumes a result; `error` is kept. -/
def Obligations.StatusRule : Prop :=
  (∀ r : Request, r.op = 0x44 → decodeRequest r = .ok .status) ∧
  ∀ s : State,
    exec .status s = .next { respond s.error (some s.status.code) none s with
      status := if s.status = .success ∨ s.status = .failed then .idle else s.status } ∧
    (SessionOk s → s.status = .uploading → s.error = 0 ∧ s.status.code = 1)

/-! ### Upload and update -/

/-- `UPLOAD_BEGIN` (R240, R239, R245) for operands that are all supplied, in every state: the range checks, then `SessionBusy`,
else the session opened. The upload buffer holds no value after it (R40; log 7). -/
def Obligations.UploadBeginRule : Prop :=
  ∀ (s : State) (a n : Word) (retries : Option Word),
    if n = 0 ∨ s.cfg.maxBinary < n.toNat ∨ 2 ^ 32 < a.toNat + n.toNat
        ∨ classify s.cfg a.toNat n.toNat = .mixed ∨ (∃ r, retries = some r ∧ s.cfg.retryMax < r.toNat) then
      exec (.uploadBegin (some a) (some n) retries) s = .next (respondErr .outOfRange s)
    else if s.status = .uploading ∨ s.status = .updating then
      exec (.uploadBegin (some a) (some n) retries) s = .next (respondErr .sessionBusy s)
    else
      exec (.uploadBegin (some a) (some n) retries) s = .next (respond 0 none none { readClock s with
        active := true
        terminalConnected := false
        offset := a
        size := n
        retryBudget := retries.getD 0
        currentRetry := 0
        received := 0
        uploadBuffer := []
        error := 0
        status := .uploading
        watchdogDeadline := (readClock s).now + s.cfg.watchdogTimeout })

/-- A chunk of an open upload that fits and is not the last (R241): its bytes are stored after the bytes received so far, and
every other byte of the upload buffer, and every other register but the deadline, is as before. -/
def Obligations.UploadDataChunk : Prop :=
  ∀ (s : State) (data : List Byte),
    SessionOk s → s.status = .uploading → s.received.toNat + data.length ≤ s.size.toNat →
    ∃ (n : Word) (buffer : Memory),
      exec (.uploadData data false) s = .next (respond 0 none none { readClock s with
        received := n
        uploadBuffer := buffer
        watchdogDeadline := (readClock s).now + s.cfg.watchdogTimeout }) ∧
      n.toNat = s.received.toNat + data.length ∧
      (∀ i b, data[i]? = some b → Memory.read buffer (s.received.toNat + i) = some b) ∧
      ∀ j, j < s.received.toNat ∨ s.received.toNat + data.length ≤ j →
        Memory.read buffer j = Memory.read s.uploadBuffer j

/-- `UPLOAD_DATA` that is refused or fails the session (R241): with no upload open nothing changes but the response; a chunk that
passes the declared size stores none of its bytes; a last chunk that leaves bytes missing fails the session. No frame is sent. (That
the two refreshes read the clock twice is the model's choice, log 10.) -/
def Obligations.UploadDataMismatch : Prop :=
  ∀ (s : State) (data : List Byte) (last : Bool),
    (s.status ≠ .uploading → exec (.uploadData data last) s = .next (respondErr .uploadSizeMismatch s)) ∧
    (s.status = .uploading → s.size.toNat < s.received.toNat + data.length →
      exec (.uploadData data last) s = .next (respondErr .uploadSizeMismatch { readClock (readClock s) with
        error := ErrKind.uploadSizeMismatch.code
        status := .failed
        active := false
        watchdogDeadline := (readClock (readClock s)).now + s.cfg.watchdogTimeout })) ∧
    (SessionOk s → s.status = .uploading → s.received.toNat + data.length < s.size.toNat →
      exec (.uploadData data true) s = .next (respondErr .uploadSizeMismatch { readClock (readClock s) with
        received := s.received + BitVec.ofNat 32 data.length
        uploadBuffer := Memory.writeBytes s.uploadBuffer s.received.toNat data
        error := ErrKind.uploadSizeMismatch.code
        status := .failed
        active := false
        watchdogDeadline := (readClock (readClock s)).now + s.cfg.watchdogTimeout }))

/-- A last chunk that completes an upload runs the update (R241, R242, R244), and on a target that answers every slot with 0 it ends in
`Success`: for any bytes to a RAM destination, and for zero bytes to flash (whose read-back then matches), whatever a terminal that
`UPLOAD_BEGIN` disconnected tries to do. The frames are those of link init, of the halt (with reset for a flash destination, without for
RAM), of the blob write, and of the closing reboot or resume, in this order and no other. (That an `FW` step of a list leaves the tag of
a resident program as it was, whatever register it writes, follows R141, R160 and R250, where R28 could have it dropped, log 24.) -/
def Obligations.UpdateSucceeds : Prop :=
  ∀ (s : State) (data : List Byte),
    SessionOk s → s.status = .uploading → ZeroTarget s → ClockStill s →
    s.received.toNat + data.length = s.size.toNat →
    (classify s.cfg s.offset.toNat s.size.toNat = .nonFlash ∨
      classify s.cfg s.offset.toNat s.size.toNat = .flash ∧
        (∀ i, i < s.received.toNat → Memory.read s.uploadBuffer i = some 0) ∧ ∀ b ∈ data, b = 0) →
    let flash := classify s.cfg s.offset.toNat s.size.toNat == .flash
    let buffer := Memory.writeBytes s.uploadBuffer s.received.toNat data
    ∃ t, exec (.uploadData data true) s = .next t ∧ Responded 0 t ∧ t.rspValue = Status.code .success ∧
      t.terminalConnected = false ∧
      OnlyLink { s with
        status := .success
        error := 0
        active := false
        received := s.size
        uploadBuffer := buffer
        watchdogDeadline := s.now + s.cfg.watchdogTimeout } t ∧
      Sent s t (initActs s.cfg ++ haltActs s.cfg (openMode flash)
        ++ updateWriteActs s.cfg flash s.offset.toNat (uploadedBytes buffer s.size.toNat) ++ haltActs s.cfg (closeMode flash))

/-- The retry budget is respected (R242, R243). On a line where every read slot times out each attempt fails, so the run ends in
`Failed` after as many retries as the budget allows and not one more, with the last failure's code: with aligned step lists,
`InitFailure` if the handshake reads, else `BusFault`. Where only the first `n` attempts meet a dead slot and the target answers 0
from then on, the update succeeds after `n` retries exactly if the budget allows `n`. -/
def Obligations.RetryBudgetExhausted : Prop :=
  ∀ (s : State) (data : List Byte),
    SessionOk s → s.status = .uploading → ClockStill s → s.received.toNat + data.length = s.size.toNat →
    let buffer := Memory.writeBytes s.uploadBuffer s.received.toNat data
    let failure := if s.cfg.seqInit.any readsRegister then ErrKind.initFailure.code else ErrKind.busFault.code
    let failed := fun code => { s with
      status := .failed
      error := code
      active := false
      received := s.size
      currentRetry := s.retryBudget
      uploadBuffer := buffer
      watchdogDeadline := s.now + s.cfg.watchdogTimeout }
    (DeadLine s →
      ∃ (t : State) (code : Word), exec (.uploadData data true) s = .next t ∧ Responded code t ∧
        code ∈ resultCodes ∧ code ≠ 0 ∧ (AlignedConfig s.cfg → code = failure) ∧ t.rspValue = Status.code .failed ∧
        t.terminalConnected = false ∧ OnlyLink (failed code) t) ∧
    ∀ (n : Nat) (b : Bool), s.cfg.Valid → AlignedConfig s.cfg → s.pinMask ≠ 0 →
      s.slotIn = List.replicate n (deadDraw b) → s.slotRest = some zeroDraw →
      (classify s.cfg s.offset.toNat s.size.toNat = .nonFlash ∨
        classify s.cfg s.offset.toNat s.size.toNat = .flash ∧
          (∀ i, i < s.received.toNat → Memory.read s.uploadBuffer i = some 0) ∧ ∀ x ∈ data, x = 0) →
      ∃ t, exec (.uploadData data true) s = .next t ∧ t.terminalConnected = false ∧
        if s.currentRetry.toNat + n ≤ s.retryBudget.toNat then
          Responded 0 t ∧ t.rspValue = Status.code .success ∧
            OnlyLink { failed 0 with status := .success, currentRetry := s.currentRetry + BitVec.ofNat 32 n } t
        else Responded failure t ∧ t.rspValue = Status.code .failed ∧ OnlyLink (failed failure) t

/-- The watchdog check of an idle control loop (R246): `Idle` never expires; any other state expires when the clock has passed the
deadline, and not at the deadline itself. (That the check reads the clock once, and not at all in `Idle`, is the model's choice,
log 10.) -/
def Obligations.WatchdogRule : Prop :=
  ∀ s : State, s.irqMasked = false → s.termIn = [] → s.hostIn = [] → s.reqValid = false →
    if s.status = .idle then step s = .next s
    else if (readClock s).now ≤ s.watchdogDeadline then step s = .next (readClock s)
    else if s.status = .uploading ∨ s.status = .updating then
      step s = .next { readClock s with error := BitVec.ofInt 32 (-12), status := .idle, active := false }
    else step s = .next { readClock s with status := .idle }

/-! ### The bit PHY -/

/-- A symbol sent alone (R121, R122, R125), on the test port and at the frame port: low for `1*c` or `4*c` units, high for `1*c`
units, no gap; on the test port with no pin configured, `InitFailure` and no output change (R126). (That a lone symbol at the frame
port runs so is the model's choice, log 6; that the delay too needs a pin is a reading of R126, log 11.) -/
def Obligations.PhySymbols : Prop :=
  ∀ s : State,
    (LinkReady s →
      exec .phySend1 s = .next (respond 0 none none (afterSymbol .control true s)) ∧
      exec .phySend0 s = .next (respond 0 none none (afterSymbol .control false s)) ∧
      exec .sym1 s = .next (afterSymbol .terminal true s) ∧
      exec .sym0 s = .next (afterSymbol .terminal false s)) ∧
    (s.pinMask = 0 → s.termIn = [] →
      exec .phySend1 s = .next (respondErr .initFailure s) ∧ exec .phySend0 s = .next (respondErr .initFailure s) ∧
      exec .phyReadBit s = .next (respondErr .initFailure s) ∧
      ∀ n, exec (.phyDelay (some n)) s = .next (respondErr .initFailure s))

/-- `PHY_DELAY` (R120, R125): the output is held as it is for exactly `n` units, and nothing is sampled. -/
def Obligations.PhyDelayRule : Prop :=
  ∀ (s : State) (n : Word), LinkReady s →
    exec (.phyDelay (some n)) s = .next (respond 0 none none { s with
      irqMasked := false
      lineLog := s.lineLog ++ [.take .control s.timingCoefficient.toNat, .hold (n.toNat * s.cfg.tau), .unmask,
        .release .control] })

/-- A read slot run alone (R123, R124, R125), for every answer `d` of the target: the sampled level if a poll sees the line high,
else `TIMEOUT` (on the test port code `BitTimeout` with value 2); and how long it takes. (That a lone slot at the frame port runs
so is the model's choice, log 6.) -/
def Obligations.PhyReadSlot : Prop :=
  ∀ (s : State) (d : SlotDraw), LinkReady s → s.slotIn.head? = some d →
    exec .phyReadBit s = .next
      (if (seenHigh s.cfg d).isSome then
        respond 0 (some (if d.level then 1 else 0)) none (afterSlot .control d s)
      else respond (BitVec.ofInt 32 (-1)) (some 2) none (afterSlot .control d s)) ∧
    exec .readSlot s = .next (afterSlot .terminal d s) ∧
    ticks s.cfg (slotEvents s.cfg s.timingCoefficient.toNat d)
      = s.cfg.readLow + 2 * s.timingCoefficient.toNat * s.cfg.tau + slotWaits s.cfg d * s.cfg.pollTime

/-- With no pin configured no instruction puts a symbol on the line or samples it, whatever the terminal does (R126, R140): all
that the line's record can gain is a wait with the output held, or the power gate. -/
def Obligations.NoPinNothingOnTheLine : Prop :=
  ∀ (i : Instr) (s t : State), s.pinMask = 0 → exec i s = .next t →
    t.pinDrive = s.pinDrive ∧ t.portOwner = s.portOwner ∧ t.irqMasked = s.irqMasked ∧ t.frameLog = s.frameLog ∧
    t.slotIn = s.slotIn ∧ t.slotCount = s.slotCount ∧
    ∃ es, t.lineLog = s.lineLog ++ es ∧ ∀ e ∈ es, (∃ n, e = .hold n) ∨ ∃ on, e = .power on

/-! ### Frames -/

/-- A write frame from each of its issuers (R93, R140, R141, R146, R150, R52): what it puts on the line, and all that it leaves changed.
`RAW_WRITE` drops a resident program first; the terminal sets `sessionTag` to `Terminal` first. (That `FRAME_WRITE` leaves the tag as it
was, whatever register it writes, follows R141 and R160 where R28 could have it dropped, log 24.) -/
def Obligations.WriteFrameRule : Prop :=
  ∀ (s : State) (a v : Word) (cmd : Cmd), LinkReady s → a.toNat = cmd.toNat →
    exec (.frameWrite (some a) (some v)) s = .next (respond 0 none none (afterWrite .control cmd v s)) ∧
    exec (.rawWrite (some a) (some v)) s
      = .next (respond 0 none none (afterWrite .control cmd v { s with sessionTag := tagDropped s.sessionTag })) ∧
    exec (.writeFrame cmd v) s = .next (afterWrite .terminal cmd v { s with sessionTag := .terminal })

/-- A read frame whose 32 slots are answered with the bits of `v`, most significant first, returns `v` to each of its issuers
(R65, R94, R96, R140, R143, R147, R150), and changes nothing else but what is stated. (That `FRAME_READ` leaves `sessionTag` as it
was, where R28 could have it dropped, is the model's choice, log 24.) -/
def Obligations.ReadFrameRule : Prop :=
  ∀ (s : State) (a v : Word) (cmd : Cmd) (ds rest : List SlotDraw),
    LinkReady s → a.toNat = cmd.toNat → s.slotIn = ds ++ rest → Answers s.cfg ds v →
    exec (.frameRead (some a)) s = .next (respond 0 (some v) none (afterRead .control cmd ds (some v) s)) ∧
    exec (.rawRead (some a)) s = .next (respond 0 (some v) none
      (afterRead .control cmd ds (some v) { s with sessionTag := tagDropped s.sessionTag })) ∧
    exec (.readFrame cmd) s = .next (afterRead .terminal cmd ds (some v) s)

/-- R144: at the first read slot that times out the frame ends: no further slot is run, the pin stays `Released`, `irqMasked` is
cleared, the gap is still applied, and the result is `BusFault` with no value, whatever bits came before. In a terminal frame it
ends the terminal's session only (R150, R297 (c)). No other register is changed (R284) but by `RAW_READ`'s own invalidation (R147).
(That `FRAME_READ` leaves `sessionTag` as it was, where R28 could have it dropped, is the model's choice, log 24.) -/
def Obligations.ReadFrameBusFault : Prop :=
  ∀ (s : State) (a : Word) (cmd : Cmd) (ds rest : List SlotDraw) (d : SlotDraw),
    LinkReady s → a.toNat = cmd.toNat → s.slotIn = ds ++ d :: rest → ds.length < 32 →
    (∀ x ∈ ds, answered s.cfg x) → ¬ answered s.cfg d →
    exec (.frameRead (some a)) s
      = .next (respondErr .busFault (afterRead .control cmd (ds ++ [d]) none s)) ∧
    exec (.rawRead (some a)) s = .next (respondErr .busFault
      (afterRead .control cmd (ds ++ [d]) none { s with sessionTag := tagDropped s.sessionTag })) ∧
    exec (.readFrame cmd) s
      = .next { afterRead .terminal cmd (ds ++ [d]) none s with terminalConnected := false } ∧
    (afterRead .control cmd (ds ++ [d]) none s).pinDrive = .released ∧
    (afterRead .control cmd (ds ++ [d]) none s).irqMasked = false

/-- R149: how long the symbols of a write frame and a read frame last, by the number of 1 bits, the gap after them, and the
shortest and the longest write frame. -/
def Obligations.FrameDurations : Prop :=
  ∀ (p : Params) (who : Issuer) (c : Nat) (cmd : Cmd) (value : Word) (ds : List SlotDraw),
    let n1 := ones (writeFrameBits cmd value)
    let h1 := ones (headerBits cmd false)
    ticks p (writeFrameEvents p who c cmd value) = (n1 * 2 * c + (41 - n1) * 5 * c) * p.tau + p.frameGap ∧
    ticks p (readFrameEvents p who c cmd ds)
      = (h1 * 2 * c + (9 - h1) * 5 * c) * p.tau
        + (ds.map fun d => p.readLow + 2 * c * p.tau + slotWaits p d * p.pollTime).sum + p.frameGap ∧
    82 * c ≤ n1 * 2 * c + (41 - n1) * 5 * c ∧ n1 * 2 * c + (41 - n1) * 5 * c ≤ 199 * c ∧
    (cmd = 127 → value = 0xFFFFFFFF → n1 * 2 * c + (41 - n1) * 5 * c = 82 * c) ∧
    (cmd = 0 → value = 0 → n1 * 2 * c + (41 - n1) * 5 * c = 199 * c)

/-! ### The sequencer -/

/-- `SEQ_READ_WORD` of an aligned address (R161, R162, R163), against a target whose completion poll reads `v1` (not busy, no
error) and whose data register reads `v2`: reprogramming unless the program is resident, the address frame unless the cached
address is known to match, the execute frame, the poll, the data frame; and the new cache. -/
def Obligations.WordReadRule : Prop :=
  ∀ (s : State) (a v1 v2 : Word) (ai : Bool) (ds1 ds2 rest : List SlotDraw),
    LinkReady s → s.cfg.Valid → a.toNat % 4 = 0 → s.slotIn = ds1 ++ ds2 ++ rest →
    Answers s.cfg ds1 v1 → Answers s.cfg ds2 v2 → v1 &&& s.cfg.csBusy = 0 → v1 &&& s.cfg.csErr = 0 →
    let resident := s.sessionTag = .readSequence ∧ s.autoIncrementActive = ai
    let frames := (if resident then [] else
        reprogramFrames s.cfg (if ai then s.cfg.progReadInc else s.cfg.progReadPlain) (some s.cfg.autoRead))
      ++ (if resident ∧ s.cachedAddress = a then [] else [(s.cfg.dmData1, a)]) ++ [(s.cfg.dmCommand, s.cfg.cmdExec)]
    exec (.seqReadWord (some a) (some ai)) s = .next (respond 0 (some v2) none
      { afterRead .control s.cfg.dmData0 ds2 (some v2)
          (afterRead .control s.cfg.dmAbstractCs ds1 (some v1) (afterWrites frames s)) with
        sessionTag := .readSequence
        autoIncrementActive := ai
        cachedAddress := if ai then a + 4 else a })

/-- `SEQ_WRITE_WORD` of an aligned address (R161, R162, R165), against a target whose completion poll reads `v1` (not busy, no
error): reprogramming unless the program for flash or for RAM is resident, the address frame unless the cached address is known
to match, the data frame, the execute frame, the poll; and the new cache. -/
def Obligations.WordWriteRule : Prop :=
  ∀ (s : State) (a v v1 : Word) (ds1 rest : List SlotDraw),
    LinkReady s → s.cfg.Valid → a.toNat % 4 = 0 → s.slotIn = ds1 ++ rest → Answers s.cfg ds1 v1 →
    v1 &&& s.cfg.csBusy = 0 → v1 &&& s.cfg.csErr = 0 →
    let fl : Bool := decide (0x08000000 ≤ a.toNat ∧ a.toNat < 0x08000000 + s.cfg.flashSize)
    let resident := s.sessionTag = .writeSequence ∧ s.lastWriteWasFlash = fl
    let frames := (if resident then [] else
        reprogramFrames s.cfg (if fl then s.cfg.progWriteFlash else s.cfg.progWriteRam) (some s.cfg.autoWrite))
      ++ (if resident ∧ s.cachedAddress = a then [] else [(s.cfg.dmData1, a)])
      ++ [(s.cfg.dmData0, v), (s.cfg.dmCommand, s.cfg.cmdExec)]
    exec (.seqWriteWord (some a) (some v)) s = .next (respond 0 none none
      { afterRead .control s.cfg.dmAbstractCs ds1 (some v1) (afterWrites frames s) with
        sessionTag := .writeSequence
        lastWriteWasFlash := fl
        cachedAddress := a + 4 })

/-- `SEQ_READ_BYTE` and `SEQ_WRITE_BYTE` of any address (R162, R166, R167): the one-shot program, which leaves the cache
`Invalidated`; the byte read is bits 7:0 of the data register, the byte written is sent zero-extended. -/
def Obligations.ByteAccessRule : Prop :=
  ∀ (s : State) (a v1 v2 : Word) (b : Byte) (ds1 ds2 rest : List SlotDraw),
    LinkReady s → s.cfg.Valid → s.slotIn = ds1 ++ ds2 ++ rest → Answers s.cfg ds1 v1 → Answers s.cfg ds2 v2 →
    v1 &&& s.cfg.csBusy = 0 → v1 &&& s.cfg.csErr = 0 →
    exec (.seqReadByte (some a)) s = .next (respond 0 (some (BitVec.setWidth 32 (v2.extractLsb' 0 8))) none
      { afterRead .control s.cfg.dmData0 ds2 (some v2) (afterRead .control s.cfg.dmAbstractCs ds1 (some v1)
          (afterWrites (reprogramFrames s.cfg s.cfg.progRByte none
            ++ [(s.cfg.dmData1, a), (s.cfg.dmCommand, s.cfg.cmdExec)]) s)) with
        sessionTag := .invalidated }) ∧
    exec (.seqWriteByte (some a) (some b)) s = .next (respond 0 none none
      { afterRead .control s.cfg.dmAbstractCs ds1 (some v1)
          (afterWrites (reprogramFrames s.cfg s.cfg.progWByte none
            ++ [(s.cfg.dmData1, a), (s.cfg.dmData0, BitVec.setWidth 32 b), (s.cfg.dmCommand, s.cfg.cmdExec)]) s) with
        sessionTag := .invalidated })

/-- `SEQ_WAIT_ABSTRACT` (R168, R169): after any number of busy reads below the limit, the first read that is not busy ends the
poll, with an error only if its error field is not 0 (then the error is cleared); a busy field that outlasts the limit is an error
without a clear. -/
def Obligations.AbstractPollRule : Prop :=
  ∀ (s : State) (busy : List (List SlotDraw × Word)) (rest : List SlotDraw),
    LinkReady s → (∀ r ∈ busy, Answers s.cfg r.1 r.2 ∧ r.2 &&& s.cfg.csBusy ≠ 0) →
    s.slotIn = busy.flatMap (fun r => r.1) ++ rest →
    (busy.length = s.cfg.absPollLimit →
      exec .seqWaitAbstract s = .next (respondErr .abstractCommandError
        { afterReads s.cfg.dmAbstractCs busy s with sessionTag := .invalidated })) ∧
    ∀ (ds rest' : List SlotDraw) (v : Word), busy.length < s.cfg.absPollLimit → rest = ds ++ rest' →
      Answers s.cfg ds v → v &&& s.cfg.csBusy = 0 →
      let t := afterRead .control s.cfg.dmAbstractCs ds (some v) (afterReads s.cfg.dmAbstractCs busy s)
      if v &&& s.cfg.csErr = 0 then exec .seqWaitAbstract s = .next (respond 0 none none t)
      else exec .seqWaitAbstract s = .next (respondErr .abstractCommandError
        { afterWrite .control s.cfg.dmAbstractCs s.cfg.csErrClear t with sessionTag := .invalidated })

/-- R68: a word access to an address that is not 4-aligned ends with `Misaligned` before any frame and changes nothing; a byte
access never does; the blob operations never issue a misaligned word access. -/
def Obligations.MisalignedWordAccess : Prop :=
  (∀ (a v : Word) (ai : Bool) (s : State), a.toNat % 4 ≠ 0 →
    memReadWord a ai s = .err .misaligned s ∧ memWriteWord a v s = .err .misaligned s ∧
    exec (.seqReadWord (some a) (some ai)) s = .next (respondErr .misaligned s) ∧
    exec (.seqWriteWord (some a) (some v)) s = .next (respondErr .misaligned s)) ∧
  (∀ (a : Word) (b : Byte) (s t : State),
    memReadByte a s ≠ .err .misaligned t ∧ memWriteByte a b s ≠ .err .misaligned t) ∧
  (∀ (fuel p : Nat) (d : List Byte) (a v : Word), .word a v ∈ ramWrites fuel p d → a.toNat % 4 = 0) ∧
  ∀ (fuel p n : Nat) (a : Word), .word a ∈ blobReads fuel p n → a.toNat % 4 = 0

/-- R170: `SEQ_INVALIDATE` sets the tag and sends no frame; twice is the same as once; the next word read reprograms. -/
def Obligations.SeqInvalidateRule : Prop :=
  (∀ r : Request, r.op = 0x15 → decodeRequest r = .ok .seqInvalidate) ∧
  (∀ s : State, exec .seqInvalidate s = .next (respond 0 none none { s with sessionTag := .invalidated })) ∧
  (∀ s : State, invalidate (invalidate s) = invalidate s) ∧
  ∀ (s : State) (ai fl : Bool), readProgHit ai (invalidate s) = false ∧ writeProgHit fl (invalidate s) = false

/-- What an access of the sequencer leaves in the tag, whatever the target and the terminal do. An operation that ends with an error
other than `Misaligned` leaves the tag `Invalidated` and the cached address as it was; `Misaligned` leaves everything as it was (R169).
A word access that succeeds leaves the tag of its program, or `Terminal`; and the first only where the terminal has written no frame
since the end of the reprogramming, or in the whole access where the program was resident (R28, R52, R163, R165). A byte access leaves
`Invalidated`, whatever happens (R166, R167). (That a terminal frame in the course of a reprogramming, or of a byte access, does not
outlast the tag that the access's own rule gives is the model's choice, logs 25 and 27.) -/
def Obligations.SequencerErrorsInvalidate : Prop :=
  (∀ (s t : State) (e : ErrKind) (a v : Word) (b : Byte) (ai : Bool),
    (memReadWord a ai s = .err e t ∨ memWriteWord a v s = .err e t ∨ memReadByte a s = .err e t ∨
      memWriteByte a b s = .err e t ∨ waitAbstract s = .err e t) →
    (e ≠ .misaligned → t.sessionTag = .invalidated ∧ t.cachedAddress = s.cachedAddress) ∧
    (e = .misaligned → t = s)) ∧
  (∀ (s t : State) (a v x : Word) (ai : Bool),
    (memReadWord a ai s = .ok x t → ∃ pre post, sent s t = pre ++ post ∧
      UpToReprogram s.cfg (if ai then s.cfg.progReadInc else s.cfg.progReadPlain) s.cfg.autoRead
        (s.sessionTag = .readSequence ∧ s.autoIncrementActive = ai) pre ∧
      (t.sessionTag = .terminal ∨ t.sessionTag = .readSequence ∧ ¬ terminalWrote post)) ∧
    (memWriteWord a v s = .ok () t → ∃ pre post, sent s t = pre ++ post ∧
      UpToReprogram s.cfg (if isFlash s.cfg a then s.cfg.progWriteFlash else s.cfg.progWriteRam) s.cfg.autoWrite
        (s.sessionTag = .writeSequence ∧ s.lastWriteWasFlash = isFlash s.cfg a) pre ∧
      (t.sessionTag = .terminal ∨ t.sessionTag = .writeSequence ∧ ¬ terminalWrote post))) ∧
  ∀ (s : State) (a : Word) (b : Byte),
    (memReadByte a s).state.sessionTag = .invalidated ∧ (memWriteByte a b s).state.sessionTag = .invalidated

/-- A run of auto-increment word reads, and a run of word writes of one kind, at increasing addresses takes the fast path for every
access after the first (R172): with the program resident and the address cached, each access sends the execute frame and its data
frame, and no reprogramming or address frame, whatever the number of accesses. -/
def Obligations.SequentialRuns : Prop :=
  ∀ (s : State) (a : Word), LinkReady s → ZeroTarget s → a.toNat % 4 = 0 → s.cachedAddress = a →
    (∀ n : Nat, s.sessionTag = .readSequence → s.autoIncrementActive = true →
      ∃ t, collectEach (fun k => memReadWord (a + BitVec.ofNat 32 (4 * k)) true) (List.range n) s
          = .ok (List.replicate n 0) t ∧
        t.cachedAddress = a + BitVec.ofNat 32 (4 * n) ∧
        t.frameLog = s.frameLog ++ (List.range n).flatMap fun _ =>
          [⟨.control, .write s.cfg.dmCommand s.cfg.cmdExec⟩, ⟨.control, .read s.cfg.dmAbstractCs (some 0)⟩,
            ⟨.control, .read s.cfg.dmData0 (some 0)⟩]) ∧
    ∀ (fl : Bool) (ws : List Word), s.sessionTag = .writeSequence → s.lastWriteWasFlash = fl →
      (∀ k, k < ws.length → isFlash s.cfg (a + BitVec.ofNat 32 (4 * k)) = fl) →
      ∃ t, memWrites (ws.mapIdx fun k w => (a + BitVec.ofNat 32 (4 * k), w)) s = .ok () t ∧
        t.cachedAddress = a + BitVec.ofNat 32 (4 * ws.length) ∧
        t.frameLog = s.frameLog ++ ws.flatMap fun w =>
          [⟨.control, .write s.cfg.dmData0 w⟩, ⟨.control, .write s.cfg.dmCommand s.cfg.cmdExec⟩,
            ⟨.control, .read s.cfg.dmAbstractCs (some 0)⟩]

/-! ### The flash engine -/

/-- `FLASH_UNLOCK` (R190) and `FLASH_WAIT_NOT_BUSY` (R192). On a target that answers 0: both keys to each key register and the check
of the lock register, and `flashUnlocked` set; one status read, and nothing set. With completion polls that read 0 at their one read:
whatever the lock register reads after the six key writes, `FlashUnlockFailed` with `flashUnlocked` as it was if the lock field is not
0, else success; and however a busy poll of at most `BUSY_POLL_LIMIT` status reads ends, the wait ends so, and the write-protect bit is
not checked (R191). -/
def Obligations.FlashUnlockCompletes : Prop :=
  ∀ s : State,
    (ZeroTarget s →
      (∃ t, exec .flashUnlock s = .next t ∧ Responded 0 t ∧ OnlyLink s t ∧ t.flashUnlocked = true ∧
        Sends s t (unlockActs s.cfg)) ∧
      ∃ t, exec .flashWaitNotBusy s = .next t ∧ Responded 0 t ∧ OnlyLink s t ∧ t.flashUnlocked = s.flashUnlocked ∧
        Sends s t (idleActs s.cfg)) ∧
    (∀ (ds rest : List SlotDraw) (v : Word), LinkReady s → s.cfg.Valid → aligned4 s.cfg.lockReg = true →
      s.slotIn = List.replicate (7 * 32) zeroDraw ++ ds ++ rest → Answers s.cfg ds v →
      ∃ t, exec .flashUnlock s = .next t ∧ OnlyLink s t ∧
        if v &&& s.cfg.lockMask = 0 then
          Responded 0 t ∧ t.flashUnlocked = true ∧ Sent s t (keyActs s.cfg ++ [.readWord s.cfg.lockReg false v, .unlock])
        else Responded ErrKind.flashUnlockFailed.code t ∧ t.flashUnlocked = s.flashUnlocked ∧
          Sent s t (keyActs s.cfg ++ [.readWord s.cfg.lockReg false v])) ∧
    ∀ (rs : List (List SlotDraw × Word)) (rest : List SlotDraw) (result : Option ErrKind), LinkReady s → s.cfg.Valid →
      s.slotIn = readScript rs ++ rest → PollEnds s.cfg false s.cfg.busyPollLimit rs result →
      ∃ t, exec .flashWaitNotBusy s = .next t ∧ Responded (codeOf result) t ∧ OnlyLink s t ∧
        t.flashUnlocked = s.flashUnlocked ∧ Sent s t (statusActs s.cfg rs)

/-- `FLASH_ERASE_PAGES` (R193) and `FLASH_ERASE_CHIP` (R195): no bytes, no frame; a range that wraps or is not flash is refused; else,
on a target that answers 0, after the unlock if it is needed, every 64-byte chunk of the range gets its status read, its three
commands, its status read and the clear, in order; the chip its two commands and the status read. With the flash unlocked, status
reads that are answered and completion polls that read 0 at their one read: the chip erase ends as its poll of at most 500 status reads ends; a page erase ends as the polls of
its chunks end (`EraseEnds`): each chunk has a poll before its commands, which does not check the write-protect bit, and one after them,
which does; where both see the flash ready, after any busy reads within the limit, the clear is sent and the next chunk begun; the error
of either, in any chunk, ends the command, and nothing more is sent, not even the clear of that chunk (R191). -/
def Obligations.FlashEraseCompletes : Prop :=
  ∀ (s : State) (a n : Word),
    (n = 0 → exec (.flashErasePages (some a) (some n)) s = .next (respond 0 none none s)) ∧
    (n ≠ 0 → (2 ^ 32 < a.toNat + n.toNat ∨ classify s.cfg a.toNat n.toNat ≠ .flash) →
      exec (.flashErasePages (some a) (some n)) s = .next (respondErr .outOfRange s)) ∧
    (n ≠ 0 → a.toNat + n.toNat ≤ 2 ^ 32 → classify s.cfg a.toNat n.toNat = .flash → ZeroTarget s →
      ∃ t, exec (.flashErasePages (some a) (some n)) s = .next t ∧ Responded 0 t ∧ OnlyLink s t ∧
        t.flashUnlocked = true ∧
        Sends s t (ensureActs s.cfg s.flashUnlocked ++ (chunks a.toNat n.toNat).flatMap (eraseChunkActs s.cfg))) ∧
    (ZeroTarget s →
      ∃ t, exec .flashEraseChip s = .next t ∧ Responded 0 t ∧ OnlyLink s t ∧ t.flashUnlocked = true ∧
        Sends s t (ensureActs s.cfg s.flashUnlocked ++ eraseChipActs s.cfg)) ∧
    (LinkReady s → s.cfg.Valid → s.flashUnlocked = true →
      (∀ (rs : List (List SlotDraw × Word)) (rest : List SlotDraw) (result : Option ErrKind),
        s.slotIn = List.replicate (2 * 32) zeroDraw ++ readScript rs ++ rest → PollEnds s.cfg true 500 rs result →
        ∃ t, exec .flashEraseChip s = .next t ∧ Responded (codeOf result) t ∧ OnlyLink s t ∧
          Sent s t (chipStartActs s.cfg ++ statusActs s.cfg rs)) ∧
      ∀ (ds rest : List SlotDraw) (acts : List Act) (result : Option ErrKind),
        n ≠ 0 → a.toNat + n.toNat ≤ 2 ^ 32 → classify s.cfg a.toNat n.toNat = .flash →
        EraseEnds s.cfg (chunks a.toNat n.toNat) ds acts result → s.slotIn = ds ++ rest →
        ∃ t, exec (.flashErasePages (some a) (some n)) s = .next t ∧ Responded (codeOf result) t ∧ OnlyLink s t ∧
          t.flashUnlocked = true ∧ t.slotIn = rest ∧ Sent s t acts)

/-- `FLASH_WRITE_BLOCK64` (R69, R194): its refusals, and on a target that answers every read slot with 0 (`ZeroTarget`) the unlock if
it is needed, the buffer-load command, the sixteen words of the block at their addresses, the tail padded with 0xFF, and the commit.
(That `Misaligned` is reported before `OutOfRange` is the model's reading of R194 against R102 and R286, log 12.) -/
def Obligations.WriteBlockRule : Prop :=
  ∀ (s : State) (a : Word) (data : List Byte),
    if a.toNat % 64 ≠ 0 then exec (.flashWriteBlock64 (some a) data) s = .next (respondErr .misaligned s)
    else if data.length = 0 ∨ 64 < data.length ∨ classify s.cfg a.toNat 64 ≠ .flash then
      exec (.flashWriteBlock64 (some a) data) s = .next (respondErr .outOfRange s)
    else ZeroTarget s →
      ∃ t, exec (.flashWriteBlock64 (some a) data) s = .next t ∧ Responded 0 t ∧ OnlyLink s t ∧
        t.flashUnlocked = true ∧ Sends s t (ensureActs s.cfg s.flashUnlocked ++ programActs s.cfg a.toNat data)

/-- `BLOB_WRITE` (R196, R197): no bytes, no frame; a byte string of another length than `size` is refused; a range that wraps or is
mixed is refused; a RAM range is written by words and bytes in address order, with no unlock. (That size 0 succeeds before the length
is compared, and that the length is compared before the range, is the model's reading, log 12.) -/
def Obligations.BlobWriteRamCompletes : Prop :=
  ∀ (s : State) (a n : Word) (data : List Byte),
    if n = 0 then exec (.blobWrite (some a) (some n) data) s = .next (respond 0 none none s)
    else if data.length ≠ n.toNat then
      exec (.blobWrite (some a) (some n) data) s = .next (respondErr .uploadSizeMismatch s)
    else if 2 ^ 32 < a.toNat + n.toNat ∨ classify s.cfg a.toNat n.toNat = .mixed then
      exec (.blobWrite (some a) (some n) data) s = .next (respondErr .outOfRange s)
    else classify s.cfg a.toNat n.toNat = .nonFlash → ZeroTarget s →
      ∃ t, exec (.blobWrite (some a) (some n) data) s = .next t ∧ Responded 0 t ∧ OnlyLink s t ∧
        t.flashUnlocked = s.flashUnlocked ∧ Sends s t (ramActs a.toNat data)

/-- `BLOB_WRITE` to flash (R198, R200, R201). On a target that reads all zeros: zero bytes verify, each block of the range being erased,
programmed and read back once, in order; any other byte fails the verify of its block: the blocks before the first such block verify,
that block is attempted 1 + `VERIFY_RETRIES` times with the same content, and the write ends with `VerifyMismatch`, later blocks
untouched. On a target whose completion polls and status reads read 0 at their one read, whatever the bytes read back, with the flash
unlocked: where what is read back of each block is, after no more than `VERIFY_RETRIES` retries, its content (the data at their
addresses, and elsewhere the bytes read back before the first attempt), the write succeeds, with each of those attempts made and no
other frame sent. -/
def Obligations.BlobWriteFlashVerifies : Prop :=
  ∀ (s : State) (a n : Word) (data : List Byte),
    n ≠ 0 → data.length = n.toNat → a.toNat + n.toNat ≤ 2 ^ 32 → classify s.cfg a.toNat n.toNat = .flash →
    (ZeroTarget s → (∀ b ∈ data, b = 0) →
      ∃ t, exec (.blobWrite (some a) (some n) data) s = .next t ∧ Responded 0 t ∧ OnlyLink s t ∧
        t.flashUnlocked = true ∧
        Sends s t (ensureActs s.cfg s.flashUnlocked
          ++ zeroBlocksActs s.cfg a.toNat n.toNat (chunks a.toNat n.toNat))) ∧
    (ZeroTarget s → (∃ b ∈ data, b ≠ 0) →
      ∃ (before after : List Nat) (c : Nat) (t : State), chunks a.toNat n.toNat = before ++ c :: after ∧
        (∀ d ∈ before, newBlock a.toNat d data = List.replicate 64 0) ∧
        newBlock a.toNat c data ≠ List.replicate 64 0 ∧
        exec (.blobWrite (some a) (some n) data) s = .next t ∧ Responded ErrKind.verifyMismatch.code t ∧ OnlyLink s t ∧
        t.flashUnlocked = true ∧
        Sends s t (ensureActs s.cfg s.flashUnlocked ++ zeroBlocksActs s.cfg a.toNat n.toNat before
          ++ spliceActs a.toNat n.toNat c
          ++ (List.replicate (1 + s.cfg.verifyRetries) (attemptActs s.cfg c (newBlock a.toNat c data))).flatten)) ∧
    ∀ (bs : List BlockRun) (rest : List SlotDraw), LinkReady s → s.cfg.Valid → s.flashUnlocked = true →
      bs.map BlockRun.base = chunks a.toNat n.toNat → (∀ b ∈ bs, b.Verifies s.cfg a.toNat data) →
      s.slotIn = bs.flatMap BlockRun.script ++ rest →
      ∃ t, exec (.blobWrite (some a) (some n) data) s = .next t ∧ Responded 0 t ∧ OnlyLink s t ∧
        t.flashUnlocked = true ∧ t.slotIn = rest ∧ Sent s t (bs.flatMap (BlockRun.acts s.cfg a.toNat data))

/-- `BLOB_READ` (R66, R199): a range that wraps is refused with no data; else the bytes asked for, from any kind of range: on a target
that reads all zeros, as many zeros; whatever is read, with completion polls that read 0 at their one read, the four bytes of each word
read, lowest address in bits 7:0, and bits 7:0 of each byte read, in the order of the accesses, which are all that is sent. (The empty
byte string of the refusal is the model's choice, log 8.) -/
def Obligations.BlobReadRule : Prop :=
  ∀ (s : State) (a n : Word),
    if 2 ^ 32 < a.toNat + n.toNat then
      exec (.blobRead (some a) (some n)) s = .next (respond ErrKind.outOfRange.code none (some []) s)
    else
      let accesses := blobReads n.toNat a.toNat n.toNat
      (ZeroTarget s →
        ∃ t, exec (.blobRead (some a) (some n)) s = .next t ∧ Responded 0 t ∧ OnlyLink s t ∧
          t.rspData = List.replicate n.toNat 0 ∧ t.flashUnlocked = s.flashUnlocked ∧
          Sends s t (blobReadActs a.toNat n.toNat)) ∧
      ∀ (rs : Reads) (rest : List SlotDraw), LinkReady s → s.cfg.Valid → ReadsOk s.cfg accesses.length rs →
        s.slotIn = readScript rs ++ rest →
        ∃ t, exec (.blobRead (some a) (some n)) s = .next t ∧ Responded 0 t ∧ OnlyLink s t ∧
          t.rspData = readData accesses rs ∧ t.flashUnlocked = s.flashUnlocked ∧ t.slotIn = rest ∧
          Sent s t (readActs accesses rs)

/-- R62, R63: a range is flash when both its ends are flash addresses, non-flash when no address of it is, and mixed otherwise; a
mixed range is refused with `OutOfRange` before any frame. -/
def Obligations.RangeClassification : Prop :=
  ∀ (p : Params) (a n : Nat), p.Valid → 1 ≤ n →
    let flash := fun x => 0x08000000 ≤ x ∧ x < 0x08000000 + p.flashSize
    (classify p a n = .flash ↔ flash a ∧ flash (a + n - 1)) ∧
    (classify p a n = .nonFlash ↔ ∀ x, a ≤ x → x < a + n → ¬ flash x) ∧
    (classify p a n = .mixed ↔ ¬ (flash a ∧ flash (a + n - 1)) ∧ ∃ x, a ≤ x ∧ x < a + n ∧ flash x) ∧
    ∀ (s : State) (data : List Byte) (offset size : Word) (retries : Option Word), s.cfg = p → data.length = n →
      classify p a n = .mixed →
      blobWrite a n data s = .err .outOfRange s ∧
      (offset.toNat = a → size.toNat = n → uploadRangeOk s offset size retries = false)

/-- The chunks of a page erase and of a flash write (R193, R198): 64-aligned, rising by 64, `ceil(((addr mod 64) + len) / 64)` of them;
they cover every byte of the range, and each holds a byte of it. -/
def Obligations.ChunksCoverRange : Prop :=
  ∀ a n : Nat, 1 ≤ n →
    (chunks a n).length = (a % 64 + n + 63) / 64 ∧
    (∀ c ∈ chunks a n, c % 64 = 0 ∧ c < a + n ∧ a < c + 64) ∧
    (∀ k c d, (chunks a n)[k]? = some c → (chunks a n)[k + 1]? = some d → d = c + 64) ∧
    ∀ x, a ≤ x → x < a + n → ∃ c ∈ chunks a n, c ≤ x ∧ x < c + 64

/-- The accesses of a blob write to RAM store exactly the bytes of the data, in address order, each at its own address, and the accesses
of a blob read reach exactly the addresses of the range, in order (R66, R67, R197, R199). -/
def Obligations.BlobAccessesCover : Prop :=
  (∀ (p : Nat) (data : List Byte),
    (ramWrites data.length p data).flatMap accessBytes = data.mapIdx fun i b => (BitVec.ofNat 32 (p + i), b)) ∧
  ∀ p n : Nat, (blobReads n p n).flatMap accessAddresses = (List.range n).map fun i => BitVec.ofNat 32 (p + i)

/-- R66: a word holds the byte at its address in bits 7:0 and the byte at each next address in the next eight bits; packing and
unpacking follow that one law. -/
def Obligations.WordsAreLittleEndian : Prop :=
  (∀ b0 b1 b2 b3 : Byte,
    (packWord b0 b1 b2 b3).extractLsb' 0 8 = b0 ∧ (packWord b0 b1 b2 b3).extractLsb' 8 8 = b1 ∧
    (packWord b0 b1 b2 b3).extractLsb' 16 8 = b2 ∧ (packWord b0 b1 b2 b3).extractLsb' 24 8 = b3 ∧
    wordBytes (packWord b0 b1 b2 b3) = [b0, b1, b2, b3]) ∧
  ∀ ws : List Word, packWords (ws.flatMap wordBytes) = ws

/-- `flashUnlocked` is monotonic within a session (R27): of all instructions only link re-init (which `LINK_INIT`, an update and
`UNBRICK` run, and any command that finds the tag `None`) and `SETPIN` can clear it. -/
def Obligations.UnlockedIsMonotonic : Prop :=
  ∀ (i : Instr) (s t : State), s.flashUnlocked = true → s.sessionTag ≠ .none →
    i ≠ .linkInit → i ≠ .unbrick → (∀ m, i ≠ .setPin m) → (∀ d l, i ≠ .uploadData d l) →
    exec i s = .next t → t.flashUnlocked = true

/-! ### The orchestrator -/

/-- `LINK_INIT` (R235): the cache and `flashUnlocked` are discarded whatever happens; with no pin it fails at once; on a target that
answers 0 the handshake is sent and the tag is `Started`; on a target that answers every read slot, with whatever values, it ends so
too, since no value read decides; where every slot times out and the handshake reads, it is `InitFailure`; and whenever it fails, the
tag is `None` and the rest of the link state discarded. (That the tag is `None` also where a connected terminal wrote a frame during the
handshake is the model's choice between R235 (c) and R52, log 26.) -/
def Obligations.LinkInitRule : Prop :=
  ∀ s : State,
    let discarded := fun t : State => t.autoIncrementActive = false ∧ t.lastWriteWasFlash = false ∧ t.flashUnlocked = false
    (s.pinMask = 0 → exec .linkInit s = .next (respondErr .initFailure { s with
      sessionTag := .none, autoIncrementActive := false, lastWriteWasFlash := false, flashUnlocked := false })) ∧
    (ZeroTarget s → ∃ t, exec .linkInit s = .next t ∧ Responded 0 t ∧ OnlyLink s t ∧ t.sessionTag = .started ∧
      discarded t ∧ Sends s t (initActs s.cfg)) ∧
    (s.cfg.Valid → s.pinMask ≠ 0 → AnswersAll s →
      ∃ t, exec .linkInit s = .next t ∧ Responded 0 t ∧ OnlyLink s t ∧ t.sessionTag = .started ∧ discarded t ∧
        (stepFrames s.cfg.seqInit).Sublist (sent s t)) ∧
    (DeadLine s → (∃ cmd, .fr cmd ∈ s.cfg.seqInit) →
      ∃ t, exec .linkInit s = .next t ∧ Responded ErrKind.initFailure.code t ∧ OnlyLink s t ∧
        t.sessionTag = .none ∧ discarded t) ∧
    ∀ (e : ErrKind) (t : State), linkInit s = .err e t → t.sessionTag = .none ∧ discarded t

/-- The five halt, reboot and resume commands (R250 to R255, R261), when no upload is open, on a target that answers 0: link init if the
tag was `None`, then the frames of the mode, ending in the completion poll, and no other frame; a resident program is no longer known
(R250); `active` cleared, the terminal disconnected (R239, R297). (That an `FW` step of a list leaves the tag of a resident program as
it was, whatever register it writes, follows R141, R160 and R250, where R28 could have it dropped, log 24.) -/
def Obligations.HaltCommandsComplete : Prop :=
  ∀ (s : State) (i : Instr) (m : HaltMode),
    (i, m) ∈ [(Instr.haltReset, HaltMode.haltReset), (Instr.reboot, HaltMode.reboot), (Instr.resume, HaltMode.resume),
      (Instr.rebootBoot, HaltMode.rebootBoot), (Instr.haltNoReset, HaltMode.haltNoReset)] →
    s.status ≠ .uploading → s.status ≠ .updating → ZeroTarget s →
    ∃ t, exec i s = .next t ∧ Responded 0 t ∧ OnlyLink { s with active := false } t ∧ t.terminalConnected = false ∧
      Sent s t (linkActs s ++ haltActs s.cfg m) ∧
      ((haltSteps s.cfg m).all sendsOnly = true →
        t.sessionTag = if s.sessionTag = .none then .started else tagDropped s.sessionTag)

/-- `READ_BLOB` (R258) and `CHIP_INFO` (R260), when no upload is open: the bytes asked for, framed by the halt-without-reset and the
resume, with no other frame but a link init where the tag was `None`. On a target that reads all zeros, zeros; whatever is read, with
step lists that only send and with the completion polls of both halts and of every access reading 0 at their one read, the bytes of what
is read, in address order (R66), for `CHIP_INFO` the four of each word. A range that is empty, too large or wraps is refused. (That an
`FW` step of a list leaves the tag of a resident program as it was, whatever register it writes, follows R141, R160 and R250, where R28
could have it dropped, log 24; the clauses with step lists that only send do not depend on it.) -/
def Obligations.ReadCommandsComplete : Prop :=
  ∀ (s : State) (a n : Word),
    let accesses := blobReads n.toNat a.toNat n.toNat
    let framed := fun acts => linkActs s ++ haltActs s.cfg .haltNoReset ++ acts ++ haltActs s.cfg .resume
    let inRange := n ≠ 0 ∧ n.toNat ≤ s.cfg.maxBinary ∧ a.toNat + n.toNat ≤ 2 ^ 32
    (¬ inRange → exec (.readBlob (some a) (some n)) s = .next (respondErr .outOfRange s)) ∧
    (s.status ≠ .uploading → s.status ≠ .updating →
      (ZeroTarget s →
        (inRange →
          ∃ t, exec (.readBlob (some a) (some n)) s = .next t ∧ Responded 0 t ∧ OnlyLink { s with active := false } t ∧
            t.terminalConnected = false ∧ t.rspData = List.replicate n.toNat 0 ∧
            Sent s t (framed (blobReadActs a.toNat n.toNat))) ∧
        ∃ t, exec .chipInfo s = .next t ∧ Responded 0 t ∧ OnlyLink { s with active := false } t ∧
          t.terminalConnected = false ∧ t.rspData = List.replicate (4 * s.cfg.chipInfoAddrs.length) 0 ∧
          Sent s t (framed (s.cfg.chipInfoAddrs.map fun x => .readWord x false 0))) ∧
      ∀ (rs : Reads) (rest : List SlotDraw), s.cfg.Valid → s.pinMask ≠ 0 →
        s.cfg.seqInit.all sendsOnly = true → s.cfg.seqPre.all sendsOnly = true →
        s.cfg.seqHaltNoReset.all sendsOnly = true → s.cfg.seqResume.all sendsOnly = true →
        s.slotIn = List.replicate 32 zeroDraw ++ readScript rs ++ List.replicate 32 zeroDraw ++ rest →
        (inRange → ReadsOk s.cfg accesses.length rs →
          ∃ t, exec (.readBlob (some a) (some n)) s = .next t ∧ Responded 0 t ∧ OnlyLink { s with active := false } t ∧
            t.terminalConnected = false ∧ t.rspData = readData accesses rs ∧ Sent s t (framed (readActs accesses rs))) ∧
        (ReadsOk s.cfg s.cfg.chipInfoAddrs.length rs →
          ∃ t, exec .chipInfo s = .next t ∧ Responded 0 t ∧ OnlyLink { s with active := false } t ∧
            t.terminalConnected = false ∧ t.rspData = wordsData rs ∧
            Sent s t (framed (List.zipWith (fun x r => .readWord x false r.2) s.cfg.chipInfoAddrs rs))))

/-- `UNBRICK` (R259) on a block with a power gate whose init, configuration and halt lists only send: the target is power-cycled once,
and not again; after fewer than `UNBRICK_TRIES` tries that fail (by a status that is not halted, or by an error, which is absorbed, R283
(d)) the status register reads `v`, with every bit of `HALTED_MASK` set; the target answers 0 from then on. After that try's one init,
halt and status read the option bytes are restored (`SEQ_OPTDEFAULT`), the chip is erased, with the unlock before it unless the option
list unlocked, no other frame is sent, and the command ends with code 0. (That an `FW` step of a list leaves the tag of a resident
program as it was, whatever register it writes, follows R141, R160 and R250, where R28 could have it dropped, log 24.) -/
def Obligations.UnbrickCompletes : Prop :=
  ∀ (s : State) (tries : List FailedTry) (ds : List SlotDraw) (v : Word),
    s.cfg.Valid → AlignedConfig s.cfg → s.cfg.hasPowerGate = true → s.pinMask ≠ 0 →
    s.status ≠ .uploading → s.status ≠ .updating →
    s.cfg.seqInit.all sendsOnly = true → s.cfg.seqPre.all sendsOnly = true → s.cfg.seqHaltReset.all sendsOnly = true →
    tries.length < s.cfg.unbrickTries → (∀ x ∈ tries, x.Fails s.cfg) →
    s.slotIn = tries.flatMap FailedTry.script ++ List.replicate 32 zeroDraw ++ ds → s.slotRest = some zeroDraw →
    Answers s.cfg ds v → v &&& s.cfg.haltedMask = s.cfg.haltedMask →
    ∃ (t : State) (es : List LineEvent), exec .unbrick s = .next t ∧ Responded 0 t ∧
      OnlyLink { s with active := false, powerGate := true } t ∧ t.terminalConnected = false ∧ t.flashUnlocked = true ∧
      t.lineLog = s.lineLog
        ++ [.power false, .hold s.cfg.powerOffTime, .power true, .hold s.cfg.powerOnTime] ++ es ∧
      (∀ e ∈ es, ∀ on, e ≠ .power on) ∧
      Sent s t (tries.flatMap (FailedTry.acts s.cfg) ++ initActs s.cfg ++ haltActs s.cfg .haltReset
        ++ [.frame (.read s.cfg.dmStatus (some v))]
        ++ stepsActs s.cfg s.cfg.seqOptDefault ++ ensureActs s.cfg (unlocks s.cfg.seqOptDefault) ++ eraseChipActs s.cfg)

/-- `UNBRICK` (R104, R259) without a power gate is `Unimplemented`, before every other check, and sends no frame. Where no try finds the
target halted it makes `UNBRICK_TRIES` tries and ends with `InitFailure`, powered and inactive: on a target that answers 0, whatever the
step lists, each try being a link init, a halt-and-reset and a status read; with lists that only send, for any tries that fail, each by
a status without all the bits of `HALTED_MASK` or by a slot that times out, whose error is absorbed (R283 (d)), no other frame being
sent; and on a line where every slot times out, or with no pin, where every try ends with an error. (That an `FW` step of a list leaves
the tag of a resident program as it was, whatever register it writes, follows R141, R160 and R250, where R28 could have it dropped, log
24; only the first of these clauses depends on it.) -/
def Obligations.UnbrickGivesUp : Prop :=
  ∀ s : State,
    (s.cfg.hasPowerGate = false → exec .unbrick s = .next (respondErr .unimplemented s)) ∧
    (s.cfg.hasPowerGate = true → s.status ≠ .uploading → s.status ≠ .updating →
      let fails := fun t => exec .unbrick s = .next t ∧ Responded ErrKind.initFailure.code t ∧
        OnlyLink { s with active := false, powerGate := true } t ∧ t.terminalConnected = false
      (ZeroTarget s → ∃ t, fails t ∧
        Sent s t (List.replicate s.cfg.unbrickTries (initActs s.cfg ++ haltActs s.cfg .haltReset
          ++ [.frame (.read s.cfg.dmStatus (some 0))])).flatten) ∧
      (∀ (tries : List FailedTry) (rest : List SlotDraw), s.cfg.Valid → s.pinMask ≠ 0 →
        s.cfg.seqInit.all sendsOnly = true → s.cfg.seqPre.all sendsOnly = true → s.cfg.seqHaltReset.all sendsOnly = true →
        tries.length = s.cfg.unbrickTries → (∀ x ∈ tries, x.Fails s.cfg) →
        s.slotIn = tries.flatMap FailedTry.script ++ rest →
        ∃ t, fails t ∧ t.slotIn = rest ∧ Sent s t (tries.flatMap (FailedTry.acts s.cfg))) ∧
      (DeadLine s ∨ s.pinMask = 0 → ∃ t, fails t))

/-- No two flasher operations are in flight at once (R238, R264): while an upload or an update is open, every flasher command whose
operands pass their checks, and `SETPIN`, ends with `SessionBusy` and changes nothing but the response. -/
def Obligations.SessionBusyRefused : Prop :=
  ∀ s : State, (s.status = .uploading ∨ s.status = .updating) →
    (∀ i ∈ [Instr.chipInfo, Instr.haltReset, Instr.reboot, Instr.resume, Instr.rebootBoot, Instr.haltNoReset],
      exec i s = .next (respondErr .sessionBusy s)) ∧
    (s.cfg.hasPowerGate = true → exec .unbrick s = .next (respondErr .sessionBusy s)) ∧
    (∀ a n : Word, n ≠ 0 → n.toNat ≤ s.cfg.maxBinary → a.toNat + n.toNat ≤ 2 ^ 32 →
      exec (.readBlob (some a) (some n)) s = .next (respondErr .sessionBusy s)) ∧
    (∀ (a n : Word) (retries : Option Word), uploadRangeOk s a n retries = true →
      exec (.uploadBegin (some a) (some n) retries) s = .next (respondErr .sessionBusy s)) ∧
    ∀ m : Word, legalPin m = true → exec (.setPin (some m)) s = .next (respondErr .sessionBusy s)

/-- The terminal's exclusion (R297). A terminal that the flasher disconnected stays out while `active` is set, whatever it tries: its
turn at the frame port changes nothing but its own script ((a), (b), (d)). In a step of its own it connects where `active` is clear, and
does not where `active` is set (b); it disconnects in any state (e); and while it is not connected, `active` or not, a string that it
presents has no effect (d). (That the terminal's action comes before the host's and the control agent's is the model's choice, log 15.) -/
def Obligations.DisconnectedTerminalIsHarmless : Prop :=
  (∀ s : State, s.active = true → s.terminalConnected = false → termTurn s = { s with termIn := s.termIn.tail }) ∧
  ∀ (s : State) (act : TermAct) (as : List TermAct) (ts : List (List TermAct)),
    s.irqMasked = false → s.termIn = (act :: as) :: ts →
    (act = .connect → step s = .next { s with
      termIn := as :: ts
      terminalConnected := if s.active = true then s.terminalConnected else true }) ∧
    (act = .disconnect → step s = .next { s with termIn := as :: ts, terminalConnected := false }) ∧
    ((∃ w, act = .issue w) → s.terminalConnected = false → step s = .next { s with termIn := as :: ts })

/-- R281: the codes of the error kinds, as signed numbers: -1 to -16 in the order of the table, every one negative, no two alike. -/
def Obligations.ErrorCodes : Prop :=
  [ErrKind.bitTimeout, .busFault, .abstractCommandError, .flashBusyTimeout, .flashWriteProtected, .flashUnlockFailed,
      .verifyMismatch, .uploadSizeMismatch, .parameterMissing, .outOfRange, .sessionBusy, .timeout, .initFailure,
      .unimplemented, .unknownCommand, .misaligned].map (fun e => e.code.toInt)
    = [-1, -2, -3, -4, -5, -6, -7, -8, -9, -10, -11, -12, -13, -14, -15, -16] ∧
  (∀ e : ErrKind, e.code.toInt < 0) ∧ ∀ e f : ErrKind, e.code = f.code → e = f

/-! ### Invariants -/

/-- Every step keeps the configuration legal (R9, R21, R22, R322), the request's byte string within the port (R43), the line idle, the
target powered and no operation in progress (R31, R32, R33, R45, R127); and it leaves `pinMask` and `timingCoefficient` unchanged where
no setter runs (R21, R22), as does every instruction but `SETPIN` and `SETCOEFF`. (That the line is idle between any two steps rests on
the model's choice that one request is one step, log 5; that an over-long request never enters the port, on log 19.) -/
def Obligations.StepKeepsConfigAndLine : Prop :=
  (∀ s t : State, ConfigOk s → LineIdle s → step s = .next t →
    ConfigOk t ∧ LineIdle t ∧ t.cfg = s.cfg ∧ (PortOk s → PortOk t) ∧
    (s.reqOp ≠ 0x60 → t.pinMask = s.pinMask) ∧ (s.reqOp ≠ 0x61 → t.timingCoefficient = s.timingCoefficient)) ∧
  ∀ (i : Instr) (s t : State), exec i s = .next t →
    ((∀ m, i ≠ .setPin m) → t.pinMask = s.pinMask) ∧
    ((∀ c, i ≠ .setCoeff c) → t.timingCoefficient = s.timingCoefficient)

/-- Every step keeps the flasher session's invariant (R37, R240, R241), the upload buffer's canonical form among it. (R238 has `active`
set in `Updating` too, and while a flasher command runs: that between two steps `status` is never `Updating` and `active` says that an
upload is open rests on the model's choice that one request is one step, log 5.) -/
def Obligations.StepKeepsSession : Prop :=
  ∀ s t : State, SessionOk s → step s = .next t → SessionOk t

/-- No step of a state with the session's invariant stops the machine: no run reads a byte of the upload buffer that holds no value
(R40, R56, U10) or stores past its end (R60), and no instruction is refused by the model. -/
def Obligations.StepNeverStops : Prop :=
  ∀ s : State, SessionOk s → ∃ t, step s = .next t

/-- Every step changes `status` only along paths of R237's transitions, as far as one step goes. (What one step is, is the model's
choice: one request is one step, log 5, so `Updating` is entered and left inside it, and `Uploading` goes to `Success` or `Failed` at
once where R237 has `Updating` between; the watchdog check and the request after it share a step, R265 and log 15, so
`Updating`, `Success` and `Failed` may go through `Idle` to `Uploading`.) -/
def Obligations.StepFollowsTransitions : Prop :=
  ∀ s t : State, step s = .next t → statusStep s.status t.status = true

/-- Every step keeps `rspCode` and `error` among the codes of R281. -/
def Obligations.StepKeepsCodes : Prop :=
  ∀ s t : State, CodesOk s → step s = .next t → CodesOk t

/-- Block reset (R55, R320): every register at the value the spec states, whatever the parameters are, with the PHY's high drive as R9
gives it; and the invariants hold there. (Of `rspCode` and `reqData` the spec states no value: that they meet `CodesOk` and `PortOk`
at reset rests on the model's 0 and empty string, log 1.) -/
def Obligations.ResetState : Prop :=
  (∀ p : Params, p.Valid →
    let s := State.resetWith p
    (s.pinMask = 0 ∧ s.timingCoefficient = p.resetCoeff ∧ s.sessionTag = .none ∧ s.autoIncrementActive = false ∧
      s.lastWriteWasFlash = false ∧ s.flashUnlocked = false ∧ s.pinDrive = .released ∧ s.powerGate = true ∧
      s.portOwner = .free ∧ s.irqMasked = false ∧ s.status = .idle ∧ s.error = 0 ∧ s.offset = 0 ∧ s.size = 0 ∧
      s.retryBudget = 0 ∧ s.currentRetry = 0 ∧ s.received = 0 ∧ (∀ i, Memory.read s.uploadBuffer i = none) ∧
      s.active = false ∧ s.terminalConnected = false ∧ s.reqValid = false ∧ s.rspValid = false ∧ s.ctl = none) ∧
    ConfigOk s ∧ LineIdle s ∧ PortOk s ∧ SessionOk s ∧ CodesOk s) ∧
  State.reset = State.resetWith Config.params ∧ State.reset.cfg.Valid ∧ State.reset.cfg.highDrive = .release

/-! ### The update run cut short -/

/-- What ends an update run without a retry, whatever the budget. (1) A failed closing halt/reset (R244): to a RAM destination, with
step lists that only send, on a target that answers 0 until the last byte is written and then not at all, the closing poll times out and
the session is `Failed` with `BusFault`. (2) A watchdog expiry inside the run (R246 (b)): after `k` of its watchdog steps the clock
jumps past the deadline, the next step of the attempt is not begun, and the session is `Idle` with `Timeout`. (How often the clock is
read is the model's choice, log 10; that the response carries `Timeout` and `Idle`, log 22; that an `FW` step of a list leaves the tag
of a resident program as it was, whatever register it writes, on which (2) depends, follows R141, R160 and R250, where R28 could have it
dropped, log 24.) -/
def Obligations.UpdateCutShort : Prop :=
  ∀ (s : State) (data : List Byte),
    SessionOk s → s.status = .uploading → s.received.toNat + data.length = s.size.toNat →
    let flash := classify s.cfg s.offset.toNat s.size.toNat == .flash
    let buffer := Memory.writeBytes s.uploadBuffer s.received.toNat data
    let bytes := uploadedBytes buffer s.size.toNat
    (∀ b : Bool, s.cfg.Valid → s.pinMask ≠ 0 → ClockStill s → classify s.cfg s.offset.toNat s.size.toNat = .nonFlash →
      s.cfg.seqInit.all sendsOnly = true → s.cfg.seqPre.all sendsOnly = true →
      s.cfg.seqHaltNoReset.all sendsOnly = true → s.cfg.seqResume.all sendsOnly = true →
      s.slotIn = List.replicate (32 * (1 + (ramActs s.offset.toNat bytes).length)) zeroDraw →
      s.slotRest = some (deadDraw b) →
      ∃ t, exec (.uploadData data true) s = .next t ∧ Responded ErrKind.busFault.code t ∧
        t.rspValue = Status.code .failed ∧ t.terminalConnected = false ∧
        OnlyLink { s with
          status := .failed
          error := ErrKind.busFault.code
          active := false
          received := s.size
          uploadBuffer := buffer
          watchdogDeadline := s.now + s.cfg.watchdogTimeout } t ∧
        sent s t = trace s.cfg (cacheOf s) (initActs s.cfg ++ haltActs s.cfg .haltNoReset ++ ramActs s.offset.toNat bytes
          ++ .drop :: stepsActs s.cfg (haltSteps s.cfg .resume) ++ [.frame (.read s.cfg.dmAbstractCs none)])) ∧
    ∀ (d1 k d : Nat) (ds : List Nat), ZeroTarget s →
      (classify s.cfg s.offset.toNat s.size.toNat = .nonFlash ∨
        classify s.cfg s.offset.toNat s.size.toNat = .flash ∧
          (∀ i, i < s.received.toNat → Memory.read s.uploadBuffer i = some 0) ∧ ∀ x ∈ data, x = 0) →
      k ≤ 3 → s.clockIn = d1 :: List.replicate (2 * k) 0 ++ d :: ds → s.cfg.watchdogTimeout < d →
      ∃ t, exec (.uploadData data true) s = .next t ∧ Responded ErrKind.timeout.code t ∧ t.rspValue = Status.code .idle ∧
        t.terminalConnected = false ∧
        OnlyLink { s with
          status := .idle
          error := ErrKind.timeout.code
          active := false
          received := s.size
          uploadBuffer := buffer
          now := s.now + d1 + d
          clockIn := ds
          watchdogDeadline := s.now + d1 + s.cfg.watchdogTimeout } t ∧
        Sent s t ([initActs s.cfg, haltActs s.cfg (openMode flash),
          updateWriteActs s.cfg flash s.offset.toNat bytes].take k).flatten
end

