-- ==== Sys2Proof/Laws/State.lean ====
section
/-!
SUPPORT. What each named update of `State` does to each field: one statement per update, a conjunction over all the fields, each
part true by `rfl` (after a case split on the one match an update makes), tagged `@[simp]` so that no later proof unfolds a record
update. `readClock` and `awaitPort` are stated field by field where they keep the field.
-/
namespace Sys2Proof.Laws

open Sys2Proof.Machine Sys2Proof.Safety
open Sys2Proof.Config (Params SlotDraw SeqStep)

@[simp] theorem begin_fields (op : Byte) (s : State) :
    (Machine.begin op s).cfg = s.cfg ∧ (Machine.begin op s).pinMask = s.pinMask ∧
    (Machine.begin op s).timingCoefficient = s.timingCoefficient ∧ (Machine.begin op s).sessionTag = s.sessionTag ∧
    (Machine.begin op s).cachedAddress = s.cachedAddress ∧
    (Machine.begin op s).autoIncrementActive = s.autoIncrementActive ∧
    (Machine.begin op s).lastWriteWasFlash = s.lastWriteWasFlash ∧ (Machine.begin op s).flashUnlocked = s.flashUnlocked ∧
    (Machine.begin op s).pinDrive = s.pinDrive ∧ (Machine.begin op s).powerGate = s.powerGate ∧
    (Machine.begin op s).portOwner = s.portOwner ∧ (Machine.begin op s).irqMasked = s.irqMasked ∧
    (Machine.begin op s).status = s.status ∧ (Machine.begin op s).error = s.error ∧
    (Machine.begin op s).offset = s.offset ∧ (Machine.begin op s).size = s.size ∧
    (Machine.begin op s).retryBudget = s.retryBudget ∧ (Machine.begin op s).currentRetry = s.currentRetry ∧
    (Machine.begin op s).watchdogDeadline = s.watchdogDeadline ∧ (Machine.begin op s).received = s.received ∧
    (Machine.begin op s).uploadBuffer = s.uploadBuffer ∧ (Machine.begin op s).active = s.active ∧
    (Machine.begin op s).terminalConnected = s.terminalConnected ∧ (Machine.begin op s).reqValid = s.reqValid ∧
    (Machine.begin op s).reqOp = s.reqOp ∧ (Machine.begin op s).reqA = s.reqA ∧ (Machine.begin op s).reqB = s.reqB ∧
    (Machine.begin op s).reqC = s.reqC ∧ (Machine.begin op s).reqPresent = s.reqPresent ∧
    (Machine.begin op s).reqFinal = s.reqFinal ∧ (Machine.begin op s).reqData = s.reqData ∧
    (Machine.begin op s).rspValid = s.rspValid ∧ (Machine.begin op s).rspCode = s.rspCode ∧
    (Machine.begin op s).rspValue = s.rspValue ∧ (Machine.begin op s).rspData = s.rspData ∧
    (Machine.begin op s).ctl = some op ∧ (Machine.begin op s).now = s.now ∧ (Machine.begin op s).clockIn = s.clockIn ∧
    (Machine.begin op s).clockRest = s.clockRest ∧ (Machine.begin op s).clockCount = s.clockCount ∧
    (Machine.begin op s).slotIn = s.slotIn ∧ (Machine.begin op s).slotRest = s.slotRest ∧
    (Machine.begin op s).slotCount = s.slotCount ∧ (Machine.begin op s).termIn = s.termIn ∧
    (Machine.begin op s).hostIn = s.hostIn ∧ (Machine.begin op s).freeCount = s.freeCount ∧
    (Machine.begin op s).lineLog = s.lineLog ∧ (Machine.begin op s).frameLog = s.frameLog := by
  repeat' constructor

@[simp] theorem respond_fields (code : Word) (value : Option Word) (data : Option (List Byte)) (s : State) :
    (respond code value data s).cfg = s.cfg ∧ (respond code value data s).pinMask = s.pinMask ∧
    (respond code value data s).timingCoefficient = s.timingCoefficient ∧
    (respond code value data s).sessionTag = s.sessionTag ∧ (respond code value data s).cachedAddress = s.cachedAddress ∧
    (respond code value data s).autoIncrementActive = s.autoIncrementActive ∧
    (respond code value data s).lastWriteWasFlash = s.lastWriteWasFlash ∧
    (respond code value data s).flashUnlocked = s.flashUnlocked ∧ (respond code value data s).pinDrive = s.pinDrive ∧
    (respond code value data s).powerGate = s.powerGate ∧ (respond code value data s).portOwner = s.portOwner ∧
    (respond code value data s).irqMasked = s.irqMasked ∧ (respond code value data s).status = s.status ∧
    (respond code value data s).error = s.error ∧ (respond code value data s).offset = s.offset ∧
    (respond code value data s).size = s.size ∧ (respond code value data s).retryBudget = s.retryBudget ∧
    (respond code value data s).currentRetry = s.currentRetry ∧
    (respond code value data s).watchdogDeadline = s.watchdogDeadline ∧
    (respond code value data s).received = s.received ∧ (respond code value data s).uploadBuffer = s.uploadBuffer ∧
    (respond code value data s).active = s.active ∧ (respond code value data s).terminalConnected = s.terminalConnected ∧
    (respond code value data s).reqValid = false ∧ (respond code value data s).reqOp = s.reqOp ∧
    (respond code value data s).reqA = s.reqA ∧ (respond code value data s).reqB = s.reqB ∧
    (respond code value data s).reqC = s.reqC ∧ (respond code value data s).reqPresent = s.reqPresent ∧
    (respond code value data s).reqFinal = s.reqFinal ∧ (respond code value data s).reqData = s.reqData ∧
    (respond code value data s).rspValid = true ∧ (respond code value data s).rspCode = code ∧
    (respond code value data s).rspValue = value.getD (Config.freeRspValue s.freeCount) ∧
    (respond code value data s).rspData = data.getD (Config.freeRspData s.freeCount) ∧
    (respond code value data s).ctl = none ∧ (respond code value data s).now = s.now ∧
    (respond code value data s).clockIn = s.clockIn ∧ (respond code value data s).clockRest = s.clockRest ∧
    (respond code value data s).clockCount = s.clockCount ∧ (respond code value data s).slotIn = s.slotIn ∧
    (respond code value data s).slotRest = s.slotRest ∧ (respond code value data s).slotCount = s.slotCount ∧
    (respond code value data s).termIn = s.termIn ∧ (respond code value data s).hostIn = s.hostIn ∧
    (respond code value data s).freeCount = s.freeCount + 1 ∧ (respond code value data s).lineLog = s.lineLog ∧
    (respond code value data s).frameLog = s.frameLog := by
  repeat' constructor

@[simp] theorem respondErr_fields (e : ErrKind) (s : State) :
    (respondErr e s).cfg = s.cfg ∧ (respondErr e s).pinMask = s.pinMask ∧
    (respondErr e s).timingCoefficient = s.timingCoefficient ∧ (respondErr e s).sessionTag = s.sessionTag ∧
    (respondErr e s).cachedAddress = s.cachedAddress ∧ (respondErr e s).autoIncrementActive = s.autoIncrementActive ∧
    (respondErr e s).lastWriteWasFlash = s.lastWriteWasFlash ∧ (respondErr e s).flashUnlocked = s.flashUnlocked ∧
    (respondErr e s).pinDrive = s.pinDrive ∧ (respondErr e s).powerGate = s.powerGate ∧
    (respondErr e s).portOwner = s.portOwner ∧ (respondErr e s).irqMasked = s.irqMasked ∧
    (respondErr e s).status = s.status ∧ (respondErr e s).error = s.error ∧ (respondErr e s).offset = s.offset ∧
    (respondErr e s).size = s.size ∧ (respondErr e s).retryBudget = s.retryBudget ∧
    (respondErr e s).currentRetry = s.currentRetry ∧ (respondErr e s).watchdogDeadline = s.watchdogDeadline ∧
    (respondErr e s).received = s.received ∧ (respondErr e s).uploadBuffer = s.uploadBuffer ∧
    (respondErr e s).active = s.active ∧ (respondErr e s).terminalConnected = s.terminalConnected ∧
    (respondErr e s).reqValid = false ∧ (respondErr e s).reqOp = s.reqOp ∧ (respondErr e s).reqA = s.reqA ∧
    (respondErr e s).reqB = s.reqB ∧ (respondErr e s).reqC = s.reqC ∧ (respondErr e s).reqPresent = s.reqPresent ∧
    (respondErr e s).reqFinal = s.reqFinal ∧ (respondErr e s).reqData = s.reqData ∧ (respondErr e s).rspValid = true ∧
    (respondErr e s).rspCode = e.code ∧ (respondErr e s).rspValue = Config.freeRspValue s.freeCount ∧
    (respondErr e s).rspData = Config.freeRspData s.freeCount ∧ (respondErr e s).ctl = none ∧
    (respondErr e s).now = s.now ∧ (respondErr e s).clockIn = s.clockIn ∧ (respondErr e s).clockRest = s.clockRest ∧
    (respondErr e s).clockCount = s.clockCount ∧ (respondErr e s).slotIn = s.slotIn ∧
    (respondErr e s).slotRest = s.slotRest ∧ (respondErr e s).slotCount = s.slotCount ∧
    (respondErr e s).termIn = s.termIn ∧ (respondErr e s).hostIn = s.hostIn ∧
    (respondErr e s).freeCount = s.freeCount + 1 ∧ (respondErr e s).lineLog = s.lineLog ∧
    (respondErr e s).frameLog = s.frameLog := by
  repeat' constructor

@[simp] theorem refuseUnknown_fields (s : State) :
    (refuseUnknown s).cfg = s.cfg ∧ (refuseUnknown s).pinMask = s.pinMask ∧
    (refuseUnknown s).timingCoefficient = s.timingCoefficient ∧ (refuseUnknown s).sessionTag = s.sessionTag ∧
    (refuseUnknown s).cachedAddress = s.cachedAddress ∧ (refuseUnknown s).autoIncrementActive = s.autoIncrementActive ∧
    (refuseUnknown s).lastWriteWasFlash = s.lastWriteWasFlash ∧ (refuseUnknown s).flashUnlocked = s.flashUnlocked ∧
    (refuseUnknown s).pinDrive = s.pinDrive ∧ (refuseUnknown s).powerGate = s.powerGate ∧
    (refuseUnknown s).portOwner = s.portOwner ∧ (refuseUnknown s).irqMasked = s.irqMasked ∧
    (refuseUnknown s).status = s.status ∧ (refuseUnknown s).error = s.error ∧ (refuseUnknown s).offset = s.offset ∧
    (refuseUnknown s).size = s.size ∧ (refuseUnknown s).retryBudget = s.retryBudget ∧
    (refuseUnknown s).currentRetry = s.currentRetry ∧ (refuseUnknown s).watchdogDeadline = s.watchdogDeadline ∧
    (refuseUnknown s).received = s.received ∧ (refuseUnknown s).uploadBuffer = s.uploadBuffer ∧
    (refuseUnknown s).active = s.active ∧ (refuseUnknown s).terminalConnected = s.terminalConnected ∧
    (refuseUnknown s).reqValid = false ∧ (refuseUnknown s).reqOp = s.reqOp ∧ (refuseUnknown s).reqA = s.reqA ∧
    (refuseUnknown s).reqB = s.reqB ∧ (refuseUnknown s).reqC = s.reqC ∧ (refuseUnknown s).reqPresent = s.reqPresent ∧
    (refuseUnknown s).reqFinal = s.reqFinal ∧ (refuseUnknown s).reqData = s.reqData ∧ (refuseUnknown s).rspValid = true ∧
    (refuseUnknown s).rspCode = ErrKind.unknownCommand.code ∧ (refuseUnknown s).rspValue = s.rspValue ∧
    (refuseUnknown s).rspData = s.rspData ∧ (refuseUnknown s).ctl = s.ctl ∧ (refuseUnknown s).now = s.now ∧
    (refuseUnknown s).clockIn = s.clockIn ∧ (refuseUnknown s).clockRest = s.clockRest ∧
    (refuseUnknown s).clockCount = s.clockCount ∧ (refuseUnknown s).slotIn = s.slotIn ∧
    (refuseUnknown s).slotRest = s.slotRest ∧ (refuseUnknown s).slotCount = s.slotCount ∧
    (refuseUnknown s).termIn = s.termIn ∧ (refuseUnknown s).hostIn = s.hostIn ∧
    (refuseUnknown s).freeCount = s.freeCount ∧ (refuseUnknown s).lineLog = s.lineLog ∧
    (refuseUnknown s).frameLog = s.frameLog := by
  repeat' constructor

@[simp] theorem enter_fields (s : State) :
    (enter s).cfg = s.cfg ∧ (enter s).pinMask = s.pinMask ∧ (enter s).timingCoefficient = s.timingCoefficient ∧
    (enter s).sessionTag = s.sessionTag ∧ (enter s).cachedAddress = s.cachedAddress ∧
    (enter s).autoIncrementActive = s.autoIncrementActive ∧ (enter s).lastWriteWasFlash = s.lastWriteWasFlash ∧
    (enter s).flashUnlocked = s.flashUnlocked ∧ (enter s).pinDrive = s.pinDrive ∧ (enter s).powerGate = s.powerGate ∧
    (enter s).portOwner = s.portOwner ∧ (enter s).irqMasked = s.irqMasked ∧ (enter s).status = s.status ∧
    (enter s).error = s.error ∧ (enter s).offset = s.offset ∧ (enter s).size = s.size ∧
    (enter s).retryBudget = s.retryBudget ∧ (enter s).currentRetry = s.currentRetry ∧
    (enter s).watchdogDeadline = s.watchdogDeadline ∧ (enter s).received = s.received ∧
    (enter s).uploadBuffer = s.uploadBuffer ∧ (enter s).active = true ∧ (enter s).terminalConnected = false ∧
    (enter s).reqValid = s.reqValid ∧ (enter s).reqOp = s.reqOp ∧ (enter s).reqA = s.reqA ∧ (enter s).reqB = s.reqB ∧
    (enter s).reqC = s.reqC ∧ (enter s).reqPresent = s.reqPresent ∧ (enter s).reqFinal = s.reqFinal ∧
    (enter s).reqData = s.reqData ∧ (enter s).rspValid = s.rspValid ∧ (enter s).rspCode = s.rspCode ∧
    (enter s).rspValue = s.rspValue ∧ (enter s).rspData = s.rspData ∧ (enter s).ctl = s.ctl ∧ (enter s).now = s.now ∧
    (enter s).clockIn = s.clockIn ∧ (enter s).clockRest = s.clockRest ∧ (enter s).clockCount = s.clockCount ∧
    (enter s).slotIn = s.slotIn ∧ (enter s).slotRest = s.slotRest ∧ (enter s).slotCount = s.slotCount ∧
    (enter s).termIn = s.termIn ∧ (enter s).hostIn = s.hostIn ∧ (enter s).freeCount = s.freeCount ∧
    (enter s).lineLog = s.lineLog ∧ (enter s).frameLog = s.frameLog := by
  repeat' constructor

@[simp] theorem leave_fields (s : State) :
    (leave s).cfg = s.cfg ∧ (leave s).pinMask = s.pinMask ∧ (leave s).timingCoefficient = s.timingCoefficient ∧
    (leave s).sessionTag = s.sessionTag ∧ (leave s).cachedAddress = s.cachedAddress ∧
    (leave s).autoIncrementActive = s.autoIncrementActive ∧ (leave s).lastWriteWasFlash = s.lastWriteWasFlash ∧
    (leave s).flashUnlocked = s.flashUnlocked ∧ (leave s).pinDrive = s.pinDrive ∧ (leave s).powerGate = s.powerGate ∧
    (leave s).portOwner = s.portOwner ∧ (leave s).irqMasked = s.irqMasked ∧ (leave s).status = s.status ∧
    (leave s).error = s.error ∧ (leave s).offset = s.offset ∧ (leave s).size = s.size ∧
    (leave s).retryBudget = s.retryBudget ∧ (leave s).currentRetry = s.currentRetry ∧
    (leave s).watchdogDeadline = s.watchdogDeadline ∧ (leave s).received = s.received ∧
    (leave s).uploadBuffer = s.uploadBuffer ∧ (leave s).active = false ∧
    (leave s).terminalConnected = s.terminalConnected ∧ (leave s).reqValid = s.reqValid ∧ (leave s).reqOp = s.reqOp ∧
    (leave s).reqA = s.reqA ∧ (leave s).reqB = s.reqB ∧ (leave s).reqC = s.reqC ∧ (leave s).reqPresent = s.reqPresent ∧
    (leave s).reqFinal = s.reqFinal ∧ (leave s).reqData = s.reqData ∧ (leave s).rspValid = s.rspValid ∧
    (leave s).rspCode = s.rspCode ∧ (leave s).rspValue = s.rspValue ∧ (leave s).rspData = s.rspData ∧
    (leave s).ctl = s.ctl ∧ (leave s).now = s.now ∧ (leave s).clockIn = s.clockIn ∧ (leave s).clockRest = s.clockRest ∧
    (leave s).clockCount = s.clockCount ∧ (leave s).slotIn = s.slotIn ∧ (leave s).slotRest = s.slotRest ∧
    (leave s).slotCount = s.slotCount ∧ (leave s).termIn = s.termIn ∧ (leave s).hostIn = s.hostIn ∧
    (leave s).freeCount = s.freeCount ∧ (leave s).lineLog = s.lineLog ∧ (leave s).frameLog = s.frameLog := by
  repeat' constructor

@[simp] theorem invalidate_fields (s : State) :
    (invalidate s).cfg = s.cfg ∧ (invalidate s).pinMask = s.pinMask ∧
    (invalidate s).timingCoefficient = s.timingCoefficient ∧ (invalidate s).sessionTag = .invalidated ∧
    (invalidate s).cachedAddress = s.cachedAddress ∧ (invalidate s).autoIncrementActive = s.autoIncrementActive ∧
    (invalidate s).lastWriteWasFlash = s.lastWriteWasFlash ∧ (invalidate s).flashUnlocked = s.flashUnlocked ∧
    (invalidate s).pinDrive = s.pinDrive ∧ (invalidate s).powerGate = s.powerGate ∧
    (invalidate s).portOwner = s.portOwner ∧ (invalidate s).irqMasked = s.irqMasked ∧ (invalidate s).status = s.status ∧
    (invalidate s).error = s.error ∧ (invalidate s).offset = s.offset ∧ (invalidate s).size = s.size ∧
    (invalidate s).retryBudget = s.retryBudget ∧ (invalidate s).currentRetry = s.currentRetry ∧
    (invalidate s).watchdogDeadline = s.watchdogDeadline ∧ (invalidate s).received = s.received ∧
    (invalidate s).uploadBuffer = s.uploadBuffer ∧ (invalidate s).active = s.active ∧
    (invalidate s).terminalConnected = s.terminalConnected ∧ (invalidate s).reqValid = s.reqValid ∧
    (invalidate s).reqOp = s.reqOp ∧ (invalidate s).reqA = s.reqA ∧ (invalidate s).reqB = s.reqB ∧
    (invalidate s).reqC = s.reqC ∧ (invalidate s).reqPresent = s.reqPresent ∧ (invalidate s).reqFinal = s.reqFinal ∧
    (invalidate s).reqData = s.reqData ∧ (invalidate s).rspValid = s.rspValid ∧ (invalidate s).rspCode = s.rspCode ∧
    (invalidate s).rspValue = s.rspValue ∧ (invalidate s).rspData = s.rspData ∧ (invalidate s).ctl = s.ctl ∧
    (invalidate s).now = s.now ∧ (invalidate s).clockIn = s.clockIn ∧ (invalidate s).clockRest = s.clockRest ∧
    (invalidate s).clockCount = s.clockCount ∧ (invalidate s).slotIn = s.slotIn ∧ (invalidate s).slotRest = s.slotRest ∧
    (invalidate s).slotCount = s.slotCount ∧ (invalidate s).termIn = s.termIn ∧ (invalidate s).hostIn = s.hostIn ∧
    (invalidate s).freeCount = s.freeCount ∧ (invalidate s).lineLog = s.lineLog ∧ (invalidate s).frameLog = s.frameLog := by
  repeat' constructor

@[simp] theorem discardLink_fields (s : State) :
    (discardLink s).cfg = s.cfg ∧ (discardLink s).pinMask = s.pinMask ∧
    (discardLink s).timingCoefficient = s.timingCoefficient ∧ (discardLink s).sessionTag = .none ∧
    (discardLink s).cachedAddress = s.cachedAddress ∧ (discardLink s).autoIncrementActive = false ∧
    (discardLink s).lastWriteWasFlash = false ∧ (discardLink s).flashUnlocked = false ∧
    (discardLink s).pinDrive = s.pinDrive ∧ (discardLink s).powerGate = s.powerGate ∧
    (discardLink s).portOwner = s.portOwner ∧ (discardLink s).irqMasked = s.irqMasked ∧
    (discardLink s).status = s.status ∧ (discardLink s).error = s.error ∧ (discardLink s).offset = s.offset ∧
    (discardLink s).size = s.size ∧ (discardLink s).retryBudget = s.retryBudget ∧
    (discardLink s).currentRetry = s.currentRetry ∧ (discardLink s).watchdogDeadline = s.watchdogDeadline ∧
    (discardLink s).received = s.received ∧ (discardLink s).uploadBuffer = s.uploadBuffer ∧
    (discardLink s).active = s.active ∧ (discardLink s).terminalConnected = s.terminalConnected ∧
    (discardLink s).reqValid = s.reqValid ∧ (discardLink s).reqOp = s.reqOp ∧ (discardLink s).reqA = s.reqA ∧
    (discardLink s).reqB = s.reqB ∧ (discardLink s).reqC = s.reqC ∧ (discardLink s).reqPresent = s.reqPresent ∧
    (discardLink s).reqFinal = s.reqFinal ∧ (discardLink s).reqData = s.reqData ∧ (discardLink s).rspValid = s.rspValid ∧
    (discardLink s).rspCode = s.rspCode ∧ (discardLink s).rspValue = s.rspValue ∧ (discardLink s).rspData = s.rspData ∧
    (discardLink s).ctl = s.ctl ∧ (discardLink s).now = s.now ∧ (discardLink s).clockIn = s.clockIn ∧
    (discardLink s).clockRest = s.clockRest ∧ (discardLink s).clockCount = s.clockCount ∧
    (discardLink s).slotIn = s.slotIn ∧ (discardLink s).slotRest = s.slotRest ∧ (discardLink s).slotCount = s.slotCount ∧
    (discardLink s).termIn = s.termIn ∧ (discardLink s).hostIn = s.hostIn ∧ (discardLink s).freeCount = s.freeCount ∧
    (discardLink s).lineLog = s.lineLog ∧ (discardLink s).frameLog = s.frameLog := by
  repeat' constructor

@[simp] theorem logLine_fields (es : List LineEvent) (s : State) :
    (logLine es s).cfg = s.cfg ∧ (logLine es s).pinMask = s.pinMask ∧
    (logLine es s).timingCoefficient = s.timingCoefficient ∧ (logLine es s).sessionTag = s.sessionTag ∧
    (logLine es s).cachedAddress = s.cachedAddress ∧ (logLine es s).autoIncrementActive = s.autoIncrementActive ∧
    (logLine es s).lastWriteWasFlash = s.lastWriteWasFlash ∧ (logLine es s).flashUnlocked = s.flashUnlocked ∧
    (logLine es s).pinDrive = s.pinDrive ∧ (logLine es s).powerGate = s.powerGate ∧
    (logLine es s).portOwner = s.portOwner ∧ (logLine es s).irqMasked = s.irqMasked ∧ (logLine es s).status = s.status ∧
    (logLine es s).error = s.error ∧ (logLine es s).offset = s.offset ∧ (logLine es s).size = s.size ∧
    (logLine es s).retryBudget = s.retryBudget ∧ (logLine es s).currentRetry = s.currentRetry ∧
    (logLine es s).watchdogDeadline = s.watchdogDeadline ∧ (logLine es s).received = s.received ∧
    (logLine es s).uploadBuffer = s.uploadBuffer ∧ (logLine es s).active = s.active ∧
    (logLine es s).terminalConnected = s.terminalConnected ∧ (logLine es s).reqValid = s.reqValid ∧
    (logLine es s).reqOp = s.reqOp ∧ (logLine es s).reqA = s.reqA ∧ (logLine es s).reqB = s.reqB ∧
    (logLine es s).reqC = s.reqC ∧ (logLine es s).reqPresent = s.reqPresent ∧ (logLine es s).reqFinal = s.reqFinal ∧
    (logLine es s).reqData = s.reqData ∧ (logLine es s).rspValid = s.rspValid ∧ (logLine es s).rspCode = s.rspCode ∧
    (logLine es s).rspValue = s.rspValue ∧ (logLine es s).rspData = s.rspData ∧ (logLine es s).ctl = s.ctl ∧
    (logLine es s).now = s.now ∧ (logLine es s).clockIn = s.clockIn ∧ (logLine es s).clockRest = s.clockRest ∧
    (logLine es s).clockCount = s.clockCount ∧ (logLine es s).slotIn = s.slotIn ∧ (logLine es s).slotRest = s.slotRest ∧
    (logLine es s).slotCount = s.slotCount ∧ (logLine es s).termIn = s.termIn ∧ (logLine es s).hostIn = s.hostIn ∧
    (logLine es s).freeCount = s.freeCount ∧ (logLine es s).lineLog = s.lineLog ++ es ∧
    (logLine es s).frameLog = s.frameLog := by
  repeat' constructor

@[simp] theorem logFrame_fields (who : Issuer) (k : FrameKind) (s : State) :
    (logFrame who k s).cfg = s.cfg ∧ (logFrame who k s).pinMask = s.pinMask ∧
    (logFrame who k s).timingCoefficient = s.timingCoefficient ∧ (logFrame who k s).sessionTag = s.sessionTag ∧
    (logFrame who k s).cachedAddress = s.cachedAddress ∧ (logFrame who k s).autoIncrementActive = s.autoIncrementActive ∧
    (logFrame who k s).lastWriteWasFlash = s.lastWriteWasFlash ∧ (logFrame who k s).flashUnlocked = s.flashUnlocked ∧
    (logFrame who k s).pinDrive = s.pinDrive ∧ (logFrame who k s).powerGate = s.powerGate ∧
    (logFrame who k s).portOwner = s.portOwner ∧ (logFrame who k s).irqMasked = s.irqMasked ∧
    (logFrame who k s).status = s.status ∧ (logFrame who k s).error = s.error ∧ (logFrame who k s).offset = s.offset ∧
    (logFrame who k s).size = s.size ∧ (logFrame who k s).retryBudget = s.retryBudget ∧
    (logFrame who k s).currentRetry = s.currentRetry ∧ (logFrame who k s).watchdogDeadline = s.watchdogDeadline ∧
    (logFrame who k s).received = s.received ∧ (logFrame who k s).uploadBuffer = s.uploadBuffer ∧
    (logFrame who k s).active = s.active ∧ (logFrame who k s).terminalConnected = s.terminalConnected ∧
    (logFrame who k s).reqValid = s.reqValid ∧ (logFrame who k s).reqOp = s.reqOp ∧ (logFrame who k s).reqA = s.reqA ∧
    (logFrame who k s).reqB = s.reqB ∧ (logFrame who k s).reqC = s.reqC ∧ (logFrame who k s).reqPresent = s.reqPresent ∧
    (logFrame who k s).reqFinal = s.reqFinal ∧ (logFrame who k s).reqData = s.reqData ∧
    (logFrame who k s).rspValid = s.rspValid ∧ (logFrame who k s).rspCode = s.rspCode ∧
    (logFrame who k s).rspValue = s.rspValue ∧ (logFrame who k s).rspData = s.rspData ∧ (logFrame who k s).ctl = s.ctl ∧
    (logFrame who k s).now = s.now ∧ (logFrame who k s).clockIn = s.clockIn ∧
    (logFrame who k s).clockRest = s.clockRest ∧ (logFrame who k s).clockCount = s.clockCount ∧
    (logFrame who k s).slotIn = s.slotIn ∧ (logFrame who k s).slotRest = s.slotRest ∧
    (logFrame who k s).slotCount = s.slotCount ∧ (logFrame who k s).termIn = s.termIn ∧
    (logFrame who k s).hostIn = s.hostIn ∧ (logFrame who k s).freeCount = s.freeCount ∧
    (logFrame who k s).lineLog = s.lineLog ∧ (logFrame who k s).frameLog = s.frameLog ++ [⟨who, k⟩] := by
  repeat' constructor

@[simp] theorem wait_fields (n : Nat) (s : State) :
    (wait n s).cfg = s.cfg ∧ (wait n s).pinMask = s.pinMask ∧ (wait n s).timingCoefficient = s.timingCoefficient ∧
    (wait n s).sessionTag = s.sessionTag ∧ (wait n s).cachedAddress = s.cachedAddress ∧
    (wait n s).autoIncrementActive = s.autoIncrementActive ∧ (wait n s).lastWriteWasFlash = s.lastWriteWasFlash ∧
    (wait n s).flashUnlocked = s.flashUnlocked ∧ (wait n s).pinDrive = s.pinDrive ∧ (wait n s).powerGate = s.powerGate ∧
    (wait n s).portOwner = s.portOwner ∧ (wait n s).irqMasked = s.irqMasked ∧ (wait n s).status = s.status ∧
    (wait n s).error = s.error ∧ (wait n s).offset = s.offset ∧ (wait n s).size = s.size ∧
    (wait n s).retryBudget = s.retryBudget ∧ (wait n s).currentRetry = s.currentRetry ∧
    (wait n s).watchdogDeadline = s.watchdogDeadline ∧ (wait n s).received = s.received ∧
    (wait n s).uploadBuffer = s.uploadBuffer ∧ (wait n s).active = s.active ∧
    (wait n s).terminalConnected = s.terminalConnected ∧ (wait n s).reqValid = s.reqValid ∧ (wait n s).reqOp = s.reqOp ∧
    (wait n s).reqA = s.reqA ∧ (wait n s).reqB = s.reqB ∧ (wait n s).reqC = s.reqC ∧
    (wait n s).reqPresent = s.reqPresent ∧ (wait n s).reqFinal = s.reqFinal ∧ (wait n s).reqData = s.reqData ∧
    (wait n s).rspValid = s.rspValid ∧ (wait n s).rspCode = s.rspCode ∧ (wait n s).rspValue = s.rspValue ∧
    (wait n s).rspData = s.rspData ∧ (wait n s).ctl = s.ctl ∧ (wait n s).now = s.now ∧ (wait n s).clockIn = s.clockIn ∧
    (wait n s).clockRest = s.clockRest ∧ (wait n s).clockCount = s.clockCount ∧ (wait n s).slotIn = s.slotIn ∧
    (wait n s).slotRest = s.slotRest ∧ (wait n s).slotCount = s.slotCount ∧ (wait n s).termIn = s.termIn ∧
    (wait n s).hostIn = s.hostIn ∧ (wait n s).freeCount = s.freeCount ∧ (wait n s).lineLog = s.lineLog ++ [.hold n] ∧
    (wait n s).frameLog = s.frameLog := by
  repeat' constructor

@[simp] theorem sendBits_fields (c : Nat) (bits : List Bool) (s : State) :
    (sendBits c bits s).cfg = s.cfg ∧ (sendBits c bits s).pinMask = s.pinMask ∧
    (sendBits c bits s).timingCoefficient = s.timingCoefficient ∧ (sendBits c bits s).sessionTag = s.sessionTag ∧
    (sendBits c bits s).cachedAddress = s.cachedAddress ∧
    (sendBits c bits s).autoIncrementActive = s.autoIncrementActive ∧
    (sendBits c bits s).lastWriteWasFlash = s.lastWriteWasFlash ∧ (sendBits c bits s).flashUnlocked = s.flashUnlocked ∧
    (sendBits c bits s).pinDrive = (if bits.isEmpty then s.pinDrive else highOut s.cfg) ∧
    (sendBits c bits s).powerGate = s.powerGate ∧ (sendBits c bits s).portOwner = s.portOwner ∧
    (sendBits c bits s).irqMasked = s.irqMasked ∧ (sendBits c bits s).status = s.status ∧
    (sendBits c bits s).error = s.error ∧ (sendBits c bits s).offset = s.offset ∧ (sendBits c bits s).size = s.size ∧
    (sendBits c bits s).retryBudget = s.retryBudget ∧ (sendBits c bits s).currentRetry = s.currentRetry ∧
    (sendBits c bits s).watchdogDeadline = s.watchdogDeadline ∧ (sendBits c bits s).received = s.received ∧
    (sendBits c bits s).uploadBuffer = s.uploadBuffer ∧ (sendBits c bits s).active = s.active ∧
    (sendBits c bits s).terminalConnected = s.terminalConnected ∧ (sendBits c bits s).reqValid = s.reqValid ∧
    (sendBits c bits s).reqOp = s.reqOp ∧ (sendBits c bits s).reqA = s.reqA ∧ (sendBits c bits s).reqB = s.reqB ∧
    (sendBits c bits s).reqC = s.reqC ∧ (sendBits c bits s).reqPresent = s.reqPresent ∧
    (sendBits c bits s).reqFinal = s.reqFinal ∧ (sendBits c bits s).reqData = s.reqData ∧
    (sendBits c bits s).rspValid = s.rspValid ∧ (sendBits c bits s).rspCode = s.rspCode ∧
    (sendBits c bits s).rspValue = s.rspValue ∧ (sendBits c bits s).rspData = s.rspData ∧
    (sendBits c bits s).ctl = s.ctl ∧ (sendBits c bits s).now = s.now ∧ (sendBits c bits s).clockIn = s.clockIn ∧
    (sendBits c bits s).clockRest = s.clockRest ∧ (sendBits c bits s).clockCount = s.clockCount ∧
    (sendBits c bits s).slotIn = s.slotIn ∧ (sendBits c bits s).slotRest = s.slotRest ∧
    (sendBits c bits s).slotCount = s.slotCount ∧ (sendBits c bits s).termIn = s.termIn ∧
    (sendBits c bits s).hostIn = s.hostIn ∧ (sendBits c bits s).freeCount = s.freeCount ∧
    (sendBits c bits s).lineLog = s.lineLog ++ bits.flatMap (symbolEvents s.cfg c) ∧
    (sendBits c bits s).frameLog = s.frameLog := by
  repeat' constructor

@[simp] theorem freePort_fields (who : Issuer) (gap : List LineEvent) (s : State) :
    (freePort who gap s).cfg = s.cfg ∧ (freePort who gap s).pinMask = s.pinMask ∧
    (freePort who gap s).timingCoefficient = s.timingCoefficient ∧ (freePort who gap s).sessionTag = s.sessionTag ∧
    (freePort who gap s).cachedAddress = s.cachedAddress ∧
    (freePort who gap s).autoIncrementActive = s.autoIncrementActive ∧
    (freePort who gap s).lastWriteWasFlash = s.lastWriteWasFlash ∧ (freePort who gap s).flashUnlocked = s.flashUnlocked ∧
    (freePort who gap s).pinDrive = s.pinDrive ∧ (freePort who gap s).powerGate = s.powerGate ∧
    (freePort who gap s).portOwner = .free ∧ (freePort who gap s).irqMasked = false ∧
    (freePort who gap s).status = s.status ∧ (freePort who gap s).error = s.error ∧
    (freePort who gap s).offset = s.offset ∧ (freePort who gap s).size = s.size ∧
    (freePort who gap s).retryBudget = s.retryBudget ∧ (freePort who gap s).currentRetry = s.currentRetry ∧
    (freePort who gap s).watchdogDeadline = s.watchdogDeadline ∧ (freePort who gap s).received = s.received ∧
    (freePort who gap s).uploadBuffer = s.uploadBuffer ∧ (freePort who gap s).active = s.active ∧
    (freePort who gap s).terminalConnected = s.terminalConnected ∧ (freePort who gap s).reqValid = s.reqValid ∧
    (freePort who gap s).reqOp = s.reqOp ∧ (freePort who gap s).reqA = s.reqA ∧ (freePort who gap s).reqB = s.reqB ∧
    (freePort who gap s).reqC = s.reqC ∧ (freePort who gap s).reqPresent = s.reqPresent ∧
    (freePort who gap s).reqFinal = s.reqFinal ∧ (freePort who gap s).reqData = s.reqData ∧
    (freePort who gap s).rspValid = s.rspValid ∧ (freePort who gap s).rspCode = s.rspCode ∧
    (freePort who gap s).rspValue = s.rspValue ∧ (freePort who gap s).rspData = s.rspData ∧
    (freePort who gap s).ctl = s.ctl ∧ (freePort who gap s).now = s.now ∧ (freePort who gap s).clockIn = s.clockIn ∧
    (freePort who gap s).clockRest = s.clockRest ∧ (freePort who gap s).clockCount = s.clockCount ∧
    (freePort who gap s).slotIn = s.slotIn ∧ (freePort who gap s).slotRest = s.slotRest ∧
    (freePort who gap s).slotCount = s.slotCount ∧ (freePort who gap s).termIn = s.termIn ∧
    (freePort who gap s).hostIn = s.hostIn ∧ (freePort who gap s).freeCount = s.freeCount ∧
    (freePort who gap s).lineLog = s.lineLog ++ (.unmask :: gap ++ [.release who]) ∧
    (freePort who gap s).frameLog = s.frameLog := by
  repeat' constructor

@[simp] theorem awaitPort_fields (s : State) :
    (awaitPort s).cfg = s.cfg ∧ (awaitPort s).pinMask = s.pinMask ∧
    (awaitPort s).timingCoefficient = s.timingCoefficient ∧ (awaitPort s).sessionTag = s.sessionTag ∧
    (awaitPort s).cachedAddress = s.cachedAddress ∧ (awaitPort s).autoIncrementActive = s.autoIncrementActive ∧
    (awaitPort s).lastWriteWasFlash = s.lastWriteWasFlash ∧ (awaitPort s).flashUnlocked = s.flashUnlocked ∧
    (awaitPort s).pinDrive = s.pinDrive ∧ (awaitPort s).powerGate = s.powerGate ∧ (awaitPort s).portOwner = .free ∧
    (awaitPort s).irqMasked = false ∧ (awaitPort s).status = s.status ∧ (awaitPort s).error = s.error ∧
    (awaitPort s).offset = s.offset ∧ (awaitPort s).size = s.size ∧ (awaitPort s).retryBudget = s.retryBudget ∧
    (awaitPort s).currentRetry = s.currentRetry ∧ (awaitPort s).watchdogDeadline = s.watchdogDeadline ∧
    (awaitPort s).received = s.received ∧ (awaitPort s).uploadBuffer = s.uploadBuffer ∧ (awaitPort s).active = s.active ∧
    (awaitPort s).terminalConnected = s.terminalConnected ∧ (awaitPort s).reqValid = s.reqValid ∧
    (awaitPort s).reqOp = s.reqOp ∧ (awaitPort s).reqA = s.reqA ∧ (awaitPort s).reqB = s.reqB ∧
    (awaitPort s).reqC = s.reqC ∧ (awaitPort s).reqPresent = s.reqPresent ∧ (awaitPort s).reqFinal = s.reqFinal ∧
    (awaitPort s).reqData = s.reqData ∧ (awaitPort s).rspValid = s.rspValid ∧ (awaitPort s).rspCode = s.rspCode ∧
    (awaitPort s).rspValue = s.rspValue ∧ (awaitPort s).rspData = s.rspData ∧ (awaitPort s).ctl = s.ctl ∧
    (awaitPort s).now = s.now ∧ (awaitPort s).clockIn = s.clockIn ∧ (awaitPort s).clockRest = s.clockRest ∧
    (awaitPort s).clockCount = s.clockCount ∧ (awaitPort s).slotIn = s.slotIn ∧ (awaitPort s).slotRest = s.slotRest ∧
    (awaitPort s).slotCount = s.slotCount ∧ (awaitPort s).termIn = s.termIn ∧ (awaitPort s).hostIn = s.hostIn ∧
    (awaitPort s).freeCount = s.freeCount ∧ (awaitPort s).frameLog = s.frameLog := by
  unfold awaitPort; cases s.portOwner <;> repeat' constructor

@[simp] theorem takePort_fields (who : Issuer) (s : State) :
    (takePort who s).cfg = s.cfg ∧ (takePort who s).pinMask = s.pinMask ∧
    (takePort who s).timingCoefficient = s.timingCoefficient ∧ (takePort who s).sessionTag = s.sessionTag ∧
    (takePort who s).cachedAddress = s.cachedAddress ∧ (takePort who s).autoIncrementActive = s.autoIncrementActive ∧
    (takePort who s).lastWriteWasFlash = s.lastWriteWasFlash ∧ (takePort who s).flashUnlocked = s.flashUnlocked ∧
    (takePort who s).pinDrive = s.pinDrive ∧ (takePort who s).powerGate = s.powerGate ∧
    (takePort who s).portOwner = .held who ∧ (takePort who s).irqMasked = true ∧ (takePort who s).status = s.status ∧
    (takePort who s).error = s.error ∧ (takePort who s).offset = s.offset ∧ (takePort who s).size = s.size ∧
    (takePort who s).retryBudget = s.retryBudget ∧ (takePort who s).currentRetry = s.currentRetry ∧
    (takePort who s).watchdogDeadline = s.watchdogDeadline ∧ (takePort who s).received = s.received ∧
    (takePort who s).uploadBuffer = s.uploadBuffer ∧ (takePort who s).active = s.active ∧
    (takePort who s).terminalConnected = s.terminalConnected ∧ (takePort who s).reqValid = s.reqValid ∧
    (takePort who s).reqOp = s.reqOp ∧ (takePort who s).reqA = s.reqA ∧ (takePort who s).reqB = s.reqB ∧
    (takePort who s).reqC = s.reqC ∧ (takePort who s).reqPresent = s.reqPresent ∧
    (takePort who s).reqFinal = s.reqFinal ∧ (takePort who s).reqData = s.reqData ∧
    (takePort who s).rspValid = s.rspValid ∧ (takePort who s).rspCode = s.rspCode ∧
    (takePort who s).rspValue = s.rspValue ∧ (takePort who s).rspData = s.rspData ∧ (takePort who s).ctl = s.ctl ∧
    (takePort who s).now = s.now ∧ (takePort who s).clockIn = s.clockIn ∧ (takePort who s).clockRest = s.clockRest ∧
    (takePort who s).clockCount = s.clockCount ∧ (takePort who s).slotIn = s.slotIn ∧
    (takePort who s).slotRest = s.slotRest ∧ (takePort who s).slotCount = s.slotCount ∧
    (takePort who s).termIn = s.termIn ∧ (takePort who s).hostIn = s.hostIn ∧ (takePort who s).freeCount = s.freeCount ∧
    (takePort who s).frameLog = s.frameLog := by
  unfold takePort awaitPort; cases s.portOwner <;> repeat' constructor

@[simp] theorem readClock_fields (s : State) :
    (readClock s).cfg = s.cfg ∧ (readClock s).pinMask = s.pinMask ∧
    (readClock s).timingCoefficient = s.timingCoefficient ∧ (readClock s).sessionTag = s.sessionTag ∧
    (readClock s).cachedAddress = s.cachedAddress ∧ (readClock s).autoIncrementActive = s.autoIncrementActive ∧
    (readClock s).lastWriteWasFlash = s.lastWriteWasFlash ∧ (readClock s).flashUnlocked = s.flashUnlocked ∧
    (readClock s).pinDrive = s.pinDrive ∧ (readClock s).powerGate = s.powerGate ∧ (readClock s).portOwner = s.portOwner ∧
    (readClock s).irqMasked = s.irqMasked ∧ (readClock s).status = s.status ∧ (readClock s).error = s.error ∧
    (readClock s).offset = s.offset ∧ (readClock s).size = s.size ∧ (readClock s).retryBudget = s.retryBudget ∧
    (readClock s).currentRetry = s.currentRetry ∧ (readClock s).watchdogDeadline = s.watchdogDeadline ∧
    (readClock s).received = s.received ∧ (readClock s).uploadBuffer = s.uploadBuffer ∧ (readClock s).active = s.active ∧
    (readClock s).terminalConnected = s.terminalConnected ∧ (readClock s).reqValid = s.reqValid ∧
    (readClock s).reqOp = s.reqOp ∧ (readClock s).reqA = s.reqA ∧ (readClock s).reqB = s.reqB ∧
    (readClock s).reqC = s.reqC ∧ (readClock s).reqPresent = s.reqPresent ∧ (readClock s).reqFinal = s.reqFinal ∧
    (readClock s).reqData = s.reqData ∧ (readClock s).rspValid = s.rspValid ∧ (readClock s).rspCode = s.rspCode ∧
    (readClock s).rspValue = s.rspValue ∧ (readClock s).rspData = s.rspData ∧ (readClock s).ctl = s.ctl ∧
    (readClock s).clockRest = s.clockRest ∧ (readClock s).slotIn = s.slotIn ∧ (readClock s).slotRest = s.slotRest ∧
    (readClock s).slotCount = s.slotCount ∧ (readClock s).termIn = s.termIn ∧ (readClock s).hostIn = s.hostIn ∧
    (readClock s).freeCount = s.freeCount ∧ (readClock s).lineLog = s.lineLog ∧ (readClock s).frameLog = s.frameLog := by
  unfold readClock; cases s.clockIn <;> cases s.clockRest <;> repeat' constructor

@[simp] theorem refresh_fields (s : State) :
    (refresh s).cfg = s.cfg ∧ (refresh s).pinMask = s.pinMask ∧ (refresh s).timingCoefficient = s.timingCoefficient ∧
    (refresh s).sessionTag = s.sessionTag ∧ (refresh s).cachedAddress = s.cachedAddress ∧
    (refresh s).autoIncrementActive = s.autoIncrementActive ∧ (refresh s).lastWriteWasFlash = s.lastWriteWasFlash ∧
    (refresh s).flashUnlocked = s.flashUnlocked ∧ (refresh s).pinDrive = s.pinDrive ∧
    (refresh s).powerGate = s.powerGate ∧ (refresh s).portOwner = s.portOwner ∧ (refresh s).irqMasked = s.irqMasked ∧
    (refresh s).status = s.status ∧ (refresh s).error = s.error ∧ (refresh s).offset = s.offset ∧
    (refresh s).size = s.size ∧ (refresh s).retryBudget = s.retryBudget ∧ (refresh s).currentRetry = s.currentRetry ∧
    (refresh s).watchdogDeadline = (readClock s).now + s.cfg.watchdogTimeout ∧ (refresh s).received = s.received ∧
    (refresh s).uploadBuffer = s.uploadBuffer ∧ (refresh s).active = s.active ∧
    (refresh s).terminalConnected = s.terminalConnected ∧ (refresh s).reqValid = s.reqValid ∧
    (refresh s).reqOp = s.reqOp ∧ (refresh s).reqA = s.reqA ∧ (refresh s).reqB = s.reqB ∧ (refresh s).reqC = s.reqC ∧
    (refresh s).reqPresent = s.reqPresent ∧ (refresh s).reqFinal = s.reqFinal ∧ (refresh s).reqData = s.reqData ∧
    (refresh s).rspValid = s.rspValid ∧ (refresh s).rspCode = s.rspCode ∧ (refresh s).rspValue = s.rspValue ∧
    (refresh s).rspData = s.rspData ∧ (refresh s).ctl = s.ctl ∧ (refresh s).now = (readClock s).now ∧
    (refresh s).clockIn = (readClock s).clockIn ∧ (refresh s).clockRest = s.clockRest ∧
    (refresh s).clockCount = (readClock s).clockCount ∧ (refresh s).slotIn = s.slotIn ∧
    (refresh s).slotRest = s.slotRest ∧ (refresh s).slotCount = s.slotCount ∧ (refresh s).termIn = s.termIn ∧
    (refresh s).hostIn = s.hostIn ∧ (refresh s).freeCount = s.freeCount ∧ (refresh s).lineLog = s.lineLog ∧
    (refresh s).frameLog = s.frameLog := by
  simp [refresh]

@[simp] theorem loadRequest_fields (r : Request) (s : State) :
    (loadRequest r s).cfg = s.cfg ∧ (loadRequest r s).pinMask = s.pinMask ∧
    (loadRequest r s).timingCoefficient = s.timingCoefficient ∧ (loadRequest r s).sessionTag = s.sessionTag ∧
    (loadRequest r s).cachedAddress = s.cachedAddress ∧ (loadRequest r s).autoIncrementActive = s.autoIncrementActive ∧
    (loadRequest r s).lastWriteWasFlash = s.lastWriteWasFlash ∧ (loadRequest r s).flashUnlocked = s.flashUnlocked ∧
    (loadRequest r s).pinDrive = s.pinDrive ∧ (loadRequest r s).powerGate = s.powerGate ∧
    (loadRequest r s).portOwner = s.portOwner ∧ (loadRequest r s).irqMasked = s.irqMasked ∧
    (loadRequest r s).status = s.status ∧ (loadRequest r s).error = s.error ∧ (loadRequest r s).offset = s.offset ∧
    (loadRequest r s).size = s.size ∧ (loadRequest r s).retryBudget = s.retryBudget ∧
    (loadRequest r s).currentRetry = s.currentRetry ∧ (loadRequest r s).watchdogDeadline = s.watchdogDeadline ∧
    (loadRequest r s).received = s.received ∧ (loadRequest r s).uploadBuffer = s.uploadBuffer ∧
    (loadRequest r s).active = s.active ∧ (loadRequest r s).terminalConnected = s.terminalConnected ∧
    (loadRequest r s).reqValid = true ∧ (loadRequest r s).reqOp = r.op ∧ (loadRequest r s).reqA = r.a ∧
    (loadRequest r s).reqB = r.b ∧ (loadRequest r s).reqC = r.c ∧ (loadRequest r s).reqPresent = r.present ∧
    (loadRequest r s).reqFinal = r.last ∧ (loadRequest r s).reqData = r.data ∧ (loadRequest r s).rspValid = s.rspValid ∧
    (loadRequest r s).rspCode = s.rspCode ∧ (loadRequest r s).rspValue = s.rspValue ∧
    (loadRequest r s).rspData = s.rspData ∧ (loadRequest r s).ctl = s.ctl ∧ (loadRequest r s).now = s.now ∧
    (loadRequest r s).clockIn = s.clockIn ∧ (loadRequest r s).clockRest = s.clockRest ∧
    (loadRequest r s).clockCount = s.clockCount ∧ (loadRequest r s).slotIn = s.slotIn ∧
    (loadRequest r s).slotRest = s.slotRest ∧ (loadRequest r s).slotCount = s.slotCount ∧
    (loadRequest r s).termIn = s.termIn ∧ (loadRequest r s).hostIn = s.hostIn ∧
    (loadRequest r s).freeCount = s.freeCount ∧ (loadRequest r s).lineLog = s.lineLog ∧
    (loadRequest r s).frameLog = s.frameLog := by
  repeat' constructor

theorem powerCycle_eq (off on : Nat) (s : State) : setPower true on (setPower false off s)
    = { s with powerGate := true, lineLog := s.lineLog ++ [.power false, .hold off, .power true, .hold on] } := by
  cases s
  simp [setPower, wait, logLine]

@[simp] theorem setPower_fields (on : Bool) (n : Nat) (s : State) :
    (setPower on n s).cfg = s.cfg ∧ (setPower on n s).pinMask = s.pinMask ∧
    (setPower on n s).timingCoefficient = s.timingCoefficient ∧ (setPower on n s).sessionTag = s.sessionTag ∧
    (setPower on n s).cachedAddress = s.cachedAddress ∧ (setPower on n s).autoIncrementActive = s.autoIncrementActive ∧
    (setPower on n s).lastWriteWasFlash = s.lastWriteWasFlash ∧ (setPower on n s).flashUnlocked = s.flashUnlocked ∧
    (setPower on n s).pinDrive = s.pinDrive ∧ (setPower on n s).powerGate = on ∧
    (setPower on n s).portOwner = s.portOwner ∧ (setPower on n s).irqMasked = s.irqMasked ∧
    (setPower on n s).status = s.status ∧ (setPower on n s).error = s.error ∧ (setPower on n s).offset = s.offset ∧
    (setPower on n s).size = s.size ∧ (setPower on n s).retryBudget = s.retryBudget ∧
    (setPower on n s).currentRetry = s.currentRetry ∧ (setPower on n s).watchdogDeadline = s.watchdogDeadline ∧
    (setPower on n s).received = s.received ∧ (setPower on n s).uploadBuffer = s.uploadBuffer ∧
    (setPower on n s).active = s.active ∧ (setPower on n s).terminalConnected = s.terminalConnected ∧
    (setPower on n s).reqValid = s.reqValid ∧ (setPower on n s).reqOp = s.reqOp ∧ (setPower on n s).reqA = s.reqA ∧
    (setPower on n s).reqB = s.reqB ∧ (setPower on n s).reqC = s.reqC ∧ (setPower on n s).reqPresent = s.reqPresent ∧
    (setPower on n s).reqFinal = s.reqFinal ∧ (setPower on n s).reqData = s.reqData ∧
    (setPower on n s).rspValid = s.rspValid ∧ (setPower on n s).rspCode = s.rspCode ∧
    (setPower on n s).rspValue = s.rspValue ∧ (setPower on n s).rspData = s.rspData ∧ (setPower on n s).ctl = s.ctl ∧
    (setPower on n s).now = s.now ∧ (setPower on n s).clockIn = s.clockIn ∧ (setPower on n s).clockRest = s.clockRest ∧
    (setPower on n s).clockCount = s.clockCount ∧ (setPower on n s).slotIn = s.slotIn ∧
    (setPower on n s).slotRest = s.slotRest ∧ (setPower on n s).slotCount = s.slotCount ∧
    (setPower on n s).termIn = s.termIn ∧ (setPower on n s).hostIn = s.hostIn ∧
    (setPower on n s).freeCount = s.freeCount ∧ (setPower on n s).lineLog = s.lineLog ++ [.power on] ++ [.hold n] ∧
    (setPower on n s).frameLog = s.frameLog := by
  repeat' constructor

@[simp] theorem storeChunk_fields (data : List Byte) (s : State) :
    (storeChunk data s).cfg = s.cfg ∧ (storeChunk data s).pinMask = s.pinMask ∧
    (storeChunk data s).timingCoefficient = s.timingCoefficient ∧ (storeChunk data s).sessionTag = s.sessionTag ∧
    (storeChunk data s).cachedAddress = s.cachedAddress ∧
    (storeChunk data s).autoIncrementActive = s.autoIncrementActive ∧
    (storeChunk data s).lastWriteWasFlash = s.lastWriteWasFlash ∧ (storeChunk data s).flashUnlocked = s.flashUnlocked ∧
    (storeChunk data s).pinDrive = s.pinDrive ∧ (storeChunk data s).powerGate = s.powerGate ∧
    (storeChunk data s).portOwner = s.portOwner ∧ (storeChunk data s).irqMasked = s.irqMasked ∧
    (storeChunk data s).status = s.status ∧ (storeChunk data s).error = s.error ∧ (storeChunk data s).offset = s.offset ∧
    (storeChunk data s).size = s.size ∧ (storeChunk data s).retryBudget = s.retryBudget ∧
    (storeChunk data s).currentRetry = s.currentRetry ∧ (storeChunk data s).watchdogDeadline = s.watchdogDeadline ∧
    (storeChunk data s).received = s.received + BitVec.ofNat 32 data.length ∧
    (storeChunk data s).uploadBuffer = Memory.writeBytes s.uploadBuffer s.received.toNat data ∧
    (storeChunk data s).active = s.active ∧ (storeChunk data s).terminalConnected = s.terminalConnected ∧
    (storeChunk data s).reqValid = s.reqValid ∧ (storeChunk data s).reqOp = s.reqOp ∧ (storeChunk data s).reqA = s.reqA ∧
    (storeChunk data s).reqB = s.reqB ∧ (storeChunk data s).reqC = s.reqC ∧
    (storeChunk data s).reqPresent = s.reqPresent ∧ (storeChunk data s).reqFinal = s.reqFinal ∧
    (storeChunk data s).reqData = s.reqData ∧ (storeChunk data s).rspValid = s.rspValid ∧
    (storeChunk data s).rspCode = s.rspCode ∧ (storeChunk data s).rspValue = s.rspValue ∧
    (storeChunk data s).rspData = s.rspData ∧ (storeChunk data s).ctl = s.ctl ∧ (storeChunk data s).now = s.now ∧
    (storeChunk data s).clockIn = s.clockIn ∧ (storeChunk data s).clockRest = s.clockRest ∧
    (storeChunk data s).clockCount = s.clockCount ∧ (storeChunk data s).slotIn = s.slotIn ∧
    (storeChunk data s).slotRest = s.slotRest ∧ (storeChunk data s).slotCount = s.slotCount ∧
    (storeChunk data s).termIn = s.termIn ∧ (storeChunk data s).hostIn = s.hostIn ∧
    (storeChunk data s).freeCount = s.freeCount ∧ (storeChunk data s).lineLog = s.lineLog ∧
    (storeChunk data s).frameLog = s.frameLog := by
  repeat' constructor

@[simp] theorem afterSymbol_fields (who : Issuer) (b : Bool) (s : State) :
    (afterSymbol who b s).cfg = s.cfg ∧ (afterSymbol who b s).pinMask = s.pinMask ∧
    (afterSymbol who b s).timingCoefficient = s.timingCoefficient ∧ (afterSymbol who b s).sessionTag = s.sessionTag ∧
    (afterSymbol who b s).cachedAddress = s.cachedAddress ∧
    (afterSymbol who b s).autoIncrementActive = s.autoIncrementActive ∧
    (afterSymbol who b s).lastWriteWasFlash = s.lastWriteWasFlash ∧
    (afterSymbol who b s).flashUnlocked = s.flashUnlocked ∧ (afterSymbol who b s).pinDrive = highOut s.cfg ∧
    (afterSymbol who b s).powerGate = s.powerGate ∧ (afterSymbol who b s).portOwner = .free ∧
    (afterSymbol who b s).irqMasked = false ∧ (afterSymbol who b s).status = s.status ∧
    (afterSymbol who b s).error = s.error ∧ (afterSymbol who b s).offset = s.offset ∧
    (afterSymbol who b s).size = s.size ∧ (afterSymbol who b s).retryBudget = s.retryBudget ∧
    (afterSymbol who b s).currentRetry = s.currentRetry ∧ (afterSymbol who b s).watchdogDeadline = s.watchdogDeadline ∧
    (afterSymbol who b s).received = s.received ∧ (afterSymbol who b s).uploadBuffer = s.uploadBuffer ∧
    (afterSymbol who b s).active = s.active ∧ (afterSymbol who b s).terminalConnected = s.terminalConnected ∧
    (afterSymbol who b s).reqValid = s.reqValid ∧ (afterSymbol who b s).reqOp = s.reqOp ∧
    (afterSymbol who b s).reqA = s.reqA ∧ (afterSymbol who b s).reqB = s.reqB ∧ (afterSymbol who b s).reqC = s.reqC ∧
    (afterSymbol who b s).reqPresent = s.reqPresent ∧ (afterSymbol who b s).reqFinal = s.reqFinal ∧
    (afterSymbol who b s).reqData = s.reqData ∧ (afterSymbol who b s).rspValid = s.rspValid ∧
    (afterSymbol who b s).rspCode = s.rspCode ∧ (afterSymbol who b s).rspValue = s.rspValue ∧
    (afterSymbol who b s).rspData = s.rspData ∧ (afterSymbol who b s).ctl = s.ctl ∧ (afterSymbol who b s).now = s.now ∧
    (afterSymbol who b s).clockIn = s.clockIn ∧ (afterSymbol who b s).clockRest = s.clockRest ∧
    (afterSymbol who b s).clockCount = s.clockCount ∧ (afterSymbol who b s).slotIn = s.slotIn ∧
    (afterSymbol who b s).slotRest = s.slotRest ∧ (afterSymbol who b s).slotCount = s.slotCount ∧
    (afterSymbol who b s).termIn = s.termIn ∧ (afterSymbol who b s).hostIn = s.hostIn ∧
    (afterSymbol who b s).freeCount = s.freeCount ∧ (afterSymbol who b s).frameLog = s.frameLog := by
  repeat' constructor

@[simp] theorem afterWrite_fields (who : Issuer) (cmd : Cmd) (v : Word) (s : State) :
    (afterWrite who cmd v s).cfg = s.cfg ∧ (afterWrite who cmd v s).pinMask = s.pinMask ∧
    (afterWrite who cmd v s).timingCoefficient = s.timingCoefficient ∧
    (afterWrite who cmd v s).sessionTag = s.sessionTag ∧ (afterWrite who cmd v s).cachedAddress = s.cachedAddress ∧
    (afterWrite who cmd v s).autoIncrementActive = s.autoIncrementActive ∧
    (afterWrite who cmd v s).lastWriteWasFlash = s.lastWriteWasFlash ∧
    (afterWrite who cmd v s).flashUnlocked = s.flashUnlocked ∧ (afterWrite who cmd v s).pinDrive = highOut s.cfg ∧
    (afterWrite who cmd v s).powerGate = s.powerGate ∧ (afterWrite who cmd v s).portOwner = .free ∧
    (afterWrite who cmd v s).irqMasked = false ∧ (afterWrite who cmd v s).status = s.status ∧
    (afterWrite who cmd v s).error = s.error ∧ (afterWrite who cmd v s).offset = s.offset ∧
    (afterWrite who cmd v s).size = s.size ∧ (afterWrite who cmd v s).retryBudget = s.retryBudget ∧
    (afterWrite who cmd v s).currentRetry = s.currentRetry ∧
    (afterWrite who cmd v s).watchdogDeadline = s.watchdogDeadline ∧ (afterWrite who cmd v s).received = s.received ∧
    (afterWrite who cmd v s).uploadBuffer = s.uploadBuffer ∧ (afterWrite who cmd v s).active = s.active ∧
    (afterWrite who cmd v s).terminalConnected = s.terminalConnected ∧ (afterWrite who cmd v s).reqValid = s.reqValid ∧
    (afterWrite who cmd v s).reqOp = s.reqOp ∧ (afterWrite who cmd v s).reqA = s.reqA ∧
    (afterWrite who cmd v s).reqB = s.reqB ∧ (afterWrite who cmd v s).reqC = s.reqC ∧
    (afterWrite who cmd v s).reqPresent = s.reqPresent ∧ (afterWrite who cmd v s).reqFinal = s.reqFinal ∧
    (afterWrite who cmd v s).reqData = s.reqData ∧ (afterWrite who cmd v s).rspValid = s.rspValid ∧
    (afterWrite who cmd v s).rspCode = s.rspCode ∧ (afterWrite who cmd v s).rspValue = s.rspValue ∧
    (afterWrite who cmd v s).rspData = s.rspData ∧ (afterWrite who cmd v s).ctl = s.ctl ∧
    (afterWrite who cmd v s).now = s.now ∧ (afterWrite who cmd v s).clockIn = s.clockIn ∧
    (afterWrite who cmd v s).clockRest = s.clockRest ∧ (afterWrite who cmd v s).clockCount = s.clockCount ∧
    (afterWrite who cmd v s).slotIn = s.slotIn ∧ (afterWrite who cmd v s).slotRest = s.slotRest ∧
    (afterWrite who cmd v s).slotCount = s.slotCount ∧ (afterWrite who cmd v s).termIn = s.termIn ∧
    (afterWrite who cmd v s).hostIn = s.hostIn ∧ (afterWrite who cmd v s).freeCount = s.freeCount ∧
    (afterWrite who cmd v s).lineLog = s.lineLog ++ writeFrameEvents s.cfg who s.timingCoefficient.toNat cmd v ∧
    (afterWrite who cmd v s).frameLog = s.frameLog ++ [⟨who, .write cmd v⟩] := by
  repeat' constructor

@[simp] theorem afterRead_fields (who : Issuer) (cmd : Cmd) (ds : List SlotDraw) (r : Option Word) (s : State) :
    (afterRead who cmd ds r s).cfg = s.cfg ∧ (afterRead who cmd ds r s).pinMask = s.pinMask ∧
    (afterRead who cmd ds r s).timingCoefficient = s.timingCoefficient ∧
    (afterRead who cmd ds r s).sessionTag = s.sessionTag ∧ (afterRead who cmd ds r s).cachedAddress = s.cachedAddress ∧
    (afterRead who cmd ds r s).autoIncrementActive = s.autoIncrementActive ∧
    (afterRead who cmd ds r s).lastWriteWasFlash = s.lastWriteWasFlash ∧
    (afterRead who cmd ds r s).flashUnlocked = s.flashUnlocked ∧
    (afterRead who cmd ds r s).pinDrive = (if r.isSome then highOut s.cfg else .released) ∧
    (afterRead who cmd ds r s).powerGate = s.powerGate ∧ (afterRead who cmd ds r s).portOwner = .free ∧
    (afterRead who cmd ds r s).irqMasked = false ∧ (afterRead who cmd ds r s).status = s.status ∧
    (afterRead who cmd ds r s).error = s.error ∧ (afterRead who cmd ds r s).offset = s.offset ∧
    (afterRead who cmd ds r s).size = s.size ∧ (afterRead who cmd ds r s).retryBudget = s.retryBudget ∧
    (afterRead who cmd ds r s).currentRetry = s.currentRetry ∧
    (afterRead who cmd ds r s).watchdogDeadline = s.watchdogDeadline ∧ (afterRead who cmd ds r s).received = s.received ∧
    (afterRead who cmd ds r s).uploadBuffer = s.uploadBuffer ∧ (afterRead who cmd ds r s).active = s.active ∧
    (afterRead who cmd ds r s).terminalConnected = s.terminalConnected ∧
    (afterRead who cmd ds r s).reqValid = s.reqValid ∧ (afterRead who cmd ds r s).reqOp = s.reqOp ∧
    (afterRead who cmd ds r s).reqA = s.reqA ∧ (afterRead who cmd ds r s).reqB = s.reqB ∧
    (afterRead who cmd ds r s).reqC = s.reqC ∧ (afterRead who cmd ds r s).reqPresent = s.reqPresent ∧
    (afterRead who cmd ds r s).reqFinal = s.reqFinal ∧ (afterRead who cmd ds r s).reqData = s.reqData ∧
    (afterRead who cmd ds r s).rspValid = s.rspValid ∧ (afterRead who cmd ds r s).rspCode = s.rspCode ∧
    (afterRead who cmd ds r s).rspValue = s.rspValue ∧ (afterRead who cmd ds r s).rspData = s.rspData ∧
    (afterRead who cmd ds r s).ctl = s.ctl ∧ (afterRead who cmd ds r s).now = s.now ∧
    (afterRead who cmd ds r s).clockIn = s.clockIn ∧ (afterRead who cmd ds r s).clockRest = s.clockRest ∧
    (afterRead who cmd ds r s).clockCount = s.clockCount ∧ (afterRead who cmd ds r s).slotIn = s.slotIn.drop ds.length ∧
    (afterRead who cmd ds r s).slotRest = s.slotRest ∧ (afterRead who cmd ds r s).slotCount = s.slotCount ∧
    (afterRead who cmd ds r s).termIn = s.termIn ∧ (afterRead who cmd ds r s).hostIn = s.hostIn ∧
    (afterRead who cmd ds r s).freeCount = s.freeCount ∧
    (afterRead who cmd ds r s).lineLog = s.lineLog ++ readFrameEvents s.cfg who s.timingCoefficient.toNat cmd ds ∧
    (afterRead who cmd ds r s).frameLog = s.frameLog ++ [⟨who, .read cmd r⟩] := by
  repeat' constructor

end Sys2Proof.Laws
end

