-- ==== Sys2Proof/Laws/Traverse.lean ====
section
/-!
SUPPORT. One traversal of every operation of the link. A relation between a state and a later one that is reflexive and
transitive, and that holds of each primitive change of the link's state (`FrameRel` for the frame port, `MemRel` with the
sequencer's cache, `LinkRel` with `flashUnlocked`), holds between the state an operation of
the link starts in and the state it leaves, whether it ends with `Ok` or with an error. Each law about "what an operation may
change" is one instantiation of it.
-/
namespace Sys2Proof.Laws

open Sys2Proof.Machine

/-- The relation holds of every primitive change that the frame port and the terminal agent are made of. -/
structure FrameRel (R : State → State → Prop) : Prop where
  refl : ∀ s, R s s
  trans : ∀ {a b c : State}, R a b → R b c → R a c
  frameWrite : ∀ who cmd v s, R s (frameWrite who cmd v s).state
  frameRead : ∀ who cmd s, R s (frameRead who cmd s).state
  symbol : ∀ who b s, R s (phyAlone who (fun c s => ((), sendBits c [b] s)) s).state
  slot : ∀ who s, R s (phyAlone who readBit s).state
  delay : ∀ who n s, R s (phyAlone who (fun _ s => ((), wait (n * s.cfg.tau) s)) s).state
  wait : ∀ t s, R s (wait t s)
  tag : ∀ s tag, R s { s with sessionTag := tag }
  turn : ∀ s t ts, s.termIn = t :: ts → R s { s with termIn := ts }
  connect : ∀ s, s.active = false → R s { s with terminalConnected := true }
  disconnect : ∀ s, R s { s with terminalConnected := false }

/-- The relation holds of every primitive change that the terminal agent is made of. -/
structure TermRel (R : State → State → Prop) : Prop where
  refl : ∀ s, R s s
  trans : ∀ {a b c : State}, R a b → R b c → R a c
  frameWrite : ∀ who cmd v s, R s (frameWrite who cmd v s).state
  frameRead : ∀ who cmd s, R s (frameRead who cmd s).state
  symbol : ∀ who b s, R s (phyAlone who (fun c s => ((), sendBits c [b] s)) s).state
  slot : ∀ who s, R s (phyAlone who readBit s).state
  terminal : ∀ s, R s { s with sessionTag := .terminal }
  turn : ∀ s t ts, s.termIn = t :: ts → R s { s with termIn := ts }
  connect : ∀ s, s.active = false → R s { s with terminalConnected := true }
  disconnect : ∀ s, R s { s with terminalConnected := false }

theorem FrameRel.term {R : State → State → Prop} (h : FrameRel R) : TermRel R where
  refl := h.refl
  trans := h.trans
  frameWrite := h.frameWrite
  frameRead := h.frameRead
  symbol := h.symbol
  slot := h.slot
  terminal s := h.tag s .terminal
  turn := h.turn
  connect := h.connect
  disconnect := h.disconnect

/-- It holds of a change of the sequencer cache too. -/
structure MemRel (R : State → State → Prop) : Prop extends FrameRel R where
  cache : ∀ s tag addr ai fl, R s { s with
    sessionTag := tag, cachedAddress := addr, autoIncrementActive := ai, lastWriteWasFlash := fl }

/-- It holds of setting `flashUnlocked` too. -/
structure LinkRel (R : State → State → Prop) : Prop extends MemRel R where
  unlocked : ∀ s, R s { s with flashUnlocked := true }

variable {R : State → State → Prop} {α β : Type}

/-! ### Results -/

theorem FrameRel.bind (h : FrameRel R) {s : State} {r : Res α} {f : α → State → Res β} (hr : R s r.state)
    (hf : ∀ a t, R t (f a t).state) : R s (r.bind f).state := by
  cases r with
  | ok a t => exact h.trans hr (hf a t)
  | err e t => exact hr

theorem FrameRel.onErr (h : FrameRel R) {s : State} {r : Res α} {f : State → State} (hr : R s r.state)
    (hf : ∀ t, R t (f t)) : R s (r.onErr f).state := by
  cases r with
  | ok a t => exact hr
  | err e t => exact h.trans hr (hf t)

theorem FrameRel.after (h : FrameRel R) {s : State} {r : Res α} {f : State → State} (hr : R s r.state)
    (hf : ∀ t, R t (f t)) : R s (r.after f).state := by
  cases r with
  | ok a t => exact h.trans hr (hf t)
  | err e t => exact h.trans hr (hf t)

theorem convert_state (r : Res α) (f : ErrKind → ErrKind) : (r.convert f).state = r.state := by
  cases r <;> rfl

theorem FrameRel.runEach (h : FrameRel R) {f : β → State → Res Unit} (hf : ∀ b s, R s (f b s).state) :
    ∀ (bs : List β) (s : State), R s (runEach f bs s).state
  | [], s => h.refl s
  | b :: bs, s => h.bind (hf b s) fun _ t => FrameRel.runEach h hf bs t

theorem FrameRel.collectEach (h : FrameRel R) {f : β → State → Res α} (hf : ∀ b s, R s (f b s).state) :
    ∀ (bs : List β) (s : State), R s (collectEach f bs s).state
  | [], s => h.refl s
  | b :: bs, s => h.bind (hf b s) fun _ t => h.bind (FrameRel.collectEach h hf bs t) fun _ u => h.refl u

/-! ### The terminal agent -/

theorem TermRel.wireEffect (h : TermRel R) (i : Instr) (s : State) : R s (wireEffect i s) := by
  cases i
  case sym1 => exact h.symbol .terminal true s
  case sym0 => exact h.symbol .terminal false s
  case readSlot => exact h.slot .terminal s
  case writeFrame cmd v => exact h.trans (h.terminal s) (h.frameWrite .terminal cmd v _)
  case readFrame cmd =>
    have hr := h.frameRead .terminal cmd s
    simp only [Machine.wireEffect, termRead]
    split
    · rename_i heq; rw [heq] at hr; exact hr
    · rename_i heq; rw [heq] at hr; exact h.trans hr (h.disconnect _)
    · rename_i heq; rw [heq] at hr; exact hr
  all_goals exact h.refl s

theorem TermRel.termConnect (h : TermRel R) (s : State) : R s (termConnect s) := by
  unfold Machine.termConnect
  by_cases hs : s.active
  · rw [if_pos hs]; exact h.refl s
  · rw [if_neg hs]; exact h.connect s (by simpa using hs)

theorem TermRel.termAct (h : TermRel R) (a : TermAct) (s : State) : R s (termAct a s) := by
  cases a with
  | connect => exact h.termConnect s
  | disconnect => exact h.disconnect s
  | issue w =>
    simp only [Machine.termAct]
    split
    · split
      · exact h.wireEffect _ s
      · exact h.refl s
    · exact h.refl s

theorem TermRel.termActs (h : TermRel R) : ∀ (as : List TermAct) (s : State), R s (termActs as s)
  | [], s => h.refl s
  | a :: as, s => h.trans (h.termAct a s) (TermRel.termActs h as _)

theorem TermRel.termTurn (h : TermRel R) (s : State) : R s (termTurn s) := by
  unfold Machine.termTurn
  split
  · exact h.refl s
  · rename_i t ts heq; exact h.trans (h.turn s t ts heq) (h.termActs _ _)

theorem FrameRel.wireEffect (h : FrameRel R) (i : Instr) (s : State) : R s (wireEffect i s) := h.term.wireEffect i s

theorem FrameRel.termConnect (h : FrameRel R) (s : State) : R s (termConnect s) := h.term.termConnect s

theorem FrameRel.termAct (h : FrameRel R) (a : TermAct) (s : State) : R s (termAct a s) := h.term.termAct a s

theorem FrameRel.termTurn (h : FrameRel R) (s : State) : R s (termTurn s) := h.term.termTurn s

theorem FrameRel.withTurns (h : FrameRel R) {f : State → Res α} (hf : ∀ s, R s (f s).state) (s : State) :
    R s (withTurns f s).state :=
  h.trans (h.termTurn s) (hf _)

/-! ### The control agent's frames and PHY operations -/

theorem FrameRel.fw (h : FrameRel R) (cmd : Cmd) (v : Word) (s : State) : R s (fw cmd v s).state :=
  h.withTurns (h.frameWrite .control cmd v) s

theorem FrameRel.fr (h : FrameRel R) (cmd : Cmd) (s : State) : R s (fr cmd s).state :=
  h.withTurns (h.frameRead .control cmd) s

theorem FrameRel.phyDelay (h : FrameRel R) (n : Word) (s : State) : R s (phyDelay n s).state :=
  h.withTurns (h.delay .control n.toNat) s

theorem FrameRel.phySend (h : FrameRel R) (b : Bool) (s : State) : R s (phySend b s).state :=
  h.withTurns (h.symbol .control b) s

theorem FrameRel.phyReadBit (h : FrameRel R) (s : State) : R s (phyReadBit s).state :=
  h.withTurns (h.slot .control) s

theorem FrameRel.dropProgram (h : FrameRel R) (s : State) : R s (dropProgram s) := by
  unfold Machine.dropProgram
  split
  · exact h.tag s .invalidated
  · exact h.refl s

theorem FrameRel.rawWrite (h : FrameRel R) (cmd : Cmd) (v : Word) (s : State) : R s (rawWrite cmd v s).state :=
  h.trans (h.dropProgram s) (h.fw cmd v _)

theorem FrameRel.rawRead (h : FrameRel R) (cmd : Cmd) (s : State) : R s (rawRead cmd s).state :=
  h.trans (h.dropProgram s) (h.fr cmd _)

/-! ### The sequencer -/

theorem FrameRel.invalidate (h : FrameRel R) (s : State) : R s (invalidate s) := h.tag s .invalidated

theorem FrameRel.writeProgram (h : FrameRel R) (prog : List Word) (s : State) : R s (writeProgram prog s).state :=
  h.runEach (fun _ t => h.fw _ _ t) _ s

theorem FrameRel.reprogram (h : FrameRel R) (prog : List Word) (on : Option Word) (s : State) :
    R s (reprogram prog on s).state := by
  refine h.bind (h.trans (h.invalidate s) (h.fw _ _ _)) fun _ t => h.bind (h.writeProgram prog t) fun _ u => ?_
  cases on with
  | none => exact h.refl u
  | some v => exact h.fw _ v u

theorem FrameRel.pollAbstract (h : FrameRel R) : ∀ (n : Nat) (s : State), R s (pollAbstract n s).state
  | 0, s => h.refl s
  | n + 1, s => by
    refine h.bind (h.fr _ s) fun v t => ?_
    split
    · split
      · exact h.bind (h.fw _ _ t) fun _ u => h.refl u
      · exact h.refl t
    · exact FrameRel.pollAbstract h n t

theorem FrameRel.waitAbstract (h : FrameRel R) (s : State) : R s (waitAbstract s).state :=
  h.onErr (h.pollAbstract _ s) h.invalidate

theorem FrameRel.execute (h : FrameRel R) (s : State) : R s (execute s).state :=
  h.bind (h.fw _ _ s) fun _ t => h.waitAbstract t

theorem MemRel.prepareRead (h : MemRel R) (a : Word) (ai : Bool) (s : State) : R s (prepareRead a ai s).state := by
  unfold Machine.prepareRead
  split
  · exact h.refl s
  · exact h.bind (h.reprogram _ _ s) fun _ t => h.cache t .readSequence t.cachedAddress ai t.lastWriteWasFlash

theorem MemRel.prepareWrite (h : MemRel R) (a : Word) (fl : Bool) (s : State) : R s (prepareWrite a fl s).state := by
  unfold Machine.prepareWrite
  split
  · exact h.refl s
  · exact h.bind (h.reprogram _ _ s) fun _ t => h.cache t .writeSequence t.cachedAddress t.autoIncrementActive fl

theorem FrameRel.sendAddress (h : FrameRel R) (known : Bool) (a : Word) (s : State) :
    R s (sendAddress known a s).state := by
  unfold Machine.sendAddress
  split
  · exact h.refl s
  · exact h.fw _ a s

theorem MemRel.cached (h : MemRel R) (s : State) (a : Word) : R s { s with cachedAddress := a } :=
  h.cache s s.sessionTag a s.autoIncrementActive s.lastWriteWasFlash

theorem MemRel.memReadWord (h : MemRel R) (a : Word) (ai : Bool) (s : State) : R s (memReadWord a ai s).state := by
  unfold Machine.memReadWord
  split
  · exact h.refl s
  · exact h.onErr (h.bind (h.prepareRead a ai s) fun _ t => h.bind (h.sendAddress _ a t) fun _ t =>
      h.bind (h.execute t) fun _ t => h.bind (h.fr _ t) fun _ t => h.cached t _) h.invalidate

theorem MemRel.memWriteWord (h : MemRel R) (a v : Word) (s : State) : R s (memWriteWord a v s).state := by
  unfold Machine.memWriteWord
  split
  · exact h.refl s
  · exact h.onErr (h.bind (h.prepareWrite a _ s) fun _ t => h.bind (h.sendAddress _ a t) fun _ t =>
      h.bind (h.fw _ v t) fun _ t => h.bind (h.execute t) fun _ t => h.cached t _) h.invalidate

theorem FrameRel.memReadByte (h : FrameRel R) (a : Word) (s : State) : R s (memReadByte a s).state :=
  h.after (h.bind (h.reprogram _ _ s) fun _ t => h.bind (h.fw _ a t) fun _ t => h.bind (h.execute t) fun _ t =>
    h.bind (h.fr _ t) fun _ t => h.refl t) h.invalidate

theorem FrameRel.memWriteByte (h : FrameRel R) (a : Word) (b : Byte) (s : State) : R s (memWriteByte a b s).state :=
  h.after (h.bind (h.reprogram _ _ s) fun _ t => h.bind (h.fw _ a t) fun _ t => h.bind (h.fw _ _ t) fun _ t =>
    h.execute t) h.invalidate

/-! ### The flash engine -/

theorem MemRel.memWrites (h : MemRel R) (ws : List (Word × Word)) (s : State) : R s (memWrites ws s).state :=
  h.runEach (fun _ t => h.memWriteWord _ _ t) ws s

theorem LinkRel.flashUnlock (h : LinkRel R) (s : State) : R s (flashUnlock s).state := by
  refine h.bind (h.memWrites _ s) fun _ t => h.bind (h.memReadWord _ _ t) fun v u => ?_
  split
  · exact h.refl u
  · exact h.unlocked u

theorem LinkRel.ensureUnlocked (h : LinkRel R) (s : State) : R s (ensureUnlocked s).state := by
  unfold Machine.ensureUnlocked
  split
  · exact h.refl s
  · exact h.flashUnlock s

theorem MemRel.waitBusy (h : MemRel R) (wp : Bool) : ∀ (n : Nat) (s : State), R s (waitBusy wp n s).state
  | 0, s => h.refl s
  | n + 1, s => by
    refine h.bind (h.memReadWord _ _ s) fun v t => ?_
    split
    · split
      · exact h.refl t
      · exact h.refl t
    · exact MemRel.waitBusy h wp n t

theorem MemRel.flashWaitNotBusy (h : MemRel R) (s : State) : R s (flashWaitNotBusy s).state := h.waitBusy _ _ s

theorem MemRel.eraseChunk (h : MemRel R) (c : Nat) (s : State) : R s (eraseChunk c s).state :=
  h.bind (h.waitBusy _ _ s) fun _ t => h.bind (h.memWriteWord _ _ t) fun _ t => h.bind (h.memWriteWord _ _ t) fun _ t =>
    h.bind (h.memWriteWord _ _ t) fun _ t => h.bind (h.waitBusy _ _ t) fun _ t => h.memWriteWord _ _ t

theorem LinkRel.flashErasePages (h : LinkRel R) (a n : Nat) (s : State) : R s (flashErasePages a n s).state := by
  unfold Machine.flashErasePages
  split
  · exact h.refl s
  · split
    · exact h.refl s
    · exact h.bind (h.ensureUnlocked s) fun _ t => h.runEach h.eraseChunk _ t

theorem LinkRel.flashEraseChip (h : LinkRel R) (s : State) : R s (flashEraseChip s).state :=
  h.bind (h.ensureUnlocked s) fun _ t => h.bind (h.memWriteWord _ _ t) fun _ t => h.bind (h.memWriteWord _ _ t) fun _ t =>
    h.waitBusy _ _ t

theorem LinkRel.flashWriteBlock (h : LinkRel R) (a : Nat) (d : List Byte) (s : State) :
    R s (flashWriteBlock a d s).state := by
  unfold Machine.flashWriteBlock
  split
  · exact h.refl s
  · split
    · exact h.refl s
    · split
      · exact h.refl s
      · exact h.bind (h.ensureUnlocked s) fun _ t => h.bind (h.memWriteWord _ _ t) fun _ t => h.bind (h.memWrites _ t)
          fun _ t => h.bind (h.memWriteWord _ _ t) fun _ t => h.bind (h.memWriteWord _ _ t) fun _ t => h.waitBusy _ _ t

theorem MemRel.blobAccess (h : MemRel R) (x : BlobAccess) (s : State) : R s (blobAccess x s).state := by
  cases x with
  | word a => exact h.bind (h.memReadWord a true s) fun _ t => h.refl t
  | byte a => exact h.bind (h.memReadByte a s) fun _ t => h.refl t

theorem MemRel.blobRead (h : MemRel R) (a n : Nat) (s : State) : R s (blobRead a n s).state := by
  unfold Machine.blobRead
  split
  · exact h.refl s
  · exact h.bind (h.collectEach h.blobAccess _ s) fun _ t => h.refl t

theorem MemRel.ramWrite (h : MemRel R) (x : RamWrite) (s : State) : R s (ramWrite x s).state := by
  cases x with
  | word a v => exact h.memWriteWord a v s
  | byte a b => exact h.memWriteByte a b s

theorem MemRel.blobWriteRam (h : MemRel R) (a : Nat) (d : List Byte) (s : State) : R s (blobWriteRam a d s).state :=
  h.runEach h.ramWrite _ s

theorem LinkRel.writeVerifyOnce (h : LinkRel R) (a : Nat) (d : List Byte) (s : State) :
    R s (writeVerifyOnce a d s).state :=
  h.bind (h.flashErasePages _ _ s) fun _ t => h.bind (h.flashWriteBlock _ _ t) fun _ t => h.bind (h.blobRead _ _ t)
    fun _ t => h.refl t

theorem LinkRel.writeVerify (h : LinkRel R) (a : Nat) (d : List Byte) :
    ∀ (n : Nat) (s : State), R s (writeVerify a d n s).state
  | 0, s => by
    refine h.bind (h.writeVerifyOnce a d s) fun same t => ?_
    cases same <;> exact h.refl t
  | n + 1, s => by
    refine h.bind (h.writeVerifyOnce a d s) fun same t => ?_
    cases same
    · exact LinkRel.writeVerify h a d n t
    · exact h.refl t

theorem LinkRel.blobFlashBlock (h : LinkRel R) (a : Nat) (d : List Byte) (base : Nat) (s : State) :
    R s (blobFlashBlock a d base s).state := by
  unfold Machine.blobFlashBlock
  split
  · exact h.writeVerify _ _ _ s
  · exact h.bind (h.blobRead _ _ s) fun _ t => h.writeVerify _ _ _ t

theorem LinkRel.blobWriteFlash (h : LinkRel R) (a : Nat) (d : List Byte) (s : State) :
    R s (blobWriteFlash a d s).state :=
  h.bind (h.ensureUnlocked s) fun _ t => h.runEach (h.blobFlashBlock a d) _ t

theorem LinkRel.blobWrite (h : LinkRel R) (a n : Nat) (d : List Byte) (s : State) : R s (blobWrite a n d s).state := by
  unfold Machine.blobWrite
  split
  · exact h.refl s
  · split
    · exact h.refl s
    · split
      · exact h.refl s
      · split
        · exact h.refl s
        · exact h.blobWriteRam a d s
        · exact h.blobWriteFlash a d s

/-! ### Step lists and the orchestrator's use of the link -/

theorem LinkRel.runStep (h : LinkRel R) (x : Config.SeqStep) (s : State) : R s (runStep x s).state := by
  cases x with
  | fw cmd v => exact h.fw cmd v s
  | fr cmd => exact h.bind (h.fr cmd s) fun _ t => h.refl t
  | memWriteWord a v => exact h.memWriteWord a v s
  | memReadWord a => exact h.bind (h.memReadWord a false s) fun _ t => h.refl t
  | flashUnlock => exact h.flashUnlock s
  | flashWaitNotBusy => exact h.flashWaitNotBusy s
  | wait t => exact h.wait t s

theorem LinkRel.runSteps (h : LinkRel R) (xs : List Config.SeqStep) (s : State) : R s (runSteps xs s).state :=
  h.runEach h.runStep xs s

theorem LinkRel.haltctl (h : LinkRel R) (m : HaltMode) (s : State) : R s (haltctl m s).state := by
  refine h.bind (h.trans (h.dropProgram s) (h.runSteps _ _)) fun _ t => h.bind ?_ fun _ t =>
    h.bind (h.runSteps _ t) fun _ t => h.waitAbstract t
  split
  · exact h.runSteps _ t
  · exact h.refl t

theorem LinkRel.linkInit (h : LinkRel R) (hd : ∀ s, R s (discardLink s)) (s : State) : R s (linkInit s).state := by
  unfold Machine.linkInit
  dsimp only
  split
  · exact hd s
  · refine h.bind (h.onErr ?_ hd) fun _ t => h.tag t .started
    rw [convert_state]
    exact h.trans (hd s) (h.runSteps _ _)

theorem LinkRel.ensureLink (h : LinkRel R) (hd : ∀ s, R s (discardLink s)) (s : State) : R s (ensureLink s).state := by
  unfold Machine.ensureLink
  split
  · exact h.linkInit hd s
  · exact h.refl s

theorem LinkRel.haltBody (h : LinkRel R) (hd : ∀ s, R s (discardLink s)) (m : HaltMode) (s : State) :
    R s (haltBody m s).state :=
  h.bind (h.ensureLink hd s) fun _ t => h.haltctl m t

theorem LinkRel.unbrickTry (h : LinkRel R) (hd : ∀ s, R s (discardLink s)) (s : State) : R s (unbrickTry s).state :=
  h.bind (h.linkInit hd s) fun _ t => h.bind (h.haltctl _ t) fun _ t => h.fr _ t

theorem LinkRel.unbrickLoop (h : LinkRel R) (hd : ∀ s, R s (discardLink s)) :
    ∀ (n : Nat) (s : State), R s (unbrickLoop n s).2
  | 0, s => h.refl s
  | n + 1, s => by
    have ht := h.unbrickTry hd s
    simp only [Machine.unbrickLoop]
    split
    · rename_i v t heq
      rw [heq] at ht
      split
      · exact ht
      · exact h.trans ht (LinkRel.unbrickLoop h hd n t)
    · rename_i e t heq
      rw [heq] at ht
      exact h.trans ht (LinkRel.unbrickLoop h hd n t)

theorem LinkRel.readBlobBody (h : LinkRel R) (hd : ∀ s, R s (discardLink s)) (a n : Nat) (s : State) :
    R s (readBlobBody a n s).state :=
  h.bind (h.ensureLink hd s) fun _ t => h.bind (h.haltctl _ t) fun _ t => h.bind (h.blobRead a n t) fun _ t =>
    h.bind (h.haltctl _ t) fun _ t => h.refl t

theorem LinkRel.chipInfoBody (h : LinkRel R) (hd : ∀ s, R s (discardLink s)) (s : State) :
    R s (chipInfoBody s).state :=
  h.bind (h.ensureLink hd s) fun _ t => h.bind (h.haltctl _ t) fun _ t =>
    h.bind (h.collectEach (fun _ t => h.memReadWord _ _ t) _ t) fun _ t => h.bind (h.haltctl _ t) fun _ t => h.refl t

end Sys2Proof.Laws
end

