-- ==== Sys2Proof/Laws/Link.lean ====
section
/-!
SUPPORT. What any operation of the link can do, said once (`LinkStep`): it leaves alone everything but the link's own state
(`OnlyLink`), the response of the command port included. `LinkStep.rel` makes it an instance of the traversal, so that
`LinkStep.rel.memReadWord`, `LinkStep.rel.blobWrite`, … say so of each operation.
-/
namespace Sys2Proof.Laws

open Sys2Proof.Machine Sys2Proof.Safety
open Sys2Proof.Config (Params SlotDraw SeqStep)

/-! ### `OnlyLink` -/

theorem onlyLink_refl (s : State) : OnlyLink s s := by
  constructor <;> first | rfl | exact List.suffix_refl _ | exact List.prefix_refl _ | exact .inl rfl | exact .inl

theorem onlyLink_trans {s t u : State} (h : OnlyLink s t) (k : OnlyLink t u) : OnlyLink s u where
  cfg := k.cfg.trans h.cfg
  pinMask := k.pinMask.trans h.pinMask
  timingCoefficient := k.timingCoefficient.trans h.timingCoefficient
  powerGate := k.powerGate.trans h.powerGate
  status := k.status.trans h.status
  error := k.error.trans h.error
  offset := k.offset.trans h.offset
  size := k.size.trans h.size
  retryBudget := k.retryBudget.trans h.retryBudget
  currentRetry := k.currentRetry.trans h.currentRetry
  watchdogDeadline := k.watchdogDeadline.trans h.watchdogDeadline
  received := k.received.trans h.received
  uploadBuffer := k.uploadBuffer.trans h.uploadBuffer
  active := k.active.trans h.active
  reqOp := k.reqOp.trans h.reqOp
  reqA := k.reqA.trans h.reqA
  reqB := k.reqB.trans h.reqB
  reqC := k.reqC.trans h.reqC
  reqPresent := k.reqPresent.trans h.reqPresent
  reqFinal := k.reqFinal.trans h.reqFinal
  reqData := k.reqData.trans h.reqData
  now := k.now.trans h.now
  clockIn := k.clockIn.trans h.clockIn
  clockRest := k.clockRest.trans h.clockRest
  clockCount := k.clockCount.trans h.clockCount
  slotRest := k.slotRest.trans h.slotRest
  slotIn := k.slotIn.trans h.slotIn
  termIn := k.termIn.trans h.termIn
  hostIn := k.hostIn.trans h.hostIn
  pinDrive := by
    rcases k.pinDrive with e | e | e
    · rw [e]; exact h.pinDrive
    · exact .inr (.inl e)
    · rw [h.cfg] at e; exact .inr (.inr e)
  portOwner := by
    rcases k.portOwner with e | e
    · rw [e]; exact h.portOwner
    · exact .inr e
  irqMasked := by
    rcases k.irqMasked with e | e
    · rw [e]; exact h.irqMasked
    · exact .inr e
  connected := fun hu => by
    rcases k.connected hu with e | e
    · exact h.connected e
    · exact .inr (h.active ▸ e)
  lineLog := h.lineLog.trans k.lineLog
  frameLog := h.frameLog.trans k.frameLog

/-! ### `LinkStep` -/

/-- What an operation of the link can do: nothing but the link's own state changes, and not the response either. -/
structure LinkStep (s t : State) : Prop extends OnlyLink s t where
  rspValid : t.rspValid = s.rspValid
  rspCode : t.rspCode = s.rspCode
  rspValue : t.rspValue = s.rspValue
  rspData : t.rspData = s.rspData
  reqValid : t.reqValid = s.reqValid
  ctl : t.ctl = s.ctl
  freeCount : t.freeCount = s.freeCount

theorem LinkStep.refl (s : State) : LinkStep s s where
  toOnlyLink := onlyLink_refl s
  rspValid := rfl
  rspCode := rfl
  rspValue := rfl
  rspData := rfl
  reqValid := rfl
  ctl := rfl
  freeCount := rfl

theorem LinkStep.trans {s t u : State} (h : LinkStep s t) (k : LinkStep t u) : LinkStep s u where
  toOnlyLink := onlyLink_trans h.toOnlyLink k.toOnlyLink
  rspValid := k.rspValid.trans h.rspValid
  rspCode := k.rspCode.trans h.rspCode
  rspValue := k.rspValue.trans h.rspValue
  rspData := k.rspData.trans h.rspData
  reqValid := k.reqValid.trans h.reqValid
  ctl := k.ctl.trans h.ctl
  freeCount := k.freeCount.trans h.freeCount

/-- The record update that every use of the frame port comes down to. -/
theorem LinkStep.port (s : State) {pin : PinDrive} {owner : PortOwner} {slots : List SlotDraw} {count : Nat}
    {line : List LineEvent} {frames : List FrameEvent}
    (hp : pin = s.pinDrive ∨ pin = .released ∨ pin = highOut s.cfg) (ho : owner = s.portOwner ∨ owner = .free)
    (hs : slots <:+ s.slotIn) (hl : s.lineLog <+: line) (hf : s.frameLog <+: frames) :
    LinkStep s { s with
      pinDrive := pin, portOwner := owner, irqMasked := false, slotIn := slots, slotCount := count, lineLog := line
      frameLog := frames } := by
  constructor
  case toOnlyLink =>
    constructor <;> first
      | rfl | exact List.suffix_refl _ | exact List.prefix_refl _ | exact hp | exact ho | exact hs | exact hl | exact hf
      | exact .inr rfl | exact .inl rfl | exact .inl
  all_goals rfl

/-! ### The line -/

theorem takePort_lineLog (who : Issuer) (s : State) : s.lineLog <+: (takePort who s).lineLog := by
  unfold takePort awaitPort
  cases s.portOwner with
  | free => exact List.prefix_append _ _
  | held w => exact (List.prefix_append _ _).trans (List.prefix_append _ _)

/-- Where the target's answer comes from (R124). -/
theorem nextDraw_spec (s : State) : ∃ d slots count,
    nextDraw s = (d, { s with slotIn := slots, slotCount := count }) ∧ slots <:+ s.slotIn := by
  unfold nextDraw
  split
  · rename_i d ds h
    exact ⟨d, ds, s.slotCount, rfl, h ▸ List.suffix_cons d ds⟩
  · split
    · rename_i d _
      exact ⟨d, s.slotIn, s.slotCount, rfl, List.suffix_refl _⟩
    · exact ⟨_, s.slotIn, _, rfl, List.suffix_refl _⟩

/-- A read slot, given the target's answer (R123). -/
theorem readBit_of_draw {c : Nat} {s : State} {d : SlotDraw} {slots : List SlotDraw} {count : Nat}
    (h : nextDraw s = (d, { s with slotIn := slots, slotCount := count })) :
    readBit c s = (if (seenHigh s.cfg d).isSome then some d.level else none, { s with
      pinDrive := if (seenHigh s.cfg d).isSome then highOut s.cfg else .released
      slotIn := slots
      slotCount := count
      lineLog := s.lineLog ++ slotEvents s.cfg c d }) := by
  simp only [readBit, h, logLine, sampleLevel, slotEvents]
  cases seenHigh s.cfg d <;> simp

/-- What a read slot can do (R123, R124). -/
theorem readBit_spec (c : Nat) (s : State) : ∃ r pin slots count es,
    readBit c s = (r, { s with pinDrive := pin, slotIn := slots, slotCount := count, lineLog := s.lineLog ++ es }) ∧
      (pin = .released ∨ pin = highOut s.cfg) ∧ slots <:+ s.slotIn := by
  obtain ⟨d, slots, count, h, hs⟩ := nextDraw_spec s
  refine ⟨_, _, slots, count, _, readBit_of_draw h, ?_, hs⟩
  split
  · exact .inr rfl
  · exact .inl rfl

/-- What the read slots of a frame can do (R143, R144). -/
theorem readSlots_spec (c : Nat) : ∀ (n : Nat) (v : Word) (s : State), ∃ r pin slots count es,
    readSlots c n v s = (r, { s with pinDrive := pin, slotIn := slots, slotCount := count, lineLog := s.lineLog ++ es }) ∧
      (pin = s.pinDrive ∨ pin = .released ∨ pin = highOut s.cfg) ∧ slots <:+ s.slotIn
  | 0, v, s => ⟨some v, s.pinDrive, s.slotIn, s.slotCount, [], by simp [readSlots], .inl rfl, List.suffix_refl _⟩
  | n + 1, v, s => by
    obtain ⟨r, pin, slots, count, es, hb, hp, hs⟩ := readBit_spec c s
    unfold readSlots
    rw [hb]
    cases r with
    | none => exact ⟨none, pin, slots, count, es, rfl, .inr hp, hs⟩
    | some b =>
      obtain ⟨r', pin', slots', count', es', hb', hp', hs'⟩ := readSlots_spec c n ((v <<< 1) ||| (if b then 1 else 0))
        { s with pinDrive := pin, slotIn := slots, slotCount := count, lineLog := s.lineLog ++ es }
      refine ⟨r', pin', slots', count', es ++ es', ?_, ?_, hs'.trans hs⟩
      · dsimp only
        rw [hb']
        simp only [List.append_assoc]
      · rcases hp' with e | e | e
        · exact .inr (e ▸ hp)
        · exact .inr (.inl e)
        · exact .inr (.inr e)

/-! ### The instance -/

theorem LinkStep.frameWrite (who : Issuer) (cmd : Cmd) (v : Word) (s : State) :
    LinkStep s (frameWrite who cmd v s).state := by
  unfold Machine.frameWrite
  split
  · exact LinkStep.refl s
  · simp only [Res.state]
    have := LinkStep.port s (pin := highOut s.cfg) (owner := .free) (slots := s.slotIn) (count := s.slotCount)
      (line := (freePort who [.gap s.cfg.frameGap] (sendBits s.timingCoefficient.toNat (writeFrameBits cmd v)
        (takePort who s))).lineLog) (frames := s.frameLog ++ [⟨who, .write cmd v⟩]) (.inr (.inr rfl)) (.inr rfl)
      (List.suffix_refl _)
      (((takePort_lineLog who s).trans (List.prefix_append _ _)).trans (List.prefix_append _ _)) (List.prefix_append _ _)
    refine Eq.subst (motive := LinkStep s) ?_ this
    unfold takePort awaitPort
    cases s.portOwner <;> rfl

theorem LinkStep.frameRead (who : Issuer) (cmd : Cmd) (s : State) : LinkStep s (frameRead who cmd s).state := by
  unfold Machine.frameRead
  split
  · exact LinkStep.refl s
  · obtain ⟨r, pin, slots, count, es, hb, hp, hs⟩ := readSlots_spec s.timingCoefficient.toNat 32 0
      (sendBits s.timingCoefficient.toNat (headerBits cmd false) (takePort who s))
    dsimp only
    rw [hb]
    have := LinkStep.port s (pin := pin) (owner := .free) (slots := slots) (count := count)
      (line := (freePort who [.gap s.cfg.frameGap] { (sendBits s.timingCoefficient.toNat (headerBits cmd false)
        (takePort who s)) with lineLog := (sendBits s.timingCoefficient.toNat (headerBits cmd false)
        (takePort who s)).lineLog ++ es }).lineLog) (frames := s.frameLog ++ [⟨who, .read cmd r⟩])
      (by
        rcases hp with e | e | e
        · refine .inr (.inr (e.trans ?_)); simp [headerBits]
        · exact .inr (.inl e)
        · refine .inr (.inr (e.trans ?_)); simp)
      (.inr rfl) (by simpa using hs)
      ((((takePort_lineLog who s).trans (List.prefix_append _ _)).trans (List.prefix_append _ _)).trans
        (List.prefix_append _ _)) (List.prefix_append _ _)
    refine Eq.subst (motive := LinkStep s) ?_ this
    unfold takePort awaitPort
    cases s.portOwner <;> cases r <;> rfl

theorem LinkStep.alone {α : Type} (who : Issuer) (f : Nat → State → α × State)
    (hf : ∀ c s, ∃ a pin slots count es,
      f c s = (a, { s with pinDrive := pin, slotIn := slots, slotCount := count, lineLog := s.lineLog ++ es }) ∧
        (pin = s.pinDrive ∨ pin = .released ∨ pin = highOut s.cfg) ∧ slots <:+ s.slotIn) (s : State) :
    LinkStep s (phyAlone who f s).state := by
  unfold Machine.phyAlone
  split
  · exact LinkStep.refl s
  · obtain ⟨a, pin, slots, count, es, hb, hp, hs⟩ := hf s.timingCoefficient.toNat (takePort who s)
    rw [hb]
    have := LinkStep.port s (pin := pin) (owner := .free) (slots := slots) (count := count)
      (line := (freePort who [] { takePort who s with lineLog := (takePort who s).lineLog ++ es }).lineLog)
      (frames := s.frameLog) (by simpa using hp) (.inr rfl) (by simpa using hs)
      (((takePort_lineLog who s).trans (List.prefix_append _ _)).trans (List.prefix_append _ _)) (List.prefix_refl _)
    refine Eq.subst (motive := LinkStep s) ?_ this
    unfold takePort awaitPort
    cases s.portOwner <;> rfl

/-- Every operation of the link is a `LinkStep`. -/
theorem LinkStep.rel : LinkRel LinkStep where
  refl := LinkStep.refl
  trans := LinkStep.trans
  frameWrite := LinkStep.frameWrite
  frameRead := LinkStep.frameRead
  symbol who b s := LinkStep.alone who _ (fun c s => ⟨(), highOut s.cfg, s.slotIn, s.slotCount, _, rfl, .inr (.inr rfl),
    List.suffix_refl _⟩) s
  slot who s := LinkStep.alone who _ (fun c s => by
    obtain ⟨r, pin, slots, count, es, h, hp, hs⟩ := readBit_spec c s
    exact ⟨r, pin, slots, count, es, h, .inr hp, hs⟩) s
  delay who n s := LinkStep.alone who _ (fun c s => ⟨(), s.pinDrive, s.slotIn, s.slotCount, _, rfl, .inl rfl,
    List.suffix_refl _⟩) s
  wait t s := by
    constructor
    case toOnlyLink =>
      constructor <;> first
        | rfl | exact List.suffix_refl _ | exact List.prefix_refl _ | exact List.prefix_append _ _ | exact .inl rfl | exact .inl
    all_goals rfl
  tag s tag := by
    constructor
    case toOnlyLink =>
      constructor <;> first
        | rfl | exact List.suffix_refl _ | exact List.prefix_refl _ | exact .inl rfl | exact .inl
    all_goals rfl
  cache s tag addr ai fl := by
    constructor
    case toOnlyLink =>
      constructor <;> first
        | rfl | exact List.suffix_refl _ | exact List.prefix_refl _ | exact .inl rfl | exact .inl
    all_goals rfl
  unlocked s := by
    constructor
    case toOnlyLink =>
      constructor <;> first
        | rfl | exact List.suffix_refl _ | exact List.prefix_refl _ | exact .inl rfl | exact .inl
    all_goals rfl
  turn s t ts h := by
    constructor
    case toOnlyLink =>
      constructor <;> first
        | rfl | exact h ▸ List.suffix_cons t ts | exact List.suffix_refl _ | exact List.prefix_refl _ | exact .inl rfl
        | exact .inl
    all_goals rfl
  connect s h := by
    constructor
    case toOnlyLink =>
      constructor <;> first
        | rfl | exact List.suffix_refl _ | exact List.prefix_refl _ | exact .inl rfl | exact fun _ => .inr h
    all_goals rfl
  disconnect s := by
    constructor
    case toOnlyLink =>
      constructor <;> first
        | rfl | exact List.suffix_refl _ | exact List.prefix_refl _ | exact .inl rfl | exact fun h => absurd h (by simp)
    all_goals rfl

theorem LinkStep.discard (s : State) : LinkStep s (discardLink s) := by
  constructor
  case toOnlyLink =>
    constructor <;> first
      | rfl | exact List.suffix_refl _ | exact List.prefix_refl _ | exact .inl rfl | exact .inl
  all_goals rfl

/-! ### What the frame port leaves alone -/

/-- No frame, symbol or turn of the terminal touches the cache's own fields (the tag apart) or `flashUnlocked`. -/
theorem cacheSame : FrameRel fun s t : State => t.cachedAddress = s.cachedAddress ∧
    t.autoIncrementActive = s.autoIncrementActive ∧ t.lastWriteWasFlash = s.lastWriteWasFlash ∧
    t.flashUnlocked = s.flashUnlocked where
  refl _ := ⟨rfl, rfl, rfl, rfl⟩
  trans h k := ⟨k.1.trans h.1, k.2.1.trans h.2.1, k.2.2.1.trans h.2.2.1, k.2.2.2.trans h.2.2.2⟩
  frameWrite who cmd v s := by
    unfold Machine.frameWrite
    split
    · exact ⟨rfl, rfl, rfl, rfl⟩
    · simp [Res.state]
  frameRead who cmd s := by
    unfold Machine.frameRead
    split
    · exact ⟨rfl, rfl, rfl, rfl⟩
    · obtain ⟨r, pin, slots, count, es, hb, -, -⟩ := readSlots_spec s.timingCoefficient.toNat 32 0
        (sendBits s.timingCoefficient.toNat (headerBits cmd false) (takePort who s))
      dsimp only
      rw [hb]
      cases r <;> simp [Res.state]
  symbol who b s := by
    unfold Machine.phyAlone
    split
    · exact ⟨rfl, rfl, rfl, rfl⟩
    · simp [Res.state]
  slot who s := by
    unfold Machine.phyAlone
    split
    · exact ⟨rfl, rfl, rfl, rfl⟩
    · obtain ⟨r, pin, slots, count, es, hb, -, -⟩ := readBit_spec s.timingCoefficient.toNat (takePort who s)
      rw [hb]
      simp [Res.state]
  delay who n s := by
    unfold Machine.phyAlone
    split
    · exact ⟨rfl, rfl, rfl, rfl⟩
    · simp [Res.state]
  wait _ _ := ⟨rfl, rfl, rfl, rfl⟩
  tag _ _ := ⟨rfl, rfl, rfl, rfl⟩
  turn _ _ _ _ := ⟨rfl, rfl, rfl, rfl⟩
  connect _ _ := ⟨rfl, rfl, rfl, rfl⟩
  disconnect _ := ⟨rfl, rfl, rfl, rfl⟩

/-- No sequencer operation touches `flashUnlocked`. -/
theorem unlockedSame : MemRel fun s t : State => t.flashUnlocked = s.flashUnlocked where
  refl _ := rfl
  trans h k := k.trans h
  frameWrite who cmd v s := (cacheSame.frameWrite who cmd v s).2.2.2
  frameRead who cmd s := (cacheSame.frameRead who cmd s).2.2.2
  symbol who b s := (cacheSame.symbol who b s).2.2.2
  slot who s := (cacheSame.slot who s).2.2.2
  delay who n s := (cacheSame.delay who n s).2.2.2
  wait _ _ := rfl
  tag _ _ := rfl
  turn _ _ _ _ := rfl
  connect _ _ := rfl
  disconnect _ := rfl
  cache _ _ _ _ _ := rfl

/-- No operation of the link but its re-init clears `flashUnlocked` (R27). -/
theorem unlockedUp : LinkRel fun s t : State => s.flashUnlocked = true → t.flashUnlocked = true where
  refl _ h := h
  trans h k e := k (h e)
  frameWrite who cmd v s h := (unlockedSame.frameWrite who cmd v s).trans h
  frameRead who cmd s h := (unlockedSame.frameRead who cmd s).trans h
  symbol who b s h := (unlockedSame.symbol who b s).trans h
  slot who s h := (unlockedSame.slot who s).trans h
  delay who n s h := (unlockedSame.delay who n s).trans h
  wait _ _ h := h
  tag _ _ h := h
  turn _ _ _ _ h := h
  connect _ _ h := h
  disconnect _ h := h
  cache _ _ _ _ _ h := h
  unlocked _ _ := rfl

end Sys2Proof.Laws
end

