-- ==== Sys2Proof/Laws/Target.lean ====
section
/-!
SUPPORT. What the sequencer does on a target that answers, as acts: said once for any set of states that talks and answers (`Talks`,
`Answer`), and used for a target that answers every read slot with 0 (`ZeroTarget`, here and in the next files) and for scripted
answers (`Script.lean`). Against the first, an operation `Runs`: it completes, the frames of its acts are among those sent, in order, and the cache is the one they leave, but that
the terminal may have written a frame in between (`Weak`). With a terminal that cannot act (`Quiet`) these frames are all that
is sent, and the cache is exactly that one.
-/
namespace Sys2Proof.Laws

open Sys2Proof.Machine Sys2Proof.Safety
open Sys2Proof.Config (Params SlotDraw SeqStep)

/-! ### The cache, and a terminal that may write frames -/

/-- The cache `c` is `d`, but that the terminal may have written a frame since (R52). -/
structure Weak (c d : Cache) : Prop where
  tag : c.tag = d.tag ∨ c.tag = .terminal
  addr : c.addr = d.addr
  ai : c.ai = d.ai
  fl : c.fl = d.fl
  unlocked : c.unlocked = d.unlocked

theorem Weak.refl (c : Cache) : Weak c c := ⟨.inl rfl, rfl, rfl, rfl, rfl⟩

theorem Weak.trans {a b c : Cache} (h : Weak a b) (k : Weak b c) : Weak a c where
  tag := by
    rcases h.tag with e | e
    · rcases k.tag with f | f
      · exact .inl (e.trans f)
      · exact .inr (e.trans f)
    · exact .inr e
  addr := h.addr.trans k.addr
  ai := h.ai.trans k.ai
  fl := h.fl.trans k.fl
  unlocked := h.unlocked.trans k.unlocked

theorem cache_eq {c d : Cache} (h1 : c.tag = d.tag) (h2 : c.addr = d.addr) (h3 : c.ai = d.ai) (h4 : c.fl = d.fl)
    (h5 : c.unlocked = d.unlocked) : c = d := by
  cases c; cases d; cases h1; cases h2; cases h3; cases h4; cases h5; rfl

theorem cache_parts {c d : Cache} (h : c = d) :
    c.tag = d.tag ∧ c.addr = d.addr ∧ c.ai = d.ai ∧ c.fl = d.fl ∧ c.unlocked = d.unlocked := by
  cases h; exact ⟨rfl, rfl, rfl, rfl, rfl⟩

theorem Weak.of_eq {c d : Cache} (h : c = d) : Weak c d := h ▸ Weak.refl c

/-- With a weaker cache an act sends at least the same frames, and leaves a weaker cache. -/
theorem Weak.act {p : Params} {c d : Cache} (h : Weak c d) (a : Act) :
    (actFrames p d a).Sublist (actFrames p c a) ∧ Weak (actCache p c a) (actCache p d a) := by
  obtain ⟨tag, addr, ai, fl, un⟩ := c
  obtain ⟨tag', addr', ai', fl', un'⟩ := d
  obtain ⟨h1, h2, h3, h4, h5⟩ := h
  dsimp only at h1 h2 h3 h4 h5
  subst h2 h3 h4 h5
  rcases h1 with rfl | rfl
  · exact ⟨List.Sublist.refl _, Weak.refl _⟩
  · refine ⟨?_, ?_⟩
    · cases a with
      | writeWord a v =>
        dsimp only [actFrames]
        refine List.Sublist.append (List.Sublist.append (List.Sublist.append ?_ ?_) (List.Sublist.refl _)) (List.Sublist.refl _)
        · rw [if_neg (c := SessionTag.terminal = .writeSequence ∧ _) (by simp)]
          split
          · exact List.nil_sublist _
          · exact List.Sublist.refl _
        · rw [if_neg (c := (SessionTag.terminal = .writeSequence ∧ _) ∧ _) (by simp)]
          split
          · exact List.nil_sublist _
          · exact List.Sublist.refl _
      | readWord a ai v =>
        dsimp only [actFrames]
        refine List.Sublist.append (List.Sublist.append (List.Sublist.append ?_ ?_) (List.Sublist.refl _)) (List.Sublist.refl _)
        · rw [if_neg (c := SessionTag.terminal = .readSequence ∧ _) (by simp)]
          split
          · exact List.nil_sublist _
          · exact List.Sublist.refl _
        · rw [if_neg (c := (SessionTag.terminal = .readSequence ∧ _) ∧ _) (by simp)]
          split
          · exact List.nil_sublist _
          · exact List.Sublist.refl _
      | _ => exact List.Sublist.refl _
    · cases a <;> constructor <;> first | rfl | exact .inl rfl | exact .inr rfl

/-- With a weaker cache a list of acts sends at least the same frames, and leaves a weaker cache. -/
theorem Weak.trace {p : Params} : ∀ (as : List Act) {c d : Cache}, Weak c d →
    (trace p d as).Sublist (trace p c as) ∧ Weak (traceCache p c as) (traceCache p d as)
  | [], _, _, h => ⟨List.Sublist.refl _, h⟩
  | a :: as, _, _, h => by
    obtain ⟨h1, h2⟩ := Weak.act (p := p) h a
    obtain ⟨h3, h4⟩ := Weak.trace as h2
    exact ⟨h1.append h3, h4⟩

theorem trace_append (p : Params) : ∀ (as bs : List Act) (c : Cache),
    trace p c (as ++ bs) = trace p c as ++ trace p (traceCache p c as) bs
  | [], _, _ => rfl
  | a :: as, bs, c => by
    show actFrames p c a ++ trace p (actCache p c a) (as ++ bs) = _
    rw [trace_append p as bs]
    exact (List.append_assoc _ _ _).symm

theorem traceCache_append (p : Params) (as bs : List Act) (c : Cache) :
    traceCache p c (as ++ bs) = traceCache p (traceCache p c as) bs := List.foldl_append

theorem trace_single (p : Params) (c : Cache) (a : Act) : trace p c [a] = actFrames p c a := List.append_nil _

/-- An act that neither sets nor clears `flashUnlocked`. -/
def keepsLock : Act → Bool
  | .discard => false
  | .unlock => false
  | _ => true

theorem traceCache_unlocked {p : Params} : ∀ (as : List Act) (c : Cache), (∀ a ∈ as, keepsLock a = true) →
    (traceCache p c as).unlocked = c.unlocked
  | [], _, _ => rfl
  | a :: as, c, h => by
    refine (traceCache_unlocked as (actCache p c a) fun x hx => h x (List.mem_cons_of_mem _ hx)).trans ?_
    have := h a List.mem_cons_self
    cases a <;> first | rfl | cases this

/-! ### A terminal that cannot act -/

/-- The terminal has nothing to do, or is disconnected and locked out (R297). -/
def Quiet (s : State) : Prop := s.termIn = [] ∨ (s.active = true ∧ s.terminalConnected = false)

theorem Quiet.step {s t : State} (h : Quiet s) (k : LinkStep s t) : Quiet t := by
  rcases h with h | ⟨h1, h2⟩
  · have := k.termIn
    rw [h] at this
    exact .inl (List.suffix_nil.1 this)
  · refine .inr ⟨k.active.trans h1, ?_⟩
    cases e : t.terminalConnected with
    | false => rfl
    | true => rcases k.connected e with e | e <;> simp_all

theorem termAct_locked (a : TermAct) {s : State} (h1 : s.active = true) (h2 : s.terminalConnected = false) :
    termAct a s = s := by
  cases a with
  | connect => simp [termAct, termConnect, h1]
  | disconnect => cases s; cases h2; rfl
  | issue w => simp [termAct, h2]

/-- The turn of a terminal that cannot act sends no frame and leaves the cache alone. -/
theorem Quiet.termTurn {s : State} (h : Quiet s) : (termTurn s).frameLog = s.frameLog ∧ cacheOf (termTurn s) = cacheOf s := by
  rcases h with h | ⟨h1, h2⟩
  · unfold Machine.termTurn; rw [h]; exact ⟨rfl, rfl⟩
  · have key : ∀ (as : List TermAct) (u : State), u.active = true → u.terminalConnected = false →
        (termActs as u).frameLog = u.frameLog ∧ cacheOf (termActs as u) = cacheOf u := by
      intro as
      induction as with
      | nil => exact fun u _ _ => ⟨rfl, rfl⟩
      | cons a as ih =>
        intro u h1 h2
        rw [termActs, termAct_locked a h1 h2]
        exact ih u h1 h2
    unfold Machine.termTurn
    split
    · exact ⟨rfl, rfl⟩
    · exact key _ _ h1 h2

theorem frameWrite_cache (who : Issuer) (cmd : Cmd) (v : Word) (s : State) : cacheOf (frameWrite who cmd v s).state = cacheOf s := by
  unfold Machine.frameWrite
  split
  · rfl
  · simp [Res.state, cacheOf]

theorem frameRead_cache (who : Issuer) (cmd : Cmd) (s : State) : cacheOf (frameRead who cmd s).state = cacheOf s := by
  unfold Machine.frameRead
  split
  · rfl
  · obtain ⟨r, pin, slots, count, es, hb, -, -⟩ := readSlots_spec s.timingCoefficient.toNat 32 0
      (sendBits s.timingCoefficient.toNat (headerBits cmd false) (takePort who s))
    dsimp only
    rw [hb]
    cases r <;> simp [Res.state, cacheOf]

/-- All that the terminal changes of the cache is the tag (R52). -/
theorem weakTerm : TermRel fun s t : State => Weak (cacheOf t) (cacheOf s) where
  refl s := Weak.refl _
  trans h k := k.trans h
  frameWrite who cmd v s := Weak.of_eq (frameWrite_cache who cmd v s)
  frameRead who cmd s := Weak.of_eq (frameRead_cache who cmd s)
  symbol who b s := by
    refine Weak.of_eq ?_
    unfold Machine.phyAlone
    split
    · rfl
    · simp [Res.state, cacheOf]
  slot who s := by
    refine Weak.of_eq ?_
    unfold Machine.phyAlone
    split
    · rfl
    · obtain ⟨r, pin, slots, count, es, hb, -, -⟩ := readBit_spec s.timingCoefficient.toNat (takePort who s)
      rw [hb]
      simp [Res.state, cacheOf]
  terminal s := ⟨.inr rfl, rfl, rfl, rfl, rfl⟩
  turn _ _ _ _ := Weak.refl _
  connect _ _ := Weak.refl _
  disconnect _ := Weak.refl _

/-! ### Frames between two states -/

theorem sent_append {s t u : State} (h : s.frameLog <+: t.frameLog) (k : t.frameLog <+: u.frameLog) :
    sent s u = sent s t ++ sent t u := by
  obtain ⟨x, hx⟩ := h
  obtain ⟨y, hy⟩ := k
  simp [sent, ← hy, ← hx]

theorem sent_same {s t : State} (h : t.frameLog = s.frameLog) : sent s t = [] := by simp [sent, h]

/-- From `s` the link came to `t`; among the frames sent are `fs`, in order; the cache is `d`, but that the terminal may have
written a frame since. With a terminal that cannot act, exactly. -/
structure Low (s t : State) (fs : List FrameEvent) (d : Cache) : Prop where
  step : LinkStep s t
  frames : fs.Sublist (sent s t)
  cache : Weak (cacheOf t) d
  quiet : Quiet s → sent s t = fs ∧ cacheOf t = d

/-- The same, where the cache is left alone. -/
abbrev Framed (s t : State) (fs : List FrameEvent) : Prop := Low s t fs (cacheOf s)

theorem Low.of_same {s t : State} (h : LinkStep s t) (hf : t.frameLog = s.frameLog) : Low s t [] (cacheOf t) :=
  ⟨h, List.nil_sublist _, Weak.refl _, fun _ => ⟨sent_same hf, rfl⟩⟩

theorem Framed.refl (s : State) : Framed s s [] := Low.of_same (LinkStep.refl s) rfl

/-- What leaves the cache alone, after anything. -/
theorem Low.then {s t u : State} {fs gs : List FrameEvent} {d : Cache} (h : Low s t fs d) (k : Framed t u gs) :
    Low s u (fs ++ gs) d where
  step := h.step.trans k.step
  frames := by
    rw [sent_append h.step.frameLog k.step.frameLog]
    exact h.frames.append k.frames
  cache := k.cache.trans h.cache
  quiet hq := by
    obtain ⟨h1, h2⟩ := h.quiet hq
    obtain ⟨k1, k2⟩ := k.quiet (hq.step h.step)
    exact ⟨by rw [sent_append h.step.frameLog k.step.frameLog, h1, k1], k2.trans h2⟩

/-- A change of the cache, after anything. -/
theorem Low.set {s t u : State} {fs : List FrameEvent} {d e : Cache} (h : Low s t fs d) (k : LinkStep t u)
    (hf : u.frameLog = t.frameLog) (hw : Weak (cacheOf t) d → Weak (cacheOf u) e) (he : cacheOf t = d → cacheOf u = e) :
    Low s u fs e where
  step := h.step.trans k
  frames := by
    rw [sent_append h.step.frameLog k.frameLog, sent_same hf, List.append_nil]
    exact h.frames
  cache := hw h.cache
  quiet hq := by
    obtain ⟨h1, h2⟩ := h.quiet hq
    exact ⟨by rw [sent_append h.step.frameLog k.frameLog, sent_same hf, List.append_nil, h1], he h2⟩

theorem Low.eq {s t : State} {fs gs : List FrameEvent} {d : Cache} (h : Low s t fs d) (e : fs = gs) : Low s t gs d := e ▸ h

theorem framed_termTurn (s : State) : Framed s (termTurn s) [] where
  step := LinkStep.rel.termTurn s
  frames := List.nil_sublist _
  cache := weakTerm.termTurn s
  quiet hq := ⟨sent_same hq.termTurn.1, hq.termTurn.2⟩

/-! ### A target that answers -/

/-- In the states of `Z` a write frame goes out, and the states after it, and after a change of the cache, are of `Z` too. -/
structure Talks (Z : State → Prop) : Prop where
  valid : ∀ {s}, Z s → s.cfg.Valid
  fw : ∀ cmd v {s}, Z s → ∃ t, fw cmd v s = .ok () t ∧ Framed s t (writesOf [(cmd, v)]) ∧ Z t
  cache : ∀ {s}, Z s → ∀ tag addr ai fl, Z { s with
    sessionTag := tag, cachedAddress := addr, autoIncrementActive := ai, lastWriteWasFlash := fl }

/-- In the states of `Z` a read frame gives `v`, and leaves a state of `Z'`. -/
def Answer (Z Z' : State → Prop) (v : Word) : Prop :=
  ∀ cmd {s}, Z s → ∃ t, fr cmd s = .ok v t ∧ Framed s t [readOf cmd v] ∧ Z' t

variable {α β : Type}

/-- The operation ends with `Ok a` in a state of `Z`; what it does is `fs`, with the cache left alone. -/
def Frames (r : Res α) (s : State) (a : α) (fs : List FrameEvent) (Z : State → Prop) : Prop :=
  ∃ t, r = .ok a t ∧ Framed s t fs ∧ Z t

theorem Frames.bind {Z Z' : State → Prop} {r : Res α} {f : α → State → Res β} {s : State} {a : α} {b : β}
    {fs gs : List FrameEvent} (h : Frames r s a fs Z) (k : ∀ t, t.cfg = s.cfg → Z t → Frames (f a t) t b gs Z') :
    Frames (r.bind f) s b (fs ++ gs) Z' := by
  obtain ⟨t, rfl, ht, hz⟩ := h
  obtain ⟨u, hu, hr, hz'⟩ := k t ht.step.cfg hz
  exact ⟨u, hu, ht.then hr, hz'⟩

theorem Frames.ok {Z : State → Prop} (a : α) {s : State} (h : Z s) : Frames (.ok a s) s a [] Z := ⟨s, rfl, Framed.refl s, h⟩

/-! ### The sequencer's parts -/

theorem talks_writes {Z : State → Prop} (T : Talks Z) : ∀ (ws : List (Cmd × Word)) {s : State}, Z s →
    Frames (runEach (fun (rw : Cmd × Word) => fw rw.1 rw.2) ws s) s () (writesOf ws) Z
  | [], _, h => Frames.ok () h
  | w :: ws, _, h => Frames.bind (fs := writesOf [w]) (T.fw w.1 w.2 h) fun _ _ ht => talks_writes T ws ht

/-- A reprogramming (R162): the resident program is no longer known. -/
theorem talks_reprogram {Z : State → Prop} (T : Talks Z) (prog : List Word) (on : Option Word) {s : State} (h : Z s) : ∃ t,
    reprogram prog on s = .ok () t ∧
      Low s t (writesOf (reprogramFrames s.cfg prog on)) { cacheOf s with tag := .invalidated } ∧ Z t := by
  have h0 : Low s (invalidate s) [] (cacheOf (invalidate s)) := Low.of_same (LinkStep.rel.invalidate s) rfl
  have hz : Z (invalidate s) := T.cache h _ _ _ _
  have key : Frames ((fw s.cfg.dmAbstractAuto Config.autoOff (invalidate s)).bind fun _ s =>
      (writeProgram prog s).bind fun _ s => match on with
        | some v => fw s.cfg.dmAbstractAuto v s
        | none => .ok () s) (invalidate s) () (writesOf (reprogramFrames s.cfg prog on)) Z := by
    have e : writesOf (reprogramFrames s.cfg prog on) = writesOf [(s.cfg.dmAbstractAuto, Config.autoOff)]
        ++ (writesOf (s.cfg.dmProgbuf.toList.zip prog) ++ writesOf (on.toList.map fun v => (s.cfg.dmAbstractAuto, v))) := by
      simp [writesOf, reprogramFrames]
    rw [e]
    refine Frames.bind (T.fw _ _ hz) fun t hc ht => ?_
    have hct : t.cfg = s.cfg := hc
    rw [← hct]
    refine Frames.bind (talks_writes T _ ht) fun u hu hzu => ?_
    rw [← hu]
    cases on with
    | none => exact Frames.ok () hzu
    | some v => exact T.fw _ v hzu
  obtain ⟨t, ht, hr, hzt⟩ := key
  exact ⟨t, ht, (h0.then hr).eq (List.nil_append _), hzt⟩

theorem answer_waitAbstract {Z Z' : State → Prop} (T : Talks Z) (A : Answer Z Z' 0) {s : State} (h : Z s) :
    Frames (waitAbstract s) s () [readOf s.cfg.dmAbstractCs 0] Z' := by
  have hl := (T.valid h).absPollLimit
  obtain ⟨n, hn⟩ : ∃ n, s.cfg.absPollLimit = n + 1 := ⟨s.cfg.absPollLimit - 1, by omega⟩
  obtain ⟨t, ht, hr⟩ := A s.cfg.dmAbstractCs h
  refine ⟨t, ?_, hr⟩
  unfold waitAbstract
  rw [hn, pollAbstract, ht]
  simp [Res.bind, Res.onErr]

theorem answer_execute {Z Z' : State → Prop} (T : Talks Z) (A : Answer Z Z' 0) {s : State} (h : Z s) :
    Frames (execute s) s () (executeFrames s.cfg) Z' :=
  Frames.bind (fs := writesOf [(s.cfg.dmCommand, s.cfg.cmdExec)]) (T.fw _ _ h) fun t hc ht => by
    have := answer_waitAbstract T A ht
    rwa [hc] at this

theorem talks_sendAddress {Z : State → Prop} (T : Talks Z) (known : Bool) (a : Word) {s : State} (h : Z s) :
    Frames (sendAddress known a s) s () (if known then [] else writesOf [(s.cfg.dmData1, a)]) Z := by
  unfold sendAddress
  cases known
  · exact T.fw _ a h
  · exact Frames.ok () h

/-! ### Runs of the link -/

/-- From `s` the link came to `t` by the acts `as`. -/
structure Ran (s t : State) (as : List Act) : Prop where
  step : LinkStep s t
  acts : ∀ c, Weak (cacheOf s) c → (trace s.cfg c as).Sublist (sent s t) ∧ Weak (cacheOf t) (traceCache s.cfg c as)
  quiet : Quiet s → Sent s t as

/-- The operation ends with `Ok a`, by the acts `as`. -/
def Runs (r : Res α) (s : State) (a : α) (as : List Act) : Prop := ∃ t, r = .ok a t ∧ Ran s t as

theorem Ran.refl (s : State) : Ran s s [] :=
  ⟨LinkStep.refl s, fun _ h => ⟨List.nil_sublist _, h⟩, fun _ => ⟨sent_same rfl, rfl⟩⟩

theorem Ran.trans {s t u : State} {as bs : List Act} (h : Ran s t as) (k : Ran t u bs) : Ran s u (as ++ bs) where
  step := h.step.trans k.step
  acts c hc := by
    obtain ⟨h1, h2⟩ := h.acts c hc
    obtain ⟨k1, k2⟩ := k.acts _ h2
    rw [h.step.cfg] at k1 k2
    rw [sent_append h.step.frameLog k.step.frameLog, trace_append, traceCache_append]
    exact ⟨h1.append k1, k2⟩
  quiet hq := by
    obtain ⟨h1, h2⟩ := h.quiet hq
    obtain ⟨k1, k2⟩ := k.quiet (hq.step h.step)
    rw [h.step.cfg, h2] at k1 k2
    exact ⟨by rw [sent_append h.step.frameLog k.step.frameLog, trace_append, h1, k1], by rw [traceCache_append, k2]⟩

/-- One act. -/
theorem Low.act {s t : State} (a : Act) (h : Low s t (actFrames s.cfg (cacheOf s) a) (actCache s.cfg (cacheOf s) a)) :
    Ran s t [a] where
  step := h.step
  acts c hc := by
    obtain ⟨h1, h2⟩ := hc.act (p := s.cfg) a
    rw [trace_single]
    exact ⟨h1.trans h.frames, h.cache.trans h2⟩
  quiet hq := by
    obtain ⟨h1, h2⟩ := h.quiet hq
    exact ⟨by rw [trace_single]; exact h1, h2⟩

/-- A change that no act stands for. -/
theorem Ran.of_same {s t : State} (h : LinkStep s t) (hf : t.frameLog = s.frameLog) (hc : cacheOf t = cacheOf s) : Ran s t [] :=
  ⟨h, fun _ hw => ⟨List.nil_sublist _, hc ▸ hw⟩, fun _ => ⟨sent_same hf, hc⟩⟩

theorem Ran.unlocked {s t : State} {as : List Act} (h : Ran s t as) :
    t.flashUnlocked = (traceCache s.cfg (cacheOf s) as).unlocked := (h.acts _ (Weak.refl _)).2.unlocked

/-- What `Sends` says of the operation. -/
theorem Ran.sends {s t : State} {as : List Act} (h : Ran s t as) : Sends s t as :=
  ⟨(h.acts _ (Weak.refl _)).1, fun e => h.quiet (.inl e)⟩

theorem Runs.ok {s t : State} (a : α) {as : List Act} (h : Ran s t as) : Runs (.ok a t) s a as := ⟨t, rfl, h⟩

theorem Runs.bind {r : Res α} {f : α → State → Res β} {s : State} {a : α} {b : β} {as bs : List Act}
    (h : Runs r s a as) (k : ∀ t, Ran s t as → Runs (f a t) t b bs) : Runs (r.bind f) s b (as ++ bs) := by
  obtain ⟨t, rfl, ht⟩ := h
  obtain ⟨u, hu, hr⟩ := k t ht
  exact ⟨u, hu, ht.trans hr⟩

/-- The last step gives the value only. -/
theorem Runs.map {r : Res α} {s : State} {a : α} {as : List Act} (h : Runs r s a as) (f : α → β) :
    Runs (r.bind fun a s => .ok (f a) s) s (f a) as := by
  obtain ⟨t, rfl, ht⟩ := h
  exact ⟨t, rfl, ht⟩

theorem Runs.onErr {r : Res α} {f : State → State} {s : State} {a : α} {as : List Act} (h : Runs r s a as) :
    Runs (r.onErr f) s a as := by
  obtain ⟨t, rfl, ht⟩ := h
  exact ⟨t, rfl, ht⟩

theorem Runs.convert {r : Res α} {f : ErrKind → ErrKind} {s : State} {a : α} {as : List Act} (h : Runs r s a as) :
    Runs (r.convert f) s a as := by
  obtain ⟨t, rfl, ht⟩ := h
  exact ⟨t, rfl, ht⟩

/-- Starting earlier: what ran from `t`, where `s` came to `t`. -/
theorem Runs.from {r : Res α} {s t : State} {a : α} {as bs : List Act} (h : Ran s t as) (k : Runs r t a bs) :
    Runs r s a (as ++ bs) := by
  obtain ⟨u, hu, hr⟩ := k
  exact ⟨u, hu, h.trans hr⟩

/-! ### Acts that read nothing -/

theorem ran_dropProgram (s : State) : Ran s (dropProgram s) [.drop] := by
  refine Low.act .drop ?_
  have h : cacheOf (dropProgram s) = actCache s.cfg (cacheOf s) .drop := by
    unfold dropProgram
    cases e : s.sessionTag <;> simp [actCache, cacheOf, tagDropped, e]
  refine h ▸ Low.of_same (LinkStep.rel.dropProgram s) ?_
  unfold dropProgram
  split <;> rfl

theorem ran_discardLink (s : State) : Ran s (discardLink s) [.discard] :=
  Low.act .discard (Low.of_same (LinkStep.discard s) rfl)

theorem ran_started (s : State) : Ran s { s with sessionTag := .started } [.started] :=
  Low.act .started (Low.of_same (LinkStep.rel.tag s .started) rfl)

theorem ran_invalidate (s : State) : Ran s (invalidate s) [.invalidate] :=
  Low.act .invalidate (Low.of_same (LinkStep.rel.invalidate s) rfl)

/-- The cache invalidated, after anything. -/
theorem Low.invalidate {s t : State} {fs : List FrameEvent} {d : Cache} (h : Low s t fs d) :
    Low s (invalidate t) fs { d with tag := .invalidated } :=
  h.set (LinkStep.rel.invalidate t) rfl (fun hw => ⟨.inl rfl, hw.addr, hw.ai, hw.fl, hw.unlocked⟩) fun he =>
    let ⟨_, h2, h3, h4, h5⟩ := cache_parts he; cache_eq rfl h2 h3 h4 h5

theorem ran_unlock (s : State) : Ran s { s with flashUnlocked := true } [.unlock] :=
  Low.act .unlock (Low.of_same (LinkStep.rel.unlocked s) rfl)

/-! ### The sequencer's accesses -/

/-- A word read from an aligned address, whose completion poll reads 0 (R163). -/
theorem talks_memReadWord {Z0 Z1 Z2 : State → Prop} (T0 : Talks Z0) (T2 : Talks Z2) (A0 : Answer Z0 Z1 0) {v : Word}
    (A1 : Answer Z1 Z2 v) {a : Word} (ai : Bool) {s : State} (h : Z0 s) (ha : aligned4 a = true) :
    ∃ t, memReadWord a ai s = .ok v t ∧ Ran s t [.readWord a ai v] ∧ Z2 t := by
  obtain ⟨t, known, ht, hl, hz, hk⟩ : ∃ t known, prepareRead a ai s = .ok known t ∧
      Low s t (if s.sessionTag = .readSequence ∧ s.autoIncrementActive = ai then [] else
        writesOf (reprogramFrames s.cfg (progRead s.cfg ai) (some s.cfg.autoRead)))
        { cacheOf s with tag := .readSequence, ai := ai } ∧ Z0 t ∧
      (known = true ↔ (s.sessionTag = .readSequence ∧ s.autoIncrementActive = ai) ∧ s.cachedAddress = a) := by
    unfold prepareRead
    by_cases hh : s.sessionTag = .readSequence ∧ s.autoIncrementActive = ai
    · rw [if_pos (by simp [readProgHit, hh]), if_pos hh]
      refine ⟨s, _, rfl, ?_, h, by simp [addrHit, hh]⟩
      have e : cacheOf s = { cacheOf s with tag := .readSequence, ai := ai } := cache_eq hh.1 rfl hh.2 rfl rfl
      exact e ▸ Framed.refl s
    · rw [if_neg (by simpa [readProgHit] using hh), if_neg hh]
      obtain ⟨t, ht, hl, hz⟩ := talks_reprogram T0 (progRead s.cfg ai) (some s.cfg.autoRead) h
      rw [ht]
      refine ⟨_, false, rfl, hl.set (LinkStep.rel.cache t .readSequence t.cachedAddress ai t.lastWriteWasFlash) rfl ?_ ?_,
        T0.cache hz _ _ _ _, by simp [hh]⟩
      · exact fun hw => ⟨.inl rfl, hw.addr, rfl, hw.fl, hw.unlocked⟩
      · exact fun he => let ⟨_, h2, _, h4, h5⟩ := cache_parts he; cache_eq rfl h2 rfl h4 h5
  obtain ⟨u, hu, hf, hzu⟩ : Frames ((sendAddress known a t).bind fun _ s => (execute s).bind fun _ s => fr s.cfg.dmData0 s) t v
      ((if known then [] else writesOf [(t.cfg.dmData1, a)]) ++ (executeFrames t.cfg ++ [readOf t.cfg.dmData0 v])) Z2 := by
    refine Frames.bind (talks_sendAddress T0 known a hz) fun x hx hzx => ?_
    rw [← hx]
    refine Frames.bind (answer_execute T0 A0 hzx) fun w hw hzw => ?_
    rw [← hw]
    exact A1 _ hzw
  refine ⟨{ u with cachedAddress := if ai then a + 4 else a }, ?_, ?_, T2.cache hzu _ _ _ _⟩
  · unfold memReadWord
    rw [ha, ht]
    simp only [Bool.not_true, Bool.false_eq_true, if_false, Res.bind]
    revert hu
    cases sendAddress known a t with
    | err e v => intro hu; cases hu
    | ok x v =>
      simp only [Res.bind]
      cases execute v with
      | err e w => intro hu; cases hu
      | ok x w =>
        simp only
        cases fr w.cfg.dmData0 w with
        | err e y => intro hu; cases hu
        | ok x y => intro hu; cases hu; rfl
  · refine Low.act _ ?_
    have hall := (hl.then hf).set (LinkStep.rel.cached u (if ai then a + 4 else a)) rfl
      (e := actCache s.cfg (cacheOf s) (.readWord a ai v))
      (fun hw => ⟨hw.tag, rfl, hw.ai, hw.fl, hw.unlocked⟩) fun he =>
        let ⟨h1, _, h3, h4, h5⟩ := cache_parts he; cache_eq h1 rfl h3 h4 h5
    rw [hl.step.cfg] at hall
    refine hall.eq ?_
    simp only [actFrames, cacheOf, ← List.append_assoc]
    congr 3
    cases known
    · exact (if_neg fun hc => Bool.false_ne_true (hk.2 hc)).symm
    · exact (if_pos (hk.1 rfl)).symm

/-- A word write to an aligned address, whose completion poll reads 0 (R165). -/
theorem talks_memWriteWord {Z0 Z1 : State → Prop} (T0 : Talks Z0) (T1 : Talks Z1) (A0 : Answer Z0 Z1 0) {a : Word} (v : Word)
    {s : State} (h : Z0 s) (ha : aligned4 a = true) :
    ∃ t, memWriteWord a v s = .ok () t ∧ Ran s t [.writeWord a v] ∧ Z1 t := by
  generalize hfl : isFlash s.cfg a = fl
  obtain ⟨t, known, ht, hl, hz, hk⟩ : ∃ t known, prepareWrite a fl s = .ok known t ∧
      Low s t (if s.sessionTag = .writeSequence ∧ s.lastWriteWasFlash = fl then [] else
        writesOf (reprogramFrames s.cfg (progWrite s.cfg fl) (some s.cfg.autoWrite)))
        { cacheOf s with tag := .writeSequence, fl := fl } ∧ Z0 t ∧
      (known = true ↔ (s.sessionTag = .writeSequence ∧ s.lastWriteWasFlash = fl) ∧ s.cachedAddress = a) := by
    unfold prepareWrite
    by_cases hh : s.sessionTag = .writeSequence ∧ s.lastWriteWasFlash = fl
    · rw [if_pos (by simp [writeProgHit, hh]), if_pos hh]
      refine ⟨s, _, rfl, ?_, h, by simp [addrHit, hh]⟩
      have e : cacheOf s = { cacheOf s with tag := .writeSequence, fl := fl } := cache_eq hh.1 rfl rfl hh.2 rfl
      exact e ▸ Framed.refl s
    · rw [if_neg (by simpa [writeProgHit] using hh), if_neg hh]
      obtain ⟨t, ht, hl, hz⟩ := talks_reprogram T0 (progWrite s.cfg fl) (some s.cfg.autoWrite) h
      rw [ht]
      refine ⟨_, false, rfl, hl.set (LinkStep.rel.cache t .writeSequence t.cachedAddress t.autoIncrementActive fl) rfl ?_ ?_,
        T0.cache hz _ _ _ _, by simp [hh]⟩
      · exact fun hw => ⟨.inl rfl, hw.addr, hw.ai, rfl, hw.unlocked⟩
      · exact fun he => let ⟨_, h2, h3, _, h5⟩ := cache_parts he; cache_eq rfl h2 h3 rfl h5
  obtain ⟨u, hu, hf, hzu⟩ : Frames ((sendAddress known a t).bind fun _ s => (fw s.cfg.dmData0 v s).bind fun _ s => execute s) t ()
      ((if known then [] else writesOf [(t.cfg.dmData1, a)]) ++ (writesOf [(t.cfg.dmData0, v)] ++ executeFrames t.cfg)) Z1 := by
    refine Frames.bind (talks_sendAddress T0 known a hz) fun x hx hzx => ?_
    rw [← hx]
    refine Frames.bind (T0.fw _ _ hzx) fun w hw hzw => ?_
    rw [← hw]
    exact answer_execute T0 A0 hzw
  refine ⟨{ u with cachedAddress := a + 4 }, ?_, ?_, T1.cache hzu _ _ _ _⟩
  · unfold memWriteWord
    rw [ha, hfl, ht]
    simp only [Bool.not_true, Bool.false_eq_true, if_false, Res.bind]
    revert hu
    cases sendAddress known a t with
    | err e v => intro hu; cases hu
    | ok x w =>
      simp only [Res.bind]
      cases fw w.cfg.dmData0 v w with
      | err e w => intro hu; cases hu
      | ok x w =>
        simp only
        intro hu
        rw [hu]
        rfl
  · refine Low.act _ ?_
    have hall := (hl.then hf).set (LinkStep.rel.cached u (a + 4)) rfl
      (e := actCache s.cfg (cacheOf s) (.writeWord a v))
      (fun hw => ⟨hw.tag, rfl, hw.ai, hw.fl.trans hfl.symm, hw.unlocked⟩) fun he =>
        let ⟨h1, _, h3, h4, h5⟩ := cache_parts he; cache_eq h1 rfl h3 (h4.trans hfl.symm) h5
    rw [hl.step.cfg] at hall
    refine hall.eq ?_
    simp only [actFrames, cacheOf, ← List.append_assoc, hfl]
    congr 3
    cases known
    · exact (if_neg fun hc => Bool.false_ne_true (hk.2 hc)).symm
    · exact (if_pos (hk.1 rfl)).symm

/-- A byte read whose completion poll reads 0 (R166). -/
theorem talks_memReadByte {Z0 Z1 Z2 : State → Prop} (T0 : Talks Z0) (T2 : Talks Z2) (A0 : Answer Z0 Z1 0) {v : Word}
    (A1 : Answer Z1 Z2 v) (a : Word) {s : State} (h : Z0 s) :
    ∃ t, memReadByte a s = .ok (v.extractLsb' 0 8) t ∧ Ran s t [.readByte a v] ∧ Z2 t := by
  obtain ⟨t, ht, hl, hz⟩ := talks_reprogram T0 s.cfg.progRByte none h
  obtain ⟨u, hu, hf, hzu⟩ : Frames ((fw t.cfg.dmData1 a t).bind fun _ s => (execute s).bind fun _ s => fr s.cfg.dmData0 s) t v
      (writesOf [(t.cfg.dmData1, a)] ++ (executeFrames t.cfg ++ [readOf t.cfg.dmData0 v])) Z2 := by
    refine Frames.bind (T0.fw _ _ hz) fun x hx hzx => ?_
    rw [← hx]
    refine Frames.bind (answer_execute T0 A0 hzx) fun w hw hzw => ?_
    rw [← hw]
    exact A1 _ hzw
  refine ⟨invalidate u, ?_, ?_, T2.cache hzu _ _ _ _⟩
  · unfold memReadByte
    rw [ht]
    simp only [Res.bind]
    revert hu
    cases fw t.cfg.dmData1 a t with
    | err e v => intro hu; cases hu
    | ok x v =>
      simp only [Res.bind]
      cases execute v with
      | err e w => intro hu; cases hu
      | ok x w =>
        simp only
        intro hu
        rw [hu]
        rfl
  · refine Low.act _ ?_
    have hall := (hl.then hf).invalidate
    rw [hl.step.cfg] at hall
    refine hall.eq ?_
    simp [actFrames, writesOf]

/-- A byte write whose completion poll reads 0 (R167). -/
theorem talks_memWriteByte {Z0 Z1 : State → Prop} (T0 : Talks Z0) (T1 : Talks Z1) (A0 : Answer Z0 Z1 0) (a : Word) (b : Byte)
    {s : State} (h : Z0 s) : ∃ t, memWriteByte a b s = .ok () t ∧ Ran s t [.writeByte a b] ∧ Z1 t := by
  obtain ⟨t, ht, hl, hz⟩ := talks_reprogram T0 s.cfg.progWByte none h
  obtain ⟨u, hu, hf, hzu⟩ : Frames ((fw t.cfg.dmData1 a t).bind fun _ s => (fw s.cfg.dmData0 (b.setWidth 32) s).bind fun _ s =>
      execute s) t () (writesOf [(t.cfg.dmData1, a)] ++ (writesOf [(t.cfg.dmData0, b.setWidth 32)] ++ executeFrames t.cfg))
        Z1 := by
    refine Frames.bind (T0.fw _ _ hz) fun x hx hzx => ?_
    rw [← hx]
    refine Frames.bind (T0.fw _ _ hzx) fun w hw hzw => ?_
    rw [← hw]
    exact answer_execute T0 A0 hzw
  refine ⟨invalidate u, ?_, ?_, T1.cache hzu _ _ _ _⟩
  · unfold memWriteByte
    rw [ht]
    simp only [Res.bind] at hu ⊢
    rw [hu]
    rfl
  · refine Low.act _ ?_
    have hall := (hl.then hf).invalidate
    rw [hl.step.cfg] at hall
    refine hall.eq ?_
    simp [actFrames, writesOf]

/-! ### A target that answers 0 -/

theorem ZeroTarget.step {s t : State} (h : ZeroTarget s) (k : LinkStep s t) : ZeroTarget t where
  valid := k.cfg ▸ h.valid
  aligned := k.cfg ▸ h.aligned
  pin := k.pinMask ▸ h.pin
  script := by
    have := k.slotIn
    rw [h.script] at this
    exact List.suffix_nil.1 this
  rest := k.slotRest ▸ h.rest

theorem framed_withTurns {f : State → Res α} {s : State} {a : α} {fs : List FrameEvent}
    (h : ∃ t, f (termTurn s) = .ok a t ∧ Framed (termTurn s) t fs) : ∃ t, withTurns f s = .ok a t ∧ Framed s t fs := by
  obtain ⟨t, ht, hr⟩ := h
  exact ⟨t, ht, (framed_termTurn s).then hr⟩

/-- A write frame needs no answer (R142). -/
theorem framed_fw (cmd : Cmd) (v : Word) {s : State} (h : s.pinMask ≠ 0) :
    ∃ t, fw cmd v s = .ok () t ∧ Framed s t (writesOf [(cmd, v)]) := by
  have hp : (termTurn s).pinMask ≠ 0 := by rw [(LinkStep.rel.termTurn s).pinMask]; exact h
  have hs := LinkStep.frameWrite .control cmd v (termTurn s)
  have hc := frameWrite_cache .control cmd v (termTurn s)
  have key : ∃ t, frameWrite .control cmd v (termTurn s) = .ok () t ∧ Framed (termTurn s) t (writesOf [(cmd, v)]) := by
    rw [frameWrite, if_neg hp] at hs hc ⊢
    have hf : ∀ u : State, u.frameLog = (termTurn s).frameLog →
        sent (termTurn s) (logFrame .control (.write cmd v) u) = writesOf [(cmd, v)] := by
      intro u hu
      simp [sent, logFrame, writesOf, hu]
    refine ⟨_, rfl, hs, ?_, Weak.of_eq hc, fun _ => ⟨?_, hc⟩⟩
    · rw [hf _ (by simp)]
    · exact hf _ (by simp)
  exact framed_withTurns key

/-- A read frame whose slots give `v`. -/
theorem framed_frameRead {cmd : Cmd} {v : Word} {t u : State} (h : frameRead .control cmd t = .ok v u) :
    Framed t u [readOf cmd v] := by
  have hs := LinkStep.frameRead .control cmd t
  have hc := frameRead_cache .control cmd t
  rw [h] at hs hc
  have hf : sent t u = [readOf cmd v] := by
    unfold frameRead at h
    split at h
    · cases h
    · obtain ⟨r, pin, slots, count, es, hb, hp, hl⟩ := readSlots_spec t.timingCoefficient.toNat 32 0
        (sendBits t.timingCoefficient.toNat (headerBits cmd false) (takePort .control t))
      dsimp only at h
      rw [hb] at h
      cases r with
      | none => cases h
      | some w => cases h; simp [sent, logFrame, readOf]
  exact ⟨hs, by rw [hf], Weak.of_eq hc, fun _ => ⟨hf, hc⟩⟩

theorem readSlots_zero (c : Nat) : ∀ (n : Nat) (s : State), s.slotIn = [] → s.slotRest = some zeroDraw →
    1 ≤ s.cfg.readPollLimit → (readSlots c n 0 s).1 = some 0
  | 0, _, _, _, _ => rfl
  | n + 1, s, h1, h2, h3 => by
    have hd : nextDraw s = (zeroDraw, { s with slotIn := s.slotIn, slotCount := s.slotCount }) := by
      simp only [nextDraw, h1, h2]
    have hz : (seenHigh s.cfg zeroDraw).isSome = true := by
      simp [seenHigh, zeroDraw, show 0 < s.cfg.readPollLimit from h3]
    unfold readSlots
    rw [readBit_of_draw hd, if_pos hz]
    exact readSlots_zero c n _ h1 h2 h3

theorem frameRead_zero (cmd : Cmd) {t : State} (h : ZeroTarget t) : ∃ u, frameRead .control cmd t = .ok 0 u := by
  rw [frameRead, if_neg h.pin]
  have hz := readSlots_zero t.timingCoefficient.toNat 32
    (sendBits t.timingCoefficient.toNat (headerBits cmd false) (takePort .control t)) (by simpa using h.script)
    (by simpa using h.rest) (by simpa using h.valid.readPollLimit)
  dsimp only
  cases hr : readSlots t.timingCoefficient.toNat 32 0
    (sendBits t.timingCoefficient.toNat (headerBits cmd false) (takePort .control t)) with
  | mk r u =>
    rw [hr] at hz
    obtain rfl : r = some 0 := hz
    exact ⟨_, rfl⟩

theorem zero_talks : Talks ZeroTarget where
  valid h := h.valid
  fw cmd v s h := by
    obtain ⟨t, ht, hf⟩ := framed_fw cmd v h.pin
    exact ⟨t, ht, hf, ZeroTarget.step h hf.step⟩
  cache h _ _ _ _ := ⟨h.valid, h.aligned, h.pin, h.script, h.rest⟩

theorem zero_answer : Answer ZeroTarget ZeroTarget 0 := fun cmd s h => by
  obtain ⟨u, hu⟩ := frameRead_zero cmd (ZeroTarget.step h (LinkStep.rel.termTurn s))
  obtain ⟨t, ht, hr⟩ := framed_withTurns ⟨u, hu, framed_frameRead hu⟩
  exact ⟨_, ht, hr, ZeroTarget.step h hr.step⟩

theorem runs_fw (cmd : Cmd) (v : Word) {s : State} (h : s.pinMask ≠ 0) : Runs (fw cmd v s) s () [.frame (.write cmd v)] := by
  obtain ⟨t, ht, hr⟩ := framed_fw cmd v h
  exact ⟨t, ht, Low.act (.frame (.write cmd v)) hr⟩

theorem runs_fr (cmd : Cmd) {s : State} (h : ZeroTarget s) : Runs (fr cmd s) s 0 [.frame (.read cmd (some 0))] := by
  obtain ⟨t, ht, hr, -⟩ := zero_answer cmd h
  exact ⟨t, ht, Low.act (.frame (.read cmd (some 0))) hr⟩

theorem runs_waitAbstract {s : State} (h : ZeroTarget s) :
    Runs (waitAbstract s) s () [.frame (.read s.cfg.dmAbstractCs (some 0))] := by
  obtain ⟨t, ht, hr, -⟩ := answer_waitAbstract zero_talks zero_answer h
  exact ⟨t, ht, Low.act (.frame (.read s.cfg.dmAbstractCs (some 0))) hr⟩

/-- A word read from an aligned address gives 0. -/
theorem runs_memReadWord {a : Word} (ai : Bool) {s : State} (h : ZeroTarget s) (ha : aligned4 a = true) :
    Runs (memReadWord a ai s) s 0 [.readWord a ai 0] := by
  obtain ⟨t, ht, hr, -⟩ := talks_memReadWord zero_talks zero_talks zero_answer zero_answer ai h ha
  exact ⟨t, ht, hr⟩

theorem runs_memWriteWord {a : Word} (v : Word) {s : State} (h : ZeroTarget s) (ha : aligned4 a = true) :
    Runs (memWriteWord a v s) s () [.writeWord a v] := by
  obtain ⟨t, ht, hr, -⟩ := talks_memWriteWord zero_talks zero_talks zero_answer v h ha
  exact ⟨t, ht, hr⟩

/-- A byte read gives 0. -/
theorem runs_memReadByte (a : Word) {s : State} (h : ZeroTarget s) : Runs (memReadByte a s) s 0 [.readByte a 0] := by
  obtain ⟨t, ht, hr, -⟩ := talks_memReadByte zero_talks zero_talks zero_answer zero_answer a h
  exact ⟨t, ht, hr⟩

theorem runs_memWriteByte (a : Word) (b : Byte) {s : State} (h : ZeroTarget s) :
    Runs (memWriteByte a b s) s () [.writeByte a b] := by
  obtain ⟨t, ht, hr, -⟩ := talks_memWriteByte zero_talks zero_talks zero_answer a b h
  exact ⟨t, ht, hr⟩

/-- A loop, with what its bodies may rely on (`P`). -/
theorem Runs.each {f : β → State → Res Unit} {g : β → List Act} {p : Params} (P : State → Prop) :
    ∀ (bs : List β) (s : State), ZeroTarget s → s.cfg = p → P s →
    (∀ b ∈ bs, ∀ t, ZeroTarget t → t.cfg = p → P t → Runs (f b t) t () (g b)) →
    (∀ b ∈ bs, ∀ t u, P t → Ran t u (g b) → P u) → Runs (runEach f bs s) s () (bs.flatMap g)
  | [], s, _, _, _, _, _ => Runs.ok () (Ran.refl s)
  | b :: bs, s, hz, hc, hp, hf, hk => by
    rw [List.flatMap_cons]
    exact Runs.bind (hf b List.mem_cons_self s hz hc hp) fun t ht =>
      Runs.each P bs t (ZeroTarget.step hz ht.step) (ht.step.cfg.trans hc) (hk b List.mem_cons_self s t hp ht)
        (fun b hb => hf b (List.mem_cons_of_mem _ hb)) fun b hb => hk b (List.mem_cons_of_mem _ hb)

theorem Runs.collect {f : β → State → Res α} {v : β → α} {g : β → List Act} {p : Params} : ∀ (bs : List β) (s : State),
    ZeroTarget s → s.cfg = p → (∀ b ∈ bs, ∀ t, ZeroTarget t → t.cfg = p → Runs (f b t) t (v b) (g b)) →
    Runs (collectEach f bs s) s (bs.map v) (bs.flatMap g)
  | [], s, _, _, _ => Runs.ok [] (Ran.refl s)
  | b :: bs, s, hz, hc, hf => by
    rw [List.flatMap_cons]
    refine Runs.bind (hf b List.mem_cons_self s hz hc) fun t ht => ?_
    exact Runs.map (f := fun as => v b :: as) (Runs.collect bs t (ZeroTarget.step hz ht.step) (ht.step.cfg.trans hc)
      fun b hb => hf b (List.mem_cons_of_mem _ hb))

end Sys2Proof.Laws
end

