-- ==== Sys2Proof/Laws/Flash.lean ====
section
/-!
SUPPORT. The flash engine, the halt/reset controller and link init against a target that answers every read slot with 0
(`ZeroTarget`): each completes, by the acts that `Safety.lean` lists for it.
-/
namespace Sys2Proof.Laws

open Sys2Proof.Machine Sys2Proof.Safety
open Sys2Proof.Config (Params SlotDraw SeqStep)

variable {α β : Type}

/-! ### Helpers -/

theorem Runs.eq {r : Res α} {s : State} {a : α} {as bs : List Act} (h : Runs r s a as) (e : as = bs) : Runs r s a bs := e ▸ h

/-- The next operation, on the same target with the same parameters. -/
theorem Runs.next {p : Params} {r : Res α} {f : α → State → Res β} {s : State} {a : α} {b : β} {as bs : List Act}
    (h : Runs r s a as) (hz : ZeroTarget s) (hc : s.cfg = p)
    (k : ∀ t, ZeroTarget t → t.cfg = p → Ran s t as → Runs (f a t) t b bs) : Runs (r.bind f) s b (as ++ bs) :=
  Runs.bind h fun t ht => k t (ZeroTarget.step hz ht.step) (ht.step.cfg.trans hc) ht

/-- Acts that keep `flashUnlocked` leave it set. -/
theorem Ran.keeps {s t : State} {as : List Act} (h : Ran s t as) (ha : ∀ a ∈ as, keepsLock a = true) :
    t.flashUnlocked = s.flashUnlocked := h.unlocked.trans (traceCache_unlocked as _ ha)

theorem aligned_of_peripheral {p : Params} {a : Word} (h : Config.peripheral p.flashSize a) : aligned4 a = true := by
  simp [aligned4, h.1]

theorem not_flash_of_peripheral {p : Params} {a : Word} (h : Config.peripheral p.flashSize a) : isFlash p a = false := by
  have := h.2
  simp only [isFlash, isFlashAt, Bool.and_eq_false_iff, decide_eq_false_iff_not]
  omega

/-! ### Unlock and busy polls -/

theorem runs_memWrites {s : State} (h : ZeroTarget s) (ws : List (Word × Word)) (ha : ∀ w ∈ ws, aligned4 w.1 = true) :
    Runs (memWrites ws s) s () (ws.map fun w => .writeWord w.1 w.2) := by
  rw [List.map_eq_flatMap]
  exact Runs.each (p := s.cfg) (fun _ => True) ws s h rfl trivial
    (fun w hw t ht _ _ => runs_memWriteWord w.2 ht (ha w hw)) fun _ _ _ _ _ _ => trivial

theorem runs_waitBusy {p : Params} (wp : Bool) (n : Nat) {s : State} (h : ZeroTarget s) (hc : s.cfg = p) :
    Runs (waitBusy wp (n + 1) s) s () (idleActs p) := by
  obtain ⟨t, ht, hr⟩ := runs_memReadWord false h (aligned_of_peripheral h.valid.flashStatr)
  refine ⟨t, ?_, hc ▸ hr⟩
  unfold waitBusy
  rw [ht]
  simp [Res.bind]

theorem runs_busy {p : Params} (wp : Bool) {s : State} (h : ZeroTarget s) (hc : s.cfg = p) :
    Runs (waitBusy wp p.busyPollLimit s) s () (idleActs p) := by
  have hl := h.valid.busyPollLimit
  obtain ⟨n, hn⟩ : ∃ n, p.busyPollLimit = n + 1 := ⟨p.busyPollLimit - 1, by rw [hc] at hl; omega⟩
  rw [hn]
  exact runs_waitBusy wp n h hc

theorem runs_flashUnlock {p : Params} {s : State} (h : ZeroTarget s) (hc : s.cfg = p) :
    Runs (flashUnlock s) s () (unlockActs p) := by
  have h1 := runs_memWrites h (keyWrites s) (by
    intro w hw
    simp only [keyWrites, List.flatMap_cons, List.flatMap_nil, List.cons_append, List.nil_append, List.mem_cons,
      List.not_mem_nil, or_false] at hw
    rcases hw with rfl | rfl | rfl | rfl | rfl | rfl
    · exact aligned_of_peripheral h.valid.flashKeyr
    · exact aligned_of_peripheral h.valid.flashKeyr
    · exact aligned_of_peripheral h.valid.flashObkeyr
    · exact aligned_of_peripheral h.valid.flashObkeyr
    · exact aligned_of_peripheral h.valid.flashModekeyr
    · exact aligned_of_peripheral h.valid.flashModekeyr)
  unfold flashUnlock
  refine (Runs.next (bs := [.readWord p.lockReg false 0, .unlock]) h1 h hc fun t hz hct _ => ?_).eq (by
    simp [keyWrites, unlockActs, keyActs, hc])
  rw [hct]
  refine Runs.bind (as := [.readWord p.lockReg false 0]) (bs := [.unlock]) (runs_memReadWord false hz (hct ▸ hz.aligned.lock))
    fun u _ => ?_
  rw [if_neg (by simp)]
  exact Runs.ok () (ran_unlock u)

theorem runs_ensureUnlocked {p : Params} {s : State} (h : ZeroTarget s) (hc : s.cfg = p) :
    Runs (ensureUnlocked s) s () (ensureActs p s.flashUnlocked) := by
  unfold ensureUnlocked ensureActs
  split
  · exact Runs.ok () (Ran.refl s)
  · exact runs_flashUnlock h hc

/-- `EnsureUnlocked` leaves `flashUnlocked` set (R200). -/
theorem Ran.ensured {p : Params} {s t : State} (h : Ran s t (ensureActs p s.flashUnlocked)) :
    t.flashUnlocked = true := by
  rw [h.unlocked]
  unfold ensureActs
  cases e : s.flashUnlocked
  · rfl
  · exact e

/-- After `EnsureUnlocked`, the rest of an operation runs with `flashUnlocked` set. -/
theorem Runs.ensure {p : Params} {f : Unit → State → Res β} {s : State} {b : β} {bs : List Act} (hz : ZeroTarget s)
    (hc : s.cfg = p) (k : ∀ t, ZeroTarget t → t.cfg = p → t.flashUnlocked = true → Runs (f () t) t b bs) :
    Runs ((ensureUnlocked s).bind f) s b (ensureActs p s.flashUnlocked ++ bs) :=
  Runs.next (runs_ensureUnlocked hz hc) hz hc fun t hzt hct ht => k t hzt hct ht.ensured

/-! ### Erase -/

theorem runs_eraseChunk {p : Params} (c : Nat) {s : State} (h : ZeroTarget s) (hc : s.cfg = p) :
    Runs (eraseChunk c s) s () (eraseChunkActs p c) := by
  have hctl : aligned4 p.flashCtlr = true := hc ▸ aligned_of_peripheral h.valid.flashCtlr
  have haddr : aligned4 p.flashAddr = true := hc ▸ aligned_of_peripheral h.valid.flashAddr
  unfold eraseChunk eraseChunkActs eraseStartActs
  simp only [List.append_assoc, List.cons_append, List.nil_append]
  rw [hc]
  refine Runs.next (runs_busy false h hc) h hc fun t h hc _ => ?_
  rw [hc]
  refine Runs.next (as := [_]) (runs_memWriteWord _ h hctl) h hc fun t h hc _ => ?_
  rw [hc]
  refine Runs.next (as := [_]) (runs_memWriteWord _ h haddr) h hc fun t h hc _ => ?_
  rw [hc]
  refine Runs.next (as := [_]) (runs_memWriteWord _ h hctl) h hc fun t h hc _ => ?_
  rw [hc]
  refine Runs.next (runs_busy true h hc) h hc fun t h hc _ => ?_
  rw [hc]
  exact runs_memWriteWord _ h hctl

theorem eraseChunkActs_keep (p : Params) (c : Nat) : ∀ a ∈ eraseChunkActs p c, keepsLock a = true := by
  intro a ha
  simp only [eraseChunkActs, eraseStartActs, idleActs, List.cons_append, List.nil_append, List.mem_cons, List.not_mem_nil, or_false] at ha
  rcases ha with rfl | rfl | rfl | rfl | rfl | rfl <;> rfl

theorem runs_flashErasePages {p : Params} {a n : Nat} {s : State} (h : ZeroTarget s) (hc : s.cfg = p) (hn : n ≠ 0)
    (hw : a + n ≤ 2 ^ 32) (hf : classify p a n = .flash) : Runs (flashErasePages a n s) s ()
      (ensureActs p s.flashUnlocked ++ (chunks a n).flatMap (eraseChunkActs p)) := by
  unfold flashErasePages
  rw [if_neg hn, if_neg (by simpa [wraps, hc, hf] using hw)]
  exact Runs.ensure h hc fun t hz hct _ => Runs.each (p := p) (fun _ => True) _ t hz hct trivial
    (fun c _ u hzu hcu _ => runs_eraseChunk c hzu hcu) fun _ _ _ _ _ _ => trivial

theorem runs_flashEraseChip {p : Params} {s : State} (h : ZeroTarget s) (hc : s.cfg = p) : Runs (flashEraseChip s) s ()
    (ensureActs p s.flashUnlocked ++ eraseChipActs p) := by
  have hctl : aligned4 p.flashCtlr = true := hc ▸ aligned_of_peripheral h.valid.flashCtlr
  unfold flashEraseChip eraseChipActs chipStartActs
  refine Runs.ensure h hc fun t h hc _ => ?_
  simp only [List.cons_append, List.nil_append]
  rw [hc]
  refine Runs.next (as := [_]) (runs_memWriteWord _ h hctl) h hc fun t h hc _ => ?_
  rw [hc]
  refine Runs.next (as := [_]) (runs_memWriteWord _ h hctl) h hc fun t h hc _ => ?_
  exact runs_waitBusy true 499 h hc

/-! ### Block program -/

theorem packWords_length : ∀ (n : Nat) (bs : List Byte), bs.length = 4 * n → (packWords bs).length = n
  | 0, bs, h => by
    obtain rfl : bs = [] := List.eq_nil_of_length_eq_zero (by omega)
    rfl
  | n + 1, bs, h => by
    match bs, h with
    | b0 :: b1 :: b2 :: b3 :: rest, h =>
      simp only [packWords, List.length_cons]
      rw [packWords_length n rest (by simp only [List.length_cons] at h; omega)]
    | [], h => simp at h
    | [_], h => simp at h; omega
    | [_, _], h => simp at h; omega
    | [_, _, _], h => simp at h; omega

theorem padBlock_length {data : List Byte} (h : data.length ≤ 64) : (padBlock data).length = 64 := by
  simp [padBlock]; omega

theorem blockWrites_aligned {a : Nat} (data : List Byte) (ha : a % 64 = 0) : ∀ w ∈ blockWrites a data, aligned4 w.1 = true := by
  intro w hw
  obtain ⟨j, hj, rfl⟩ := List.mem_mapIdx.1 hw
  simp only [aligned4, BitVec.toNat_ofNat, beq_iff_eq]
  omega

theorem runs_flashWriteBlock {p : Params} {a : Nat} {data : List Byte} {s : State} (h : ZeroTarget s) (hc : s.cfg = p)
    (ha : a % 64 = 0) (hd : data.length ≠ 0) (hl : data.length ≤ 64) (hf : classify p a 64 = .flash) :
    Runs (flashWriteBlock a data s) s () (ensureActs p s.flashUnlocked ++ programActs p a data) := by
  have hctl : aligned4 p.flashCtlr = true := hc ▸ aligned_of_peripheral h.valid.flashCtlr
  have hadr : aligned4 p.flashAddr = true := hc ▸ aligned_of_peripheral h.valid.flashAddr
  unfold flashWriteBlock
  rw [if_neg (by omega), if_neg (by omega), if_neg (by rw [hc]; simp [hf])]
  refine Runs.ensure h hc fun t h hc _ => ?_
  unfold programActs
  simp only [List.append_assoc, List.cons_append, List.nil_append]
  rw [hc]
  refine Runs.next (as := [_]) (runs_memWriteWord _ h hctl) h hc fun t h hc _ => ?_
  refine Runs.next ((runs_memWrites h _ (blockWrites_aligned data ha)).eq (bs := (packWords (data
    ++ List.replicate (64 - data.length) 0xFF)).mapIdx fun j w => .writeWord (BitVec.ofNat 32 (a + 4 * j)) w)
    (List.ext_getElem (by simp [blockWrites, padBlock]) fun i h1 h2 => by simp [blockWrites, padBlock])) h hc fun t h hc _ => ?_
  rw [hc]
  refine Runs.next (as := [_]) (runs_memWriteWord _ h hadr) h hc fun t h hc _ => ?_
  rw [hc]
  refine Runs.next (as := [_]) (runs_memWriteWord _ h hctl) h hc fun t h hc _ => ?_
  rw [hc]
  exact runs_busy true h hc

theorem programActs_keep (p : Params) (c : Nat) (data : List Byte) : ∀ a ∈ programActs p c data, keepsLock a = true := by
  intro a ha
  simp only [programActs, idleActs, List.mem_append, List.mem_cons, List.not_mem_nil, or_false, List.mem_mapIdx] at ha
  rcases ha with ((rfl | ⟨j, hj, rfl⟩) | rfl | rfl) | rfl <;> rfl

/-! ### Blobs -/

/-- The size of an access of a blob read. -/
def accessSize : BlobAccess → Nat
  | .word _ => 4
  | .byte _ => 1

theorem blobReads_size : ∀ (fuel p n : Nat), n ≤ fuel → ((blobReads fuel p n).map accessSize).sum = n
  | 0, p, n, h => by simp [blobReads]; omega
  | fuel + 1, p, n, h => by
    unfold blobReads
    split
    · simp_all
    · split
      · simp only [List.map_cons, List.sum_cons, accessSize]
        rw [blobReads_size fuel (p + 4) (n - 4) (by omega)]
        omega
      · simp only [List.map_cons, List.sum_cons, accessSize]
        rw [blobReads_size fuel (p + 1) (n - 1) (by omega)]
        omega

theorem ofNat_aligned {p : Nat} (h : p % 4 = 0) : aligned4 (BitVec.ofNat 32 p) = true := by
  simp only [aligned4, BitVec.toNat_ofNat, beq_iff_eq]
  omega

theorem blobReads_aligned : ∀ (fuel p n : Nat) (a : Word), .word a ∈ blobReads fuel p n → aligned4 a = true
  | 0, p, n, a, h => by simp [blobReads] at h
  | fuel + 1, p, n, a, h => by
    unfold blobReads at h
    split at h
    · simp at h
    · split at h
      · rename_i hp
        rcases List.mem_cons.1 h with h | h
        · cases h; exact ofNat_aligned hp.1
        · exact blobReads_aligned fuel _ _ a h
      · rcases List.mem_cons.1 h with h | h
        · cases h
        · exact blobReads_aligned fuel _ _ a h

theorem ramWrites_aligned : ∀ (fuel p : Nat) (d : List Byte) (a v : Word), .word a v ∈ ramWrites fuel p d → aligned4 a = true
  | 0, p, d, a, v, h => by simp [ramWrites] at h
  | fuel + 1, p, [], a, v, h => by simp [ramWrites] at h
  | fuel + 1, p, b0 :: rest, a, v, h => by
    unfold ramWrites at h
    split at h
    · rename_i hp
      split at h
      · rcases List.mem_cons.1 h with h | h
        · cases h; exact ofNat_aligned hp
        · exact ramWrites_aligned fuel _ _ a v h
      · rcases List.mem_cons.1 h with h | h
        · cases h
        · exact ramWrites_aligned fuel _ _ a v h
    · rcases List.mem_cons.1 h with h | h
      · cases h
      · exact ramWrites_aligned fuel _ _ a v h

theorem runs_blobRead {a n : Nat} {s : State} (h : ZeroTarget s) (hw : a + n ≤ 2 ^ 32) :
    Runs (blobRead a n s) s (List.replicate n 0) (blobReadActs a n) := by
  unfold blobRead
  rw [if_neg (by simpa [wraps] using hw)]
  have h1 := Runs.collect (p := s.cfg) (f := blobAccess) (v := fun x => List.replicate (accessSize x) (0 : Byte))
    (g := fun x => [match x with | .word a => .readWord a true 0 | .byte a => .readByte a 0]) (blobReads n a n) s h rfl
    fun x hx t ht _ => by
      cases x with
      | word x => exact Runs.map (runs_memReadWord true ht (blobReads_aligned _ _ _ _ hx)) wordBytes
      | byte x => exact Runs.map (runs_memReadByte x ht) fun b => [b]
  rw [← List.map_eq_flatMap] at h1
  have : ∀ xs : List BlobAccess, (xs.map fun x => List.replicate (accessSize x) (0 : Byte)).flatten
      = List.replicate (xs.map accessSize).sum 0 := by
    intro xs
    induction xs with
    | nil => rfl
    | cons x xs ih =>
      rw [List.map_cons, List.flatten_cons, ih, List.replicate_append_replicate, List.map_cons, List.sum_cons]
  have h2 := Runs.map h1 List.flatten
  rw [this, blobReads_size n a n (Nat.le_refl n)] at h2
  exact h2

theorem blobReadActs_keep (a n : Nat) : ∀ x ∈ blobReadActs a n, keepsLock x = true := by
  intro x hx
  obtain ⟨y, -, rfl⟩ := List.mem_map.1 hx
  cases y <;> rfl

theorem runs_blobWriteRam {s : State} (h : ZeroTarget s) (a : Nat) (data : List Byte) :
    Runs (blobWriteRam a data s) s () (ramActs a data) := by
  unfold blobWriteRam ramActs
  rw [List.map_eq_flatMap]
  refine Runs.each (p := s.cfg) (fun _ => True) _ s h rfl trivial (fun x hx t ht _ _ => ?_) fun _ _ _ _ _ _ => trivial
  cases x with
  | word a v => exact runs_memWriteWord v ht (ramWrites_aligned _ _ _ _ _ hx)
  | byte a b => exact runs_memWriteByte a b ht

theorem ramActs_keep (a : Nat) (data : List Byte) : ∀ x ∈ ramActs a data, keepsLock x = true := by
  intro x hx
  obtain ⟨y, -, rfl⟩ := List.mem_map.1 hx
  cases y <;> rfl

/-! ### Step lists, link init, halt -/

theorem runs_runStep {p : Params} {s : State} (h : ZeroTarget s) (hc : s.cfg = p) (x : SeqStep) (ha : stepAligned x = true) :
    Runs (runStep x s) s () (stepActs p x) := by
  cases x with
  | fw cmd v => exact runs_fw cmd v h.pin
  | fr cmd => exact Runs.map (runs_fr cmd h) fun _ => ()
  | memWriteWord a v => exact runs_memWriteWord v h ha
  | memReadWord a => exact Runs.map (runs_memReadWord false h ha) fun _ => ()
  | flashUnlock => exact runs_flashUnlock h hc
  | flashWaitNotBusy => unfold runStep flashWaitNotBusy; rw [hc]; exact runs_busy false h hc
  | wait n => exact Runs.ok () (Ran.of_same (LinkStep.rel.wait _ s) rfl rfl)

theorem runs_runSteps {p : Params} {s : State} (h : ZeroTarget s) (hc : s.cfg = p) (xs : List SeqStep)
    (ha : xs.all stepAligned = true) : Runs (runSteps xs s) s () (stepsActs p xs) :=
  Runs.each (p := p) (fun _ => True) xs s h hc trivial
    (fun x hx _ ht hct _ => runs_runStep ht hct x (List.all_eq_true.1 ha x hx)) fun _ _ _ _ _ _ => trivial

/-- A step list leaves `flashUnlocked` set if it was, or if one of its steps unlocks. -/
theorem stepsActs_unlocked (p : Params) : ∀ (xs : List SeqStep) (c : Cache),
    (traceCache p c (stepsActs p xs)).unlocked = (c.unlocked || unlocks xs)
  | [], c => by simp [stepsActs, traceCache, unlocks]
  | x :: xs, c => by
    have e : stepsActs p (x :: xs) = stepActs p x ++ stepsActs p xs := List.flatMap_cons
    rw [e, traceCache_append, stepsActs_unlocked p xs]
    have : (traceCache p c (stepActs p x)).unlocked = (c.unlocked || x == .flashUnlock) := by
      cases x <;> simp [stepActs, traceCache, actCache, unlockActs, keyActs, idleActs]
    rw [this]
    simp only [unlocks, List.contains_cons, Bool.or_assoc]
    congr 2
    cases x <;> rfl

theorem handshake_aligned {xs : List SeqStep} (h : xs.all SeqStep.isHandshake = true) : xs.all stepAligned = true := by
  refine List.all_eq_true.2 fun x hx => ?_
  have := List.all_eq_true.1 h x hx
  cases x <;> simp_all [stepAligned, SeqStep.isHandshake]

theorem handshake_keeps {xs : List SeqStep} (h : xs.all SeqStep.isHandshake = true) : unlocks xs = false := by
  refine Bool.eq_false_iff.2 fun hu => ?_
  have := List.all_eq_true.1 h _ (List.contains_iff_mem.1 hu)
  simp [SeqStep.isHandshake] at this

/-- `LINK_INIT` (R235). -/
theorem runs_linkInit {p : Params} {s : State} (h : ZeroTarget s) (hc : s.cfg = p) :
    Runs (linkInit s) s () (initActs p) := by
  have h0 := ran_discardLink s
  have hz := ZeroTarget.step h h0.step
  have hcd : (discardLink s).cfg = p := hc
  unfold linkInit
  dsimp only
  rw [if_neg hz.pin, hcd]
  refine (Runs.from (bs := stepsActs p p.seqInit ++ [.started]) h0 (Runs.bind
    (runs_runSteps hz hcd _ (handshake_aligned (hc ▸ h.valid.seqInit))).convert.onErr fun t _ => ?_)).eq rfl
  exact Runs.ok () (ran_started t)

/-- A link init leaves `flashUnlocked` clear: its handshake does not unlock (R235). -/
theorem initActs_unlocked {p : Params} (h : p.Valid) (c : Cache) : (traceCache p c (initActs p)).unlocked = false := by
  show (traceCache p (actCache p c .discard) (stepsActs p p.seqInit ++ [.started])).unlocked = false
  rw [traceCache_append]
  show (traceCache p (actCache p c .discard) (stepsActs p p.seqInit)).unlocked = false
  rw [stepsActs_unlocked, handshake_keeps h.seqInit]
  rfl

theorem runs_ensureLink {s : State} (h : ZeroTarget s) : Runs (ensureLink s) s () (linkActs s) := by
  unfold ensureLink linkActs
  split
  · exact runs_linkInit h rfl
  · exact Runs.ok () (Ran.refl s)

/-- `HALTCTL(mode)` (R250). -/
theorem runs_haltctl {p : Params} (m : HaltMode) {s : State} (h : ZeroTarget s) (hc : s.cfg = p) :
    Runs (haltctl m s) s () (haltActs p m) := by
  have hal := h.aligned
  rw [hc] at hal
  have h0 := ran_dropProgram s
  have hz := ZeroTarget.step h h0.step
  have hcd : (dropProgram s).cfg = p := h0.step.cfg.trans hc
  unfold haltctl
  rw [hc]
  refine (Runs.from (bs := stepsActs p p.seqPre ++ (stepsActs p (if m = .rebootBoot then p.seqBootKeys else [])
    ++ (stepsActs p (modeSteps p m) ++ [.frame (.read p.dmAbstractCs (some 0))]))) h0
    (Runs.next (runs_runSteps hz hcd _ hal.pre) hz hcd fun t h hc _ => Runs.next (a := ()) ?_ h hc fun t h hc _ => ?_)).eq ?_
  · rw [hc]
    split
    · exact runs_runSteps h hc _ hal.boot
    · exact Runs.ok () (Ran.refl t)
  · rw [hc]
    refine Runs.next (runs_runSteps h hc _ (hal.modes m)) h hc fun t h hc _ => ?_
    have := runs_waitAbstract h
    rwa [hc] at this
  · simp [haltActs, haltSteps, stepsActs, List.flatMap_append]

/-- A halt leaves `flashUnlocked` set if it was, or if one of its steps unlocks. -/
theorem haltActs_unlocked (p : Params) (m : HaltMode) (c : Cache) :
    (traceCache p c (haltActs p m)).unlocked = (c.unlocked || unlocks (haltSteps p m)) := by
  show (traceCache p (actCache p c .drop) (stepsActs p (haltSteps p m) ++ [.frame _])).unlocked = _
  rw [traceCache_append]
  exact stepsActs_unlocked p _ _

end Sys2Proof.Laws
end

