-- ==== Sys2Proof/Laws/Frames.lean ====
section
/-!
SUPPORT. What one use of the frame port does, as an equation: with a pin configured and nobody inside a frame, a symbol, a read
slot, a write frame and a read frame leave exactly `afterSymbol`, `afterSlot`, `afterWrite` and `afterRead`; with a silent terminal
so do the control agent's frames. Also the bit order of a frame's fields (R65, R96).
-/
namespace Sys2Proof.Laws

open Sys2Proof.Machine Sys2Proof.Safety
open Sys2Proof.Config (Params SlotDraw SeqStep)

/-! ### Bit order -/

theorem assemble_prefix {w : Nat} (v : BitVec w) : ∀ k, k ≤ w →
    ((List.range k).map fun j => v.getMsbD j).foldl (fun (u : BitVec w) b => (u <<< 1) ||| (if b then 1#w else 0#w)) 0#w
      = v >>> (w - k)
  | 0, _ => by
    refine BitVec.eq_of_getLsbD_eq fun i hi => ?_
    simp
  | k + 1, h => by
    rw [List.range_succ, List.map_append, List.foldl_append, assemble_prefix v k (by omega)]
    simp only [List.map_cons, List.map_nil, List.foldl_cons, List.foldl_nil]
    have hm : v.getMsbD k = v.getLsbD (w - (k + 1)) := by
      rw [BitVec.getMsbD]; simp [show k < w by omega, show w - 1 - k = w - (k + 1) by omega]
    rw [hm]
    refine BitVec.eq_of_getLsbD_eq fun i hi => ?_
    rw [BitVec.getLsbD_or, BitVec.getLsbD_shiftLeft, BitVec.getLsbD_ushiftRight, BitVec.getLsbD_ushiftRight]
    cases i with
    | zero =>
      have : (0 : Nat) < w := hi
      cases v.getLsbD (w - (k + 1)) <;> simp [this]
    | succ i =>
      have h1 : w - k + (i + 1 - 1) = w - (k + 1) + (i + 1) := by omega
      have h2 : (if v.getLsbD (w - (k + 1)) then 1#w else 0#w).getLsbD (i + 1) = false := by
        split <;> simp [BitVec.getLsbD_one]
      rw [h2, h1]
      simp [hi]

/-- Assembling the bits of a value in send order gives the value (R65, R96). -/
theorem assemble_msbBits {w : Nat} (v : BitVec w) : assemble w (msbBits v) = v := by
  unfold assemble msbBits
  rw [assemble_prefix v w (Nat.le_refl w)]
  simp

@[simp] theorem length_msbBits {w : Nat} (v : BitVec w) : (msbBits v).length = w := by simp [msbBits]

@[simp] theorem length_headerBits (cmd : Cmd) (b : Bool) : (headerBits cmd b).length = 9 := by simp [headerBits]

@[simp] theorem length_writeFrameBits (cmd : Cmd) (v : Word) : (writeFrameBits cmd v).length = 41 := by
  simp [writeFrameBits]

/-! ### One use of the port -/

theorem takePort_of_free {s : State} (who : Issuer) (h : s.portOwner = .free) : takePort who s = { s with
    portOwner := .held who, irqMasked := true, lineLog := s.lineLog ++ [.take who s.timingCoefficient.toNat] } := by
  simp only [takePort, awaitPort, h]

/-- A write frame (R140, R141). -/
theorem frameWrite_eq {s : State} (who : Issuer) (cmd : Cmd) (v : Word) (hp : s.pinMask ≠ 0) (hf : s.portOwner = .free) :
    frameWrite who cmd v s = .ok () (afterWrite who cmd v s) := by
  rw [frameWrite, if_neg hp, takePort_of_free who hf]
  simp only [sendBits, freePort, logFrame, afterWrite, writeFrameEvents]
  simp [writeFrameBits, headerBits]

/-- With no pin configured a frame is refused, and nothing changes (R140). -/
theorem frameWrite_noPin {s : State} (who : Issuer) (cmd : Cmd) (v : Word) (hp : s.pinMask = 0) :
    frameWrite who cmd v s = .err .initFailure s := by rw [frameWrite, if_pos hp]

theorem frameRead_noPin {s : State} (who : Issuer) (cmd : Cmd) (hp : s.pinMask = 0) :
    frameRead who cmd s = .err .initFailure s := by rw [frameRead, if_pos hp]

/-- A read slot with a scripted answer (R123, R124). -/
theorem readBit_script (c : Nat) {s : State} {d : SlotDraw} {rest : List SlotDraw} (h : s.slotIn = d :: rest) :
    readBit c s = (if (seenHigh s.cfg d).isSome then some d.level else none, { s with
      pinDrive := if (seenHigh s.cfg d).isSome then highOut s.cfg else .released
      slotIn := rest
      lineLog := s.lineLog ++ slotEvents s.cfg c d }) := by
  simp only [readBit, nextDraw, h, logLine, sampleLevel, slotEvents]
  cases seenHigh s.cfg d <;> simp

/-- The value a list of bits adds to the bits received before (R143). -/
def shiftIn (v : Word) (bs : List Bool) : Word := bs.foldl (fun v b => (v <<< 1) ||| (if b then 1 else 0)) v

theorem shiftIn_msbBits (v : Word) : shiftIn 0 (msbBits v) = v := assemble_msbBits v

/-- Read slots that are all answered (R143). -/
theorem readSlots_answered (c : Nat) : ∀ (ds rest : List SlotDraw) (v : Word) (s : State), s.slotIn = ds ++ rest →
    (∀ d ∈ ds, answered s.cfg d) →
    readSlots c ds.length v s = (some (shiftIn v (ds.map SlotDraw.level)), { s with
      pinDrive := if ds.isEmpty then s.pinDrive else highOut s.cfg
      slotIn := rest
      lineLog := s.lineLog ++ ds.flatMap (slotEvents s.cfg c) })
  | [], rest, v, s, h, _ => by
    obtain rfl : s.slotIn = rest := h
    simp [readSlots, shiftIn]
  | d :: ds, rest, v, s, h, ha => by
    have hd : (seenHigh s.cfg d).isSome := ha d List.mem_cons_self
    have h : s.slotIn = d :: (ds ++ rest) := h
    rw [List.length_cons, readSlots, readBit_script c h, if_pos hd, if_pos hd]
    have := readSlots_answered c ds rest ((v <<< 1) ||| (if d.level then 1 else 0))
      { s with pinDrive := highOut s.cfg, slotIn := ds ++ rest, lineLog := s.lineLog ++ slotEvents s.cfg c d } rfl
      (fun x hx => ha x (List.mem_cons_of_mem _ hx))
    dsimp only at this ⊢
    rw [this]
    cases ds <;> simp [shiftIn]

/-- Read slots whose first unanswered one is `d` (R144). -/
theorem readSlots_timeout (c : Nat) : ∀ (ds rest : List SlotDraw) (d : SlotDraw) (n : Nat) (v : Word) (s : State),
    s.slotIn = ds ++ d :: rest → (∀ x ∈ ds, answered s.cfg x) → ¬ answered s.cfg d → ds.length < n →
    readSlots c n v s = (none, { s with
      pinDrive := .released
      slotIn := rest
      lineLog := s.lineLog ++ (ds ++ [d]).flatMap (slotEvents s.cfg c) })
  | [], rest, d, 0, _, _, _, _, _, h => absurd h (by simp)
  | [], rest, d, n + 1, v, s, h, _, hd, _ => by
    have hd : (seenHigh s.cfg d).isSome = false := by simpa [answered] using hd
    have h : s.slotIn = d :: rest := h
    rw [readSlots, readBit_script c h, hd]
    simp
  | x :: ds, rest, d, 0, _, _, _, _, _, h => absurd h (by simp)
  | x :: ds, rest, d, n + 1, v, s, h, ha, hd, hn => by
    have hx : (seenHigh s.cfg x).isSome := ha x List.mem_cons_self
    have h : s.slotIn = x :: (ds ++ d :: rest) := h
    rw [readSlots, readBit_script c h, if_pos hx, if_pos hx]
    have := readSlots_timeout c ds rest d n ((v <<< 1) ||| (if x.level then 1 else 0))
      { s with pinDrive := highOut s.cfg, slotIn := ds ++ d :: rest, lineLog := s.lineLog ++ slotEvents s.cfg c x } rfl
      (fun y hy => ha y (List.mem_cons_of_mem _ hy)) hd (by simpa using hn)
    dsimp only at this ⊢
    rw [this]
    simp

theorem Answers.length {p : Params} {ds : List SlotDraw} {v : Word} (h : Answers p ds v) : ds.length = 32 := by
  have := congrArg List.length h.bits
  simpa using this

/-- A read frame that is answered (R143). -/
theorem frameRead_ok {s : State} (who : Issuer) (cmd : Cmd) {ds rest : List SlotDraw} {v : Word} (hp : s.pinMask ≠ 0)
    (hf : s.portOwner = .free) (hs : s.slotIn = ds ++ rest) (ha : Answers s.cfg ds v) :
    frameRead who cmd s = .ok v (afterRead who cmd ds (some v) s) := by
  have hl := Answers.length ha
  have hr := readSlots_answered s.timingCoefficient.toNat ds rest 0
    (sendBits s.timingCoefficient.toNat (headerBits cmd false) (takePort who s)) (by simpa using hs) (by simpa using ha.all)
  rw [hl, ha.bits, shiftIn_msbBits] at hr
  rw [frameRead, if_neg hp]
  dsimp only
  rw [hr, takePort_of_free who hf]
  have hne : ds.isEmpty = false := by cases ds <;> simp_all
  simp [sendBits, freePort, logFrame, afterRead, readFrameEvents, hs, hne]

/-- A read frame that ends at its first timeout (R144). -/
theorem frameRead_busFault {s : State} (who : Issuer) (cmd : Cmd) {ds rest : List SlotDraw} {d : SlotDraw}
    (hp : s.pinMask ≠ 0) (hf : s.portOwner = .free) (hs : s.slotIn = ds ++ d :: rest) (hl : ds.length < 32)
    (ha : ∀ x ∈ ds, answered s.cfg x) (hd : ¬ answered s.cfg d) :
    frameRead who cmd s = .err .busFault (afterRead who cmd (ds ++ [d]) none s) := by
  have hr := readSlots_timeout s.timingCoefficient.toNat ds rest d 32 0
    (sendBits s.timingCoefficient.toNat (headerBits cmd false) (takePort who s)) (by simpa using hs) (by simpa using ha)
    (by simpa using hd) hl
  rw [frameRead, if_neg hp]
  dsimp only
  rw [hr, takePort_of_free who hf]
  simp [sendBits, freePort, logFrame, afterRead, readFrameEvents, hs, List.drop_append]

/-- A symbol sent alone (R125). -/
theorem phyAlone_symbol {s : State} (who : Issuer) (b : Bool) (hp : s.pinMask ≠ 0) (hf : s.portOwner = .free) :
    phyAlone who (fun c s => ((), sendBits c [b] s)) s = .ok () (afterSymbol who b s) := by
  rw [phyAlone, if_neg hp, takePort_of_free who hf]
  simp [sendBits, freePort, afterSymbol, symbolEvents]

/-- A read slot run alone (R125). -/
theorem phyAlone_slot {s : State} (who : Issuer) {d : SlotDraw} {rest : List SlotDraw} (hp : s.pinMask ≠ 0)
    (hf : s.portOwner = .free) (hs : s.slotIn = d :: rest) : phyAlone who readBit s
      = .ok (if (seenHigh s.cfg d).isSome then some d.level else none) (afterSlot who d s) := by
  have e := readBit_script s.timingCoefficient.toNat (d := d) (rest := rest) (s := { s with
    portOwner := .held who, irqMasked := true, lineLog := s.lineLog ++ [.take who s.timingCoefficient.toNat] }) hs
  rw [phyAlone, if_neg hp, takePort_of_free who hf, e]
  simp [freePort, afterSlot, hs]

/-- A delay run alone (R120, R125). -/
theorem phyAlone_delay {s : State} (who : Issuer) (n : Nat) (hp : s.pinMask ≠ 0) (hf : s.portOwner = .free) :
    phyAlone who (fun _ s => ((), wait (n * s.cfg.tau) s)) s = .ok () { s with
      portOwner := .free
      irqMasked := false
      lineLog := s.lineLog ++ [.take who s.timingCoefficient.toNat, .hold (n * s.cfg.tau), .unmask, .release who] } := by
  rw [phyAlone, if_neg hp, takePort_of_free who hf]
  simp [wait, logLine, freePort]

theorem phyAlone_noPin {α : Type} {s : State} (who : Issuer) (f : Nat → State → α × State) (hp : s.pinMask = 0) :
    phyAlone who f s = .err .initFailure s := by rw [phyAlone, if_pos hp]

/-! ### The terminal's turns -/

/-- A terminal with nothing to do does nothing (R75). -/
theorem termTurn_silent {s : State} (h : s.termIn = []) : termTurn s = s := by simp only [termTurn, h]

theorem withTurns_silent {α : Type} {f : State → Res α} {s : State} (h : s.termIn = []) : withTurns f s = f s :=
  congrArg f (termTurn_silent h)

/-! ### `LinkReady` -/

theorem LinkReady.afterWrite {s : State} (h : LinkReady s) (who : Issuer) (cmd : Cmd) (v : Word) :
    LinkReady (afterWrite who cmd v s) := ⟨h.pin, h.silent, rfl⟩

theorem LinkReady.afterRead {s : State} (h : LinkReady s) (who : Issuer) (cmd : Cmd) (ds : List SlotDraw)
    (r : Option Word) : LinkReady (afterRead who cmd ds r s) := ⟨h.pin, h.silent, rfl⟩

/-- The control agent's write frame, with a silent terminal (R141). -/
theorem fw_ready {s : State} (h : LinkReady s) (cmd : Cmd) (v : Word) :
    fw cmd v s = .ok () (afterWrite .control cmd v s) := by
  have e := frameWrite_eq .control cmd v h.pin h.port
  unfold fw
  rw [withTurns_silent h.silent, e]

/-- The control agent's read frame, with a silent terminal and an answering target (R143). -/
theorem fr_ready {s : State} (h : LinkReady s) (cmd : Cmd) {ds rest : List SlotDraw} {v : Word} (hs : s.slotIn = ds ++ rest)
    (ha : Answers s.cfg ds v) : fr cmd s = .ok v (afterRead .control cmd ds (some v) s) := by
  have e := frameRead_ok .control cmd h.pin h.port hs ha
  unfold fr
  rw [withTurns_silent h.silent, e]

/-- The same where a slot times out (R144). -/
theorem fr_ready_busFault {s : State} (h : LinkReady s) (cmd : Cmd) {ds rest : List SlotDraw} {d : SlotDraw}
    (hs : s.slotIn = ds ++ d :: rest) (hl : ds.length < 32) (ha : ∀ x ∈ ds, answered s.cfg x) (hd : ¬ answered s.cfg d) :
    fr cmd s = .err .busFault (afterRead .control cmd (ds ++ [d]) none s) := by
  have e := frameRead_busFault .control cmd h.pin h.port hs hl ha hd
  unfold fr
  rw [withTurns_silent h.silent, e]

end Sys2Proof.Laws
end

