-- ==== Sys2Proof/Laws/Memory.lean ====
section
/-!
SUPPORT. The upload buffer (R40): every operation keeps its canonical form, a byte written is read back, and every other byte reads
as before.
-/
namespace Sys2Proof.Laws

open Sys2Proof.Machine

theorem Memory.mem_write {m : Memory} {i : Nat} {b : Byte} {c : Host.Cell} (h : c ∈ Memory.write m i b) :
    c.1 = i ∨ c ∈ m := by
  induction m with
  | nil => simp only [Memory.write, List.mem_singleton] at h; exact .inl (by rw [h])
  | cons d m ih =>
    obtain ⟨j, x⟩ := d
    simp only [Memory.write] at h
    split at h
    · rcases List.mem_cons.1 h with rfl | h
      · exact .inl rfl
      · exact .inr h
    · split at h
      · rcases List.mem_cons.1 h with rfl | h
        · exact .inl rfl
        · exact .inr (List.mem_cons_of_mem _ h)
      · rcases List.mem_cons.1 h with rfl | h
        · exact .inr List.mem_cons_self
        · rcases ih h with h | h
          · exact .inl h
          · exact .inr (List.mem_cons_of_mem _ h)

/-- A write keeps the canonical form. -/
theorem Memory.write_wf {m : Memory} (h : Memory.wf m) (i : Nat) (b : Byte) : Memory.wf (Memory.write m i b) := by
  induction m with
  | nil => exact List.pairwise_singleton _ _
  | cons d m ih =>
    obtain ⟨j, x⟩ := d
    obtain ⟨hd, hm⟩ := List.pairwise_cons.1 h
    simp only [Memory.write]
    split
    · refine List.pairwise_cons.2 ⟨fun c hc => ?_, h⟩
      rcases List.mem_cons.1 hc with rfl | hc
      · assumption
      · have := hd c hc; simp only at this ⊢; omega
    · split
      · subst_vars; exact List.pairwise_cons.2 ⟨hd, hm⟩
      · refine List.pairwise_cons.2 ⟨fun c hc => ?_, ih hm⟩
        rcases Memory.mem_write hc with hc | hc
        · simp only; omega
        · exact hd c hc

/-- A string written keeps the canonical form. -/
theorem Memory.writeBytes_wf : ∀ (bs : List Byte) (m : Memory) (i : Nat), Memory.wf m → Memory.wf (Memory.writeBytes m i bs)
  | [], _, _, h => h
  | b :: bs, _, i, h => Memory.writeBytes_wf bs _ (i + 1) (Memory.write_wf h i b)

theorem Memory.read_eq_none {m : Memory} {i : Nat} (h : ∀ c ∈ m, i < c.1) : Memory.read m i = none := by
  induction m with
  | nil => rfl
  | cons d m ih =>
    have h1 : ¬ d.1 = i := Nat.ne_of_gt (h d List.mem_cons_self)
    rw [Memory.read, if_neg h1]
    exact ih fun c hc => h c (List.mem_cons_of_mem _ hc)

/-- A byte written is read back. -/
theorem Memory.read_write_self (m : Memory) (i : Nat) (b : Byte) : Memory.read (Memory.write m i b) i = some b := by
  induction m with
  | nil => simp [Memory.write, Memory.read]
  | cons d m ih =>
    obtain ⟨j, x⟩ := d
    simp only [Memory.write]
    split
    · simp [Memory.read]
    · split
      · simp [Memory.read]
      · rw [Memory.read, if_neg (by omega)]; exact ih

/-- Every other byte reads as before. -/
theorem Memory.read_write_of_ne (m : Memory) {i j : Nat} (b : Byte) (h : j ≠ i) :
    Memory.read (Memory.write m i b) j = Memory.read m j := by
  induction m with
  | nil => simp [Memory.write, Memory.read, h.symm]
  | cons d m ih =>
    obtain ⟨k, x⟩ := d
    simp only [Memory.write]
    split
    · rw [Memory.read, if_neg (Ne.symm h)]
    · split
      · subst_vars; rw [Memory.read, Memory.read, if_neg (Ne.symm h), if_neg (Ne.symm h)]
      · rw [Memory.read, Memory.read]
        by_cases hk : k = j
        · rw [if_pos hk, if_pos hk]
        · rw [if_neg hk, if_neg hk]; exact ih

/-- Bytes outside a string written read as before. -/
theorem Memory.read_writeBytes_of_outside : ∀ (bs : List Byte) (m : Memory) (i j : Nat), j < i ∨ i + bs.length ≤ j →
    Memory.read (Memory.writeBytes m i bs) j = Memory.read m j
  | [], _, _, _, _ => rfl
  | b :: bs, m, i, j, h => by
    simp only [List.length_cons] at h
    rw [Memory.writeBytes, Memory.read_writeBytes_of_outside bs _ (i + 1) j (by omega),
      Memory.read_write_of_ne m b (by omega)]

/-- Each byte of a string written is read back. -/
theorem Memory.read_writeBytes : ∀ (bs : List Byte) (m : Memory) (i k : Nat) (b : Byte), bs[k]? = some b →
    Memory.read (Memory.writeBytes m i bs) (i + k) = some b
  | [], _, _, _, _, h => by simp at h
  | c :: bs, m, i, 0, b, h => by
    simp only [List.getElem?_cons_zero, Option.some.injEq] at h
    show Memory.read (Memory.writeBytes (Memory.write m i c) (i + 1) bs) i = some b
    rw [Memory.read_writeBytes_of_outside bs (Memory.write m i c) (i + 1) i (by omega), Memory.read_write_self, h]
  | c :: bs, m, i, k + 1, b, h => by
    simp only [List.getElem?_cons_succ] at h
    have := Memory.read_writeBytes bs (Memory.write m i c) (i + 1) k b h
    rw [Memory.writeBytes]
    rwa [show i + (k + 1) = i + 1 + k by omega]

/-- Reading a range succeeds when every byte of it holds a value, and gives them in order. -/
theorem Memory.readBytes_ok (m : Memory) : ∀ (n i : Nat), (∀ j, i ≤ j → j < i + n → (Memory.read m j).isSome) →
    ∃ bs, Memory.readBytes m i n = .ok bs ∧ bs.length = n ∧ ∀ k b, bs[k]? = some b → Memory.read m (i + k) = some b
  | 0, _, _ => ⟨[], rfl, rfl, by simp⟩
  | n + 1, i, h => by
    obtain ⟨bs, hb, hl, hg⟩ := Memory.readBytes_ok m n (i + 1) fun j h1 h2 => h j (by omega) (by omega)
    obtain ⟨b, hi⟩ := Option.isSome_iff_exists.1 (h i (by omega) (by omega))
    refine ⟨b :: bs, by simp only [Memory.readBytes, hi, hb], by simp [hl], fun k c hk => ?_⟩
    cases k with
    | zero => simp only [List.getElem?_cons_zero, Option.some.injEq] at hk; rw [Nat.add_zero, hi, hk]
    | succ k =>
      have := hg k c (by simpa using hk)
      rwa [show i + (k + 1) = i + 1 + k by omega]

/-- The buffer at reset is in canonical form. -/
theorem State.reset_uploadBuffer_wf (p : Config.Params) : Memory.wf (State.resetWith p).uploadBuffer := List.Pairwise.nil

end Sys2Proof.Laws
end

