-- ==== Sys2Proof/Laws/PerInstr.lean ====
section
/-!
SUPPORT. A law of each instruction as syntax: its encoding is never rejected, and what is decoded from it is accepted at the command
port exactly when the instruction is (R101). One lemma for each constructor.
-/
namespace Sys2Proof.Laws

/-! ### Symbols and bits -/

/-- Reading back as many symbols as bits were written. -/
theorem takeBits_map : ∀ (bs : List Bool) (rest : List WireTok),
    takeBits bs.length (bs.map bitSymbol ++ rest) = some (bs, rest)
  | [], _ => rfl
  | b :: bs, rest => by
    rw [List.map_cons, List.cons_append, List.length_cons, takeBits, takeBits_map bs rest]
    cases b <;> rfl

/-- The symbols of a value are read back as its bits (R65). -/
theorem takeBits_msbBits {w : Nat} (v : BitVec w) (rest : List WireTok) :
    takeBits w ((msbBits v).map bitSymbol ++ rest) = some (msbBits v, rest) := by
  have := takeBits_map (msbBits v) rest
  rwa [length_msbBits] at this

theorem msbBits_ne_nil (cmd : Cmd) : ∃ t ts, (msbBits cmd).map bitSymbol = t :: ts := ⟨_, _, rfl⟩

/-! ### The family -/

/-- The encoding of `i` decodes, to an instruction the command port accepts exactly when it accepts `i`. -/
def OpPreserved.Statement (i : Instr) : Prop := ∃ j, decode (encode i) = .ok j ∧ isInternal j = isInternal i

theorem OpPreserved.rawWrite (reg value : Option Word) : OpPreserved.Statement (.rawWrite reg value) := ⟨_, rfl, rfl⟩

theorem OpPreserved.rawRead (reg : Option Word) : OpPreserved.Statement (.rawRead reg) := ⟨_, rfl, rfl⟩

theorem OpPreserved.uploadBegin (offset size retries : Option Word) : OpPreserved.Statement (.uploadBegin offset size retries) := ⟨_, rfl, rfl⟩

theorem OpPreserved.uploadData (data : List Byte) (last : Bool) : OpPreserved.Statement (.uploadData data last) := ⟨_, rfl, rfl⟩

theorem OpPreserved.status : OpPreserved.Statement .status := ⟨_, rfl, rfl⟩

theorem OpPreserved.readBlob (offset size : Option Word) : OpPreserved.Statement (.readBlob offset size) := ⟨_, rfl, rfl⟩

theorem OpPreserved.unbrick : OpPreserved.Statement .unbrick := ⟨_, rfl, rfl⟩

theorem OpPreserved.chipInfo : OpPreserved.Statement .chipInfo := ⟨_, rfl, rfl⟩

theorem OpPreserved.haltReset : OpPreserved.Statement .haltReset := ⟨_, rfl, rfl⟩

theorem OpPreserved.reboot : OpPreserved.Statement .reboot := ⟨_, rfl, rfl⟩

theorem OpPreserved.resume : OpPreserved.Statement .resume := ⟨_, rfl, rfl⟩

theorem OpPreserved.rebootBoot : OpPreserved.Statement .rebootBoot := ⟨_, rfl, rfl⟩

theorem OpPreserved.haltNoReset : OpPreserved.Statement .haltNoReset := ⟨_, rfl, rfl⟩

theorem OpPreserved.setPin (mask : Option Word) : OpPreserved.Statement (.setPin mask) := ⟨_, rfl, rfl⟩

theorem OpPreserved.setCoeff (coeff : Option Word) : OpPreserved.Statement (.setCoeff coeff) := ⟨_, rfl, rfl⟩

theorem OpPreserved.phyDelay (units : Option Word) : OpPreserved.Statement (.phyDelay units) := ⟨_, rfl, rfl⟩

theorem OpPreserved.phySend1 : OpPreserved.Statement .phySend1 := ⟨_, rfl, rfl⟩

theorem OpPreserved.phySend0 : OpPreserved.Statement .phySend0 := ⟨_, rfl, rfl⟩

theorem OpPreserved.phyReadBit : OpPreserved.Statement .phyReadBit := ⟨_, rfl, rfl⟩

theorem OpPreserved.frameWrite (cmd value : Option Word) : OpPreserved.Statement (.frameWrite cmd value) := ⟨_, rfl, rfl⟩

theorem OpPreserved.frameRead (cmd : Option Word) : OpPreserved.Statement (.frameRead cmd) := ⟨_, rfl, rfl⟩

theorem OpPreserved.seqReadWord (addr : Option Word) (ai : Option Bool) : OpPreserved.Statement (.seqReadWord addr ai) := ⟨_, rfl, rfl⟩

theorem OpPreserved.seqWriteWord (addr value : Option Word) : OpPreserved.Statement (.seqWriteWord addr value) := ⟨_, rfl, rfl⟩

theorem OpPreserved.seqReadByte (addr : Option Word) : OpPreserved.Statement (.seqReadByte addr) := ⟨_, rfl, rfl⟩

theorem OpPreserved.seqWriteByte (addr : Option Word) (byte : Option Byte) : OpPreserved.Statement (.seqWriteByte addr byte) := ⟨_, rfl, rfl⟩

theorem OpPreserved.seqWaitAbstract : OpPreserved.Statement .seqWaitAbstract := ⟨_, rfl, rfl⟩

theorem OpPreserved.seqInvalidate : OpPreserved.Statement .seqInvalidate := ⟨_, rfl, rfl⟩

theorem OpPreserved.flashUnlock : OpPreserved.Statement .flashUnlock := ⟨_, rfl, rfl⟩

theorem OpPreserved.flashWaitNotBusy : OpPreserved.Statement .flashWaitNotBusy := ⟨_, rfl, rfl⟩

theorem OpPreserved.flashErasePages (addr len : Option Word) : OpPreserved.Statement (.flashErasePages addr len) := ⟨_, rfl, rfl⟩

theorem OpPreserved.flashEraseChip : OpPreserved.Statement .flashEraseChip := ⟨_, rfl, rfl⟩

theorem OpPreserved.flashWriteBlock64 (addr : Option Word) (data : List Byte) : OpPreserved.Statement (.flashWriteBlock64 addr data) := ⟨_, rfl, rfl⟩

theorem OpPreserved.blobWrite (addr size : Option Word) (data : List Byte) : OpPreserved.Statement (.blobWrite addr size data) := ⟨_, rfl, rfl⟩

theorem OpPreserved.blobRead (addr size : Option Word) : OpPreserved.Statement (.blobRead addr size) := ⟨_, rfl, rfl⟩

theorem OpPreserved.linkInit : OpPreserved.Statement .linkInit := ⟨_, rfl, rfl⟩

theorem OpPreserved.sym1 : OpPreserved.Statement .sym1 := ⟨_, rfl, rfl⟩

theorem OpPreserved.sym0 : OpPreserved.Statement .sym0 := ⟨_, rfl, rfl⟩

theorem OpPreserved.readSlot : OpPreserved.Statement .readSlot := ⟨_, rfl, rfl⟩

theorem OpPreserved.writeFrame (cmd : Cmd) (value : Word) : OpPreserved.Statement (.writeFrame cmd value) := by
  refine ⟨.writeFrame (assemble 7 (msbBits cmd)) (assemble 32 (msbBits value)), ?_, rfl⟩
  have e : (writeFrameBits cmd value).map bitSymbol
      = .s1 :: ((msbBits cmd).map bitSymbol ++ .s1 :: ((msbBits value).map bitSymbol ++ [])) := by
    simp [writeFrameBits, headerBits, bitSymbol]
  have h1 := takeBits_msbBits cmd (.s1 :: ((msbBits value).map bitSymbol ++ []))
  have h2 := takeBits_msbBits value []
  obtain ⟨t, ts, ht⟩ := msbBits_ne_nil cmd
  show decodeWire ((writeFrameBits cmd value).map bitSymbol) = _
  rw [e]
  rw [ht] at h1 ⊢
  simp only [List.cons_append, decodeWire] at h1 ⊢
  rw [h1]
  dsimp only
  rw [h2]

theorem OpPreserved.readFrame (cmd : Cmd) : OpPreserved.Statement (.readFrame cmd) := by
  refine ⟨.readFrame (assemble 7 (msbBits cmd)), ?_, rfl⟩
  have e : (headerBits cmd false).map bitSymbol ++ List.replicate 32 .rs
      = .s1 :: ((msbBits cmd).map bitSymbol ++ .s0 :: List.replicate 32 .rs) := by
    simp [headerBits, bitSymbol]
  have h1 := takeBits_msbBits cmd (.s0 :: List.replicate 32 .rs)
  obtain ⟨t, ts, ht⟩ := msbBits_ne_nil cmd
  show decodeWire ((headerBits cmd false).map bitSymbol ++ List.replicate 32 .rs) = _
  rw [e]
  rw [ht] at h1 ⊢
  simp only [List.cons_append, decodeWire] at h1 ⊢
  rw [h1]
  dsimp only
  rw [if_pos rfl]

end Sys2Proof.Laws
end

