-- ==== Sys2Proof/Laws/Script.lean ====
section
/-!
SUPPORT. What the operations of the link do on a target whose next answers are scripted (`Script`), with a terminal that cannot act:
the instance of `Target.lean`'s laws for it, the busy poll for every way it can end (R191), blob reads with any values (R199), the
erase and the program of a block (R193, R194), a slot that times out (R144), link init and the halt/reset controller with step lists that
only send (R235, R250), and the tries of `UNBRICK` that fail (R259).
-/
namespace Sys2Proof.Laws

open Sys2Proof.Machine Sys2Proof.Safety
open Sys2Proof.Config (Params SlotDraw SeqStep)

/-- The target's next answers are `ds`, and the terminal cannot act. -/
structure Script (p : Params) (ds : List SlotDraw) (s : State) : Prop where
  cfg : s.cfg = p
  valid : p.Valid
  pin : s.pinMask ≠ 0
  quiet : Quiet s
  slots : s.slotIn = ds

theorem Script.step {p : Params} {ds ds' : List SlotDraw} {s t : State} (h : Script p ds s) (k : LinkStep s t)
    (e : t.slotIn = ds') : Script p ds' t :=
  ⟨k.cfg.trans h.cfg, h.valid, k.pinMask ▸ h.pin, h.quiet.step k, e⟩

theorem LinkReady.script {s : State} (h : LinkReady s) (hv : s.cfg.Valid) {ds : List SlotDraw} (e : s.slotIn = ds) :
    Script s.cfg ds s := ⟨rfl, hv, h.pin, .inl h.silent, e⟩

theorem Script.zeros {p : Params} {s : State} (h : Script p [] s) (ha : AlignedConfig p) (hr : s.slotRest = some zeroDraw) :
    ZeroTarget s := ⟨h.cfg ▸ h.valid, h.cfg ▸ ha, h.pin, h.slots, hr⟩

theorem zero_answers {p : Params} (h : p.Valid) : Answers p (List.replicate 32 zeroDraw) 0 := by
  refine ⟨?_, fun d hd => ?_⟩
  · rw [List.map_replicate]; rfl
  · rw [(List.mem_replicate.1 hd).2]
    have := h.readPollLimit
    simp [answered, seenHigh, zeroDraw]; omega

theorem termTurn_slotIn_quiet {s : State} (h : Quiet s) : (termTurn s).slotIn = s.slotIn := by
  rcases h with h | ⟨h1, h2⟩
  · unfold Machine.termTurn; rw [h]
  · have key : ∀ (as : List TermAct) (u : State), u.active = true → u.terminalConnected = false →
        (termActs as u).slotIn = u.slotIn := by
      intro as
      induction as with
      | nil => exact fun u _ _ => rfl
      | cons a as ih =>
        intro u h1 h2
        rw [termActs, termAct_locked a h1 h2]
        exact ih u h1 h2
    unfold Machine.termTurn
    split
    · rfl
    · exact key _ _ h1 h2

theorem frameWrite_slotIn (who : Issuer) (cmd : Cmd) (v : Word) (s : State) :
    (frameWrite who cmd v s).state.slotIn = s.slotIn := by
  unfold Machine.frameWrite
  split
  · rfl
  · simp [Res.state]

theorem script_talks (p : Params) (ds : List SlotDraw) : Talks (Script p ds) where
  valid h := h.cfg ▸ h.valid
  fw cmd v s h := by
    obtain ⟨t, ht, hf⟩ := framed_fw cmd v h.pin
    refine ⟨t, ht, hf, h.step hf.step ?_⟩
    have e : (fw cmd v s).state.slotIn = s.slotIn := by
      unfold fw withTurns
      exact (frameWrite_slotIn .control cmd v (termTurn s)).trans (termTurn_slotIn_quiet h.quiet)
    rw [ht] at e
    exact e.trans h.slots
  cache h _ _ _ _ := ⟨h.cfg, h.valid, h.pin, h.quiet, h.slots⟩

/-- The next 32 answers give `v`. -/
theorem script_answer {p : Params} {ds : List SlotDraw} {v : Word} (rest : List SlotDraw) (ha : Answers p ds v) :
    Answer (Script p (ds ++ rest)) (Script p rest) v := fun cmd s h => by
  have h1 := LinkStep.rel.termTurn s
  have hs : Script p (ds ++ rest) (termTurn s) := h.step h1 ((termTurn_slotIn_quiet h.quiet).trans h.slots)
  have key : ∃ u, frameRead .control cmd (termTurn s) = .ok v u ∧ u.slotIn = rest := by
    generalize termTurn s = t at hs
    have hl := Answers.length ha
    have hr := readSlots_answered t.timingCoefficient.toNat ds rest 0
      (sendBits t.timingCoefficient.toNat (headerBits cmd false) (takePort .control t)) (by simpa using hs.slots)
      (by simpa [hs.cfg] using ha.all)
    rw [hl, ha.bits, shiftIn_msbBits] at hr
    rw [frameRead, if_neg hs.pin]
    dsimp only
    rw [hr]
    exact ⟨_, rfl, by simp⟩
  obtain ⟨u, hu, hus⟩ := key
  have hr := (framed_termTurn s).then (framed_frameRead hu)
  exact ⟨u, hu, hr, h.step hr.step hus⟩

/-- The next 32 answers are 0. -/
theorem script_zero {p : Params} (h : p.Valid) (rest : List SlotDraw) :
    Answer (Script p (List.replicate 32 zeroDraw ++ rest)) (Script p rest) 0 := script_answer rest (zero_answers h)

/-! ### Accesses -/

theorem script_memWriteWord {p : Params} {a : Word} (v : Word) {rest : List SlotDraw} {s : State}
    (h : Script p (List.replicate 32 zeroDraw ++ rest) s) (ha : aligned4 a = true) :
    ∃ t, memWriteWord a v s = .ok () t ∧ Ran s t [.writeWord a v] ∧ Script p rest t :=
  talks_memWriteWord (script_talks p _) (script_talks p rest) (script_zero h.valid rest) v h ha

theorem script_memReadWord {p : Params} {a : Word} (ai : Bool) {v : Word} {ds rest : List SlotDraw} {s : State}
    (h : Script p (List.replicate 32 zeroDraw ++ (ds ++ rest)) s) (hv : Answers p ds v) (ha : aligned4 a = true) :
    ∃ t, memReadWord a ai s = .ok v t ∧ Ran s t [.readWord a ai v] ∧ Script p rest t :=
  talks_memReadWord (script_talks p _) (script_talks p rest) (script_zero h.valid _) (script_answer rest hv) ai h ha

theorem script_memWriteByte {p : Params} (a : Word) (b : Byte) {rest : List SlotDraw} {s : State}
    (h : Script p (List.replicate 32 zeroDraw ++ rest) s) :
    ∃ t, memWriteByte a b s = .ok () t ∧ Ran s t [.writeByte a b] ∧ Script p rest t :=
  talks_memWriteByte (script_talks p _) (script_talks p _) (script_zero h.valid rest) a b h

theorem script_memReadByte {p : Params} (a : Word) {v : Word} {ds rest : List SlotDraw} {s : State}
    (h : Script p (List.replicate 32 zeroDraw ++ (ds ++ rest)) s) (hv : Answers p ds v) :
    ∃ t, memReadByte a s = .ok (v.extractLsb' 0 8) t ∧ Ran s t [.readByte a v] ∧ Script p rest t :=
  talks_memReadByte (script_talks p _) (script_talks p _) (script_zero h.valid _) (script_answer rest hv) a h

/-- Word writes, each with a completion poll that reads 0. -/
theorem script_memWrites {p : Params} : ∀ (ws : List (Word × Word)) {rest : List SlotDraw} {s : State},
    Script p (List.replicate (ws.length * 32) zeroDraw ++ rest) s → (∀ w ∈ ws, aligned4 w.1 = true) →
    ∃ t, memWrites ws s = .ok () t ∧ Ran s t (ws.map fun w => .writeWord w.1 w.2) ∧ Script p rest t
  | [], rest, s, h, _ => ⟨s, rfl, Ran.refl s, by simpa using h⟩
  | w :: ws, rest, s, h, ha => by
    rw [List.length_cons, Nat.add_mul, Nat.add_comm, Nat.one_mul, ← List.replicate_append_replicate, List.append_assoc] at h
    obtain ⟨t, ht, hr, hs⟩ := script_memWriteWord w.2 h (ha w List.mem_cons_self)
    obtain ⟨u, hu, hru, hsu⟩ := script_memWrites ws hs fun w hw => ha w (List.mem_cons_of_mem _ hw)
    refine ⟨u, ?_, hr.trans hru, hsu⟩
    unfold memWrites runEach
    rw [ht]
    exact hu

/-! ### The busy poll (R191) -/

/-- A result without a value: `Ok`, or the error. -/
def resultOf (result : Option ErrKind) (t : State) : Res Unit :=
  match result with
  | none => .ok () t
  | some e => .err e t

/-- How an operation without a value ends, in a state of `Z` and by the acts `as`. -/
def Ends (r : Res Unit) (s : State) (result : Option ErrKind) (as : List Act) (Z : State → Prop) : Prop :=
  ∃ t, r = resultOf result t ∧ Ran s t as ∧ Z t

/-- Its response (R281). -/
theorem Ends.finish {r : Res Unit} {s : State} {result : Option ErrKind} {as : List Act} {Z : State → Prop}
    (h : Ends r s result as Z) : ∃ t, finish r = respond (codeOf result) none none t ∧ Ran s t as ∧ Z t := by
  obtain ⟨t, rfl, hr, hz⟩ := h
  exact ⟨t, by cases result <;> rfl, hr, hz⟩

/-- What runs before it. -/
theorem Ends.from {r : Res Unit} {s t : State} {result : Option ErrKind} {as bs : List Act} {Z : State → Prop}
    (h : Ran s t as) (k : Ends r t result bs Z) : Ends r s result (as ++ bs) Z := by
  obtain ⟨u, hu, hr, hz⟩ := k
  exact ⟨u, hu, h.trans hr, hz⟩

theorem script_waitBusy_busy {p : Params} {wp : Bool} {result : Option ErrKind} {acts : List Act} {Z : State → Prop} {n : Nat}
    {script : List SlotDraw} :
    ∀ (busy : List (List SlotDraw × Word)) {s : State}, (∀ x ∈ busy, busyStatus p x) →
    Script p (readScript busy ++ script) s →
    (∀ t, Script p script t → Ends (waitBusy wp n t) t result acts Z) →
    Ends (waitBusy wp (busy.length + n) s) s result (statusActs p busy ++ acts) Z
  | [], s, _, h, k => by simpa [statusActs] using k s (by simpa [readScript] using h)
  | x :: busy, s, hb, h, k => by
    have e : readScript (x :: busy) ++ script = List.replicate 32 zeroDraw ++ (x.1 ++ (readScript busy ++ script)) := by
      simp [readScript]
    rw [e] at h
    obtain ⟨hx, hbx⟩ := hb x List.mem_cons_self
    obtain ⟨t, ht, hr, hs⟩ := script_memReadWord (a := p.flashStatr) false h hx (aligned_of_peripheral h.valid.flashStatr)
    have := Ends.from hr (script_waitBusy_busy busy (fun y hy => hb y (List.mem_cons_of_mem _ hy)) hs k)
    obtain ⟨u, hu, hru, hz⟩ := this
    refine ⟨u, ?_, hru, hz⟩
    rw [List.length_cons, Nat.add_right_comm]
    unfold waitBusy
    rw [h.cfg, ht]
    simp only [Res.bind]
    rw [hs.cfg, if_neg hbx]
    exact hu

/-- A busy poll ends as its answers say, having read the status register once for each. -/
theorem script_waitBusy {p : Params} {wp : Bool} {limit : Nat} {rs : List (List SlotDraw × Word)} {result : Option ErrKind}
    (hp : PollEnds p wp limit rs result) {rest : List SlotDraw} {s : State} (h : Script p (readScript rs ++ rest) s) :
    Ends (waitBusy wp limit s) s result (statusActs p rs) (Script p rest) := by
  have last : ∀ (busy : List (List SlotDraw × Word)) (r : List SlotDraw × Word) (result : Option ErrKind),
      (∀ x ∈ busy, busyStatus p x) → busy.length < limit → Answers p r.1 r.2 → r.2 &&& p.srBsy = 0 →
      (∀ t, t.cfg = p → (if wp = true ∧ r.2 &&& t.cfg.srWrprt ≠ 0 then Res.err .flashWriteProtected t else .ok () t)
        = resultOf result t) →
      Script p (readScript (busy ++ [r]) ++ rest) s → Ends (waitBusy wp limit s) s result (statusActs p (busy ++ [r])) (Script p rest) := by
    intro busy r result hb hl ha hn hres h
    obtain ⟨n, rfl⟩ : ∃ n, limit = busy.length + (n + 1) := ⟨limit - busy.length - 1, by omega⟩
    have e : readScript (busy ++ [r]) ++ rest = readScript busy ++ (List.replicate 32 zeroDraw ++ (r.1 ++ rest)) := by
      simp [readScript]
    rw [e] at h
    have e' : statusActs p (busy ++ [r]) = statusActs p busy ++ [.readWord p.flashStatr false r.2] := by simp [statusActs]
    rw [e']
    refine script_waitBusy_busy busy hb h fun t h => ?_
    obtain ⟨u, hu, hr, hs⟩ := script_memReadWord (a := p.flashStatr) false h ha (aligned_of_peripheral h.valid.flashStatr)
    refine ⟨u, ?_, hr, hs⟩
    unfold waitBusy
    rw [h.cfg, hu]
    simp only [Res.bind]
    rw [if_pos (by rw [hs.cfg]; exact hn)]
    exact hres u hs.cfg
  cases hp with
  | ready busy r hb hl ha hn hw =>
    refine last busy r none hb hl ha hn (fun t hc => ?_) h
    exact if_neg fun ⟨h1, h2⟩ => h2 (by rw [hc]; exact hw h1)
  | writeProtected busy r hb hl ha hn hw hwp =>
    refine last busy r _ hb hl ha hn (fun t hc => ?_) h
    exact if_pos ⟨hw, by rw [hc]; exact hwp⟩
  | timeout busy hb hl =>
    subst hl
    have := script_waitBusy_busy (wp := wp) (result := some .flashBusyTimeout) (n := 0) (acts := []) (Z := Script p rest) rs hb h
      fun t ht => ⟨t, rfl, Ran.refl t, ht⟩
    simpa using this

/-! ### Blob reads and blocks (R193, R194, R199) -/

/-- An operation that ends with `a`, by the acts `as`, in a state of `Z`. -/
def Goes {α : Type} (r : Res α) (s : State) (a : α) (as : List Act) (Z : State → Prop) : Prop :=
  ∃ t, r = .ok a t ∧ Ran s t as ∧ Z t

theorem Goes.ok {α : Type} {Z : State → Prop} (a : α) {s : State} (h : Z s) : Goes (.ok a s) s a [] Z := ⟨s, rfl, Ran.refl s, h⟩

theorem Goes.bind {α β : Type} {Z Z' : State → Prop} {r : Res α} {f : α → State → Res β} {s : State} {a : α} {b : β}
    {as bs : List Act} (h : Goes r s a as Z) (k : ∀ t, Ran s t as → Z t → Goes (f a t) t b bs Z') :
    Goes (r.bind f) s b (as ++ bs) Z' := by
  obtain ⟨t, rfl, ht, hz⟩ := h
  obtain ⟨u, hu, hr, hz'⟩ := k t ht hz
  exact ⟨u, hu, ht.trans hr, hz'⟩

/-- A result computed from the value. -/
theorem Goes.map {α β : Type} {Z : State → Prop} {r : Res α} {s : State} {a : α} {as : List Act} (h : Goes r s a as Z)
    (f : α → β) :
    Goes (r.bind fun a s => .ok (f a) s) s (f a) as Z := by
  obtain ⟨t, rfl, ht, hz⟩ := h
  exact ⟨t, rfl, ht, hz⟩

theorem ReadsOk.tail {p : Params} {n : Nat} {r : List SlotDraw × Word} {rs : Reads} (h : ReadsOk p (n + 1) (r :: rs)) : ReadsOk p n rs :=
  ⟨by simpa using h.length, fun x hx => h.all x (List.mem_cons_of_mem _ hx)⟩

/-- Accesses that need one read each. -/
theorem script_collect {β α : Type} {p : Params} {f : β → State → Res α} {v : β → List SlotDraw × Word → α}
    {g : β → List SlotDraw × Word → Act} : ∀ (xs : List β) (rs : Reads) {rest : List SlotDraw} {s : State},
    (∀ x ∈ xs, ∀ (r : List SlotDraw × Word) (rest : List SlotDraw) (s : State), Answers p r.1 r.2 →
      Script p (List.replicate 32 zeroDraw ++ (r.1 ++ rest)) s → Goes (f x s) s (v x r) [g x r] (Script p rest)) →
    ReadsOk p xs.length rs → Script p (readScript rs ++ rest) s →
    Goes (collectEach f xs s) s (List.zipWith v xs rs) (List.zipWith g xs rs) (Script p rest)
  | [], rs, rest, s, _, ho, h => by
    obtain rfl : rs = [] := List.eq_nil_of_length_eq_zero ho.length
    exact Goes.ok [] h
  | x :: xs, [], _, _, _, ho, _ => by have := ho.length; simp at this
  | x :: xs, r :: rs, rest, s, hf, ho, h => by
    have e : readScript (r :: rs) ++ rest = List.replicate 32 zeroDraw ++ (r.1 ++ (readScript rs ++ rest)) := by simp [readScript]
    rw [e] at h
    refine Goes.bind (as := [g x r]) (hf x List.mem_cons_self r _ s (ho.all r List.mem_cons_self) h) fun t _ ht => ?_
    exact Goes.map (script_collect xs rs (fun y hy => hf y (List.mem_cons_of_mem _ hy)) (ReadsOk.tail ho) ht) fun bs => v x r :: bs

/-- `BLOB_READ` (R199). -/
theorem script_blobRead {p : Params} {a n : Nat} {rs : Reads} {rest : List SlotDraw} {s : State} (hw : a + n ≤ 2 ^ 32)
    (ho : ReadsOk p (blobReads n a n).length rs) (h : Script p (readScript rs ++ rest) s) :
    Goes (blobRead a n s) s (readData (blobReads n a n) rs) (readActs (blobReads n a n) rs) (Script p rest) := by
  unfold blobRead
  rw [if_neg (by simpa [wraps] using hw)]
  refine Goes.map (script_collect _ rs (fun x hx r rest s hr h => ?_) ho h) List.flatten
  cases x with
  | word a => exact Goes.map (script_memReadWord true h hr (blobReads_aligned _ _ _ _ hx)) wordBytes
  | byte a => exact Goes.map (script_memReadByte a h hr) fun b => [b]

/-- A busy poll that ends at once. -/
theorem script_idle {p : Params} (wp : Bool) {n : Nat} (hn : 1 ≤ n) {rest : List SlotDraw} {s : State}
    (h : Script p (List.replicate (2 * 32) zeroDraw ++ rest) s) : Goes (waitBusy wp n s) s () (idleActs p) (Script p rest) := by
  have hv := h.valid
  exact script_waitBusy (rs := [(List.replicate 32 zeroDraw, 0)])
    (.ready [] _ nofun hn (zero_answers hv) BitVec.zero_and fun _ => BitVec.zero_and)
    (by simpa [readScript] using h)

theorem zeros_split (m n : Nat) (rest : List SlotDraw) : List.replicate ((m + n) * 32) zeroDraw ++ rest
    = List.replicate (m * 32) zeroDraw ++ (List.replicate (n * 32) zeroDraw ++ rest) := by
  rw [Nat.add_mul, ← List.replicate_append_replicate, List.append_assoc]

/-- A word write, then more. -/
theorem script_write {p : Params} {a : Word} (v : Word) {n : Nat} {rest : List SlotDraw} {s : State}
    (h : Script p (List.replicate ((1 + n) * 32) zeroDraw ++ rest) s) (ha : aligned4 a = true) :
    Goes (memWriteWord a v s) s () [.writeWord a v] (Script p (List.replicate (n * 32) zeroDraw ++ rest)) :=
  script_memWriteWord v ((zeros_split 1 n rest) ▸ h) ha

/-- An operation that ends with an error ends what goes on after it. -/
theorem Ends.stop {r : Res Unit} {f : Unit → State → Res Unit} {s : State} {e : ErrKind} {as : List Act} {Z : State → Prop}
    (h : Ends r s (some e) as Z) : Ends (r.bind f) s (some e) as Z := by
  obtain ⟨t, rfl, ht, hz⟩ := h
  exact ⟨t, rfl, ht, hz⟩

/-- An operation that ends with `Ok`, then more. -/
theorem Ends.bind {r : Res Unit} {f : Unit → State → Res Unit} {s : State} {result : Option ErrKind} {as bs : List Act}
    {Z Z' : State → Prop} (h : Ends r s none as Z) (k : ∀ t, Z t → Ends (f () t) t result bs Z') :
    Ends (r.bind f) s result (as ++ bs) Z' := by
  obtain ⟨t, rfl, ht, hz⟩ := h
  exact Ends.from ht (k t hz)

/-- The first poll of a chunk and its three commands, then more (R193). -/
theorem script_eraseStart {p : Params} {c : Nat} {before : Reads} {rest : List SlotDraw} {s : State} {result : Option ErrKind}
    {acts : List Act} {Z : State → Prop} (hb : PollEnds p false p.busyPollLimit before none)
    (h : Script p (readScript before ++ List.replicate (3 * 32) zeroDraw ++ rest) s)
    (k : ∀ t, Script p rest t →
      Ends ((waitBusy true t.cfg.busyPollLimit t).bind fun _ s => memWriteWord s.cfg.flashCtlr 0 s) t result acts Z) :
    Ends (eraseChunk c s) s result (statusActs p before ++ eraseStartActs p c ++ acts) Z := by
  have hv := h.valid
  have hctl : aligned4 p.flashCtlr = true := aligned_of_peripheral hv.flashCtlr
  have hadr : aligned4 p.flashAddr = true := aligned_of_peripheral hv.flashAddr
  unfold eraseChunk eraseStartActs
  simp only [List.append_assoc, List.cons_append, List.nil_append] at h ⊢
  rw [h.cfg]
  refine Ends.bind (script_waitBusy hb h) fun t h => ?_
  rw [h.cfg]
  refine Ends.bind (as := [_]) (script_write (n := 2) _ h hctl) fun t h => ?_
  rw [h.cfg]
  refine Ends.bind (as := [_]) (script_write (n := 1) _ h hadr) fun t h => ?_
  rw [h.cfg]
  refine Ends.bind (as := [_]) (script_write (n := 0) _ h hctl) fun t h => ?_
  exact k t (by simpa using h)

/-- A page erase ends as the polls of its chunks do (R191, R193). -/
theorem script_eraseChunks {p : Params} {cs : List Nat} {ds : List SlotDraw} {as : List Act} {result : Option ErrKind}
    (he : EraseEnds p cs ds as result) {rest : List SlotDraw} : ∀ {s : State}, Script p (ds ++ rest) s →
    Ends (runEach eraseChunk cs s) s result as (Script p rest) := by
  induction he with
  | done => exact fun {s} h => ⟨s, rfl, Ran.refl s, h⟩
  | erased c cs before after ds as result hb ha _ ih =>
    intro s h
    have hctl : aligned4 p.flashCtlr = true := aligned_of_peripheral h.valid.flashCtlr
    refine Ends.bind (as := _ ++ [_]) ?_ fun t ht => ih ht
    rw [List.append_assoc _ _ [_]]
    refine script_eraseStart hb (by simpa only [List.append_assoc] using h) fun t ht => ?_
    rw [ht.cfg]
    refine Ends.bind (script_waitBusy ha ht) fun t ht => ?_
    rw [ht.cfg]
    exact script_memWriteWord 0 ht hctl
  | notReady c cs before e hb =>
    intro s h
    refine Ends.stop ?_
    unfold eraseChunk
    rw [h.cfg]
    exact Ends.stop (script_waitBusy hb h)
  | failed c cs before after e hb ha =>
    intro s h
    refine Ends.stop (script_eraseStart hb (by simpa only [List.append_assoc] using h) fun t ht => ?_)
    rw [ht.cfg]
    exact Ends.stop (script_waitBusy ha ht)

theorem statusActs_keep (p : Params) (rs : Reads) : ∀ x ∈ statusActs p rs, keepsLock x = true := fun x hx => by
  obtain ⟨r, -, rfl⟩ := List.mem_map.1 hx
  rfl

theorem eraseStartActs_keep (p : Params) (c : Nat) : ∀ x ∈ eraseStartActs p c, keepsLock x = true := fun x hx => by
  simp only [eraseStartActs, List.mem_cons, List.not_mem_nil, or_false] at hx
  rcases hx with rfl | rfl | rfl <;> rfl

/-- The erase leaves `flashUnlocked` alone, however it ends. -/
theorem eraseEnds_keep {p : Params} {cs : List Nat} {ds : List SlotDraw} {as : List Act} {result : Option ErrKind}
    (h : EraseEnds p cs ds as result) : ∀ x ∈ as, keepsLock x = true := by
  induction h with
  | done => exact nofun
  | erased c cs before after ds as result _ _ _ ih =>
    simp only [List.forall_mem_append, List.forall_mem_singleton]
    exact ⟨⟨⟨⟨statusActs_keep p _, eraseStartActs_keep p c⟩, statusActs_keep p _⟩, rfl⟩, ih⟩
  | notReady c cs before e _ => exact statusActs_keep p _
  | failed c cs before after e _ _ =>
    simp only [List.forall_mem_append]
    exact ⟨⟨statusActs_keep p _, eraseStartActs_keep p c⟩, statusActs_keep p _⟩

/-- One chunk of a page erase, each poll answered at once (R193). -/
theorem script_eraseChunk {p : Params} (c : Nat) {rest : List SlotDraw} {s : State}
    (h : Script p (List.replicate (8 * 32) zeroDraw ++ rest) s) : Goes (eraseChunk c s) s () (eraseChunkActs p c) (Script p rest) := by
  have idle : ∀ wp, PollEnds p wp p.busyPollLimit [(List.replicate 32 zeroDraw, 0)] none := fun wp =>
    .ready [] _ nofun h.valid.busyPollLimit (zero_answers h.valid) BitVec.zero_and fun _ => BitVec.zero_and
  obtain ⟨t, ht, hr, hs⟩ := script_eraseChunks (.erased c [] _ _ [] [] none (idle false) (idle true) .done) (rest := rest) (s := s)
    (by simpa only [readScript, List.flatMap_cons, List.flatMap_nil, List.append_nil, List.replicate_append_replicate] using h)
  refine ⟨t, ?_, by simpa [eraseChunkActs, idleActs, statusActs] using hr, hs⟩
  unfold runEach at ht
  cases hc : eraseChunk c s <;> rw [hc] at ht <;> exact ht

/-- The program of a whole block, each poll answered at once, with the flash unlocked (R194). -/
theorem script_flashWriteBlock {p : Params} {a : Nat} {data : List Byte} {rest : List SlotDraw} {s : State}
    (hu : s.flashUnlocked = true) (ha : a % 64 = 0) (hd : data.length ≠ 0) (hl : data.length ≤ 64) (hf : classify p a 64 = .flash)
    (h : Script p (List.replicate (21 * 32) zeroDraw ++ rest) s) :
    Goes (flashWriteBlock a data s) s () (programActs p a data) (Script p rest) := by
  have hv := h.valid
  have hctl : aligned4 p.flashCtlr = true := aligned_of_peripheral hv.flashCtlr
  have hadr : aligned4 p.flashAddr = true := aligned_of_peripheral hv.flashAddr
  have hlen : (blockWrites a data).length = 16 := by
    simp only [blockWrites, List.length_mapIdx]
    exact packWords_length 16 _ (padBlock_length hl)
  unfold flashWriteBlock
  rw [if_neg (by omega), if_neg (by omega), if_neg (by rw [h.cfg]; simp [hf])]
  unfold ensureUnlocked
  rw [if_pos hu]
  simp only [Res.bind]
  unfold programActs
  simp only [List.append_assoc, List.cons_append, List.nil_append]
  rw [h.cfg]
  refine Goes.bind (as := [_]) (script_write (n := 20) _ h hctl) fun t _ h => ?_
  have e : (blockWrites a data).map (fun w => Act.writeWord w.1 w.2) = (packWords (data
      ++ List.replicate (64 - data.length) 0xFF)).mapIdx fun j w => .writeWord (BitVec.ofNat 32 (a + 4 * j)) w :=
    List.ext_getElem (by simp [blockWrites, padBlock]) fun i h1 h2 => by simp [blockWrites, padBlock]
  rw [← e]
  refine Goes.bind (script_memWrites (blockWrites a data)
    (by rw [hlen]; exact (zeros_split 16 4 rest) ▸ h) (blockWrites_aligned data ha)) fun t _ h => ?_
  rw [h.cfg]
  refine Goes.bind (as := [_]) (script_write (n := 3) _ h hadr) fun t _ h => ?_
  rw [h.cfg]
  refine Goes.bind (as := [_]) (script_write (n := 2) _ h hctl) fun t _ h => ?_
  rw [h.cfg]
  exact script_idle true hv.busyPollLimit h

/-! ### A slot that times out (R144) -/

/-- A read frame at whose first slot the line stays low. -/
theorem script_fr_dead {p : Params} {d : SlotDraw} {rest : List SlotDraw} (hd : ¬ answered p d) (cmd : Cmd) {s : State}
    (h : Script p (d :: rest) s) : ∃ t, fr cmd s = .err .busFault t ∧ LinkStep s t ∧ Script p rest t ∧
      sent s t = [⟨.control, .read cmd none⟩] ∧ cacheOf t = cacheOf s := by
  have h1 := LinkStep.rel.termTurn s
  have hs : Script p (d :: rest) (termTurn s) := h.step h1 ((termTurn_slotIn_quiet h.quiet).trans h.slots)
  have key : ∃ u, frameRead .control cmd (termTurn s) = .err .busFault u ∧ u.slotIn = rest ∧
      sent (termTurn s) u = [⟨.control, .read cmd none⟩] := by
    generalize termTurn s = t at hs
    have hr := readSlots_timeout t.timingCoefficient.toNat [] rest d 32 0
      (sendBits t.timingCoefficient.toNat (headerBits cmd false) (takePort .control t)) (by simpa using hs.slots) (by simp)
      (by simpa [hs.cfg] using hd) (by decide)
    rw [frameRead, if_neg hs.pin]
    dsimp only
    rw [hr]
    exact ⟨_, rfl, by simp, by simp [sent, logFrame]⟩
  obtain ⟨u, hu, hus, hf⟩ := key
  have hk := LinkStep.frameRead .control cmd (termTurn s)
  have hc := frameRead_cache .control cmd (termTurn s)
  rw [hu] at hk hc
  replace hk : LinkStep (termTurn s) u := hk
  replace hc : cacheOf u = cacheOf (termTurn s) := hc
  refine ⟨u, hu, h1.trans hk, h.step (h1.trans hk) hus, ?_, hc.trans h.quiet.termTurn.2⟩
  rw [sent_append h1.frameLog hk.frameLog, hf, sent_same h.quiet.termTurn.1]
  rfl

/-! ### Step lists that only send (R250) -/

theorem script_sends {p : Params} {ds : List SlotDraw} : ∀ (xs : List SeqStep) {s : State}, xs.all sendsOnly = true → Script p ds s →
    ∃ t, runSteps xs s = .ok () t ∧ Ran s t (stepsActs p xs) ∧ Script p ds t
  | [], s, _, h => ⟨s, rfl, Ran.refl s, h⟩
  | x :: xs, s, hx, h => by
    simp only [List.all_cons, Bool.and_eq_true] at hx
    obtain ⟨t, ht, hr, hs⟩ : ∃ t, runStep x s = .ok () t ∧ Ran s t (stepActs p x) ∧ Script p ds t := by
      cases x with
      | fw cmd v =>
        obtain ⟨t, ht, hf, hz⟩ := (script_talks p ds).fw cmd v h
        exact ⟨t, ht, Low.act (.frame (.write cmd v)) hf, hz⟩
      | wait n =>
        have hw := LinkStep.rel.wait n s
        exact ⟨wait n s, rfl, Ran.of_same hw rfl rfl, h.step hw h.slots⟩
      | _ => simp [sendsOnly] at hx
    obtain ⟨u, hu, hru, hsu⟩ := script_sends xs hx.2 hs
    refine ⟨u, ?_, ?_, hsu⟩
    · unfold runSteps runEach
      rw [ht]
      exact hu
    · rw [show stepsActs p (x :: xs) = stepActs p x ++ stepsActs p xs from List.flatMap_cons]
      exact hr.trans hru

/-- A link init whose handshake only sends (R235). -/
theorem script_linkInit {p : Params} {ds : List SlotDraw} {s : State} (hx : p.seqInit.all sendsOnly = true) (h : Script p ds s) :
    Goes (linkInit s) s () (initActs p) (Script p ds) := by
  have h0 := ran_discardLink s
  have hd : Script p ds (discardLink s) := h.step h0.step h.slots
  obtain ⟨t, ht, hr, hs⟩ := script_sends _ hx hd
  refine ⟨{ t with sessionTag := .started }, ?_, (h0.trans hr).trans (ran_started t), hs.step (ran_started t).step hs.slots⟩
  unfold linkInit
  dsimp only
  rw [if_neg hd.pin, hd.cfg, ht]
  rfl

theorem script_ensureLink {p : Params} {ds : List SlotDraw} {s : State} (hx : p.seqInit.all sendsOnly = true) (h : Script p ds s) :
    Goes (ensureLink s) s () (linkActs s) (Script p ds) := by
  unfold ensureLink linkActs
  split
  · rw [h.cfg]; exact script_linkInit hx h
  · exact Goes.ok () h

/-- The halt/reset controller with step lists that only send comes to its completion poll (R250). -/
theorem script_haltSteps {p : Params} (m : HaltMode) {ds : List SlotDraw} {s : State} (hx : (haltSteps p m).all sendsOnly = true)
    (h : Script p ds s) :
    ∃ t, haltctl m s = waitAbstract t ∧ Ran s t (.drop :: stepsActs p (haltSteps p m)) ∧ Script p ds t := by
  have h0 := ran_dropProgram s
  have hd : Script p ds (dropProgram s) := h.step h0.step (by unfold dropProgram; split <;> exact h.slots)
  simp only [haltSteps, List.all_append, Bool.and_eq_true] at hx
  obtain ⟨⟨hpre, hboot⟩, hmode⟩ := hx
  obtain ⟨t, ht, hr, hs⟩ := script_sends _ hpre hd
  obtain ⟨u, hu, hru, hsu⟩ : Goes (if m = .rebootBoot then runSteps t.cfg.seqBootKeys t else .ok () t) t ()
      (stepsActs p (if m = .rebootBoot then p.seqBootKeys else [])) (Script p ds) := by
    rw [hs.cfg]
    split at hboot
    · rename_i hm
      rw [if_pos hm, if_pos hm]
      exact script_sends _ hboot hs
    · rename_i hm
      rw [if_neg hm, if_neg hm]
      exact Goes.ok () hs
  obtain ⟨v, hv, hrv, hsv⟩ := script_sends _ hmode hsu
  refine ⟨v, ?_, ?_, hsv⟩
  · unfold haltctl
    rw [h.cfg, ht]
    simp only [Res.bind]
    rw [hu]
    dsimp only
    rw [hsu.cfg, hv]
  · have := h0.trans ((hr.trans hru).trans hrv)
    simpa [haltSteps, stepsActs, List.flatMap_append] using this

/-- Its completion poll takes 32 answers. -/
theorem script_haltctl {p : Params} (m : HaltMode) {rest : List SlotDraw} {s : State} (hx : (haltSteps p m).all sendsOnly = true)
    (h : Script p (List.replicate 32 zeroDraw ++ rest) s) : Goes (haltctl m s) s () (haltActs p m) (Script p rest) := by
  obtain ⟨t, ht, hr, hs⟩ := script_haltSteps m hx h
  obtain ⟨u, hu, hf, hz⟩ := answer_waitAbstract (script_talks p _) (script_zero h.valid rest) hs
  rw [hs.cfg] at hf
  exact ⟨u, ht.trans hu, hr.trans (Low.act (.frame (.read p.dmAbstractCs (some 0))) hf), hz⟩

/-! ### Tries of `UNBRICK` that fail (R259, R283 (d)) -/

/-- A read frame at whose first slot the line stays low, as an act. -/
theorem script_fr_error {p : Params} {d : SlotDraw} {rest : List SlotDraw} (hd : ¬ answered p d) (cmd : Cmd) {s : State}
    (h : Script p (d :: rest) s) :
    ∃ t, fr cmd s = .err .busFault t ∧ Ran s t [.frame (.read cmd none)] ∧ Script p rest t := by
  obtain ⟨t, ht, hl, hs, hf, hc⟩ := script_fr_dead hd cmd h
  exact ⟨t, ht, Low.act (.frame (.read cmd none)) ⟨hl, hf ▸ List.Sublist.refl _, Weak.of_eq hc, fun _ => ⟨hf, hc⟩⟩, hs⟩

/-- The error of a completion poll invalidates the cache (R168, R169). -/
theorem script_waitAbstract_error {p : Params} {d : SlotDraw} {rest : List SlotDraw} (hd : ¬ answered p d) {s : State}
    (h : Script p (d :: rest) s) :
    ∃ t, waitAbstract s = .err .busFault t ∧ Ran s t [.frame (.read p.dmAbstractCs none), .invalidate] ∧ Script p rest t := by
  obtain ⟨t, ht, hr, hs⟩ := script_fr_error hd p.dmAbstractCs h
  refine ⟨invalidate t, ?_, hr.trans (ran_invalidate t), hs.step (ran_invalidate t).step hs.slots⟩
  have := h.valid.absPollLimit
  obtain ⟨n, hn⟩ : ∃ n, p.absPollLimit = n + 1 := ⟨p.absPollLimit - 1, by omega⟩
  unfold waitAbstract
  rw [h.cfg, hn, pollAbstract, h.cfg, ht]
  rfl

/-- A try that fails leaves the loop one try less; its error is absorbed. -/
theorem script_failedTry {p : Params} (x : FailedTry) (hx : x.Fails p) (hi : p.seqInit.all sendsOnly = true)
    (hh : (haltSteps p .haltReset).all sendsOnly = true) {rest : List SlotDraw} {s : State} (h : Script p (x.script ++ rest) s) :
    ∃ t, (∀ n, unbrickLoop (n + 1) s = unbrickLoop n t) ∧ Ran s t (x.acts p) ∧ Script p rest t := by
  obtain ⟨t, ht, hr, hs⟩ := script_linkInit hi h
  cases x with
  | running ds v =>
    simp only [FailedTry.script, List.append_assoc] at hs
    obtain ⟨u, hu, hru, hsu⟩ := script_haltctl .haltReset hh hs
    obtain ⟨w, hw, hrw, hsw⟩ := script_answer rest hx.1 p.dmStatus hsu
    refine ⟨w, fun n => ?_, (hr.trans hru).trans (Low.act (.frame (.read p.dmStatus (some v))) hrw), hsw⟩
    have e : unbrickTry s = .ok v w := by
      unfold unbrickTry
      rw [ht]; simp only [Res.bind]; rw [hu]; dsimp only; rw [hsu.cfg, hw]
    rw [unbrickLoop, e]
    dsimp only
    rw [hsw.cfg, if_neg hx.2]
  | haltError d =>
    obtain ⟨u, hu, hru, hsu⟩ := script_haltSteps .haltReset hh hs
    obtain ⟨w, hw, hrw, hsw⟩ := script_waitAbstract_error hx hsu
    refine ⟨w, fun n => ?_, by simpa [FailedTry.acts] using (hr.trans hru).trans hrw, hsw⟩
    have e : unbrickTry s = .err .busFault w := by
      unfold unbrickTry
      rw [ht]; simp only [Res.bind]; rw [hu, hw]
    rw [unbrickLoop, e]
  | statusError d =>
    simp only [FailedTry.script, List.append_assoc, List.cons_append, List.nil_append] at hs
    obtain ⟨u, hu, hru, hsu⟩ := script_haltctl .haltReset hh hs
    obtain ⟨w, hw, hrw, hsw⟩ := script_fr_error hx p.dmStatus hsu
    refine ⟨w, fun n => ?_, (hr.trans hru).trans hrw, hsw⟩
    have e : unbrickTry s = .err .busFault w := by
      unfold unbrickTry
      rw [ht]; simp only [Res.bind]; rw [hu]; dsimp only; rw [hsu.cfg, hw]
    rw [unbrickLoop, e]

end Sys2Proof.Laws
end

