-- ==== Sys2Proof/Laws/Sequencer.lean ====
section
/-!
SUPPORT. The sequencer's operations as equations, with a pin configured and a silent terminal, for every answer of the target: a
reprogramming, the completion poll, and the word and byte accesses, in terms of `afterWrites` and `afterRead`.
-/
namespace Sys2Proof.Laws

open Sys2Proof.Machine Sys2Proof.Safety
open Sys2Proof.Config (Params SlotDraw SeqStep)

/-! ### Several frames -/

theorem afterWrites_append (xs ys : List (Cmd × Word)) (s : State) :
    afterWrites (xs ++ ys) s = afterWrites ys (afterWrites xs s) := List.foldl_append

/-- What write frames leave alone, in any state. -/
theorem afterWrites_spec : ∀ (ws : List (Cmd × Word)) (s : State), ∃ pin owner mask line frames, afterWrites ws s = { s with
    pinDrive := pin, portOwner := owner, irqMasked := mask, lineLog := line, frameLog := frames }
  | [], s => ⟨s.pinDrive, s.portOwner, s.irqMasked, s.lineLog, s.frameLog, rfl⟩
  | w :: ws, s => by
    obtain ⟨pin, owner, mask, line, frames, h⟩ := afterWrites_spec ws (afterWrite .control w.1 w.2 s)
    exact ⟨pin, owner, mask, line, frames, h⟩

/-- The frames do not read the cache, and a later change of the cache does not change them. -/
theorem afterWrites_cache (tag : SessionTag) (addr : Word) (ai fl : Bool) : ∀ (ws : List (Cmd × Word)) (s : State),
    afterWrites ws { s with sessionTag := tag, cachedAddress := addr, autoIncrementActive := ai, lastWriteWasFlash := fl }
      = { afterWrites ws s with
          sessionTag := tag, cachedAddress := addr, autoIncrementActive := ai, lastWriteWasFlash := fl }
  | [], _ => rfl
  | w :: ws, s => afterWrites_cache tag addr ai fl ws (afterWrite .control w.1 w.2 s)

@[simp] theorem afterWrites_cfg (ws : List (Cmd × Word)) (s : State) : (afterWrites ws s).cfg = s.cfg := by
  obtain ⟨_, _, _, _, _, h⟩ := afterWrites_spec ws s
  rw [h]

@[simp] theorem afterWrites_slotIn (ws : List (Cmd × Word)) (s : State) : (afterWrites ws s).slotIn = s.slotIn := by
  obtain ⟨_, _, _, _, _, h⟩ := afterWrites_spec ws s
  rw [h]

theorem LinkReady.afterWrites : ∀ (ws : List (Cmd × Word)) {s : State}, LinkReady s → LinkReady (afterWrites ws s)
  | [], _, h => h
  | w :: ws, _, h => LinkReady.afterWrites ws (LinkReady.afterWrite h .control w.1 w.2)

/-- Write frames, one after the other (R162). -/
theorem runEach_fw : ∀ (ws : List (Cmd × Word)) {s : State}, LinkReady s →
    runEach (fun (rw : Cmd × Word) => fw rw.1 rw.2) ws s = .ok () (afterWrites ws s)
  | [], _, _ => rfl
  | w :: ws, s, h => by
    rw [runEach, fw_ready h]
    exact runEach_fw ws (LinkReady.afterWrite h .control w.1 w.2)

/-! ### Reprogramming and completion -/

/-- R162. -/
theorem reprogram_ready (prog : List Word) (on : Option Word) {s : State} (h : LinkReady s) :
    reprogram prog on s = .ok () { afterWrites (reprogramFrames s.cfg prog on) s with sessionTag := .invalidated } := by
  have hi : LinkReady (invalidate s) := ⟨h.pin, h.silent, h.port⟩
  have h1 := LinkReady.afterWrite hi .control s.cfg.dmAbstractAuto Config.autoOff
  have h2 := LinkReady.afterWrites (s.cfg.dmProgbuf.toList.zip prog) h1
  unfold reprogram
  rw [fw_ready hi]
  simp only [Res.bind, writeProgram]
  rw [runEach_fw _ h1]
  have e : ∀ ws : List (Cmd × Word), afterWrites ws (invalidate s)
      = { afterWrites ws s with sessionTag := .invalidated } := fun ws => by
    have := afterWrites_cache .invalidated s.cachedAddress s.autoIncrementActive s.lastWriteWasFlash ws s
    refine this.trans ?_
    obtain ⟨_, _, _, _, _, h⟩ := afterWrites_spec ws s
    rw [h]
  cases on with
  | none =>
    dsimp only
    rw [← e]
    simp only [reprogramFrames, Option.toList_none, List.map_nil, List.append_nil]
    rfl
  | some v =>
    dsimp only
    have h3 := fw_ready h2 (afterWrites (s.cfg.dmProgbuf.toList.zip prog)
      (afterWrite .control s.cfg.dmAbstractAuto Config.autoOff (invalidate s))).cfg.dmAbstractAuto v
    refine Eq.trans h3 ?_
    rw [← e]
    simp only [reprogramFrames, Option.toList_some, List.map_cons, List.map_nil, List.cons_append]
    have := afterWrites_append ((s.cfg.dmAbstractAuto, Config.autoOff) :: s.cfg.dmProgbuf.toList.zip prog)
      [(s.cfg.dmAbstractAuto, v)] (invalidate s)
    refine Eq.trans ?_ (congrArg (Res.ok ()) this.symm)
    have hc : (afterWrites (s.cfg.dmProgbuf.toList.zip prog)
        (afterWrite .control s.cfg.dmAbstractAuto Config.autoOff (invalidate s))).cfg = s.cfg := afterWrites_cfg _ _
    show Res.ok () (afterWrite .control _ v _) = _
    rw [hc]
    rfl

/-- A poll that is answered at once, not busy and with no error (R168). -/
theorem waitAbstract_ready {s : State} (h : LinkReady s) (hl : 1 ≤ s.cfg.absPollLimit) {ds rest : List SlotDraw} {v : Word}
    (hs : s.slotIn = ds ++ rest) (ha : Answers s.cfg ds v) (hb : v &&& s.cfg.csBusy = 0) (he : v &&& s.cfg.csErr = 0) :
    waitAbstract s = .ok () (afterRead .control s.cfg.dmAbstractCs ds (some v) s) := by
  obtain ⟨n, hn⟩ : ∃ n, s.cfg.absPollLimit = n + 1 := ⟨s.cfg.absPollLimit - 1, by omega⟩
  unfold waitAbstract
  rw [hn, pollAbstract, fr_ready h _ hs ha]
  have hc : (Safety.afterRead .control s.cfg.dmAbstractCs ds (some v) s).cfg = s.cfg := rfl
  simp only [Res.bind, hc, hb, he]
  simp [Res.onErr]

/-- The execute step (R163, R165). -/
theorem execute_ready {s : State} (h : LinkReady s) (hl : 1 ≤ s.cfg.absPollLimit) {ds rest : List SlotDraw} {v : Word}
    (hs : s.slotIn = ds ++ rest) (ha : Answers s.cfg ds v) (hb : v &&& s.cfg.csBusy = 0) (he : v &&& s.cfg.csErr = 0) :
    execute s = .ok () (afterRead .control s.cfg.dmAbstractCs ds (some v)
      (afterWrite .control s.cfg.dmCommand s.cfg.cmdExec s)) := by
  unfold execute
  rw [fw_ready h]
  exact waitAbstract_ready (LinkReady.afterWrite h _ _ _) hl hs ha hb he

end Sys2Proof.Laws
end

