-- ==== Sys2Proof/Laws/Verify.lean ====
section
/-!
SUPPORT. The verified write of a flash range against a target that answers every read slot with 0: a block whose new content is all
zeros verifies at its first attempt; any other ends in `VerifyMismatch` after 1 + `VERIFY_RETRIES` attempts, and with it the write.
The write of one block against given answers. Also how a response relates to `OnlyLink`.
-/
namespace Sys2Proof.Laws

open Sys2Proof.Machine Sys2Proof.Safety
open Sys2Proof.Config (Params SlotDraw SeqStep)

/-! ### The response -/

theorem onlyLink_begin {op : Byte} {s u : State} (h : OnlyLink (begin op s) u) : OnlyLink s u := by
  obtain ⟨⟩ := h; constructor <;> assumption

theorem onlyLink_respond {c : Word} {v : Option Word} {d : Option (List Byte)} {s u : State} (h : OnlyLink s u) :
    OnlyLink s (respond c v d u) := by
  obtain ⟨⟩ := h; constructor <;> assumption

theorem responded_respond (c : Word) (v : Option Word) (d : Option (List Byte)) (u : State) :
    Responded c (respond c v d u) := ⟨rfl, rfl, rfl, rfl⟩

theorem ZeroTarget.begin {s : State} (h : ZeroTarget s) (op : Byte) : ZeroTarget (Machine.begin op s) :=
  ⟨h.valid, h.aligned, h.pin, h.script, h.rest⟩

/-! ### One block -/

/-- Each chunk of a flash range is a flash block (R62, R193). -/
theorem chunk_flash {p : Params} {a n c : Nat} (hv : p.Valid) (hn : 1 ≤ n) (hf : classify p a n = .flash)
    (hc : c ∈ chunks a n) : classify p c 64 = .flash ∧ c + 64 ≤ 2 ^ 32 ∧ c % 64 = 0 := by
  have h1 := hv.flashSize
  have h2 := hv.flashEnd
  have hfa : (Config.flashBase ≤ a ∧ a < Config.flashBase + p.flashSize) ∧
      Config.flashBase ≤ a + n - 1 ∧ a + n - 1 < Config.flashBase + p.flashSize := by
    unfold classify at hf
    dsimp only at hf
    split at hf
    · rename_i h; simp [isFlashAt] at h; exact h
    · split at hf <;> cases hf
  obtain ⟨k, hk, rfl⟩ := List.mem_map.1 hc
  rw [List.mem_range] at hk
  have hb : Config.flashBase % 64 = 0 := by decide
  have : a - a % 64 + 64 * k ≤ a + n - 1 := by omega
  refine ⟨?_, by omega, by omega⟩
  unfold classify
  rw [if_pos]
  simp [isFlashAt]
  omega

theorem chunks_block {c : Nat} (h64 : c % 64 = 0) : chunks c 64 = [c] := by
  unfold chunks
  rw [show (c % 64 + 64 + 63) / 64 = 1 by omega]
  simp [List.range_succ]; omega

/-- One attempt, with the flash unlocked: it completes, and answers whether the content is all zeros (R201). -/
theorem runs_writeVerifyOnce {p : Params} {c : Nat} {content : List Byte} {s : State} (h : ZeroTarget s) (hc : s.cfg = p)
    (hu : s.flashUnlocked = true) (hf : classify p c 64 = .flash) (hw : c + 64 ≤ 2 ^ 32) (h64 : c % 64 = 0)
    (hl : content.length = 64) :
    Runs (writeVerifyOnce c content s) s (List.replicate 64 0 == content) (attemptActs p c content) := by
  unfold writeVerifyOnce attemptActs
  have h1 := runs_flashErasePages (n := 64) h hc (by decide) hw hf
  rw [chunks_block h64, hu, show ensureActs p true ++ [c].flatMap (eraseChunkActs p) = eraseChunkActs p c by
    simp [ensureActs]] at h1
  rw [List.append_assoc]
  refine Runs.next h1 h hc fun t h hc ht => ?_
  have h2 := runs_flashWriteBlock (data := content) h hc h64 (by omega) (by omega) hf
  rw [(ht.keeps (eraseChunkActs_keep p c)).trans hu] at h2
  refine Runs.next h2 h hc fun t h hc _ => ?_
  exact Runs.map (runs_blobRead h hw) fun back => back == content

theorem attemptActs_keep (p : Params) (c : Nat) (content : List Byte) : ∀ a ∈ attemptActs p c content, keepsLock a = true := by
  intro a ha
  simp only [attemptActs, List.mem_append] at ha
  rcases ha with (ha | ha) | ha
  · exact eraseChunkActs_keep p c a ha
  · exact programActs_keep p c content a ha
  · exact blobReadActs_keep c 64 a ha

/-- Zeros verify at the first attempt. -/
theorem runs_writeVerify {p : Params} {c : Nat} {s : State} (h : ZeroTarget s) (hc : s.cfg = p) (hu : s.flashUnlocked = true)
    (hf : classify p c 64 = .flash) (hw : c + 64 ≤ 2 ^ 32) (h64 : c % 64 = 0) (n : Nat) :
    Runs (writeVerify c (List.replicate 64 0) n s) s () (attemptActs p c (List.replicate 64 0)) := by
  obtain ⟨t, ht, hr⟩ := runs_writeVerifyOnce (content := List.replicate 64 0) h hc hu hf hw h64 (by simp)
  cases n <;> (unfold writeVerify; rw [ht]; simp only [Res.bind]; rw [if_pos (by simp)]; exact ⟨t, rfl, hr⟩)

/-- Any other content never does: every attempt is made. -/
theorem writeVerify_mismatch {p : Params} {c : Nat} {content : List Byte} (hb : content ≠ List.replicate 64 0)
    (hf : classify p c 64 = .flash) (hw : c + 64 ≤ 2 ^ 32) (h64 : c % 64 = 0) (hl : content.length = 64) :
    ∀ (n : Nat) {s : State}, ZeroTarget s → s.cfg = p → s.flashUnlocked = true →
    ∃ t, writeVerify c content n s = .err .verifyMismatch t ∧
      Ran s t (List.replicate (n + 1) (attemptActs p c content)).flatten
  | 0, s, h, hc, hu => by
    obtain ⟨t, ht, hr⟩ := runs_writeVerifyOnce (content := content) h hc hu hf hw h64 hl
    unfold writeVerify; rw [ht]; simp only [Res.bind]; rw [if_neg (by simpa using hb.symm)]
    exact ⟨t, rfl, by simpa using hr⟩
  | n + 1, s, h, hc, hu => by
    obtain ⟨t, ht, hr⟩ := runs_writeVerifyOnce (content := content) h hc hu hf hw h64 hl
    unfold writeVerify; rw [ht]; simp only [Res.bind]; rw [if_neg (by simpa using hb.symm)]
    obtain ⟨u, hu, hs⟩ := writeVerify_mismatch hb hf hw h64 hl n (ZeroTarget.step h hr.step) (hr.step.cfg.trans hc)
      ((hr.keeps (attemptActs_keep p c content)).trans hu)
    refine ⟨u, hu, ?_⟩
    rw [List.replicate_succ, List.flatten_cons]
    exact hr.trans hs

/-! ### The content of a block -/

/-- The new content of a block, on a target that reads all zeros (R198). -/
def blockContent (a : Nat) (data : List Byte) (c : Nat) : List Byte :=
  if a % 64 = 0 ∧ data.length % 64 = 0 then blockSlice a c data else splice a c data (List.replicate 64 0)

theorem blockContent_length {a : Nat} {data : List Byte} {c : Nat} (hc : c ∈ chunks a data.length) :
    (blockContent a data c).length = 64 := by
  unfold blockContent
  split
  · obtain ⟨k, hk, rfl⟩ := List.mem_map.1 hc
    rw [List.mem_range] at hk
    simp [blockSlice]; omega
  · simp [splice]

theorem blockContent_zero {a : Nat} {data : List Byte} {c : Nat} (hc : c ∈ chunks a data.length)
    (hz : ∀ b ∈ data, b = 0) : blockContent a data c = List.replicate 64 0 := by
  refine List.eq_replicate_iff.2 ⟨blockContent_length hc, ?_⟩
  unfold blockContent
  split
  · exact fun b hb => hz b (List.mem_of_mem_drop (List.mem_of_mem_take hb))
  · intro b hb
    obtain ⟨i, hi, rfl⟩ := List.mem_mapIdx.1 hb
    split
    · rw [List.getD_eq_getElem?_getD, List.getElem?_eq_getElem (by omega)]
      exact hz _ (List.getElem_mem _)
    · exact List.getElem_replicate _

/-- A byte that is not 0 makes the content of its own block differ from zeros. -/
theorem blockContent_nonzero {a : Nat} {data : List Byte} (hz : ∃ b ∈ data, b ≠ 0) :
    ∃ c ∈ chunks a data.length, blockContent a data c ≠ List.replicate 64 0 := by
  obtain ⟨b, hb, hne⟩ := hz
  obtain ⟨i, hi, rfl⟩ := List.getElem_of_mem hb
  refine ⟨a - a % 64 + 64 * ((a % 64 + i) / 64), List.mem_map.2 ⟨_, List.mem_range.2 (by omega), rfl⟩, fun e => ?_⟩
  have h0 := congrArg (fun l : List Byte => l[(a + i) % 64]?) e
  rw [List.getElem?_replicate, if_pos (by omega)] at h0
  unfold blockContent at h0
  split at h0
  · rw [blockSlice, List.getElem?_take_of_lt (by omega), List.getElem?_drop,
      show a - a % 64 + 64 * ((a % 64 + i) / 64) - a + (a + i) % 64 = i by omega, List.getElem?_eq_getElem hi] at h0
    exact hne (by simpa using h0)
  · simp only [splice, List.getElem?_mapIdx] at h0
    rw [List.getElem?_replicate, if_pos (by omega)] at h0
    simp only [Option.map_some] at h0
    rw [if_pos (by omega), show a - a % 64 + 64 * ((a % 64 + i) / 64) + (a + i) % 64 - a = i by omega,
      List.getD_eq_getElem?_getD, List.getElem?_eq_getElem hi] at h0
    exact hne (by simpa using h0)

/-- It is what `Safety.newBlock` says. -/
theorem blockContent_eq {a : Nat} {data : List Byte} {c : Nat} (hc : c ∈ chunks a data.length) :
    blockContent a data c = newBlock a c data := by
  obtain ⟨k, hk, rfl⟩ := List.mem_map.1 hc
  rw [List.mem_range] at hk
  have hlen := blockContent_length hc
  unfold blockContent at hlen ⊢
  split
  · rename_i h
    rw [if_pos h] at hlen
    refine List.ext_getElem (by rw [hlen]; simp [newBlock]) fun i h1 h2 => ?_
    have hi : i < 64 := hlen ▸ h1
    simp only [newBlock, List.getElem_map, List.getElem_range, blockSlice, List.getElem_take, List.getElem_drop]
    rw [if_pos (by omega), List.getD_eq_getElem?_getD, List.getElem?_eq_getElem (by omega)]
    simp only [Option.getD_some]
    congr 1
    omega
  · refine List.ext_getElem (by simp [splice, newBlock]) fun i h1 h2 => ?_
    simp only [newBlock, List.getElem_map, List.getElem_range, splice, List.getElem_mapIdx, List.getElem_replicate]

theorem newBlock_length (a c : Nat) (data : List Byte) : (newBlock a c data).length = 64 := by simp [newBlock]

theorem newBlock_zero {a : Nat} {data : List Byte} {c : Nat} (hc : c ∈ chunks a data.length) (hz : ∀ b ∈ data, b = 0) :
    newBlock a c data = List.replicate 64 0 := by rw [← blockContent_eq hc]; exact blockContent_zero hc hz

/-- The first block whose new content is not all zeros. -/
theorem newBlock_first {a : Nat} {data : List Byte} (hz : ∃ b ∈ data, b ≠ 0) : ∃ pre c post,
    chunks a data.length = pre ++ c :: post ∧ (∀ d ∈ pre, newBlock a d data = List.replicate 64 0) ∧
      newBlock a c data ≠ List.replicate 64 0 := by
  have key : ∀ cs : List Nat, (∃ c ∈ cs, newBlock a c data ≠ List.replicate 64 0) → ∃ pre c post,
      cs = pre ++ c :: post ∧ (∀ d ∈ pre, newBlock a d data = List.replicate 64 0) ∧
        newBlock a c data ≠ List.replicate 64 0 := by
    intro cs
    induction cs with
    | nil => simp
    | cons d cs ih =>
      intro h
      by_cases hd : newBlock a d data = List.replicate 64 0
      · obtain ⟨pre, c, post, rfl, h1, h2⟩ := ih (by
          obtain ⟨c, hc, hn⟩ := h
          rcases List.mem_cons.1 hc with rfl | hc
          · exact absurd hd hn
          · exact ⟨c, hc, hn⟩)
        refine ⟨d :: pre, c, post, rfl, fun x hx => ?_, h2⟩
        rcases List.mem_cons.1 hx with rfl | hx
        · exact hd
        · exact h1 x hx
      · exact ⟨[], d, cs, rfl, by simp, hd⟩
  obtain ⟨c, hc, hn⟩ := blockContent_nonzero (a := a) hz
  exact key _ ⟨c, hc, by rwa [blockContent_eq hc] at hn⟩

/-! ### The range -/

/-- A block of a flash write is the verified write of its content, after what reads it may need. -/
theorem blobFlashBlock_zero {p : Params} {a : Nat} {data : List Byte} {c : Nat} {s : State} (h : ZeroTarget s)
    (hc : s.cfg = p) (hm : c ∈ chunks a data.length) (hw : c + 64 ≤ 2 ^ 32) :
    ∃ t, blobFlashBlock a data c s = writeVerify c (newBlock a c data) p.verifyRetries t ∧
      Ran s t (spliceActs a data.length c) := by
  rw [← blockContent_eq hm]
  unfold blobFlashBlock blockContent spliceActs
  split
  · exact ⟨s, by rw [hc], Ran.refl s⟩
  · obtain ⟨t, ht, hr⟩ := runs_blobRead h hw
    refine ⟨t, ?_, hr⟩
    rw [ht]
    simp only [Res.bind]
    rw [hr.step.cfg, hc]

theorem spliceActs_keep (a n c : Nat) : ∀ x ∈ spliceActs a n c, keepsLock x = true := by
  unfold spliceActs
  split
  · simp
  · exact blobReadActs_keep c 64

/-- A block whose new content is all zeros. -/
theorem runs_blobFlashBlock {p : Params} {a : Nat} {data : List Byte} {c : Nat} {s : State} (h : ZeroTarget s)
    (hc : s.cfg = p) (hu : s.flashUnlocked = true) (hn : 1 ≤ data.length) (hf : classify p a data.length = .flash)
    (hm : c ∈ chunks a data.length) (hz : newBlock a c data = List.replicate 64 0) :
    Runs (blobFlashBlock a data c s) s () (spliceActs a data.length c ++ attemptActs p c (List.replicate 64 0)) := by
  obtain ⟨h1, h2, h3⟩ := chunk_flash (hc ▸ h.valid) hn hf hm
  obtain ⟨t, ht, hr⟩ := blobFlashBlock_zero h hc hm h2
  rw [ht, hz]
  exact Runs.from hr (runs_writeVerify (ZeroTarget.step h hr.step) (hr.step.cfg.trans hc)
    ((hr.keeps (spliceActs_keep _ _ _)).trans hu) h1 h2 h3 _)

/-- Blocks whose new content is all zeros. -/
theorem runs_zeroBlocks {p : Params} {a : Nat} {data : List Byte} {s : State} (h : ZeroTarget s) (hc : s.cfg = p)
    (hu : s.flashUnlocked = true) (hn : 1 ≤ data.length) (hf : classify p a data.length = .flash) (cs : List Nat)
    (hm : ∀ c ∈ cs, c ∈ chunks a data.length) (hz : ∀ c ∈ cs, newBlock a c data = List.replicate 64 0) :
    Runs (runEach (blobFlashBlock a data) cs s) s () (zeroBlocksActs p a data.length cs) :=
  Runs.each (p := p) (fun t => t.flashUnlocked = true) cs s h hc hu
    (fun c hcs _ ht hct hut => runs_blobFlashBlock ht hct hut hn hf (hm c hcs) (hz c hcs))
    fun c _ _ _ hut hr => (hr.keeps fun x hx => by
      rcases List.mem_append.1 hx with hx | hx
      · exact spliceActs_keep _ _ _ x hx
      · exact attemptActs_keep _ _ _ x hx).trans hut

theorem zeroBlocksActs_keep (p : Params) (a n : Nat) (cs : List Nat) : ∀ x ∈ zeroBlocksActs p a n cs, keepsLock x = true := by
  intro x hx
  obtain ⟨c, -, hx⟩ := List.mem_flatMap.1 hx
  rcases List.mem_append.1 hx with hx | hx
  · exact spliceActs_keep _ _ _ x hx
  · exact attemptActs_keep _ _ _ x hx

/-- Zero bytes verify. -/
theorem runs_blobWriteFlash {p : Params} {a : Nat} {data : List Byte} {s : State} (h : ZeroTarget s) (hc : s.cfg = p)
    (hn : 1 ≤ data.length) (hf : classify p a data.length = .flash) (hz : ∀ b ∈ data, b = 0) :
    Runs (blobWriteFlash a data s) s ()
      (ensureActs p s.flashUnlocked ++ zeroBlocksActs p a data.length (chunks a data.length)) :=
  Runs.ensure h hc fun _ ht hct hut => runs_zeroBlocks ht hct hut hn hf _ (fun _ h => h) fun _ hm => newBlock_zero hm hz

theorem runEach_append {β : Type} (f : β → State → Res Unit) : ∀ (bs cs : List β) (s : State),
    runEach f (bs ++ cs) s = (runEach f bs s).bind fun _ s => runEach f cs s
  | [], _, _ => rfl
  | b :: bs, cs, s => by
    simp only [List.cons_append, runEach]
    cases f b s with
    | err e t => rfl
    | ok a t => exact runEach_append f bs cs t

/-- The first block that gets another byte fails after its retries, and ends the write (R201). -/
theorem blobWriteFlash_mismatch {p : Params} {a : Nat} {data : List Byte} {s : State} (h : ZeroTarget s) (hc : s.cfg = p)
    (hn : 1 ≤ data.length) (hf : classify p a data.length = .flash) {pre post : List Nat} {c : Nat}
    (hch : chunks a data.length = pre ++ c :: post) (hpre : ∀ d ∈ pre, newBlock a d data = List.replicate 64 0)
    (hb : newBlock a c data ≠ List.replicate 64 0) :
    ∃ t, blobWriteFlash a data s = .err .verifyMismatch t ∧
      Ran s t (ensureActs p s.flashUnlocked ++ zeroBlocksActs p a data.length pre ++ spliceActs a data.length c
        ++ (List.replicate (p.verifyRetries + 1) (attemptActs p c (newBlock a c data))).flatten) := by
  have hm : c ∈ chunks a data.length := by rw [hch]; simp
  obtain ⟨h1, h2, h3⟩ := chunk_flash (hc ▸ h.valid) hn hf hm
  obtain ⟨t, ht, hr⟩ := runs_ensureUnlocked h hc
  have hut : t.flashUnlocked = true := hr.ensured
  have hzt := ZeroTarget.step h hr.step
  have hct := hr.step.cfg.trans hc
  obtain ⟨u, hu, hru⟩ := runs_zeroBlocks hzt hct hut hn hf pre (fun d hd => by rw [hch]; simp [hd]) hpre
  have huu : u.flashUnlocked = true := (hru.keeps (zeroBlocksActs_keep _ _ _ _)).trans hut
  have hzu := ZeroTarget.step hzt hru.step
  have hcu := hru.step.cfg.trans hct
  obtain ⟨v, hv, hrv⟩ := blobFlashBlock_zero hzu hcu hm h2
  obtain ⟨w, hw, hrw⟩ := writeVerify_mismatch hb h1 h2 h3 (newBlock_length a c data) p.verifyRetries
    (ZeroTarget.step hzu hrv.step) (hrv.step.cfg.trans hcu) ((hrv.keeps (spliceActs_keep _ _ _)).trans huu)
  refine ⟨w, ?_, ((hr.trans hru).trans hrv).trans hrw⟩
  unfold blobWriteFlash
  rw [ht]
  simp only [Res.bind]
  rw [hch, runEach_append, hu]
  simp only [Res.bind, runEach]
  rw [hv, hw]

/-! ### A block against given answers (R198, R201) -/

theorem blockReads {c : Nat} (hc : c % 4 = 0) : ∃ xs : List Word, xs.length = 16 ∧ blobReads 64 c 64 = xs.map .word := by
  refine ⟨(List.range 16).map fun k => BitVec.ofNat 32 (c + 4 * k), by simp, ?_⟩
  have step : ∀ (k fuel p : Nat), p % 4 = 0 → k ≤ fuel → blobReads fuel p (4 * k)
      = ((List.range k).map fun j => BitVec.ofNat 32 (p + 4 * j)).map .word := by
    intro k
    induction k with
    | zero => intro fuel p _ _; cases fuel <;> simp [blobReads]
    | succ k ih =>
      intro fuel p hp hf
      obtain ⟨f, rfl⟩ : ∃ f, fuel = f + 1 := ⟨fuel - 1, by omega⟩
      rw [blobReads, if_neg (by omega), if_pos ⟨hp, by omega⟩, show 4 * (k + 1) - 4 = 4 * k by omega,
        ih f (p + 4) (by omega) (by omega), List.range_succ_eq_map]
      simp only [List.map_cons, List.map_map, Nat.mul_zero, Nat.add_zero]
      congr 1
      refine List.map_congr_left fun j _ => ?_
      simp only [Function.comp]
      congr 2
      omega
  exact step 16 64 c hc (by omega)

/-- What is read of a block is made of words. -/
theorem readData_block {c : Nat} (hc : c % 4 = 0) {rs : Reads} (h : rs.length = 16) :
    readData (blobReads 64 c 64) rs = wordsData rs := by
  obtain ⟨xs, hx, e⟩ := blockReads hc
  rw [e]
  have : ∀ (xs : List Word) (rs : Reads), rs.length = xs.length → readData (xs.map .word) rs = wordsData rs := by
    intro xs
    induction xs with
    | nil => intro rs h; obtain rfl : rs = [] := List.eq_nil_of_length_eq_zero h; rfl
    | cons x xs ih =>
      intro rs h
      match rs, h with
      | r :: rs, h =>
        have := ih rs (by simpa using h)
        simp only [readData, wordsData, List.map_cons, List.zipWith_cons_cons, List.flatten_cons, List.flatMap_cons] at this ⊢
        rw [this]
  exact this xs rs (by omega)

theorem blockReads_length {c : Nat} (hc : c % 4 = 0) : (blobReads 64 c 64).length = 16 := by
  obtain ⟨xs, hx, e⟩ := blockReads hc
  rw [e, List.length_map, hx]

/-- The read-back of a block. -/
theorem script_blockRead {p : Params} {c : Nat} {rs : Reads} {rest : List SlotDraw} {s : State} (hc : c % 64 = 0)
    (hw : c + 64 ≤ 2 ^ 32) (ho : ReadsOk p 16 rs) (h : Script p (readScript rs ++ rest) s) :
    Goes (blobRead c 64 s) s (wordsData rs) (readActs (blobReads 64 c 64) rs) (Script p rest) := by
  have := script_blobRead hw (by rwa [blockReads_length (by omega)]) h
  rwa [readData_block (by omega) ho.length] at this

theorem readActs_keep (xs : List BlobAccess) (rs : Reads) : ∀ a ∈ readActs xs rs, keepsLock a = true := by
  intro a ha
  obtain ⟨i, hi, rfl⟩ := List.getElem_of_mem ha
  simp only [readActs, List.getElem_zipWith]
  split <;> rfl

/-- One attempt, with the flash unlocked: it answers whether what is read back is the content (R201). -/
theorem script_writeVerifyOnce {p : Params} {c : Nat} {content : List Byte} {back : Reads} {rest : List SlotDraw} {s : State}
    (hu : s.flashUnlocked = true) (hf : classify p c 64 = .flash) (hw : c + 64 ≤ 2 ^ 32) (h64 : c % 64 = 0)
    (hl : content.length = 64) (ho : ReadsOk p 16 back) (h : Script p (attemptScript back ++ rest) s) :
    Goes (writeVerifyOnce c content s) s (wordsData back == content)
      (eraseChunkActs p c ++ programActs p c content ++ readActs (blobReads 64 c 64) back) (Script p rest) := by
  unfold attemptScript at h
  rw [List.append_assoc, zeros_split 8 21] at h
  unfold writeVerifyOnce
  rw [List.append_assoc]
  have h1 : Goes (flashErasePages c 64 s) s () (eraseChunkActs p c) (Script p (List.replicate (21 * 32) zeroDraw
      ++ (readScript back ++ rest))) := by
    obtain ⟨t, ht, hr⟩ := script_eraseChunk c h
    refine ⟨t, ?_, hr⟩
    unfold flashErasePages
    rw [if_neg (by decide), if_neg (by simpa [wraps, h.cfg, hf] using hw), chunks_block h64]
    unfold ensureUnlocked
    rw [if_pos hu]
    simp only [Res.bind, runEach, ht]
  refine Goes.bind h1 fun t ht h => ?_
  have hut := (ht.keeps (eraseChunkActs_keep p c)).trans hu
  refine Goes.bind (script_flashWriteBlock hut h64 (by omega) (by omega) hf h) fun t _ h => ?_
  exact Goes.map (script_blockRead h64 hw ho h) fun b => b == content

/-- The attempts at a block: those that fail, and the last (R201). -/
theorem script_writeVerify {p : Params} {c : Nat} {content : List Byte} {last : Reads} (hf : classify p c 64 = .flash)
    (hw : c + 64 ≤ 2 ^ 32) (h64 : c % 64 = 0) (hl : content.length = 64) (ho : ReadsOk p 16 last) (he : wordsData last = content) :
    ∀ (failed : List Reads) (n : Nat) {rest : List SlotDraw} {s : State}, s.flashUnlocked = true → failed.length ≤ n →
    (∀ rs ∈ failed, ReadsOk p 16 rs ∧ wordsData rs ≠ content) →
    Script p ((failed ++ [last]).flatMap attemptScript ++ rest) s →
    Goes (writeVerify c content n s) s () ((failed ++ [last]).flatMap fun back =>
      eraseChunkActs p c ++ programActs p c content ++ readActs (blobReads 64 c 64) back) (Script p rest)
  | [], n, rest, s, hu, _, _, h => by
    obtain ⟨t, ht, hr, hs⟩ := script_writeVerifyOnce (rest := rest) hu hf hw h64 hl ho (by simpa using h)
    refine ⟨t, ?_, by simpa using hr, hs⟩
    cases n <;> (unfold writeVerify; rw [ht]; simp only [Res.bind]; rw [if_pos (by simpa using he)])
  | b :: failed, n, rest, s, hu, hn, hb, h => by
    obtain ⟨hob, hne⟩ := hb b List.mem_cons_self
    obtain ⟨n, rfl⟩ : ∃ m, n = m + 1 := ⟨n - 1, by simp at hn; omega⟩
    obtain ⟨t, ht, hr, hs⟩ := script_writeVerifyOnce (rest := (failed ++ [last]).flatMap attemptScript ++ rest) hu hf hw h64 hl hob
      (by simpa using h)
    have hut : t.flashUnlocked = true := (hr.keeps fun x hx => by
      simp only [List.mem_append] at hx
      rcases hx with (hx | hx) | hx
      · exact eraseChunkActs_keep p c x hx
      · exact programActs_keep p c content x hx
      · exact readActs_keep _ _ x hx).trans hu
    obtain ⟨u, hu', hru, hsu⟩ := script_writeVerify hf hw h64 hl ho he failed n hut (by simpa using hn)
      (fun rs hrs => hb rs (List.mem_cons_of_mem _ hrs)) hs
    refine ⟨u, ?_, ?_, hsu⟩
    · unfold writeVerify
      rw [ht]
      simp only [Res.bind]
      rw [if_neg (by simpa using hne)]
      exact hu'
    · rw [List.cons_append, List.flatMap_cons]
      exact hr.trans hru

end Sys2Proof.Laws
end

