-- ==== Sys2Proof/Laws/Update.lean ====
section
/-!
SUPPORT. The update run's surroundings: a clock that stands still (R245, R246), the bytes of an upload (R241), a line that never
answers (R123 (c), R144), and a terminal that the flasher disconnected (R297).
-/
namespace Sys2Proof.Laws

open Sys2Proof.Machine Sys2Proof.Safety
open Sys2Proof.Config (Params SlotDraw SeqStep)

/-! ### A clock that stands still -/

theorem readClock_still {s : State} (h : ClockStill s) : readClock s = s := by
  have h1 := h.script
  have h2 := h.rest
  cases s
  subst h1 h2
  rfl

theorem refresh_still {s : State} (h : ClockStill s) :
    refresh s = { s with watchdogDeadline := s.now + s.cfg.watchdogTimeout } := by
  unfold refresh
  rw [readClock_still h]

/-- A `WatchdogStep` before the deadline goes on, with a new deadline (R246). -/
theorem watched_still {s : State} (h : ClockStill s) (hd : s.now ≤ s.watchdogDeadline) (k : State → AttemptEnd) :
    watched s k = k { s with watchdogDeadline := s.now + s.cfg.watchdogTimeout } := by
  have hc : watchdogCheck s = (false, s) := by
    unfold watchdogCheck
    split
    · rfl
    · rw [readClock_still h]; dsimp only; rw [if_neg (by omega)]
  unfold watched watchdogStep
  rw [hc]
  dsimp only
  rw [refresh_still h]

/-! ### The bytes of an upload -/

/-- A chunk that completes an upload makes every byte of it readable; if every byte is 0, so is what is read. -/
theorem Memory.readBytes_writeBytes (m : Memory) (r n : Nat) (data : List Byte) (hn : r + data.length = n)
    (hm : ∀ i < r, (Memory.read m i).isSome) :
    ∃ bs, Memory.readBytes (Memory.writeBytes m r data) 0 n = .ok bs ∧ bs.length = n ∧
      (((∀ i < r, Memory.read m i = some 0) ∧ ∀ b ∈ data, b = 0) → ∀ b ∈ bs, b = 0) := by
  have hw : ∀ j, ¬ j < r → j < n → ∃ b ∈ data, Memory.read (Memory.writeBytes m r data) j = some b := fun j hjr hj => by
    have hk : j - r < data.length := by omega
    have := Memory.read_writeBytes data m r (j - r) _ (List.getElem?_eq_getElem hk)
    rw [show r + (j - r) = j by omega] at this
    exact ⟨_, List.getElem_mem hk, this⟩
  obtain ⟨bs, h1, h2, h3⟩ := Memory.readBytes_ok (Memory.writeBytes m r data) n 0 fun j _ hj => by
    by_cases hjr : j < r
    · rw [Memory.read_writeBytes_of_outside _ _ _ _ (.inl hjr)]; exact hm j hjr
    · obtain ⟨b, -, hb⟩ := hw j hjr (by omega)
      rw [hb]; rfl
  refine ⟨bs, h1, h2, fun ⟨ha, hb⟩ b hbm => ?_⟩
  obtain ⟨j, hj, rfl⟩ := List.getElem_of_mem hbm
  have := h3 j bs[j] (List.getElem?_eq_getElem hj)
  rw [Nat.zero_add] at this
  by_cases hjr : j < r
  · rw [Memory.read_writeBytes_of_outside _ _ _ _ (.inl hjr), ha j hjr] at this
    exact (Option.some.inj this).symm
  · obtain ⟨c, hc, hr⟩ := hw j hjr (by omega)
    rw [hr] at this
    rw [← Option.some.inj this]
    exact hb c hc

/-! ### A line that never answers -/

theorem DeadLine.step {s t : State} (h : DeadLine s) (k : LinkStep s t) : DeadLine t where
  valid := k.cfg ▸ h.valid
  pin := k.pinMask ▸ h.pin
  script := by
    have := k.slotIn
    rw [h.script] at this
    exact List.suffix_nil.1 this
  rest := k.slotRest ▸ h.rest

/-- A read frame of the control agent ends with a bus fault (R144). -/
theorem fr_dead {s : State} (h : DeadLine s) (cmd : Cmd) : ∃ t, fr cmd s = .err .busFault t ∧ LinkStep s t := by
  have h1 := LinkStep.rel.termTurn s
  have hd := DeadLine.step h h1
  have hs := LinkStep.rel.fr cmd s
  obtain ⟨b, hb⟩ := hd.rest
  have key : ∃ t, frameRead .control cmd (termTurn s) = .err .busFault t := by
    rw [frameRead, if_neg hd.pin]
    dsimp only
    have hn : ∀ u : State, u.slotIn = [] → u.slotRest = some ⟨b, none⟩ →
        nextDraw u = (⟨b, none⟩, { u with slotIn := u.slotIn, slotCount := u.slotCount }) := fun u h1 h2 => by
      simp only [nextDraw, h1, h2]
    have hn := hn (sendBits (termTurn s).timingCoefficient.toNat (headerBits cmd false) (takePort .control (termTurn s)))
      (by simpa using hd.script) (by simpa using hb)
    rw [readSlots, readBit_of_draw hn]
    simp [seenHigh]
  obtain ⟨t, ht⟩ := key
  have e : fr cmd s = .err .busFault t := ht
  exact ⟨_, e, by rwa [e] at hs⟩

/-- So the completion poll fails, and with it the halt/reset controller (R250). -/
theorem haltctl_dead {s : State} (h : DeadLine s) (m : HaltMode) : ∃ e t, haltctl m s = .err e t ∧ LinkStep s t := by
  have hs := LinkStep.rel.haltctl m s
  cases hr : haltctl m s with
  | err e t => exact ⟨e, t, rfl, by rwa [hr] at hs⟩
  | ok a t =>
    exfalso
    have hw : ∀ u, LinkStep s u → ∃ e t, waitAbstract u = .err e t := fun u hu => by
      have hd := DeadLine.step h hu
      unfold waitAbstract
      obtain ⟨n, hn⟩ : ∃ n, u.cfg.absPollLimit = n + 1 := ⟨u.cfg.absPollLimit - 1, by have := hd.valid.absPollLimit; omega⟩
      obtain ⟨t, ht, -⟩ := fr_dead hd u.cfg.dmAbstractCs
      rw [hn, pollAbstract, ht]
      exact ⟨_, _, rfl⟩
    have h0 := LinkStep.rel.dropProgram s
    have h1 := h0.trans (LinkStep.rel.runSteps s.cfg.seqPre (dropProgram s))
    unfold haltctl at hr
    cases e1 : runSteps s.cfg.seqPre (dropProgram s) with
    | err e u => rw [e1] at hr; cases hr
    | ok a1 u1 =>
      rw [e1] at hr h1
      simp only [Res.bind] at hr
      have h2 : LinkStep u1 (if m = .rebootBoot then runSteps u1.cfg.seqBootKeys u1 else .ok () u1).state := by
        split
        · exact LinkStep.rel.runSteps _ u1
        · exact LinkStep.refl u1
      cases e2 : (if m = .rebootBoot then runSteps u1.cfg.seqBootKeys u1 else .ok () u1) with
      | err e u => rw [e2] at hr; cases hr
      | ok a2 u2 =>
        rw [e2] at hr h2
        dsimp only at hr
        have h3 := LinkStep.rel.runSteps (modeSteps u2.cfg m) u2
        cases e3 : runSteps (modeSteps u2.cfg m) u2 with
        | err e u => rw [e3] at hr; cases hr
        | ok a3 u3 =>
          rw [e3] at hr h3
          obtain ⟨e, v, he⟩ := hw u3 ((h1.trans h2).trans h3)
          dsimp only at hr
          rw [he] at hr
          cases hr

/-! ### A disconnected terminal -/

/-- An operation that runs while `active` is set leaves a disconnected terminal disconnected (R297 (b)). -/
theorem LinkStep.disconnected {s t : State} (h : LinkStep s t) (ha : s.active = true) (hc : s.terminalConnected = false) :
    t.terminalConnected = false := by
  cases ht : t.terminalConnected with
  | false => rfl
  | true => rcases h.connected ht with e | e <;> simp_all

end Sys2Proof.Laws
end

