-- ==== Sys2Proof/Laws/Session.lean ====
section
/-!
SUPPORT. What an update run can do, said once (`UpdateEnd`), for every target, terminal and clock (R242 to R246): how the session ends,
how many retries it took, and that nothing else differs but the clock, the deadline and the link's own state. Also what a reading of
the clock, a refresh and the watchdog check can do.
-/
namespace Sys2Proof.Laws

open Sys2Proof.Machine Sys2Proof.Safety
open Sys2Proof.Config (Params SlotDraw SeqStep)

/-! ### The clock and the watchdog -/

/-- A reading of the clock (R246). -/
theorem readClock_spec (s : State) : ∃ n c k, readClock s = { s with now := n, clockIn := c, clockCount := k } ∧ s.now ≤ n := by
  unfold readClock
  split
  · exact ⟨_, _, s.clockCount, rfl, Nat.le_add_right _ _⟩
  · split
    · exact ⟨_, s.clockIn, s.clockCount, rfl, Nat.le_add_right _ _⟩
    · exact ⟨_, s.clockIn, _, rfl, Nat.le_add_right _ _⟩

/-- A refresh of the deadline (R245). -/
theorem refresh_spec (s : State) : ∃ n c k, refresh s =
    { s with now := n, clockIn := c, clockCount := k, watchdogDeadline := n + s.cfg.watchdogTimeout } ∧ s.now ≤ n := by
  obtain ⟨n, c, k, h, hn⟩ := readClock_spec s
  exact ⟨n, c, k, by unfold refresh; rw [h], hn⟩

/-- The watchdog check (R246): nothing happens, or the clock is read, or the session expires. -/
theorem watchdogCheck_spec (s : State) : ∃ n c k,
    watchdogCheck s = (false, { s with now := n, clockIn := c, clockCount := k }) ∨
    watchdogCheck s = (true, { s with
      now := n, clockIn := c, clockCount := k
      error := if inFlight s then ErrKind.timeout.code else s.error
      status := .idle
      active := if inFlight s then false else s.active }) := by
  obtain ⟨n, c, k, h, -⟩ := readClock_spec s
  unfold watchdogCheck
  split
  · exact ⟨s.now, s.clockIn, s.clockCount, .inl rfl⟩
  · refine ⟨n, c, k, ?_⟩
    dsimp only
    split
    · right
      rw [h]
      unfold expire
      cases hi : inFlight s
      · have : inFlight { s with now := n, clockIn := c, clockCount := k } = false := hi
        rw [this]; rfl
      · have : inFlight { s with now := n, clockIn := c, clockCount := k } = true := hi
        rw [this]; rfl
    · left; rw [h]

/-! ### The update run -/

/-- `s` with what an update run changes while it is in progress, as `t` has it. -/
def clocked (s t : State) : State :=
  { s with
    error := t.error
    currentRetry := t.currentRetry
    watchdogDeadline := t.watchdogDeadline
    now := t.now
    clockIn := t.clockIn
    clockCount := t.clockCount }

/-- An update run that started in `s` is in progress in `t`. -/
def Running (s t : State) : Prop := LinkStep (clocked s t) t

theorem Running.refl (s : State) : Running s s := LinkStep.refl s

theorem running_status {s t : State} (h : Running s t) : t.status = s.status :=
  (show LinkStep (clocked s t) t from h).status

theorem Running.link {s t u : State} (h : Running s t) (k : LinkStep t u) : Running s u := by
  have e : clocked s u = clocked s t := by
    unfold clocked
    rw [k.error, k.currentRetry, k.watchdogDeadline, k.now, k.clockIn, k.clockCount]
  show LinkStep (clocked s u) u
  rw [e]
  exact LinkStep.trans h k

/-- A change of what an update run may change. -/
theorem Running.change {s t : State} (h : Running s t) (e r : Word) (d n : Nat) (c : List Nat) (k : Nat) : Running s { t with
    error := e, currentRetry := r, watchdogDeadline := d, now := n, clockIn := c, clockCount := k } := by
  obtain ⟨⟨⟩⟩ := h
  constructor
  case toOnlyLink => constructor <;> first | rfl | assumption
  all_goals assumption

theorem Running.refresh {s t : State} (h : Running s t) : Running s (refresh t) := by
  obtain ⟨n, c, k, e, -⟩ := refresh_spec t
  rw [e]
  exact h.change t.error t.currentRetry _ n c k

/-- How an update run from `s` can end (R242 to R246). -/
structure UpdateEnd (s t : State) : Prop where
  link : LinkStep { clocked s t with status := t.status, active := false } t
  outcome : (t.status = .success ∧ t.error = 0) ∨ (t.status = .failed ∧ ∃ e : ErrKind, t.error = e.code) ∨
    (t.status = .idle ∧ t.error = ErrKind.timeout.code)
  retries : s.currentRetry.toNat ≤ t.currentRetry.toNat ∧ t.currentRetry.toNat ≤ s.retryBudget.toNat

theorem Running.close {s t : State} (h : Running s t) (e : Word) (st : Status) (d n : Nat) (c : List Nat) (k : Nat)
    (ho : (st = .success ∧ e = 0) ∨ (st = .failed ∧ ∃ x : ErrKind, e = x.code) ∨ (st = .idle ∧ e = ErrKind.timeout.code))
    (hr : s.currentRetry.toNat ≤ t.currentRetry.toNat ∧ t.currentRetry.toNat ≤ s.retryBudget.toNat) : UpdateEnd s { t with
    error := e, status := st, active := false, watchdogDeadline := d, now := n, clockIn := c, clockCount := k } where
  link := by
    obtain ⟨⟨⟩⟩ := h
    constructor
    case toOnlyLink => constructor <;> first | rfl | assumption | exact fun _ => .inr rfl
    all_goals assumption
  outcome := ho
  retries := hr

/-- The retries a run in progress may have taken. -/
abbrev RetriesOk (s t : State) : Prop :=
  s.currentRetry.toNat ≤ t.currentRetry.toNat ∧ t.currentRetry.toNat ≤ s.retryBudget.toNat

/-- How an attempt can end, in a run from `s` whose retries stand at `r`. -/
def AttemptOk (s : State) (r : Word) : AttemptEnd → Prop
  | .done t => Running s t ∧ t.currentRetry = r
  | .failed _ t => Running s t ∧ t.currentRetry = r
  | .aborted t => UpdateEnd s t

theorem watched_spec {s t : State} (hs : s.status = .updating) (h : Running s t) (hr : RetriesOk s t)
    {k : State → AttemptEnd} (hk : ∀ u, Running s u → u.currentRetry = t.currentRetry → AttemptOk s t.currentRetry (k u)) :
    AttemptOk s t.currentRetry (watched t k) := by
  have hst : t.status = .updating := (running_status h).trans hs
  have hi : inFlight t = true := by simp [inFlight, hst]
  unfold watched watchdogStep
  obtain ⟨n, c, x, hw | hw⟩ := watchdogCheck_spec t
  · rw [hw]
    have h1 := (h.change t.error t.currentRetry t.watchdogDeadline n c x).refresh
    refine hk _ h1 ?_
    obtain ⟨_, _, _, e, -⟩ := refresh_spec { t with now := n, clockIn := c, clockCount := x }
    rw [e]
  · rw [hw, hi]
    exact h.close _ .idle t.watchdogDeadline n c x (.inr (.inr ⟨rfl, rfl⟩)) hr

theorem attemptStep_spec {s t : State} {r : Res Unit} (hs : s.status = .updating) (h : Running s t) (hr : RetriesOk s t)
    (hl : LinkStep t r.state) {k : State → AttemptEnd}
    (hk : ∀ u, Running s u → u.currentRetry = t.currentRetry → AttemptOk s t.currentRetry (k u)) :
    AttemptOk s t.currentRetry (attemptStep r k) := by
  cases r with
  | ok a u =>
    have hu : LinkStep t u := hl
    have := watched_spec hs (h.link hu) (by rw [RetriesOk, hu.currentRetry]; exact hr) (k := k) fun v hv he => by
      rw [hu.currentRetry] at he ⊢
      exact hk v hv he
    rwa [hu.currentRetry] at this
  | err e u => exact ⟨h.link hl, (hl : LinkStep t u).currentRetry⟩

theorem attempt_spec (fl : Bool) (data : List Byte) {s t : State} (hs : s.status = .updating) (h : Running s t)
    (hr : RetriesOk s t) : AttemptOk s t.currentRetry (attempt fl data t) := by
  unfold attempt
  refine watched_spec hs h hr fun u hu eu => ?_
  rw [← eu]
  refine attemptStep_spec hs hu (by rw [RetriesOk, eu]; exact hr) (LinkStep.rel.linkInit LinkStep.discard u) fun v hv ev => ?_
  rw [← ev]
  refine attemptStep_spec hs hv (by rw [RetriesOk, ev, eu]; exact hr) (LinkStep.rel.haltctl _ v) fun w hw ew => ?_
  rw [← ew]
  exact attemptStep_spec hs hw (by rw [RetriesOk, ew, ev, eu]; exact hr) (LinkStep.rel.blobWrite _ _ _ w)
    fun x hx ex => ⟨hx, ex⟩

theorem failSession_spec (e : ErrKind) {s t : State} (h : Running s t) (hr : RetriesOk s t) :
    UpdateEnd s (failSession e t) := by
  obtain ⟨n, c, k, h1, -⟩ := refresh_spec { t with error := e.code, status := .failed, active := false }
  unfold failSession
  rw [h1]
  exact h.close _ _ _ n c k (.inr (.inl ⟨rfl, e, rfl⟩)) hr

theorem finishUpdate_spec (fl : Bool) {s t : State} (h : Running s t) (hr : RetriesOk s t) :
    UpdateEnd s (finishUpdate fl t) := by
  have hl := LinkStep.rel.haltctl (if fl then .reboot else .resume) t
  unfold finishUpdate
  split
  · rename_i e u heq
    rw [heq] at hl
    have hu : LinkStep t u := hl
    exact failSession_spec e (h.link hu) (by rw [RetriesOk, hu.currentRetry]; exact hr)
  · rename_i a u heq
    rw [heq] at hl
    have hu : LinkStep t u := hl
    obtain ⟨n, c, k, h1, -⟩ := refresh_spec { u with error := 0, status := .success, active := false }
    rw [h1]
    exact (h.link hu).close _ _ _ n c k (.inl ⟨rfl, rfl⟩) (by rw [hu.currentRetry]; exact hr)

/-- The loop of an update run, with as many retries left as the budget allows (R242, R243). -/
theorem updateLoop_spec (fl : Bool) (data : List Byte) {s : State} (hs : s.status = .updating) :
    ∀ (n : Nat) (t : State), Running s t → s.currentRetry.toNat ≤ t.currentRetry.toNat →
    t.currentRetry.toNat + n ≤ s.retryBudget.toNat → UpdateEnd s (updateLoop fl data n t)
  | 0, t, h, hr, hn => by
    have ha := attempt_spec fl data hs h ⟨hr, by omega⟩
    unfold updateLoop
    split <;> rename_i heq <;> rw [heq] at ha
    · exact finishUpdate_spec fl ha.1 (by rw [RetriesOk, ha.2]; exact ⟨hr, by omega⟩)
    · exact failSession_spec _ ha.1 (by rw [RetriesOk, ha.2]; exact ⟨hr, by omega⟩)
    · exact ha
  | n + 1, t, h, hr, hn => by
    have ha := attempt_spec fl data hs h ⟨hr, by omega⟩
    unfold updateLoop
    split <;> rename_i heq <;> rw [heq] at ha
    · exact finishUpdate_spec fl ha.1 (by rw [RetriesOk, ha.2]; exact ⟨hr, by omega⟩)
    · rename_i e u
      have hlt := s.retryBudget.isLt
      obtain ⟨m, c, k, hR, -⟩ := refresh_spec { u with error := e.code, currentRetry := u.currentRetry + 1 }
      have h1 : (u.currentRetry + 1).toNat = t.currentRetry.toNat + 1 := by rw [ha.2]; simp; omega
      unfold retryUpdate
      rw [hR]
      exact updateLoop_spec fl data hs n _ (ha.1.change e.code (u.currentRetry + 1) _ m c k)
        (by show _ ≤ (u.currentRetry + 1).toNat; omega) (by show (u.currentRetry + 1).toNat + n ≤ _; omega)
    · exact ha

/-- The update run (R242). -/
theorem updateRun_spec (data : List Byte) {s : State} (hs : s.status = .updating)
    (hr : s.currentRetry.toNat ≤ s.retryBudget.toNat) : UpdateEnd s (updateRun data s) :=
  updateLoop_spec _ data hs _ s (Running.refl s) (Nat.le_refl _) (by omega)

end Sys2Proof.Laws
end

