-- ==== Sys2Proof/Laws/Terminal.lean ====
section
/-!
SUPPORT. What the terminal agent's turns do to the session tag, said once (`Marks`): which frames of the control agent an operation
sent, and that among those of the terminal there is no write frame, or the tag is `Terminal` at its end (R52). It holds of every
successful operation that sets no tag of its own: the frames, the address frame, the execute step, and a reprogramming once the tag is
invalidated.
-/
namespace Sys2Proof.Laws

open Sys2Proof.Machine Sys2Proof.Safety

/-- Frames were sent from `s` to `t`, those of the control agent being `cs`; the tag is `Terminal`, or it is as it was and the terminal
wrote none of the frames. -/
def Marks (s t : State) (cs : List FrameEvent) : Prop := ∃ fs, t.frameLog = s.frameLog ++ fs ∧ ofControl fs = cs ∧
  (t.sessionTag = .terminal ∨ t.sessionTag = s.sessionTag ∧ ¬ terminalWrote fs)

theorem ofControl_append (fs gs : List FrameEvent) : ofControl (fs ++ gs) = ofControl fs ++ ofControl gs := List.filter_append _ _

theorem terminalWrote_append {fs gs : List FrameEvent} : terminalWrote (fs ++ gs) ↔ terminalWrote fs ∨ terminalWrote gs := by
  simp only [terminalWrote, List.mem_append, exists_or]

theorem Marks.of_same {s t : State} (hf : t.frameLog = s.frameLog) (ht : t.sessionTag = s.sessionTag) : Marks s t [] :=
  ⟨[], hf.trans (List.append_nil _).symm, rfl, .inr ⟨ht, by simp [terminalWrote]⟩⟩

theorem Marks.refl (s : State) : Marks s s [] := Marks.of_same rfl rfl

theorem Marks.trans {s t u : State} {cs ds : List FrameEvent} : Marks s t cs → Marks t u ds → Marks s u (cs ++ ds)
  | ⟨fs, hf, hc, h⟩, ⟨gs, hg, hd, k⟩ => by
    refine ⟨fs ++ gs, by rw [hg, hf, List.append_assoc], by rw [ofControl_append, hc, hd], ?_⟩
    rcases k with k | ⟨k, kn⟩
    · exact .inl k
    · rcases h with h | ⟨h, hn⟩
      · exact .inl (k.trans h)
      · exact .inr ⟨k.trans h, fun hw => (terminalWrote_append.1 hw).elim hn kn⟩

/-- A frame that is not the terminal's write leaves the tag alone. -/
theorem Marks.frame {s t : State} {f : FrameEvent} (hf : t.frameLog = s.frameLog ++ [f]) (ht : t.sessionTag = s.sessionTag)
    (h : ¬ terminalWrote [f]) : Marks s t (ofControl [f]) := ⟨[f], hf, rfl, .inr ⟨ht, h⟩⟩

/-! ### The terminal agent -/

theorem marks_frameRead (cmd : Cmd) (s : State) : Marks s (frameRead .terminal cmd s).state [] := by
  unfold frameRead
  split
  · exact Marks.refl s
  · obtain ⟨r, pin, slots, count, es, hb, -, -⟩ := readSlots_spec s.timingCoefficient.toNat 32 0
      (sendBits s.timingCoefficient.toNat (headerBits cmd false) (takePort .terminal s))
    dsimp only
    rw [hb]
    cases r with
    | none =>
      exact Marks.frame (f := ⟨.terminal, .read cmd none⟩) (by simp [Res.state]) (by simp [Res.state]) (by simp [terminalWrote])
    | some v =>
      exact Marks.frame (f := ⟨.terminal, .read cmd (some v)⟩) (by simp [Res.state]) (by simp [Res.state])
        (by simp [terminalWrote])

theorem marks_symbol (b : Bool) (s : State) : Marks s (termSymbol b s) [] := by
  unfold termSymbol phyAlone
  split
  · exact Marks.refl s
  · exact Marks.of_same (by simp [Res.state]) (by simp [Res.state])

/-- A wire string of the terminal (R52, R150): its write frame sets the tag, anything else leaves it. -/
theorem marks_wireEffect (i : Instr) (s : State) : Marks s (wireEffect i s) [] := by
  cases i
  case writeFrame cmd v =>
    show Marks s (termWrite cmd v s) []
    unfold termWrite frameWrite
    split
    · exact ⟨[], (List.append_nil _).symm, rfl, .inl rfl⟩
    · exact ⟨[⟨.terminal, .write cmd v⟩], by simp [Res.state], rfl, .inl (by simp [Res.state])⟩
  case readFrame cmd =>
    have h := marks_frameRead cmd s
    show Marks s (termRead cmd s) []
    unfold termRead
    split <;> rename_i heq <;> rw [heq] at h <;> exact h
  case sym1 => exact marks_symbol true s
  case sym0 => exact marks_symbol false s
  case readSlot =>
    show Marks s (termSlot s) []
    unfold termSlot phyAlone
    split
    · exact Marks.refl s
    · obtain ⟨r, pin, slots, count, es, hb, -, -⟩ := readBit_spec s.timingCoefficient.toNat (takePort .terminal s)
      rw [hb]
      exact Marks.of_same (by simp [Res.state]) (by simp [Res.state])
  all_goals exact Marks.refl s

theorem marks_termActs : ∀ (as : List TermAct) (s : State), Marks s (termActs as s) []
  | [], s => Marks.refl s
  | a :: as, s => by
    refine Marks.trans (cs := []) (t := termAct a s) ?_ (marks_termActs as _)
    cases a with
    | connect => simp only [termAct, termConnect]; split <;> exact Marks.of_same rfl rfl
    | disconnect => exact Marks.of_same rfl rfl
    | issue w =>
      simp only [termAct]
      split
      · split
        · exact marks_wireEffect _ s
        · exact Marks.refl s
      · exact Marks.refl s

theorem marks_termTurn (s : State) : Marks s (termTurn s) [] := by
  unfold termTurn
  split
  · exact Marks.refl s
  · exact (Marks.of_same rfl rfl).trans (marks_termActs _ _)

/-! ### The control agent -/

variable {α β : Type}

/-- The operation, where it succeeds, sends `cs` and sets no tag of its own. -/
def OkMarks (s : State) (r : Res α) (cs : List FrameEvent) : Prop := ∀ a t, r = .ok a t → Marks s t cs

theorem OkMarks.bind {s : State} {r : Res α} {f : α → State → Res β} {cs ds : List FrameEvent} (h : OkMarks s r cs)
    (k : ∀ a t, r = .ok a t → OkMarks t (f a t) ds) : OkMarks s (r.bind f) (cs ++ ds) := fun b u e => by
  cases r with
  | ok a t => exact (h a t rfl).trans (k a t rfl b u e)
  | err x t => cases e

theorem OkMarks.ok {s t : State} {cs : List FrameEvent} (a : α) (h : Marks s t cs) : OkMarks s (.ok a t) cs :=
  fun _ _ e => by cases e; exact h

theorem OkMarks.onErr {s : State} {r : Res α} {f : State → State} {cs : List FrameEvent} (h : OkMarks s r cs) :
    OkMarks s (r.onErr f) cs := fun _ _ e => by
  cases r with
  | ok b u => cases e; exact h _ _ rfl
  | err x t => cases e

/-- A write frame (R141): the terminal's frames before it, and then it. -/
theorem fw_last (cmd : Cmd) (v : Word) {s t : State} (h : fw cmd v s = .ok () t) : ∃ u, Marks s u [] ∧
    t.frameLog = u.frameLog ++ [⟨.control, .write cmd v⟩] ∧ t.sessionTag = u.sessionTag := by
  refine ⟨termTurn s, marks_termTurn s, ?_⟩
  unfold fw withTurns frameWrite at h
  split at h
  · cases h
  · cases h; exact ⟨by simp, by simp⟩

theorem okMarks_fw (cmd : Cmd) (v : Word) (s : State) : OkMarks s (fw cmd v s) [⟨.control, .write cmd v⟩] := fun _ t h => by
  obtain ⟨u, hu, hf, ht⟩ := fw_last cmd v h
  exact hu.trans (Marks.frame hf ht (by simp [terminalWrote]))

/-- A read frame (R143). -/
theorem okMarks_fr (cmd : Cmd) (s : State) : ∀ v t, fr cmd s = .ok v t → Marks s t [readOf cmd v] := fun v t h => by
  unfold fr withTurns frameRead at h
  split at h
  · cases h
  · obtain ⟨r, pin, slots, count, es, hb, -, -⟩ := readSlots_spec (termTurn s).timingCoefficient.toNat 32 0
      (sendBits (termTurn s).timingCoefficient.toNat (headerBits cmd false) (takePort .control (termTurn s)))
    dsimp only at h
    rw [hb] at h
    cases r with
    | none => cases h
    | some w =>
      cases h
      exact (marks_termTurn s).trans (Marks.frame (f := readOf cmd v) (by simp [readOf]) (by simp) (by simp [terminalWrote, readOf]))

theorem okMarks_writes : ∀ (ws : List (Cmd × Word)) (s : State),
    OkMarks s (runEach (fun (rw : Cmd × Word) => fw rw.1 rw.2) ws s) (writesOf ws)
  | [], s => OkMarks.ok () (Marks.refl s)
  | w :: ws, s => (okMarks_fw w.1 w.2 s).bind fun _ t _ => okMarks_writes ws t

theorem fw_cfg {cmd : Cmd} {v : Word} {s t : State} (h : fw cmd v s = .ok () t) : t.cfg = s.cfg := by
  have := LinkStep.rel.fw cmd v s
  rw [h] at this
  exact (show LinkStep s t from this).cfg

theorem okMarks_sendAddress (known : Bool) (a : Word) (s : State) :
    OkMarks s (sendAddress known a s) (if known then [] else [⟨.control, .write s.cfg.dmData1 a⟩]) := by
  unfold sendAddress
  cases known
  · exact okMarks_fw _ a s
  · exact OkMarks.ok () (Marks.refl s)

/-- The completion poll (R168): as many reads as it takes. -/
theorem marks_pollAbstract : ∀ (n : Nat) {s t : State}, pollAbstract n s = .ok () t → ∃ cs, Marks s t cs
  | 0, _, _, h => by cases h
  | n + 1, s, t, h => by
    unfold pollAbstract at h
    cases hr : fr s.cfg.dmAbstractCs s with
    | err e u => rw [hr] at h; cases h
    | ok v u =>
      have hu := okMarks_fr _ _ _ _ hr
      rw [hr] at h
      simp only [Res.bind] at h
      split at h
      · split at h
        · cases hw : fw u.cfg.dmAbstractCs u.cfg.csErrClear u <;> rw [hw] at h <;> cases h
        · cases h; exact ⟨_, hu⟩
      · obtain ⟨cs, hc⟩ := marks_pollAbstract n h
        exact ⟨_, hu.trans hc⟩

/-- The execute step (R163, R165). -/
theorem marks_execute {s t : State} (h : execute s = .ok () t) : ∃ cs, Marks s t cs := by
  unfold execute waitAbstract at h
  cases hf : fw s.cfg.dmCommand s.cfg.cmdExec s with
  | err e u => rw [hf] at h; cases h
  | ok a u =>
    rw [hf] at h
    simp only [Res.bind] at h
    cases hp : pollAbstract u.cfg.absPollLimit u with
    | err e w => rw [hp] at h; cases h
    | ok b w =>
      rw [hp] at h
      cases h
      obtain ⟨cs, hc⟩ := marks_pollAbstract _ hp
      exact ⟨_, (okMarks_fw _ _ _ _ _ hf).trans hc⟩

/-- A reprogramming of a word program (R162): its frames, the terminal's before each of them, and none after the last. -/
theorem reprogram_last (prog : List Word) (v : Word) {s t : State} (h : reprogram prog (some v) s = .ok () t) :
    ∃ mid, t.frameLog = s.frameLog ++ mid ++ [⟨.control, .write s.cfg.dmAbstractAuto v⟩] ∧
      ofControl mid ++ [⟨.control, .write s.cfg.dmAbstractAuto v⟩] = writesOf (reprogramFrames s.cfg prog (some v)) := by
  unfold reprogram at h
  cases h1 : fw s.cfg.dmAbstractAuto Config.autoOff (invalidate s) with
  | err e u => rw [h1] at h; cases h
  | ok a u =>
    rw [h1] at h
    simp only [Res.bind, writeProgram] at h
    have c1 : u.cfg = (invalidate s).cfg := fw_cfg h1
    replace c1 : u.cfg = s.cfg := c1
    rw [c1] at h
    cases h2 : runEach (fun (rw : Cmd × Word) => fw rw.1 rw.2) (s.cfg.dmProgbuf.toList.zip prog) u with
    | err e w => rw [h2] at h; cases h
    | ok b w =>
      rw [h2] at h
      dsimp only at h
      have c2 : w.cfg = u.cfg := by
        have := LinkStep.rel.writeProgram prog u
        unfold writeProgram at this
        rw [c1, h2] at this
        exact (show LinkStep u w from this).cfg
      rw [c2, c1] at h
      obtain ⟨x, hx, hf, -⟩ := fw_last _ _ h
      obtain ⟨fs, hfs, hc, -⟩ := ((okMarks_fw _ _ _ _ _ h1).trans (okMarks_writes _ _ _ _ h2)).trans hx
      refine ⟨fs, by rw [hf, hfs]; rfl, ?_⟩
      rw [hc]
      simp [writesOf, reprogramFrames]

end Sys2Proof.Laws
end

