-- ==== Sys2Proof/WellFormed.lean ====
section
/-!
DEFINITION. Which instructions the command port can carry. An operand register holds any 32-bit value and a wire frame any
7-bit command, so the types say all but one thing: the operand byte string has at most `MAX_BINARY` bytes (R43). An operand
that is missing, or out of its range, is not ill-formed: the port carries it and the block answers with an error (R102).
-/
namespace Sys2Proof

/-- The operand byte string of an instruction (R43 `reqData`); empty for an opcode that uses none. -/
def Instr.data : Instr → List Byte
  | .uploadData d _ => d
  | .flashWriteBlock64 _ d => d
  | .blobWrite _ _ d => d
  | _ => []

/-- R43: "an operand byte string `reqData` (at most `MAX_BINARY` bytes)". -/
def wellFormed (p : Config.Params) (i : Instr) : Bool :=
  decide (i.data.length ≤ p.maxBinary)

end Sys2Proof
end

