-- ==== Sys2Proof/Tests/Slice0.lean ====
section
/-!
SUPPORT. Tests, on fixed values: the well-formedness check, the decoding of words written out from the spec's encodings, and vectors of
`spec/95_test_vectors.md` (the id stands before each). The parameters are that file's set VP (`Params.sample`, with one tick per unit
and a gap of 7); the target answers every read slot with 0 unless a test says otherwise. At the end, the witnesses of the statements'
hypotheses.
-/
namespace Sys2Proof.Tests

open Sys2Proof.Machine Sys2Proof.Safety
open Sys2Proof.Config (Params SlotDraw SeqStep)

set_option Elab.async false

/-! ### Helpers -/

/-- Block reset with the parameters VP, a pin configured, a target that answers 0, and a clock that stands still. -/
def s0 : State := { State.resetWith Params.sample with pinMask := 1, slotRest := some zeroDraw, clockRest := some 0 }

/-- The same, after a link init (tag `Started`). -/
def s1 : State := { s0 with sessionTag := .started }

/-- The answers that make a read frame return `v`. -/
def answersOf (v : Word) : List SlotDraw := (msbBits v).map fun b => ⟨b, some 0⟩

/-- Does the instruction give a next state with this property? -/
def after (i : Instr) (s : State) (p : State → Bool) : Bool :=
  match exec i s with
  | .next t => p t
  | _ => false

/-- The write frames and the read frames sent, counted. -/
def counts (s t : State) : Nat × Nat :=
  ((sent s t).countP fun e => match e.kind with | .write _ _ => true | .read _ _ => false,
   (sent s t).countP fun e => match e.kind with | .write _ _ => false | .read _ _ => true)

/-- The string of a write frame. -/
def writeString (cmd : Cmd) (v : Word) : List WireTok :=
  match encode (.writeFrame cmd v) with
  | .wire w => w
  | _ => []

/-- How long the line was busy. -/
def lasted (s t : State) : Nat := ticks s.cfg (t.lineLog.drop s.lineLog.length)

/-- The symbols of a bit string written as digits. -/
def syms (bits : List Nat) : List WireTok := bits.map fun b => if b = 1 then .s1 else .s0

/-- A request written out (R100). -/
def req (op : Byte) (a b c : Word) (present : BitVec 3) : Request := ⟨op, a, b, c, present, false, []⟩

/-! ### Well-formedness -/

/-- R43: at most `MAX_BINARY` bytes. -/
theorem test_wellFormed_refuses : wellFormed { Params.sample with maxBinary := 4 } (.uploadData [0, 1, 2, 3, 4] true) = false := by
  decide

theorem test_wellFormed_accepts : wellFormed { Params.sample with maxBinary := 4 } (.uploadData [0, 1, 2, 3] true) = true := by
  decide

/-! ### Decoding (R100 to R105, R93 to R95) -/

theorem test_decode_rawWrite : decodeRequest (req 0x40 17 1234 0 0b011) = .ok (.rawWrite (some 17) (some 1234)) := by decide
theorem test_decode_rawRead : decodeRequest (req 0x41 17 0 0 0b001) = .ok (.rawRead (some 17)) := by decide
theorem test_decode_uploadBegin : decodeRequest (req 0x42 0x20000002 7 1 0b111)
    = .ok (.uploadBegin (some 0x20000002) (some 7) (some 1)) := by decide
theorem test_decode_uploadData : decodeRequest ⟨0x43, 0, 0, 0, 0b000, true, [4, 5, 6, 7]⟩ = .ok (.uploadData [4, 5, 6, 7] true) := by
  decide
theorem test_decode_status : decodeRequest (req 0x44 0 0 0 0) = .ok .status := by decide
theorem test_decode_readBlob : decodeRequest (req 0x45 0x08000000 64 0 0b011) = .ok (.readBlob (some 0x08000000) (some 64)) := by
  decide
theorem test_decode_unbrick : decodeRequest (req 0x46 0 0 0 0) = .ok .unbrick := by decide
theorem test_decode_chipInfo : decodeRequest (req 0x48 0 0 0 0) = .ok .chipInfo := by decide
theorem test_decode_haltReset : decodeRequest (req 0x50 0 0 0 0) = .ok .haltReset := by decide
theorem test_decode_reboot : decodeRequest (req 0x51 0 0 0 0) = .ok .reboot := by decide
theorem test_decode_resume : decodeRequest (req 0x52 0 0 0 0) = .ok .resume := by decide
theorem test_decode_rebootBoot : decodeRequest (req 0x53 0 0 0 0) = .ok .rebootBoot := by decide
theorem test_decode_haltNoReset : decodeRequest (req 0x54 0 0 0 0) = .ok .haltNoReset := by decide
theorem test_decode_setPin : decodeRequest (req 0x60 1 0 0 0b001) = .ok (.setPin (some 1)) := by decide
theorem test_decode_setCoeff : decodeRequest (req 0x61 2 0 0 0b001) = .ok (.setCoeff (some 2)) := by decide
theorem test_decode_phyDelay : decodeRequest (req 0x01 9 0 0 0b001) = .ok (.phyDelay (some 9)) := by decide
theorem test_decode_phySend1 : decodeRequest (req 0x02 0 0 0 0) = .ok .phySend1 := by decide
theorem test_decode_phySend0 : decodeRequest (req 0x03 0 0 0 0) = .ok .phySend0 := by decide
theorem test_decode_phyReadBit : decodeRequest (req 0x04 0 0 0 0) = .ok .phyReadBit := by decide
theorem test_decode_frameWrite : decodeRequest (req 0x05 0x11 1 0 0b011) = .ok (.frameWrite (some 0x11) (some 1)) := by decide
theorem test_decode_frameRead : decodeRequest (req 0x06 0x11 0 0 0b001) = .ok (.frameRead (some 0x11)) := by decide
/-- R105: the flag is `B[0]` alone. -/
theorem test_decode_seqReadWord : decodeRequest (req 0x10 0x20000000 0xFFFFFFFE 0 0b011)
    = .ok (.seqReadWord (some 0x20000000) (some false)) := by decide
theorem test_decode_seqWriteWord : decodeRequest (req 0x11 0x20000010 0x11223344 0 0b011)
    = .ok (.seqWriteWord (some 0x20000010) (some 0x11223344)) := by decide
theorem test_decode_seqReadByte : decodeRequest (req 0x12 0x20000011 0 0 0b001) = .ok (.seqReadByte (some 0x20000011)) := by decide
/-- R105: the byte is `B[7:0]`. -/
theorem test_decode_seqWriteByte : decodeRequest (req 0x13 0x20000001 0x123A5 0 0b011)
    = .ok (.seqWriteByte (some 0x20000001) (some 0xA5)) := by decide
theorem test_decode_seqWaitAbstract : decodeRequest (req 0x14 0 0 0 0) = .ok .seqWaitAbstract := by decide
theorem test_decode_seqInvalidate : decodeRequest (req 0x15 0 0 0 0) = .ok .seqInvalidate := by decide
theorem test_decode_flashUnlock : decodeRequest (req 0x20 0 0 0 0) = .ok .flashUnlock := by decide
theorem test_decode_flashWaitNotBusy : decodeRequest (req 0x21 0 0 0 0) = .ok .flashWaitNotBusy := by decide
theorem test_decode_flashErasePages : decodeRequest (req 0x22 0x08000040 100 0 0b011)
    = .ok (.flashErasePages (some 0x08000040) (some 100)) := by decide
theorem test_decode_flashEraseChip : decodeRequest (req 0x23 0 0 0 0) = .ok .flashEraseChip := by decide
theorem test_decode_flashWriteBlock64 : decodeRequest ⟨0x24, 0x08000000, 0, 0, 0b001, false, [1, 2]⟩
    = .ok (.flashWriteBlock64 (some 0x08000000) [1, 2]) := by decide
theorem test_decode_blobWrite : decodeRequest ⟨0x25, 0x20000002, 2, 0, 0b011, false, [1, 2]⟩
    = .ok (.blobWrite (some 0x20000002) (some 2) [1, 2]) := by decide
theorem test_decode_blobRead : decodeRequest (req 0x26 0x20000000 12 0 0b011) = .ok (.blobRead (some 0x20000000) (some 12)) := by
  decide
theorem test_decode_linkInit : decodeRequest (req 0x27 0 0 0 0) = .ok .linkInit := by decide
/-- R102: an operand that is not supplied, and one that the opcode does not use (V-ERR-8). -/
theorem test_decode_present : decodeRequest (req 0x40 200 5 7 0b101) = .ok (.rawWrite (some 200) none) := by decide
/-- V-ERR-2. -/
theorem test_decode_reserved : decodeRequest (req 0x47 0 0 0 0) = .error (.unknownOpcode 0x47) := by decide
/-- V-FRM-1. -/
theorem test_decode_writeFrame : decodeWire (syms [1, 0,0,1,0,0,0,1, 1,
    0,0,0,0,0,0,0,0, 0,0,0,0,0,0,0,0, 0,0,0,0,0,1,0,0, 1,1,0,1,0,0,1,0]) = .ok (.writeFrame 0x11 0x4D2) := by decide
/-- V-FRM-9. -/
theorem test_decode_readFrame : decodeWire (syms [1, 0,0,1,0,1,1,0, 0] ++ List.replicate 32 .rs) = .ok (.readFrame 0x16) := by decide
theorem test_decode_sym1 : decodeWire [.s1] = .ok .sym1 := by decide
theorem test_decode_sym0 : decodeWire [.s0] = .ok .sym0 := by decide
theorem test_decode_readSlot : decodeWire [.rs] = .ok .readSlot := by decide
/-- R95: a string that does not begin with the start symbol, and a read frame one slot short. -/
theorem test_decode_noFrame : decodeWire (syms [0, 0,0,1,0,0,0,1, 1]) = .error .wireNoStart ∧
    decodeWire (syms [1, 0,0,1,0,1,1,0, 0] ++ List.replicate 31 .rs) = .error .wireBadSlots := by decide
/-- The table's numbering: the opcode in bits 7..0, `A` from bit 8, the `present` bits from bit 104. -/
theorem test_decodeTableWord : decodeTableWord 112 (0x41 + 17 * 2 ^ 8 + 2 ^ 104) = some (.rawRead (some 17)) ∧
    decodeTableWord 8 0x47 = none := by decide +kernel

/-! ### Bit PHY and frames -/

/-- V-PHY-2. -/
theorem test_phySend1 : after .phySend1 s0 (fun t => t.rspCode == 0 && lasted s0 t == 4) = true := by decide +kernel
/-- V-PHY-3. -/
theorem test_phySend0 : after .phySend0 s0 (fun t => t.rspCode == 0 && lasted s0 t == 10) = true := by decide +kernel
/-- V-PHY-8: (s = 0, h = 3). -/
theorem test_phyReadBit : after .phyReadBit { s0 with slotIn := [⟨false, some 3⟩] }
    (fun t => t.rspCode == 0 && t.rspValue == 0 && lasted s0 t == 8) = true := by decide +kernel
/-- V-PHY-9: (s = 1, never). -/
theorem test_phyReadBit_timeout : after .phyReadBit { s0 with slotIn := [⟨true, none⟩] }
    (fun t => t.rspCode == BitVec.ofInt 32 (-1) && t.rspValue == 2 && lasted s0 t == 9) = true := by decide +kernel
/-- V-PHY-11. -/
theorem test_phyDelay : after (.phyDelay (some 0)) s0 (fun t => t.rspCode == 0 && lasted s0 t == 0 && t.pinDrive == .released)
    = true := by decide +kernel
/-- V-PHY-12. -/
theorem test_phySend1_noPin : after .phySend1 { s0 with pinMask := 0 }
    (fun t => t.rspCode == BitVec.ofInt 32 (-13) && t.lineLog == []) = true := by decide +kernel
/-- V-PHY-2 and V-PHY-3 from the terminal agent. -/
theorem test_sym1 : after .sym1 s0 (fun t => lasted s0 t == 4 && !t.rspValid) = true := by decide +kernel
theorem test_sym0 : after .sym0 s0 (fun t => lasted s0 t == 10 && !t.rspValid) = true := by decide +kernel
/-- V-PHY-6. -/
theorem test_readSlot : after .readSlot { s0 with slotIn := [⟨true, some 0⟩] }
    (fun t => lasted s0 t == 5 && t.pinDrive == .released && t.slotIn == []) = true := by decide +kernel
/-- V-FRM-1: 356 units and the gap. -/
theorem test_frameWrite : after (.frameWrite (some 0x11) (some 0x4D2)) s0 (fun t => t.rspCode == 0 && lasted s0 t == 363)
    = true := by decide +kernel
/-- V-FRM-16. -/
theorem test_frameWrite_noPin : after (.frameWrite (some 0x11) (some 1)) { s0 with pinMask := 0 }
    (fun t => t.rspCode == BitVec.ofInt 32 (-13) && t.lineLog == []) = true := by decide +kernel
/-- V-FRM-12. -/
theorem test_frameRead : after (.frameRead (some 0x11)) { s0 with slotIn := answersOf 0x4D2 }
    (fun t => t.rspCode == 0 && t.rspValue == 0x4D2 && lasted s0 t == 72 + 32 * 5 + 7) = true := by decide +kernel
/-- V-FRM-14: slot 5 times out; 106 units and the gap. -/
theorem test_frameRead_busFault : after (.frameRead (some 0x11))
    { s0 with slotIn := List.replicate 5 ⟨true, some 0⟩ ++ [⟨true, none⟩] }
    (fun t => t.rspCode == BitVec.ofInt 32 (-2) && lasted s0 t == 113 && t.pinDrive == .released && !t.irqMasked) = true := by
  decide +kernel
/-- P1 step 2, and V-ORC-38: the terminal stays connected. -/
theorem test_rawWrite : after (.rawWrite (some 17) (some 1234)) { s0 with sessionTag := .readSequence, terminalConnected := true }
    (fun t => t.rspCode == 0 && t.sessionTag == .invalidated && t.terminalConnected && counts s0 t == (1, 0)) = true := by
  decide +kernel
/-- V-ERR-5. -/
theorem test_rawWrite_range : after (.rawWrite (some 128) (some 0)) s0 (fun t => t.rspCode == BitVec.ofInt 32 (-10)) = true := by
  decide +kernel
/-- P1 step 3. -/
theorem test_rawRead : after (.rawRead (some 17)) { s0 with slotIn := answersOf 1234 }
    (fun t => t.rspCode == 0 && t.rspValue == 1234 && counts s0 t == (0, 1)) = true := by decide +kernel
/-- R52, R150: the terminal's write frame. -/
theorem test_writeFrame : after (.writeFrame 0x7F 0xFFFFFFFF) s0 (fun t => t.sessionTag == .terminal && lasted s0 t == 164 + 7)
    = true := by decide +kernel
/-- R297 (c): a bus fault ends the terminal's session. -/
theorem test_readFrame : after (.readFrame 0x11) { s0 with terminalConnected := true, slotIn := [⟨true, none⟩] }
    (fun t => !t.terminalConnected && t.sessionTag == .none) = true := by decide +kernel

/-! ### Sequencer -/

/-- V-SEQ-1. -/
theorem test_seqReadWord : after (.seqReadWord (some 0x20000000) (some true))
    { s1 with slotIn := answersOf 0 ++ answersOf 0x03020100 }
    (fun t => t.rspValue == 0x03020100 && t.sessionTag == .readSequence && t.cachedAddress == 0x20000004
      && counts s1 t == (7, 2)) = true := by decide +kernel
/-- V-SEQ-19: the poll reads 0x100. -/
theorem test_seqReadWord_error : after (.seqReadWord (some 0x20000000) (some true))
    { s1 with sessionTag := .readSequence, autoIncrementActive := true, cachedAddress := 0x20000000, slotIn := answersOf 0x100 }
    (fun t => t.rspCode == BitVec.ofInt 32 (-3) && t.sessionTag == .invalidated && t.cachedAddress == 0x20000000
      && counts s1 t == (2, 1)) = true := by decide +kernel
/-- V-SEQ-7. -/
theorem test_seqWriteWord : after (.seqWriteWord (some 0x20000010) (some 0x11223344)) { s1 with sessionTag := .readSequence }
    (fun t => t.sessionTag == .writeSequence && !t.lastWriteWasFlash && t.cachedAddress == 0x20000014
      && counts s1 t == (8, 1)) = true := by decide +kernel
/-- V-SEQ-22. -/
theorem test_seqWriteWord_flash : after (.seqWriteWord (some 0x08000000) (some 5))
    { s1 with sessionTag := .writeSequence, cachedAddress := 0x40022014 }
    (fun t => t.lastWriteWasFlash && counts s1 t == (8, 1)) = true := by decide +kernel
/-- V-SEQ-10. -/
theorem test_seqReadByte : after (.seqReadByte (some 0x20000011)) { s1 with slotIn := answersOf 0 ++ answersOf 0x11223333 }
    (fun t => t.rspValue == 0x33 && t.sessionTag == .invalidated && counts s1 t == (5, 2)) = true := by decide +kernel
/-- R166, log 27: the connected terminal writes a frame after the one-shot program. -/
theorem test_seqReadByte_terminal : after (.seqReadByte (some 0x20000011))
    { s1 with terminalConnected := true, termIn := List.replicate 3 [] ++ [[.issue (writeString 0x20 1)]] }
    (fun t => t.rspCode == 0 && t.sessionTag == .invalidated && counts s1 t == (6, 2)) = true := by decide +kernel
/-- V-SEQ-14. -/
theorem test_seqWriteByte : after (.seqWriteByte (some 0x20000001) (some 0xA5)) s1
    (fun t => t.sessionTag == .invalidated && counts s1 t == (6, 1)
      && (sent s1 t).contains ⟨.control, .write 0x04 0x000000A5⟩) = true := by decide +kernel
/-- V-SEQ-16. -/
theorem test_seqWaitAbstract : after .seqWaitAbstract { s1 with slotIn := answersOf 0x1100 }
    (fun t => t.rspCode == 0 && counts s1 t == (0, 2)) = true := by decide +kernel
/-- V-SEQ-17. -/
theorem test_seqWaitAbstract_error : after .seqWaitAbstract { s1 with slotIn := answersOf 0x200 }
    (fun t => t.rspCode == BitVec.ofInt 32 (-3) && counts s1 t == (1, 1)) = true := by decide +kernel
/-- V-SEQ-21. -/
theorem test_seqInvalidate : after .seqInvalidate { s1 with sessionTag := .readSequence }
    (fun t => t.sessionTag == .invalidated && counts s1 t == (0, 0)) = true := by decide +kernel

/-! ### Flash engine -/

/-- V-FL-1. -/
theorem test_flashUnlock : after .flashUnlock s1 (fun t => t.rspCode == 0 && t.flashUnlocked && counts s1 t == (28, 8)) = true := by
  decide +kernel
/-- V-FL-2: the lock register reads 0x80 after the keys. -/
theorem test_flashUnlock_locked : after .flashUnlock { s1 with slotIn := List.replicate (7 * 32) zeroDraw ++ answersOf 0x80 }
    (fun t => t.rspCode == BitVec.ofInt 32 (-6) && !t.flashUnlocked && counts s1 t == (28, 8)) = true := by decide +kernel
/-- V-FL-4: the status register reads 1 four times (program resident, polls read 0). -/
theorem test_flashWaitNotBusy : after .flashWaitNotBusy
    { s1 with sessionTag := .readSequence, cachedAddress := 0x4002200C
              slotIn := (List.replicate 4 (answersOf 0 ++ answersOf 1)).flatten }
    (fun t => t.rspCode == BitVec.ofInt 32 (-4) && counts s1 t == (4, 8)) = true := by decide +kernel
/-- V-FL-6. -/
theorem test_flashErasePages : after (.flashErasePages (some 0x08000040) (some 100)) s1
    (fun t => t.rspCode == 0 && counts s1 t == (90, 24)) = true := by decide +kernel
/-- V-FL-11. -/
theorem test_flashErasePages_range : after (.flashErasePages (some 0x08003FC0) (some 65)) s1
    (fun t => t.rspCode == BitVec.ofInt 32 (-10) && counts s1 t == (0, 0)) = true := by decide +kernel
/-- V-FL-13. -/
theorem test_flashEraseChip : after .flashEraseChip s1 (fun t => t.rspCode == 0 && counts s1 t == (45, 12)) = true := by
  decide +kernel
/-- V-FL-5's code, in the poll of a chip erase. -/
theorem test_flashEraseChip_protected : after .flashEraseChip
    { s1 with flashUnlocked := true, slotIn := List.replicate (3 * 32) zeroDraw ++ answersOf 0x10 }
    (fun t => t.rspCode == BitVec.ofInt 32 (-5)) = true := by decide +kernel
/-- V-FL-14, after the last write of an erase (R193). -/
theorem test_flashWriteBlock64 : after (.flashWriteBlock64 (some 0x08000000) [1, 2, 3, 4, 5])
    { s1 with flashUnlocked := true, sessionTag := .writeSequence, cachedAddress := 0x40022014 }
    (fun t => t.rspCode == 0 && counts s1 t == (58, 21)
      && (sent s1 t).contains ⟨.control, .write 0x04 0xFFFFFF05⟩) = true := by decide +kernel
/-- V-FL-15. -/
theorem test_flashWriteBlock64_misaligned : after (.flashWriteBlock64 (some 0x08000020) [0]) s1
    (fun t => t.rspCode == BitVec.ofInt 32 (-16)) = true := by decide +kernel
/-- V-FL-19. -/
theorem test_blobWrite : after (.blobWrite (some 0x20000002) (some 7) [1, 2, 3, 4, 5, 6, 7]) s1
    (fun t => t.rspCode == 0 && counts s1 t == (26, 4)
      && (sent s1 t).contains ⟨.control, .write 0x04 0x06050403⟩) = true := by decide +kernel
/-- V-FL-22. -/
theorem test_blobWrite_mixed : after (.blobWrite (some 0x07FFFFF0) (some 1) [0]) s1 (fun t => t.rspCode == 0) &&
    after (.blobWrite (some 0x07FFFFF0) (some 32) (List.replicate 32 0)) s1 (fun t => t.rspCode == BitVec.ofInt 32 (-10))
    = true := by decide +kernel
/-- V-FL-29. -/
theorem test_blobRead : after (.blobRead (some 0x20000000) (some 12)) s1
    (fun t => t.rspCode == 0 && t.rspData == List.replicate 12 0 && counts s1 t == (9, 6)) = true := by decide +kernel
/-- V-FL-30. -/
theorem test_blobRead_wraps : after (.blobRead (some 0xFFFFFFF0) (some 32)) s1 (fun t => t.rspCode == BitVec.ofInt 32 (-10))
    = true := by decide +kernel

/-! ### Orchestrator -/

/-- P5: no frame under VP, tag `Started`. -/
theorem test_linkInit : after .linkInit { s0 with sessionTag := .readSequence, flashUnlocked := true }
    (fun t => t.rspCode == 0 && t.sessionTag == .started && !t.flashUnlocked && counts s0 t == (0, 0)) = true := by decide +kernel
/-- R235 (c), log 26: the handshake's read times out after the connected terminal has written a frame. -/
theorem test_linkInit_terminal : after .linkInit { s0 with
      cfg := { Params.sample with seqInit := [.fr 0x11] }, slotRest := some ⟨false, none⟩, terminalConnected := true
      termIn := [[.issue (writeString 0x20 1)]] }
    (fun t => t.rspCode == BitVec.ofInt 32 (-13) && t.sessionTag == .none && counts s0 t == (1, 1)) = true := by decide +kernel
/-- V-ORC-1. -/
theorem test_uploadBegin : after (.uploadBegin (some 0x08000000) (some 64) (some 0)) s0
    (fun t => t.rspCode == 0 && t.status == .uploading && t.active && t.error == 0 && t.received == 0) = true := by decide +kernel
/-- V-ORC-5. -/
theorem test_uploadBegin_mixed : after (.uploadBegin (some 0x08003FF0) (some 32) none) s0
    (fun t => t.rspCode == BitVec.ofInt 32 (-10) && t.status == .idle) = true := by decide +kernel
/-- E8 and P2 step 3: 139 write frames and 71 read frames. -/
theorem test_uploadData : after (.uploadData (List.replicate 64 0) true)
    { s0 with status := .uploading, active := true, offset := 0x08000000, size := 64 }
    (fun t => t.rspCode == 0 && t.rspValue == 3 && t.sessionTag == .invalidated && t.flashUnlocked
      && counts s0 t == (139, 71)) = true := by decide +kernel
/-- E9. -/
theorem test_uploadData_short : after (.uploadData (List.replicate 50 0) true)
    { s0 with status := .uploading, active := true, offset := 0x08000000, size := 100 }
    (fun t => t.rspCode == BitVec.ofInt 32 (-8) && t.status == .failed && t.received == 50 && !t.active
      && counts s0 t == (0, 0)) = true := by decide +kernel
/-- V-ORC-19. -/
theorem test_status : after .status { s0 with status := .failed, error := BitVec.ofInt 32 (-8) }
    (fun t => t.rspCode == BitVec.ofInt 32 (-8) && t.rspValue == 4 && t.status == .idle && t.error == BitVec.ofInt 32 (-8))
    = true := by decide +kernel
/-- P2 step 5: 1/1, 22/32 and 1/1. -/
theorem test_readBlob : after (.readBlob (some 0x08000000) (some 64)) { s0 with sessionTag := .invalidated }
    (fun t => t.rspCode == 0 && t.rspData == List.replicate 64 0 && counts s0 t == (24, 34)) = true := by decide +kernel
/-- R66, R258: the bytes of a word, in address order, after the poll of the halt and the poll of the access. -/
theorem test_readBlob_data : after (.readBlob (some 0x20000000) (some 4))
    { s1 with slotIn := List.replicate (2 * 32) zeroDraw ++ answersOf 0x44332211 }
    (fun t => t.rspCode == 0 && t.rspData == [0x11, 0x22, 0x33, 0x44]) = true := by decide +kernel
/-- V-ORC-24. -/
theorem test_unbrick : after .unbrick { s0 with
      cfg := { Params.sample with hasPowerGate := true }, slotIn := List.replicate 32 zeroDraw ++ answersOf 0x300 }
    (fun t => t.rspCode == 0 && t.powerGate && t.flashUnlocked && counts s0 t == (46, 14)) = true := by decide +kernel
/-- V-ERR-9, and V-ORC-25: the status reads 0x100, one bit of the mask, at every try. -/
theorem test_unbrick_fails : after .unbrick { s0 with status := .uploading } (fun t => t.rspCode == BitVec.ofInt 32 (-14)) &&
    after .unbrick { s0 with
        cfg := { Params.sample with hasPowerGate := true }
        slotIn := (List.replicate 3 (List.replicate 32 zeroDraw ++ answersOf 0x100)).flatten }
      (fun t => t.rspCode == BitVec.ofInt 32 (-13) && !t.active && counts s0 t == (3, 6)) = true := by decide +kernel
/-- V-ORC-26. -/
theorem test_chipInfo : after .chipInfo s0 (fun t => t.rspCode == 0 && t.rspData.length == 12 && counts s0 t == (12, 8)) = true := by
  decide +kernel
/-- V-ORC-34. -/
theorem test_haltReset_busy : after .haltReset { s0 with status := .uploading } (fun t => t.rspCode == BitVec.ofInt 32 (-11))
    = true := by decide +kernel
theorem test_haltReset : after .haltReset s0 (fun t => t.rspCode == 0
    && (sent s0 t).head? == some ⟨.control, .write 0x10 0xC0⟩) = true := by decide +kernel
/-- V-ORC-36. -/
theorem test_reboot : after .reboot { s0 with sessionTag := .readSequence } (fun t => t.rspCode == 0
    && t.sessionTag == .invalidated && (sent s0 t).head? == some ⟨.control, .write 0x10 0xC1⟩) = true := by decide +kernel
/-- V-ORC-37. -/
theorem test_resume : after .resume { s0 with terminalConnected := true } (fun t => t.rspCode == 0 && !t.terminalConnected
    && (sent s0 t).head? == some ⟨.control, .write 0x10 0xC2⟩) = true := by decide +kernel
theorem test_rebootBoot : after .rebootBoot s0 (fun t => t.rspCode == 0
    && (sent s0 t).head? == some ⟨.control, .write 0x10 0xC3⟩) = true := by decide +kernel
/-- V-ORC-35. -/
theorem test_haltNoReset : after .haltNoReset s0 (fun t => t.rspCode == 0 && t.sessionTag == .started && !t.active
    && sent s0 t == [⟨.control, .write 0x10 0xC4⟩, ⟨.control, .read 0x16 (some 0)⟩]) = true := by decide +kernel
/-- V-ORC-30. -/
theorem test_setPin_twoBits : after (.setPin (some 3)) s0 (fun t => t.rspCode == BitVec.ofInt 32 (-10) && t.pinMask == 1) = true := by
  decide +kernel
/-- V-ORC-32. -/
theorem test_setPin_zero : after (.setPin (some 0)) s1 (fun t => t.rspCode == 0 && t.pinMask == 0 && t.sessionTag == .none)
    = true := by decide +kernel
/-- V-ORC-28 and V-ORC-29. -/
theorem test_setCoeff : after (.setCoeff (some 1001)) s0 (fun t => t.rspCode == BitVec.ofInt 32 (-10) && t.timingCoefficient == 2)
    && after (.setCoeff (some 3)) { s0 with status := .uploading } (fun t => t.rspCode == 0 && t.timingCoefficient == 3)
    = true := by decide +kernel

/-! ### The step -/

/-- V-ORC-14: the deadline itself does not expire. -/
theorem test_step_deadline : step { s0 with status := .uploading, active := true, watchdogDeadline := 5, now := 5 }
    = .next { s0 with status := .uploading, active := true, watchdogDeadline := 5, now := 5 } := rfl
/-- R43: a request of `MAX_BINARY` bytes is written into the port, and one of a byte more is not (log 19). -/
theorem test_step_port :
    (match step { s0 with
        cfg := { Params.sample with maxBinary := 4 }, hostIn := [.submit { (default : Request) with data := [1, 2, 3, 4] }] } with
      | .next t => t.reqValid && t.reqData == [1, 2, 3, 4] && t.hostIn == []
      | _ => false) &&
    (match step { s0 with
        cfg := { Params.sample with maxBinary := 4 }, hostIn := [.submit { (default : Request) with data := [1, 2, 3, 4, 5] }] } with
      | .next t => !t.reqValid && t.reqData == [] && t.hostIn == []
      | _ => false) = true := by decide +kernel
/-- V-ERR-3. -/
theorem test_step_internal : (match step { s0 with
      cfg := { Params.sample with testPort := false }, reqValid := true, reqOp := 0x10, reqPresent := 0b011 } with
    | .next t => t.rspCode == BitVec.ofInt 32 (-15) && !t.reqValid
    | _ => false) = true := by decide +kernel
/-- The host's placing of an instruction: the next step runs it. -/
theorem test_withFetchWord : (match step (s0.withFetchWord 8 0x15) with
    | .next t => t.sessionTag == .invalidated && t.rspCode == 0
    | _ => false) = true := by decide +kernel
/-- The same from reset, whose parameters are open, with a wire frame. -/
theorem test_withFetchWord_reset : (match step (State.reset.withFetchWord 41 0x111) with
    | .next t => t.sessionTag == .terminal && t.termIn == [[]]
    | _ => false) = true := by decide +kernel

/-! ### Witnesses: for each statement with hypotheses, values that meet them all, each clause at a boundary -/

/-- A target whose next read slot never goes high. -/
def never : SlotDraw := ⟨true, none⟩

/-- A line that never answers. -/
def sDead : State := { s1 with slotRest := some ⟨false, none⟩ }

/-- An upload of `n` bytes to `a` is open, with `k` of them received, all zero. -/
def sUp (a n : Word) (k : Nat) : State :=
  { s1 with
    status := .uploading, active := true, offset := a, size := n, retryBudget := 1, received := BitVec.ofNat 32 k
    uploadBuffer := Memory.writeBytes [] 0 (List.replicate k 0) }

theorem s1_ready : LinkReady s1 := ⟨by decide, rfl, rfl⟩

theorem sample_aligned : AlignedConfig Params.sample where
  pre := rfl
  modes m := by cases m <;> rfl
  boot := rfl
  opt := rfl
  lock := rfl

theorem s1_zero : ZeroTarget s1 := ⟨Params.sample_valid, sample_aligned, by decide, rfl, rfl⟩

theorem sDead_dead : DeadLine sDead := ⟨Params.sample_valid, by decide, rfl, false, rfl⟩

theorem s1_still : ClockStill s1 := ⟨rfl, rfl⟩

theorem zeros_answer : Answers Params.sample (List.replicate 32 zeroDraw) 0 where
  bits := by decide
  all d h := by obtain ⟨-, rfl⟩ := List.mem_replicate.1 h; decide

theorem answersOf_answer (v : Word) : Answers Params.sample (answersOf v) v where
  bits := by rw [answersOf, List.map_map]; exact List.map_id _
  all d h := by
    obtain ⟨b, -, rfl⟩ := List.mem_map.1 h
    cases b <;> decide

/-- Reads whose values are `vs`. -/
def reads (vs : List Word) : Reads := vs.map fun v => (answersOf v, v)

/-- A value that is busy; one that is not; one that is write-protected. -/
def vBusy : Word := Params.sample.srBsy
def vReady : Word := 0
def vProtected : Word := Params.sample.srWrprt

theorem reads_ok {n : Nat} (vs : List Word) (h : vs.length = n) : ReadsOk Params.sample n (reads vs) := by
  refine ⟨by simpa [reads] using h, fun r hr => ?_⟩
  obtain ⟨v, -, rfl⟩ := List.mem_map.1 hr
  exact answersOf_answer v

theorem busy_reads (n : Nat) : ∀ x ∈ reads (List.replicate n vBusy), busyStatus Params.sample x := fun x hx => by
  obtain ⟨v, hv, rfl⟩ := List.mem_map.1 hx
  rw [(List.mem_replicate.1 hv).2]
  exact ⟨answersOf_answer _, by decide⟩

/-- The poll's last read, and the ends: not busy, protected and not checked, protected and checked, busy to the limit. -/
theorem poll_ready (wp : Bool) (n limit : Nat) (h : n < limit) :
    PollEnds Params.sample wp limit (reads (List.replicate n vBusy) ++ [(answersOf vReady, vReady)]) none :=
  .ready _ _ (busy_reads n) (by simpa [reads] using h) (answersOf_answer _) (by decide) fun _ => by decide

theorem poll_unchecked (n limit : Nat) (h : n < limit) :
    PollEnds Params.sample false limit (reads (List.replicate n vBusy) ++ [(answersOf vProtected, vProtected)]) none :=
  .ready _ _ (busy_reads n) (by simpa [reads] using h) (answersOf_answer _) (by decide) nofun

theorem poll_protected (n limit : Nat) (h : n < limit) :
    PollEnds Params.sample true limit (reads (List.replicate n vBusy) ++ [(answersOf vProtected, vProtected)])
      (some .flashWriteProtected) :=
  .writeProtected _ _ (busy_reads n) (by simpa [reads] using h) (answersOf_answer _) (by decide) rfl (by decide)

theorem poll_timeout (wp : Bool) (n : Nat) :
    PollEnds Params.sample wp n (reads (List.replicate n vBusy)) (some .flashBusyTimeout) :=
  .timeout _ (busy_reads n) (by simp [reads])

/-- `s1`, unlocked, with these answers. -/
def sScript (ds : List SlotDraw) : State := { s1 with flashUnlocked := true, slotIn := ds }

theorem sScript_ready (ds : List SlotDraw) : LinkReady (sScript ds) := ⟨show (1 : Word) ≠ 0 by decide, rfl, rfl⟩

theorem sUp_ok {a n : Word} {k : Nat} (h1 : 1 ≤ n.toNat) (h2 : n.toNat ≤ 16384) (h3 : a.toNat + n.toNat ≤ 2 ^ 32)
    (h4 : classify Params.sample a.toNat n.toNat ≠ .mixed) (h5 : (BitVec.ofNat 32 k).toNat ≤ n.toNat)
    (h6 : Memory.wf (Memory.writeBytes [] 0 (List.replicate k 0)))
    (h7 : ∀ i, i < (BitVec.ofNat 32 k).toNat → (Memory.read (Memory.writeBytes [] 0 (List.replicate k 0)) i).isSome) :
    SessionOk (sUp a n k) where
  active := ⟨fun _ => rfl, fun _ => rfl⟩
  notUpdating := by simp [sUp]
  terminal _ := rfl
  retry := by simp [sUp, s1, s0, State.resetWith]
  budget := by simp [sUp, s1, s0, State.resetWith, Params.sample]
  buffer := h6
  error _ := rfl
  size_pos _ := h1
  size_le _ := h2
  range _ := h3
  unmixed _ := h4
  received _ := h5
  stored _ := h7

theorem sUp_ram : SessionOk (sUp 0x20000002 7 3) :=
  sUp_ok (by decide) (by decide) (by decide) (by decide) (by decide) (by decide) (by decide)

theorem sUp_flash : SessionOk (sUp 0x08000000 64 2) :=
  sUp_ok (by decide) (by decide) (by decide) (by decide) (by decide) (by decide) (by decide)

theorem witness_MonitorReadsFrames : Params.sample.Valid ∧ 2 ≤ 2 ∧ 1 * 2 * Params.sample.tau < 7 ∧ 7 < 4 * 2 * Params.sample.tau ∧
    (List.replicate 32 zeroDraw).length = 32 := ⟨Params.sample_valid, by decide, by decide, by decide, by decide⟩

/-- A request in the port; the internal operation with `TEST_PORT` set, and a host that waits with its next request. -/
def sReq (op : Byte) : State := { s1 with reqValid := true, reqOp := op, reqA := 1, reqPresent := 1 }

theorem witness_StepRunsRequest : (sReq 0x06).irqMasked = false ∧ (sReq 0x06).termIn = [] ∧ (sReq 0x06).hostIn = [] ∧
    (sReq 0x06).reqValid = true ∧ decodeRequest (requestOf (sReq 0x06)) = .ok (.frameRead (some 1)) ∧
    isInternal (.frameRead (some 1)) = true ∧ (sReq 0x06).cfg.testPort = true := by decide

theorem witness_StepRunsRequest_waiting : ∃ r hs, ({ sReq 0x41 with hostIn := [.submit default] } : State).hostIn = .submit r :: hs ∧
    decodeRequest (requestOf { sReq 0x41 with hostIn := [.submit default] }) = .ok (.rawRead (some 1)) :=
  ⟨default, [], rfl, by decide⟩

/-- An empty port and a request of `MAX_BINARY` bytes, after the terminal's turn; one of a byte more; a response that is read. -/
theorem witness_StepRunsRequest_host :
    (s1.irqMasked = false ∧ (∃ ts, ({ s1 with termIn := [[], []] } : State).termIn = [] :: ts) ∧ s1.reqValid = false) ∧
    (∃ r hs, ({ s1 with hostIn := [.submit { (default : Request) with data := List.replicate 16384 0 }] } : State).hostIn
        = .submit r :: hs ∧ r.data.length ≤ s1.cfg.maxBinary) ∧
    (∃ r hs, ({ s1 with hostIn := [.submit { (default : Request) with data := List.replicate 16385 0 }] } : State).hostIn
        = .submit r :: hs ∧ ¬ r.data.length ≤ s1.cfg.maxBinary) ∧
    ({ s1 with hostIn := [.ack] } : State).hostIn = .ack :: [] :=
  ⟨⟨rfl, ⟨_, rfl⟩, rfl⟩, ⟨_, _, rfl, by rw [List.length_replicate]; decide⟩,
    ⟨_, _, rfl, by rw [List.length_replicate]; decide⟩, rfl⟩

theorem witness_StepRunsWireString : (({ s1 with terminalConnected := true, termIn := [[.issue [.s1]]] } : State).irqMasked = false) ∧
    ({ s1 with terminalConnected := true, termIn := [[.issue [.s1]]] } : State).termIn = (.issue [.s1] :: []) :: [] ∧
    decodeWire [.s1] = .ok .sym1 := by decide

theorem witness_UnknownOpcodesRefused : reservedOp (sReq 0x47).reqOp = true ∧ (sReq 0x47).reqValid = true := by decide

theorem witness_UnknownOpcodesRefused_internal :
    decodeRequest (requestOf { sReq 0x06 with cfg := { Params.sample with testPort := false } }) = .ok (.frameRead (some 1)) ∧
    isInternal (.frameRead (some 1)) = true := by decide

theorem witness_RefusedOperands : operandMissing (.rawWrite (some 200) none) = true ∧ 128 ≤ (128 : Word).toNat ∧
    128 ≤ (0xFFFFFFFF : Word).toNat := by decide

theorem witness_MaskedStepEndsTheFrame : ({ s1 with irqMasked := true, portOwner := .held .terminal } : State).irqMasked = true := rfl

/-- Two bits; the highest bit, while an upload is open; and 0. -/
theorem witness_SetPinRule : ¬ ((3 : Word) = 0 ∨ ∃ k, k < 32 ∧ (3 : Word) = 1#32 <<< k) ∧
    (∃ k, k < 32 ∧ (0x80000000 : Word) = 1#32 <<< k) ∧ (sUp 0x20000002 7 3).status = .uploading ∧
    ((0 : Word) = 0 ∧ s1.status = .idle) := by
  refine ⟨?_, ⟨31, by decide, by decide⟩, rfl, rfl, rfl⟩
  rintro (h | ⟨k, hk, h⟩)
  · exact absurd h (by decide)
  · revert k
    decide

theorem witness_SetCoeffRule : (1 : Word).toNat < 2 ∧ s1.cfg.coeffMax.toNat < (1001 : Word).toNat ∧
    ¬ ((2 : Word).toNat < 2 ∨ s1.cfg.coeffMax.toNat < (2 : Word).toNat) ∧
    ¬ ((1000 : Word).toNat < 2 ∨ s1.cfg.coeffMax.toNat < (1000 : Word).toNat) := by decide

theorem witness_StatusRule : SessionOk (sUp 0x20000002 7 3) ∧ (sUp 0x20000002 7 3).status = .uploading := ⟨sUp_ram, rfl⟩

/-- Each range check at its first failing value; and the last good ones, busy and idle. -/
theorem witness_UploadBeginRule : s1.cfg.maxBinary < (16385 : Word).toNat ∧
    2 ^ 32 < (0xFFFFFFF0 : Word).toNat + (17 : Word).toNat ∧ classify s1.cfg 0x08003FF0 32 = .mixed ∧
    s1.cfg.retryMax < (9 : Word).toNat ∧
    (¬ s1.cfg.maxBinary < (16384 : Word).toNat ∧ ¬ 2 ^ 32 < (0x08000000 : Word).toNat + (16384 : Word).toNat ∧
      classify s1.cfg 0x08000000 16384 = .flash ∧ ¬ s1.cfg.retryMax < (8 : Word).toNat) ∧
    (sUp 0x20000002 7 3).status = .uploading ∧ s1.status = .idle := by decide

theorem witness_UploadDataChunk : SessionOk (sUp 0x20000002 7 3) ∧
    (sUp 0x20000002 7 3).received.toNat + ([1, 2, 3, 4] : List Byte).length = (sUp 0x20000002 7 3).size.toNat :=
  ⟨sUp_ram, by decide⟩

theorem witness_UploadDataMismatch : s1.status ≠ .uploading ∧
    (sUp 0x20000002 7 3).size.toNat < (sUp 0x20000002 7 3).received.toNat + ([1, 2, 3, 4, 5] : List Byte).length ∧
    (SessionOk (sUp 0x20000002 7 3) ∧
      (sUp 0x20000002 7 3).received.toNat + ([1, 2, 3] : List Byte).length < (sUp 0x20000002 7 3).size.toNat) :=
  ⟨by decide, by decide, sUp_ram, by decide⟩

theorem sUp_zero (a n : Word) (k : Nat) : ZeroTarget (sUp a n k) :=
  ⟨Params.sample_valid, sample_aligned, show (1 : Word) ≠ 0 by decide, rfl, rfl⟩

theorem witness_UpdateSucceeds : SessionOk (sUp 0x20000002 7 3) ∧ ZeroTarget (sUp 0x20000002 7 3) ∧
    ClockStill (sUp 0x20000002 7 3) ∧ (sUp 0x20000002 7 3).received.toNat + ([1, 2, 3, 4] : List Byte).length = 7 ∧
    classify Params.sample 0x20000002 7 = .nonFlash :=
  ⟨sUp_ram, sUp_zero _ _ _, ⟨rfl, rfl⟩, by decide, by decide⟩

theorem witness_UpdateSucceeds_flash : SessionOk (sUp 0x08000000 64 2) ∧ ZeroTarget (sUp 0x08000000 64 2) ∧
    ClockStill (sUp 0x08000000 64 2) ∧ classify Params.sample 0x08000000 64 = .flash ∧
    (∀ i, i < (sUp 0x08000000 64 2).received.toNat → Memory.read (sUp 0x08000000 64 2).uploadBuffer i = some 0) ∧
    (sUp 0x08000000 64 2).received.toNat + (List.replicate 62 (0 : Byte)).length = 64 ∧
    ∀ b ∈ List.replicate 62 (0 : Byte), b = 0 :=
  ⟨sUp_flash, sUp_zero _ _ _, ⟨rfl, rfl⟩, by decide, by decide, by decide, fun b h => (List.mem_replicate.1 h).2⟩

theorem sUp_sessionOk_dead : SessionOk { sUp 0x20000002 7 3 with slotRest := some ⟨false, none⟩ } := by
  obtain ⟨⟩ := sUp_ram
  constructor <;> assumption

theorem witness_RetryBudgetExhausted : SessionOk { sUp 0x20000002 7 3 with slotRest := some ⟨false, none⟩ } ∧
    DeadLine { sUp 0x20000002 7 3 with slotRest := some ⟨false, none⟩ } ∧
    ClockStill { sUp 0x20000002 7 3 with slotRest := some ⟨false, none⟩ } ∧ AlignedConfig Params.sample ∧
    (3 : Word).toNat + ([1, 2, 3, 4] : List Byte).length = (7 : Word).toNat :=
  ⟨sUp_sessionOk_dead, ⟨Params.sample_valid, by decide, rfl, false, rfl⟩, ⟨rfl, rfl⟩, sample_aligned, by decide⟩

/-- An upload whose first `n` attempts meet a slot that times out; the budget is one retry. -/
def sRetry (n : Nat) : State := { sUp 0x20000002 7 3 with slotIn := List.replicate n (deadDraw true) }

theorem sRetry_ok (n : Nat) : SessionOk (sRetry n) := by
  obtain ⟨⟩ := sUp_ram
  constructor <;> assumption

/-- As many failures as the budget allows, and one more; to RAM. -/
theorem witness_RetryBudgetExhausted_failures : (SessionOk (sRetry 1) ∧ ClockStill (sRetry 1) ∧ (sRetry 1).cfg.Valid ∧
      AlignedConfig (sRetry 1).cfg ∧ (sRetry 1).pinMask ≠ 0 ∧ (sRetry 1).slotRest = some zeroDraw ∧
      classify (sRetry 1).cfg 0x20000002 7 = .nonFlash ∧
      (sRetry 1).currentRetry.toNat + 1 ≤ (sRetry 1).retryBudget.toNat) ∧
    (SessionOk (sRetry 2) ∧ ¬ (sRetry 2).currentRetry.toNat + 2 ≤ (sRetry 2).retryBudget.toNat) :=
  ⟨⟨sRetry_ok 1, ⟨rfl, rfl⟩, Params.sample_valid, sample_aligned, by decide, rfl, by decide, by decide⟩, sRetry_ok 2, by decide⟩

/-- Idle; at the deadline; one past it, with an upload open and with a result kept. -/
theorem witness_WatchdogRule : (s1.irqMasked = false ∧ s1.termIn = [] ∧ s1.hostIn = [] ∧ s1.reqValid = false ∧ s1.status = .idle) ∧
    (readClock { sUp 0x20000002 7 3 with now := 5, watchdogDeadline := 5 }).now ≤ 5 ∧
    ¬ (readClock { sUp 0x20000002 7 3 with now := 6, watchdogDeadline := 5 }).now ≤ 5 ∧
    ({ s1 with status := .success } : State).status = .success := by decide

theorem witness_PhySymbols : LinkReady s1 ∧
    (({ s1 with pinMask := 0 } : State).pinMask = 0 ∧ ({ s1 with pinMask := 0 } : State).termIn = []) := ⟨s1_ready, rfl, rfl⟩

theorem witness_PhyDelayRule : LinkReady s1 := s1_ready

theorem witness_PhyReadSlot : LinkReady { s1 with slotIn := [never] } ∧
    ({ s1 with slotIn := [never] } : State).slotIn.head? = some never ∧ (seenHigh Params.sample never).isSome = false ∧
    (seenHigh Params.sample ⟨true, some 3⟩).isSome = true ∧ (seenHigh Params.sample ⟨true, some 4⟩).isSome = false :=
  ⟨⟨by decide, rfl, rfl⟩, rfl, by decide, by decide, by decide⟩

theorem witness_NoPinNothingOnTheLine : ({ s1 with pinMask := 0 } : State).pinMask = 0 ∧
    ∃ t, exec .phySend1 { s1 with pinMask := 0 } = .next t := ⟨rfl, _, rfl⟩

theorem witness_WriteFrameRule : LinkReady s1 ∧ (127 : Word).toNat = (127 : Cmd).toNat := ⟨s1_ready, by decide⟩

theorem witness_ReadFrameRule : LinkReady { s1 with slotIn := answersOf 0x80000001 } ∧ (0 : Word).toNat = (0 : Cmd).toNat ∧
    ({ s1 with slotIn := answersOf 0x80000001 } : State).slotIn = answersOf 0x80000001 ++ [] ∧
    Answers Params.sample (answersOf 0x80000001) 0x80000001 :=
  ⟨⟨by decide, rfl, rfl⟩, rfl, (List.append_nil _).symm, answersOf_answer _⟩

/-- The last slot times out. -/
theorem witness_ReadFrameBusFault : LinkReady { s1 with slotIn := List.replicate 31 zeroDraw ++ never :: [] } ∧
    (List.replicate 31 zeroDraw).length < 32 ∧ (∀ x ∈ List.replicate 31 zeroDraw, answered Params.sample x) ∧
    ¬ answered Params.sample never :=
  ⟨⟨by decide, rfl, rfl⟩, by decide, fun x h => by obtain ⟨-, rfl⟩ := List.mem_replicate.1 h; decide, by decide⟩

/-- The last address; with the program resident and the address cached, and with neither. -/
theorem witness_WordReadRule : LinkReady { s1 with slotIn := answersOf 0 ++ answersOf 5 ++ [] } ∧ s1.cfg.Valid ∧
    (0xFFFFFFFC : Word).toNat % 4 = 0 ∧ Answers Params.sample (answersOf 0) 0 ∧ Answers Params.sample (answersOf 5) 5 ∧
    (0 : Word) &&& Params.sample.csBusy = 0 ∧ (0 : Word) &&& Params.sample.csErr = 0 ∧ ¬ s1.sessionTag = .readSequence ∧
    LinkReady { s1 with
      sessionTag := .readSequence, cachedAddress := 0xFFFFFFFC, slotIn := answersOf 0 ++ answersOf 5 ++ [] } :=
  ⟨⟨by decide, rfl, rfl⟩, Params.sample_valid, by decide, answersOf_answer _, answersOf_answer _, by decide, by decide, by decide,
    ⟨by decide, rfl, rfl⟩⟩

/-- The first and the last flash word, and the word after it. -/
theorem witness_WordWriteRule : LinkReady { s1 with slotIn := answersOf 0 ++ [] } ∧ s1.cfg.Valid ∧
    Answers Params.sample (answersOf 0) 0 ∧ (0x08000000 : Word).toNat % 4 = 0 ∧ (0x08003FFC : Word).toNat % 4 = 0 ∧
    isFlash s1.cfg 0x08000000 = true ∧ isFlash s1.cfg 0x08003FFC = true ∧ isFlash s1.cfg 0x08004000 = false :=
  ⟨⟨by decide, rfl, rfl⟩, Params.sample_valid, answersOf_answer _, by decide, by decide, by decide, by decide, by decide⟩

theorem witness_ByteAccessRule : LinkReady { s1 with slotIn := answersOf 0 ++ answersOf 0xFFFFFF80 ++ [] } ∧ s1.cfg.Valid ∧
    Answers Params.sample (answersOf 0) 0 ∧ Answers Params.sample (answersOf 0xFFFFFF80) 0xFFFFFF80 ∧
    (0 : Word) &&& Params.sample.csBusy = 0 ∧ (0 : Word) &&& Params.sample.csErr = 0 :=
  ⟨⟨by decide, rfl, rfl⟩, Params.sample_valid, answersOf_answer _, answersOf_answer _, by decide, by decide⟩

/-- Four busy reads, the limit; and three, with a fourth that is not busy, without and with an error. -/
theorem witness_AbstractPollRule : LinkReady { s1 with
      slotIn := (List.replicate 4 (answersOf 0x1000, (0x1000 : Word))).flatMap (fun r => r.1) ++ [] } ∧
    (List.replicate 4 (answersOf 0x1000, (0x1000 : Word))).length = s1.cfg.absPollLimit ∧
    (Answers Params.sample (answersOf 0x1000) 0x1000 ∧ (0x1000 : Word) &&& Params.sample.csBusy ≠ 0) ∧
    (List.replicate 3 (answersOf 0x1000, (0x1000 : Word))).length < s1.cfg.absPollLimit ∧
    (Answers Params.sample (answersOf 0) 0 ∧ (0 : Word) &&& Params.sample.csBusy = 0 ∧ (0 : Word) &&& Params.sample.csErr = 0) ∧
    (Answers Params.sample (answersOf 0x200) 0x200 ∧ (0x200 : Word) &&& Params.sample.csBusy = 0 ∧
      (0x200 : Word) &&& Params.sample.csErr ≠ 0) :=
  ⟨⟨by decide, rfl, rfl⟩, by decide, ⟨answersOf_answer _, by decide⟩, by decide, ⟨answersOf_answer _, by decide, by decide⟩,
    ⟨answersOf_answer _, by decide, by decide⟩⟩

theorem witness_MisalignedWordAccess : (1 : Word).toNat % 4 ≠ 0 ∧ (0xFFFFFFFF : Word).toNat % 4 ≠ 0 ∧
    RamWrite.word 4 0x04030201 ∈ ramWrites 5 3 [0, 1, 2, 3, 4] ∧ BlobAccess.word 4 ∈ blobReads 5 3 5 := by decide

theorem witness_SequencerErrorsInvalidate : waitAbstract { s1 with pinMask := 0 } = .err .initFailure
      { s1 with pinMask := 0, sessionTag := .invalidated } ∧ memReadWord 1 true s1 = .err .misaligned s1 := ⟨rfl, rfl⟩

/-- Under VP a reprogramming for `ai` set is five frames, `AbstractAuto` and three words and `AbstractAuto`: the connected terminal writes
a frame before the frame of that index. -/
def sWriter (n : Nat) : State :=
  { s1 with terminalConnected := true, termIn := List.replicate n [] ++ [[.issue (writeString 0x20 1)]] }

/-- A result of `Ok` in whose course the terminal wrote that frame, with this tag. -/
def marked {α : Type} (n : Nat) (tag : SessionTag) (r : Res α) : Bool :=
  match r with
  | .ok _ t => (sent (sWriter n) t).contains ⟨.terminal, .write 0x20 1⟩ && t.sessionTag == tag
  | .err _ _ => false

theorem marked_ok {α : Type} {n : Nat} {tag : SessionTag} {r : Res α} (h : marked n tag r = true) :
    ∃ x t, r = .ok x t ∧ terminalWrote (sent (sWriter n) t) ∧ t.sessionTag = tag := by
  cases r with
  | ok x t =>
    simp only [marked, Bool.and_eq_true, List.contains_iff_mem, beq_iff_eq] at h
    exact ⟨x, t, rfl, ⟨_, _, h.1⟩, h.2⟩
  | err e t => simp [marked] at h

/-- Before the last frame of the reprogramming, and after it. -/
theorem marked_read : marked 4 .readSequence (memReadWord 0x20000000 true (sWriter 4)) = true ∧
    marked 5 .terminal (memReadWord 0x20000000 true (sWriter 5)) = true := by decide +kernel

theorem marked_write : marked 4 .writeSequence (memWriteWord 0x20000000 5 (sWriter 4)) = true ∧
    marked 5 .terminal (memWriteWord 0x20000000 5 (sWriter 5)) = true := by decide +kernel

theorem witness_SequencerErrorsInvalidate_terminal :
    (∃ x t, memReadWord 0x20000000 true (sWriter 4) = .ok x t ∧ terminalWrote (sent (sWriter 4) t) ∧ t.sessionTag = .readSequence) ∧
    (∃ x t, memReadWord 0x20000000 true (sWriter 5) = .ok x t ∧ terminalWrote (sent (sWriter 5) t) ∧ t.sessionTag = .terminal) ∧
    (∃ x t, memWriteWord 0x20000000 5 (sWriter 4) = .ok x t ∧ terminalWrote (sent (sWriter 4) t) ∧
      t.sessionTag = .writeSequence) ∧
    ∃ x t, memWriteWord 0x20000000 5 (sWriter 5) = .ok x t ∧ terminalWrote (sent (sWriter 5) t) ∧ t.sessionTag = .terminal :=
  ⟨marked_ok marked_read.1, marked_ok marked_read.2, marked_ok marked_write.1, marked_ok marked_write.2⟩

theorem witness_SequentialRuns : LinkReady s1 ∧ ZeroTarget s1 ∧ (0xFFFFFFFC : Word).toNat % 4 = 0 ∧
    (LinkReady { s1 with sessionTag := .readSequence, autoIncrementActive := true, cachedAddress := 0xFFFFFFFC } ∧
      ZeroTarget { s1 with sessionTag := .readSequence, autoIncrementActive := true, cachedAddress := 0xFFFFFFFC }) ∧
    (LinkReady { s1 with sessionTag := .writeSequence, lastWriteWasFlash := true, cachedAddress := 0x08000000 } ∧
      ZeroTarget { s1 with sessionTag := .writeSequence, lastWriteWasFlash := true, cachedAddress := 0x08000000 } ∧
      ∀ k, k < ([1, 2] : List Word).length →
        isFlash Params.sample ((0x08000000 : Word) + BitVec.ofNat 32 (4 * k)) = true) :=
  ⟨s1_ready, s1_zero, by decide, ⟨⟨by decide, rfl, rfl⟩, ⟨Params.sample_valid, sample_aligned, by decide, rfl, rfl⟩⟩,
    ⟨by decide, rfl, rfl⟩, ⟨Params.sample_valid, sample_aligned, by decide, rfl, rfl⟩, by decide⟩

/-- A target that answers 0; a lock register that reads unlocked, and one that reads locked; and a busy poll that ends at the last
read before the limit, at a protected read, and at the limit. -/
theorem witness_FlashUnlockCompletes : ZeroTarget s1 ∧ Params.sample.Valid ∧ aligned4 Params.sample.lockReg = true ∧
    (LinkReady (sScript (List.replicate (7 * 32) zeroDraw ++ answersOf (~~~Params.sample.lockMask) ++ [])) ∧
      Answers Params.sample (answersOf (~~~Params.sample.lockMask)) (~~~Params.sample.lockMask) ∧
      ~~~Params.sample.lockMask &&& Params.sample.lockMask = 0) ∧
    (LinkReady (sScript (List.replicate (7 * 32) zeroDraw ++ answersOf Params.sample.lockMask ++ [])) ∧
      Answers Params.sample (answersOf Params.sample.lockMask) Params.sample.lockMask ∧
      Params.sample.lockMask &&& Params.sample.lockMask ≠ 0) ∧
    (LinkReady (sScript (readScript (reads (List.replicate 4 vBusy)) ++ [])) ∧
      PollEnds Params.sample false Params.sample.busyPollLimit (reads (List.replicate 3 vBusy) ++ [(answersOf vReady, vReady)]) none ∧
      PollEnds Params.sample false Params.sample.busyPollLimit (reads (List.replicate 0 vBusy) ++ [(answersOf vProtected, vProtected)])
        none ∧
      PollEnds Params.sample false Params.sample.busyPollLimit (reads (List.replicate 4 vBusy)) (some .flashBusyTimeout)) :=
  ⟨s1_zero, Params.sample_valid, rfl, ⟨sScript_ready _, answersOf_answer _, by decide⟩,
    ⟨sScript_ready _, answersOf_answer _, by decide⟩,
    ⟨sScript_ready _, poll_ready _ _ _ (by decide), poll_unchecked _ _ (by decide), poll_timeout _ 4⟩⟩

/-- Past flash by one byte, past the address space by one, and the last block. -/
theorem witness_FlashEraseCompletes : ((0 : Word) = 0) ∧ (classify s1.cfg 0x08003FC0 65 ≠ .flash) ∧
    2 ^ 32 < (0xFFFFFFFF : Word).toNat + (2 : Word).toNat ∧
    ((64 : Word) ≠ 0 ∧ (0x08003FC0 : Word).toNat + (64 : Word).toNat ≤ 2 ^ 32 ∧ classify s1.cfg 0x08003FC0 64 = .flash) ∧
    ZeroTarget s1 := ⟨rfl, by decide, by decide, ⟨by decide, by decide, by decide⟩, s1_zero⟩

/-- A chunk whose two polls find the flash ready at the last read that the limit of 4 allows. -/
theorem erase_busy {c : Nat} {cs : List Nat} {ds : List SlotDraw} {as : List Act} {result : Option ErrKind}
    (h : EraseEnds Params.sample cs ds as result) : ∃ ds as, EraseEnds Params.sample (c :: cs) ds as result :=
  ⟨_, _, .erased c cs _ _ ds as result (poll_unchecked 3 _ (by decide)) (poll_ready true 3 _ (by decide)) h⟩

/-- A page erase of the last two chunks: both erased, after busy reads; the second not ready, and the second write-protected. -/
theorem erase_ends : (∃ ds as, EraseEnds Params.sample [0x08003F80, 0x08003FC0] ds as none) ∧
    (∃ ds as, EraseEnds Params.sample [0x08003F80, 0x08003FC0] ds as (some .flashBusyTimeout)) ∧
    ∃ ds as, EraseEnds Params.sample [0x08003F80, 0x08003FC0] ds as (some .flashWriteProtected) := by
  obtain ⟨_, _, h⟩ := erase_busy (c := 0x08003FC0) .done
  exact ⟨erase_busy h, erase_busy (.notReady _ _ _ _ (poll_timeout _ 4)),
    erase_busy (.failed _ _ _ _ _ (poll_ready _ 0 _ (by decide)) (poll_protected 0 _ (by decide)))⟩

/-- Polls of the chip erase up to its limit of 500; and a page erase with the polls of `erase_ends`. -/
theorem witness_FlashEraseCompletes_polls :
    (LinkReady (sScript (List.replicate (2 * 32) zeroDraw ++ readScript (reads (List.replicate 500 vBusy)) ++ [])) ∧
      (sScript []).flashUnlocked = true ∧ Params.sample.Valid ∧
      PollEnds Params.sample true 500 (reads (List.replicate 500 vBusy)) (some .flashBusyTimeout) ∧
      PollEnds Params.sample true 500 (reads (List.replicate 499 vBusy) ++ [(answersOf vReady, vReady)]) none ∧
      PollEnds Params.sample true 500 (reads (List.replicate 0 vBusy) ++ [(answersOf vProtected, vProtected)])
        (some .flashWriteProtected)) ∧
    chunks (0x08003F80 : Word).toNat (128 : Word).toNat = [0x08003F80, 0x08003FC0] ∧
    (∃ ds as, EraseEnds Params.sample [0x08003F80, 0x08003FC0] ds as none ∧ LinkReady (sScript (ds ++ []))) ∧
    (∃ ds as, EraseEnds Params.sample [0x08003F80, 0x08003FC0] ds as (some .flashBusyTimeout) ∧ LinkReady (sScript (ds ++ []))) ∧
    ∃ ds as, EraseEnds Params.sample [0x08003F80, 0x08003FC0] ds as (some .flashWriteProtected) ∧
      LinkReady (sScript (ds ++ [])) := by
  obtain ⟨⟨ds1, as1, h1⟩, ⟨ds2, as2, h2⟩, ⟨ds3, as3, h3⟩⟩ := erase_ends
  exact ⟨⟨sScript_ready _, rfl, Params.sample_valid, poll_timeout _ 500, poll_ready _ _ _ (by decide), poll_protected _ _ (by decide)⟩,
    by decide, ⟨ds1, as1, h1, sScript_ready _⟩, ⟨ds2, as2, h2, sScript_ready _⟩, ⟨ds3, as3, h3, sScript_ready _⟩⟩

theorem witness_WriteBlockRule : (0x08000001 : Word).toNat % 64 ≠ 0 ∧ ((0x08000000 : Word).toNat % 64 = 0 ∧
      64 < (List.replicate 65 (0 : Byte)).length) ∧ classify s1.cfg 0x20000000 64 ≠ .flash ∧
    ((0x08003FC0 : Word).toNat % 64 = 0 ∧ (List.replicate 64 (0 : Byte)).length = 64 ∧ classify s1.cfg 0x08003FC0 64 = .flash) ∧
    ZeroTarget s1 := ⟨by decide, by decide, by decide, by decide, s1_zero⟩

theorem witness_BlobWriteRamCompletes : (([1, 2] : List Byte).length ≠ (3 : Word).toNat) ∧
    2 ^ 32 < (0xFFFFFFFF : Word).toNat + (2 : Word).toNat ∧ classify s1.cfg 0x07FFFFFF 2 = .mixed ∧
    (classify s1.cfg 0xFFFFFFFE 2 = .nonFlash ∧ ¬ 2 ^ 32 < (0xFFFFFFFE : Word).toNat + (2 : Word).toNat) ∧ ZeroTarget s1 :=
  ⟨by decide, by decide, by decide, by decide, s1_zero⟩

theorem witness_BlobWriteFlashVerifies : (1 : Word) ≠ 0 ∧ ([0] : List Byte).length = (1 : Word).toNat ∧
    classify s1.cfg 0x08003FFF 1 = .flash ∧ (∀ b ∈ ([0] : List Byte), b = 0) ∧ (∃ b ∈ ([255] : List Byte), b ≠ 0) ∧
    ZeroTarget s1 := ⟨by decide, by decide, by decide, by decide, by decide, s1_zero⟩

/-- One byte, at index 3 of a block that holds other bytes; the first attempt reads back zeros, the one retry the new content. -/
def runSpliced : BlockRun where
  base := 0x08000000
  old := reads (List.replicate 16 0x44332211)
  failed := [reads (List.replicate 16 0)]
  last := reads (0x07332211 :: List.replicate 15 0x44332211)

/-- A whole block, which nothing need be read back for. -/
def runWhole : BlockRun where
  base := 0x08000000
  old := []
  failed := []
  last := reads (List.replicate 16 0x04030201)

theorem witness_BlobWriteFlashVerifies_spliced : classify Params.sample 0x08000003 1 = .flash ∧
    [runSpliced].map BlockRun.base = chunks 0x08000003 1 ∧
    (∀ b ∈ [runSpliced], b.Verifies Params.sample 0x08000003 [7]) ∧ (sScript []).flashUnlocked = true ∧
    LinkReady (sScript ([runSpliced].flatMap BlockRun.script ++ [])) := by
  refine ⟨by decide, by decide, fun b hb => ?_, rfl, sScript_ready _⟩
  obtain rfl := List.mem_singleton.1 hb
  refine ⟨reads_ok _ rfl, fun rs hrs => ?_, by decide, reads_ok _ rfl, by decide +kernel⟩
  obtain rfl := List.mem_singleton.1 hrs
  exact ⟨reads_ok _ rfl, by decide +kernel⟩

theorem witness_BlobWriteFlashVerifies_whole : classify Params.sample 0x08000000 64 = .flash ∧
    [runWhole].map BlockRun.base = chunks 0x08000000 64 ∧
    (∀ b ∈ [runWhole], b.Verifies Params.sample 0x08000000 (List.replicate 16 [1, 2, 3, 4]).flatten) ∧
    LinkReady (sScript ([runWhole].flatMap BlockRun.script ++ [])) := by
  refine ⟨by decide, by decide, fun b hb => ?_, sScript_ready _⟩
  obtain rfl := List.mem_singleton.1 hb
  exact ⟨⟨rfl, nofun⟩, nofun, by decide, reads_ok _ rfl, by decide +kernel⟩

/-- Six bytes from an odd address: a byte, a word, a byte. -/
theorem witness_BlobReadRule_data :
    ReadsOk Params.sample (blobReads 6 0x20000003 6).length (reads [0xFFFFFF11, 0x55443322, 0xFFFFFF66]) ∧
    readData (blobReads 6 0x20000003 6) (reads [0xFFFFFF11, 0x55443322, 0xFFFFFF66]) = [0x11, 0x22, 0x33, 0x44, 0x55, 0x66] ∧
    LinkReady (sScript (readScript (reads [0xFFFFFF11, 0x55443322, 0xFFFFFF66]) ++ [])) :=
  ⟨reads_ok _ rfl, by decide, sScript_ready _⟩

theorem witness_BlobReadRule : 2 ^ 32 < (0xFFFFFFFF : Word).toNat + (2 : Word).toNat ∧
    ¬ 2 ^ 32 < (0xFFFFFFFF : Word).toNat + (1 : Word).toNat ∧ ZeroTarget s1 := ⟨by decide, by decide, s1_zero⟩

theorem witness_RangeClassification : Params.sample.Valid ∧ 1 ≤ 1 ∧ classify Params.sample 0x08000000 1 = .flash ∧
    classify Params.sample 0x07FFFFFF 1 = .nonFlash ∧ classify Params.sample 0x07FFFFFF 2 = .mixed ∧
    classify Params.sample 0x07FFFFFF 0x5000 = .mixed := ⟨Params.sample_valid, by decide⟩

theorem witness_ChunksCoverRange : chunks 63 2 = [0, 64] ∧ chunks 64 64 = [64] := by decide

theorem witness_UnlockedIsMonotonic : ({ s1 with flashUnlocked := true } : State).sessionTag ≠ .none ∧
    ∃ t, exec .seqInvalidate { s1 with flashUnlocked := true } = .next t := ⟨by decide, _, rfl⟩

/-- The handshake that reads one register. -/
def sHandshake : State := { sDead with cfg := { Params.sample with seqInit := [.fr 0x11] } }

theorem handshake_valid : sHandshake.cfg.Valid := { Params.sample_valid with seqInit := by decide }

/-- No pin, which is an error too; a target that answers 0; one that answers the handshake's read with another value; one that does not
answer it. -/
theorem witness_LinkInitRule : ({ s1 with pinMask := 0 } : State).pinMask = 0 ∧ ZeroTarget s1 ∧
    (({ sHandshake with slotIn := answersOf 0xFFFFFFFF, slotRest := some ⟨true, some 3⟩ } : State).cfg.Valid ∧
      ({ sHandshake with slotIn := answersOf 0xFFFFFFFF, slotRest := some ⟨true, some 3⟩ } : State).pinMask ≠ 0 ∧
      AnswersAll { sHandshake with slotIn := answersOf 0xFFFFFFFF, slotRest := some ⟨true, some 3⟩ }) ∧
    (DeadLine sHandshake ∧ ∃ cmd, .fr cmd ∈ sHandshake.cfg.seqInit) ∧
    ∃ t, linkInit { s1 with pinMask := 0 } = .err .initFailure t :=
  ⟨rfl, s1_zero, ⟨handshake_valid, by decide, (answersOf_answer 0xFFFFFFFF).all, _, rfl, by decide⟩,
    ⟨⟨handshake_valid, by decide, rfl, false, rfl⟩, 0x11, List.mem_singleton.2 rfl⟩, _, rfl⟩

theorem witness_HaltCommandsComplete : s1.status ≠ .uploading ∧ s1.status ≠ .updating ∧ ZeroTarget s1 ∧
    (haltSteps s1.cfg .rebootBoot).all sendsOnly = true :=
  ⟨by decide, by decide, s1_zero, by decide⟩

theorem witness_ReadCommandsComplete : s1.cfg.maxBinary < (16385 : Word).toNat ∧
    ((16384 : Word) ≠ 0 ∧ (16384 : Word).toNat ≤ s1.cfg.maxBinary ∧ (0xFFFFC000 : Word).toNat + (16384 : Word).toNat ≤ 2 ^ 32) ∧
    s1.status ≠ .uploading ∧ s1.status ≠ .updating ∧ ZeroTarget s1 :=
  ⟨by decide, by decide, by decide, by decide, s1_zero⟩

/-- Step lists that only send; the reads of four bytes, and of the three words of `CHIP_INFO`. -/
theorem witness_ReadCommandsComplete_data : Params.sample.Valid ∧ s1.pinMask ≠ 0 ∧ Params.sample.seqInit.all sendsOnly = true ∧
    Params.sample.seqPre.all sendsOnly = true ∧ Params.sample.seqHaltNoReset.all sendsOnly = true ∧
    Params.sample.seqResume.all sendsOnly = true ∧
    ReadsOk Params.sample (blobReads 4 0x20000000 4).length (reads [0x04030201]) ∧
    ReadsOk Params.sample Params.sample.chipInfoAddrs.length (reads [1, 2, 0xFFFFFFFF]) :=
  ⟨Params.sample_valid, by decide, by decide, by decide, by decide, by decide, reads_ok _ rfl, reads_ok _ rfl⟩

/-- A block with a power gate whose target is halted. -/
def sGate : State := { s1 with
  cfg := { Params.sample with hasPowerGate := true }, slotIn := List.replicate 32 zeroDraw ++ answersOf 0x300 }

theorem gate_valid : sGate.cfg.Valid := { Params.sample_valid with }

theorem gate_aligned : AlignedConfig sGate.cfg := ⟨rfl, fun m => by cases m <;> rfl, rfl, rfl, rfl⟩

/-- Tries that fail: one bit of `HALTED_MASK` only (V-ORC-25), an error in the halt, an error in the status read. -/
def tryRunning : FailedTry := .running (answersOf 0x100) 0x100
def tryHaltError : FailedTry := .haltError (deadDraw true)
def tryStatusError : FailedTry := .statusError (deadDraw false)

theorem tries_fail : ∀ x ∈ [tryRunning, tryHaltError, tryStatusError], x.Fails sGate.cfg := by
  intro x hx
  simp only [List.mem_cons, List.not_mem_nil, or_false] at hx
  obtain ⟨h1, h2⟩ := answersOf_answer 0x100
  rcases hx with rfl | rfl | rfl
  · exact ⟨⟨h1, h2⟩, by decide⟩
  · exact (by decide : ¬ answered Params.sample (deadDraw true))
  · exact (by decide : ¬ answered Params.sample (deadDraw false))

/-- The target is halted at the last try, after two that fail. -/
def sThird : State := { sGate with
  slotIn := [tryRunning, tryHaltError].flatMap FailedTry.script ++ List.replicate 32 zeroDraw ++ answersOf 0x300 }

theorem witness_UnbrickCompletes : sThird.cfg.Valid ∧ AlignedConfig sThird.cfg ∧ sThird.cfg.hasPowerGate = true ∧ sThird.pinMask ≠ 0 ∧
    sThird.status ≠ .uploading ∧ sThird.status ≠ .updating ∧ sThird.cfg.seqInit.all sendsOnly = true ∧
    sThird.cfg.seqPre.all sendsOnly = true ∧ sThird.cfg.seqHaltReset.all sendsOnly = true ∧
    [tryRunning, tryHaltError].length < sThird.cfg.unbrickTries ∧ (∀ x ∈ [tryRunning, tryHaltError], x.Fails sThird.cfg) ∧
    sThird.slotIn = [tryRunning, tryHaltError].flatMap FailedTry.script ++ List.replicate 32 zeroDraw ++ answersOf 0x300 ∧
    sThird.slotRest = some zeroDraw ∧ Answers sThird.cfg (answersOf 0x300) 0x300 ∧ (0x300 : Word) &&& sThird.cfg.haltedMask = sThird.cfg.haltedMask := by
  refine ⟨gate_valid, gate_aligned, rfl, show (1 : Word) ≠ 0 by decide, nofun, nofun, rfl, rfl, rfl, by decide, ?_, rfl, rfl, ?_,
    by decide⟩
  · intro x hx
    exact tries_fail x (by simp only [List.mem_cons, List.not_mem_nil, or_false] at hx ⊢; exact hx.imp_right .inl)
  · obtain ⟨h1, h2⟩ := answersOf_answer 0x300
    exact ⟨h1, h2⟩

theorem witness_UnbrickGivesUp : s1.cfg.hasPowerGate = false ∧ (sGate.cfg.hasPowerGate = true ∧ sGate.status ≠ .uploading ∧
    sGate.status ≠ .updating ∧ ZeroTarget { sGate with slotIn := [] }) :=
  ⟨rfl, rfl, by decide, by decide, gate_valid, gate_aligned, by decide, rfl, rfl⟩

/-- As many tries that fail as there are; a line that never answers; no pin. -/
theorem witness_UnbrickGivesUp_tries : (sGate.cfg.Valid ∧ sGate.pinMask ≠ 0 ∧ sGate.cfg.seqInit.all sendsOnly = true ∧
      sGate.cfg.seqPre.all sendsOnly = true ∧ sGate.cfg.seqHaltReset.all sendsOnly = true ∧
      [tryRunning, tryHaltError, tryStatusError].length = sGate.cfg.unbrickTries ∧
      ∀ x ∈ [tryRunning, tryHaltError, tryStatusError], x.Fails sGate.cfg) ∧
    DeadLine { sGate with slotIn := [], slotRest := some ⟨false, none⟩ } ∧ ({ sGate with pinMask := 0 } : State).pinMask = 0 :=
  ⟨⟨gate_valid, by decide, rfl, rfl, rfl, rfl, tries_fail⟩, ⟨gate_valid, by decide, rfl, false, rfl⟩, rfl⟩

theorem witness_SessionBusyRefused : (sUp 0x20000002 7 3).status = .uploading ∧
    ({ sGate with status := .updating } : State).status = .updating ∧
    ((16384 : Word).toNat ≤ s1.cfg.maxBinary ∧ (0xFFFFC000 : Word).toNat + (16384 : Word).toNat ≤ 2 ^ 32) ∧
    uploadRangeOk (sUp 0x20000002 7 3) 0x08000000 16384 (some 8) = true ∧ legalPin 0x80000000 = true := by decide

theorem witness_DisconnectedTerminalIsHarmless : (sUp 0x20000002 7 3).active = true ∧
    (sUp 0x20000002 7 3).terminalConnected = false := by decide

/-- It connects while no upload is open, and tries to while one is; it disconnects; it presents a symbol unconnected. -/
theorem witness_DisconnectedTerminalIsHarmless_acts :
    (({ s1 with termIn := [[.connect]] } : State).irqMasked = false ∧ s1.active = false) ∧
    ({ sUp 0x20000002 7 3 with termIn := [[.connect]] } : State).active = true ∧
    ({ s1 with terminalConnected := true, termIn := [[.disconnect]] } : State).termIn = (.disconnect :: []) :: [] ∧
    (({ s1 with termIn := [[.issue [.s1]]] } : State).terminalConnected = false ∧ s1.active = false) := by decide

theorem s1_config : ConfigOk s1 := ⟨Params.sample_valid, .inr ⟨0, by decide, by decide⟩, by decide, by decide⟩

theorem s1_line : LineIdle s1 := ⟨rfl, rfl, rfl, .inl rfl, rfl⟩

theorem witness_StepKeepsConfigAndLine : ConfigOk s1 ∧ LineIdle s1 ∧ PortOk s1 ∧ s1.reqOp ≠ 0x60 ∧ s1.reqOp ≠ 0x61 ∧
    ∃ t, step s1 = .next t := ⟨s1_config, s1_line, ⟨by decide⟩, by decide, by decide, _, rfl⟩

theorem witness_StepKeepsSession : SessionOk (sUp 0x20000002 7 3) ∧ ∃ t, step (sUp 0x20000002 7 3) = .next t := ⟨sUp_ram, _, rfl⟩

theorem witness_StepNeverStops : SessionOk (sUp 0x20000002 7 3) := sUp_ram

theorem witness_StepFollowsTransitions : ∃ t, step (sUp 0x20000002 7 3) = .next t := ⟨_, rfl⟩

theorem witness_StepKeepsCodes : CodesOk s1 ∧ ∃ t, step s1 = .next t := ⟨⟨by decide, by decide⟩, _, rfl⟩

theorem witness_ResetState : Params.sample.Valid := Params.sample_valid

/-- (1) Everything is answered but the closing poll. -/
def sClose : State := { sUp 0x20000002 7 3 with
  slotIn := List.replicate (32 * (1 + (ramActs 0x20000002 (uploadedBytes
    (Memory.writeBytes (sUp 0x20000002 7 3).uploadBuffer 3 [1, 2, 3, 4]) 7)).length)) zeroDraw
  slotRest := some (deadDraw false) }

theorem witness_UpdateCutShort_close : SessionOk sClose ∧
    sClose.received.toNat + ([1, 2, 3, 4] : List Byte).length = sClose.size.toNat ∧ sClose.cfg.Valid ∧
    sClose.pinMask ≠ 0 ∧ ClockStill sClose ∧ classify sClose.cfg 0x20000002 7 = .nonFlash ∧
    sClose.cfg.seqInit.all sendsOnly = true ∧ sClose.cfg.seqPre.all sendsOnly = true ∧
    sClose.cfg.seqHaltNoReset.all sendsOnly = true ∧ sClose.cfg.seqResume.all sendsOnly = true ∧
    sClose.slotRest = some (deadDraw false) ∧
    sClose.slotIn = List.replicate (32 * (1 + (ramActs sClose.offset.toNat (uploadedBytes
      (Memory.writeBytes sClose.uploadBuffer sClose.received.toNat [1, 2, 3, 4]) sClose.size.toNat)).length)) zeroDraw := by
  refine ⟨?_, by decide, Params.sample_valid, by decide, ⟨rfl, rfl⟩, by decide, by decide, by decide, by decide, by decide, rfl, rfl⟩
  obtain ⟨⟩ := sUp_ram
  constructor <;> assumption

/-- (2) The clock jumps one past the deadline after `k` watchdog steps. -/
def sJump (k : Nat) : State := { sUp 0x20000002 7 3 with
  clockIn := 5 :: List.replicate (2 * k) 0 ++ (Params.sample.watchdogTimeout + 1) :: [] }

theorem witness_UpdateCutShort : SessionOk (sJump 0) ∧ SessionOk (sJump 3) ∧
    (sJump 3).received.toNat + ([1, 2, 3, 4] : List Byte).length = (sJump 3).size.toNat ∧ ZeroTarget (sJump 0) ∧
    ZeroTarget (sJump 3) ∧ classify (sJump 3).cfg 0x20000002 7 = .nonFlash ∧
    (sJump 3).cfg.watchdogTimeout < Params.sample.watchdogTimeout + 1 ∧
    (sJump 3).clockIn = 5 :: List.replicate (2 * 3) 0 ++ (Params.sample.watchdogTimeout + 1) :: [] := by
  have h (k : Nat) : SessionOk (sJump k) := by
    obtain ⟨⟩ := sUp_ram
    constructor <;> assumption
  have z (k : Nat) : ZeroTarget (sJump k) := ⟨Params.sample_valid, sample_aligned, show (1 : Word) ≠ 0 by decide, rfl, rfl⟩
  exact ⟨h 0, h 3, by decide, z 0, z 3, by decide, Nat.lt_succ_self _, rfl⟩

theorem witness_WireStringsReencode : decodeWire [.s1] = .ok .sym1 ∧ encode .sym1 = .wire [.s1] := by decide

end Sys2Proof.Tests
end

section
/-!
PROOFS. Alignment and errors of the sequencer's accesses (R68, R163 to R168): which errors an operation can end with is said by one
predicate, `ErrorsIn`, that composes along `Res.bind`, so that the errors of an access are those of its frames and its completion poll.
-/
namespace Sys2Proof.Proofs

open Sys2Proof.Machine Sys2Proof.Laws

/-! ### Which errors an operation can end with -/

variable {α β : Type} {E : ErrKind → Prop}

/-- The operation, where it fails, fails with an error in `E`. -/
def ErrorsIn (E : ErrKind → Prop) (r : Res α) : Prop := ∀ e t, r = .err e t → E e

theorem ErrorsIn.ok (a : α) (s : State) : ErrorsIn E (.ok a s) := fun _ _ h => nomatch h

theorem ErrorsIn.err {e : ErrKind} (h : E e) (s : State) : ErrorsIn E (.err e s : Res α) := fun _ _ he => by
  cases he; exact h

/-- Errors propagate unchanged (R280), so a sequence fails as one of its parts does. -/
theorem ErrorsIn.bind {r : Res α} {f : α → State → Res β} (hr : ErrorsIn E r) (hf : ∀ a t, ErrorsIn E (f a t)) :
    ErrorsIn E (r.bind f) := by
  cases r with
  | ok a t => exact hf a t
  | err e t => exact .err (hr e t rfl) t

theorem ErrorsIn.onErr {r : Res α} (h : ErrorsIn E r) (f : State → State) : ErrorsIn E (r.onErr f) := by
  cases r with
  | ok a t => exact .ok a t
  | err e t => exact .err (h e t rfl) _

theorem ErrorsIn.after {r : Res α} (h : ErrorsIn E r) (f : State → State) : ErrorsIn E (r.after f) := by
  cases r with
  | ok a t => exact .ok a _
  | err e t => exact .err (h e t rfl) _

theorem ErrorsIn.runEach {f : β → State → Res Unit} (hf : ∀ b s, ErrorsIn E (f b s)) :
    ∀ (bs : List β) (s : State), ErrorsIn E (runEach f bs s)
  | [], s => .ok () s
  | b :: bs, s => (hf b s).bind fun _ t => ErrorsIn.runEach hf bs t

/-- The errors of a frame (R140, R144) and of the completion poll (R168): none of them is `Misaligned`. -/
def SequencerError (e : ErrKind) : Prop := e = .initFailure ∨ e = .busFault ∨ e = .abstractCommandError

theorem not_sequencerError_misaligned : ¬ SequencerError .misaligned := by simp [SequencerError]

/-- A write frame fails only where no pin is configured (R140, R142). -/
theorem frameWrite_errors (who : Issuer) (cmd : Cmd) (v : Word) (s : State) :
    ErrorsIn SequencerError (frameWrite who cmd v s) := by
  by_cases hp : s.pinMask = 0
  · rw [frameWrite_noPin who cmd v hp]; exact .err (.inl rfl) s
  · rw [frameWrite, if_neg hp]; exact .ok () _

/-- A read frame fails where no pin is configured, or with a bus fault (R140, R144). -/
theorem frameRead_errors (who : Issuer) (cmd : Cmd) (s : State) : ErrorsIn SequencerError (frameRead who cmd s) := by
  by_cases hp : s.pinMask = 0
  · rw [frameRead_noPin who cmd hp]; exact .err (.inl rfl) s
  · rw [frameRead, if_neg hp]
    dsimp only
    rcases readSlots _ 32 0 _ with ⟨_ | v, t⟩
    · exact .err (.inr (.inl rfl)) _
    · exact .ok v _

theorem fw_errors (cmd : Cmd) (v : Word) (s : State) : ErrorsIn SequencerError (fw cmd v s) :=
  frameWrite_errors .control cmd v _

theorem fr_errors (cmd : Cmd) (s : State) : ErrorsIn SequencerError (fr cmd s) := frameRead_errors .control cmd _

theorem reprogram_errors (prog : List Word) (on : Option Word) (s : State) :
    ErrorsIn SequencerError (reprogram prog on s) := by
  refine (fw_errors _ _ _).bind fun _ t => (ErrorsIn.runEach (fun _ u => fw_errors _ _ u) _ t).bind fun _ u => ?_
  cases on with
  | none => exact .ok () u
  | some v => exact fw_errors _ v u

theorem pollAbstract_errors : ∀ (n : Nat) (s : State), ErrorsIn SequencerError (pollAbstract n s)
  | 0, s => .err (.inr (.inr rfl)) s
  | n + 1, s => by
    refine (fr_errors _ s).bind fun v t => ?_
    split
    · split
      · exact (fw_errors _ _ t).bind fun _ u => .err (.inr (.inr rfl)) u
      · exact .ok () t
    · exact pollAbstract_errors n t

theorem execute_errors (s : State) : ErrorsIn SequencerError (execute s) :=
  (fw_errors _ _ s).bind fun _ t => (pollAbstract_errors _ t).onErr invalidate

theorem memReadByte_errors (a : Word) (s : State) : ErrorsIn SequencerError (memReadByte a s) :=
  ((reprogram_errors _ _ s).bind fun _ t => (fw_errors _ a t).bind fun _ t => (execute_errors t).bind fun _ t =>
    (fr_errors _ t).bind fun _ t => .ok _ t).after invalidate

theorem memWriteByte_errors (a : Word) (b : Byte) (s : State) : ErrorsIn SequencerError (memWriteByte a b s) :=
  ((reprogram_errors _ _ s).bind fun _ t => (fw_errors _ a t).bind fun _ t => (fw_errors _ _ t).bind fun _ t =>
    execute_errors t).after invalidate

/-! ### Alignment (R68) -/

theorem aligned4_iff (a : Word) : aligned4 a = true ↔ a.toNat % 4 = 0 := by simp [aligned4]

/-- A word read of a misaligned address is refused before any frame (R68). -/
theorem memReadWord_misaligned {a : Word} (h : ¬ aligned4 a = true) (ai : Bool) (s : State) :
    memReadWord a ai s = .err .misaligned s := by simp [memReadWord, h]

/-- A word write of a misaligned address is refused before any frame (R68). -/
theorem memWriteWord_misaligned {a : Word} (h : ¬ aligned4 a = true) (v : Word) (s : State) :
    memWriteWord a v s = .err .misaligned s := by simp [memWriteWord, h]

/-- A refusal clears `ctl`, so that the opcode a request began with leaves no trace (R45). -/
theorem respondErr_begin (e : ErrKind) (op : Byte) (s : State) : respondErr e (Machine.begin op s) = respondErr e s := rfl

theorem exec_seqReadWord_misaligned {a : Word} (h : ¬ aligned4 a = true) (ai : Bool) (s : State) :
    exec (.seqReadWord (some a) (some ai)) s = .next (respondErr .misaligned s) := by
  simp only [exec, execSeqReadWord, memReadWord_misaligned h, finishValue, respondErr_begin]

theorem exec_seqWriteWord_misaligned {a : Word} (h : ¬ aligned4 a = true) (v : Word) (s : State) :
    exec (.seqWriteWord (some a) (some v)) s = .next (respondErr .misaligned s) := by
  simp only [exec, execSeqWriteWord, memWriteWord_misaligned h, finish, respondErr_begin]

/-- Settles O31: word accesses by the check they begin with, byte accesses by the errors of their frames and polls, and the blob
operations by the alignment of the accesses they plan. -/
theorem misalignedWordAccess : Obligations.MisalignedWordAccess := by
  refine ⟨fun a v ai s h => ?_, fun a b s t => ⟨fun he => ?_, fun he => ?_⟩, fun fuel p d a v h => ?_, fun fuel p n a h => ?_⟩
  · have hm : ¬ aligned4 a = true := mt (aligned4_iff a).1 h
    exact ⟨memReadWord_misaligned hm ai s, memWriteWord_misaligned hm v s, exec_seqReadWord_misaligned hm ai s,
      exec_seqWriteWord_misaligned hm v s⟩
  · exact not_sequencerError_misaligned (memReadByte_errors a s _ t he)
  · exact not_sequencerError_misaligned (memWriteByte_errors a b s _ t he)
  · exact (aligned4_iff a).1 (ramWrites_aligned fuel p d a v h)
  · exact (aligned4_iff a).1 (blobReads_aligned fuel p n a h)

end Sys2Proof.Proofs
end

section
/-!
PROOFS. The classification of a range (R62, R63) as a statement about its addresses, and the refusal of a mixed one (R196, R240).
-/
namespace Sys2Proof.Proofs

open Sys2Proof.Machine
open Sys2Proof.Config (Params)

/-- An address of the flash (R62). -/
def FlashAddr (p : Params) (x : Nat) : Prop := Config.flashBase ≤ x ∧ x < Config.flashBase + p.flashSize

theorem isFlashAt_iff (p : Params) (x : Nat) : isFlashAt p x = true ↔ FlashAddr p x := by
  simp [isFlashAt, FlashAddr]

/-- A range is flash when both its ends are (R63). -/
theorem classify_eq_flash_iff (p : Params) (a n : Nat) :
    classify p a n = .flash ↔ FlashAddr p a ∧ FlashAddr p (a + n - 1) := by
  rw [← isFlashAt_iff, ← isFlashAt_iff, ← Bool.and_eq_true]
  unfold classify
  dsimp only
  split
  · simp_all
  · split <;> simp_all

/-- R63's "no flash address lies between them", by the three comparisons that decide it: the flash is one interval, so a range whose ends
are outside it can only meet it by spanning it. -/
theorem no_flashAddr_iff {p : Params} {a n : Nat} (hn : 1 ≤ n) : (∀ x, a ≤ x → x < a + n → ¬ FlashAddr p x) ↔
    ¬ FlashAddr p a ∧ ¬ FlashAddr p (a + n - 1) ∧
      ¬ (a < Config.flashBase ∧ Config.flashBase ≤ a + n - 1 ∧ 0 < p.flashSize) := by
  constructor
  · intro h
    refine ⟨h a (by omega) (by omega), h (a + n - 1) (by omega) (by omega), fun ⟨h1, h2, h3⟩ => ?_⟩
    exact h Config.flashBase (by omega) (by omega) ⟨Nat.le_refl _, by omega⟩
  · rintro ⟨h1, h2, h3⟩ x hx hxn ⟨hl, hu⟩
    unfold FlashAddr at h1 h2
    omega

/-- What `classify` checks of a range that is not flash at both its ends. -/
theorem nonFlashCheck_iff (p : Params) (a l : Nat) : (!isFlashAt p a && !isFlashAt p l
      && !(decide (a < Config.flashBase) && decide (Config.flashBase ≤ l) && decide (0 < p.flashSize))) = true ↔
    ¬ FlashAddr p a ∧ ¬ FlashAddr p l ∧ ¬ (a < Config.flashBase ∧ Config.flashBase ≤ l ∧ 0 < p.flashSize) := by
  simp only [← isFlashAt_iff, Bool.and_eq_true, Bool.not_eq_true', ← Bool.not_eq_true, decide_eq_true_eq, and_assoc]

theorem classify_eq_nonFlash_iff {p : Params} {a n : Nat} (hn : 1 ≤ n) :
    classify p a n = .nonFlash ↔ ∀ x, a ≤ x → x < a + n → ¬ FlashAddr p x := by
  rw [no_flashAddr_iff hn, ← nonFlashCheck_iff]
  unfold classify
  dsimp only
  split
  · rename_i hf
    rw [Bool.and_eq_true] at hf
    exact iff_of_false nofun (by simp [hf.1])
  · split
    · exact iff_of_true rfl ‹_›
    · exact iff_of_false nofun ‹_›

theorem classify_eq_mixed_iff {p : Params} {a n : Nat} (hn : 1 ≤ n) : classify p a n = .mixed ↔
    ¬ (FlashAddr p a ∧ FlashAddr p (a + n - 1)) ∧ ∃ x, a ≤ x ∧ x < a + n ∧ FlashAddr p x := by
  have hnon : (∃ x, a ≤ x ∧ x < a + n ∧ FlashAddr p x) ↔ classify p a n ≠ .nonFlash := by
    rw [Ne, classify_eq_nonFlash_iff hn]
    push Not
    rfl
  rw [hnon, ← classify_eq_flash_iff]
  cases classify p a n <;> simp

/-- A blob write to a mixed range is refused before any frame (R196). -/
theorem blobWrite_mixed {s : State} {a n : Nat} {data : List Byte} (hn : 1 ≤ n) (hd : data.length = n)
    (hm : classify s.cfg a n = .mixed) : blobWrite a n data s = .err .outOfRange s := by
  rw [blobWrite, if_neg (by omega), if_neg (not_not.2 hd), hm]
  split <;> rfl

/-- An upload to a mixed range is not accepted (R240). -/
theorem uploadRangeOk_mixed {s : State} {offset size : Word} (retries : Option Word)
    (hm : classify s.cfg offset.toNat size.toNat = .mixed) : uploadRangeOk s offset size retries = false := by
  simp [uploadRangeOk, hm]

/-- Settles O41: each kind by what it says of the range's addresses, and the refusals by the check each operation makes. -/
theorem rangeClassification : Obligations.RangeClassification := by
  intro p a n _ hn
  refine ⟨classify_eq_flash_iff p a n, classify_eq_nonFlash_iff hn, classify_eq_mixed_iff hn, ?_⟩
  rintro s data offset size retries rfl hd hm
  exact ⟨blobWrite_mixed hn hd hm, fun ho hs => uploadRangeOk_mixed retries (by rwa [ho, hs])⟩

end Sys2Proof.Proofs
end

section
/-!
PROOFS. How long frames last (R149): the duration of a list of events is a sum over its parts, so a frame's is that of its symbols by the
number of 1 bits, of its read slots, and of the gap; and how many 1 bits a write frame can hold.
-/
namespace Sys2Proof.Proofs

open Sys2Proof.Machine Sys2Proof.Safety Sys2Proof.Laws
open Sys2Proof.Config (Params SlotDraw)

/-! ### Durations on the line -/

@[simp] theorem ticks_nil (p : Params) : ticks p [] = 0 := rfl

@[simp] theorem ticks_cons (p : Params) (e : LineEvent) (es : List LineEvent) :
    ticks p (e :: es) = ticksOf p e + ticks p es := by simp [ticks]

@[simp] theorem ticks_append (p : Params) (es fs : List LineEvent) : ticks p (es ++ fs) = ticks p es + ticks p fs := by
  simp [ticks]

theorem ticks_flatMap {α : Type} (p : Params) (f : α → List LineEvent) (xs : List α) :
    ticks p (xs.flatMap f) = (xs.map fun x => ticks p (f x)).sum := by
  induction xs with
  | nil => rfl
  | cons x xs ih => simp [ih]

/-- A 1 lasts 2 units of the coefficient, a 0 lasts 5 (R121, R122). -/
theorem ticks_symbolEvents (p : Params) (c : Nat) (b : Bool) :
    ticks p (symbolEvents p c b) = (if b then 2 else 5) * c * p.tau := by
  cases b <;> simp [symbolEvents, ticksOf] <;> ring

/-- The end of a frame lasts as long as its gap (R145): freeing the port takes no time. -/
theorem ticks_frameEnd (p : Params) (who : Issuer) : ticks p [.unmask, .gap p.frameGap, .release who] = p.frameGap := by
  simp [ticksOf]

/-- A read slot lasts its low phase, its release, and its polls' waits (R123, R124). -/
theorem ticks_slotEvents (p : Params) (c : Nat) (d : SlotDraw) :
    ticks p (slotEvents p c d) = p.readLow + 2 * c * p.tau + slotWaits p d * p.pollTime := by
  unfold slotEvents slotWaits
  cases seenHigh p d <;> simp [ticksOf, Nat.add_assoc]

/-! ### 1 bits -/

@[simp] theorem ones_nil : ones [] = 0 := rfl

@[simp] theorem ones_cons (b : Bool) (bits : List Bool) : ones (b :: bits) = ones bits + if b then 1 else 0 := by
  simp [ones, List.countP_cons]

@[simp] theorem ones_append (xs ys : List Bool) : ones (xs ++ ys) = ones xs + ones ys := by simp [ones]

theorem ones_le_length (bits : List Bool) : ones bits ≤ bits.length := List.countP_le_length

/-- The units a list of bits lasts, by the number `n1` of 1 bits among the `n` (R149). -/
theorem ticks_symbols (p : Params) (c : Nat) (bits : List Bool) : ticks p (bits.flatMap (symbolEvents p c))
    = (ones bits * 2 * c + (bits.length - ones bits) * 5 * c) * p.tau := by
  induction bits with
  | nil => simp
  | cons b bits ih =>
    rw [List.flatMap_cons, ticks_append, ticks_symbolEvents, ih]
    cases b with
    | true =>
      simp only [ones_cons, List.length_cons, if_true, Nat.add_sub_add_right]
      ring
    | false =>
      have zeros : bits.length + 1 - ones bits = bits.length - ones bits + 1 := Nat.sub_add_comm (ones_le_length bits)
      simp only [ones_cons, List.length_cons, Bool.false_eq_true, if_false, Nat.add_zero, zeros]
      ring

/-- The start symbol and the separator of a write frame are 1 (R93, R95). -/
theorem ones_writeFrameBits (cmd : Cmd) (v : Word) :
    ones (writeFrameBits cmd v) = ones (msbBits cmd) + ones (msbBits v) + 2 := by
  simp only [writeFrameBits, headerBits, ones_append, ones_cons, ones_nil, if_true]
  omega

theorem two_le_ones_writeFrameBits (cmd : Cmd) (v : Word) : 2 ≤ ones (writeFrameBits cmd v) := by
  rw [ones_writeFrameBits]; exact Nat.le_add_left ..

theorem ones_writeFrameBits_le (cmd : Cmd) (v : Word) : ones (writeFrameBits cmd v) ≤ 41 :=
  (ones_le_length _).trans_eq (length_writeFrameBits cmd v)

theorem ones_writeFrameBits_max : ones (writeFrameBits 127 0xFFFFFFFF) = 41 := by decide

theorem ones_writeFrameBits_min : ones (writeFrameBits 0 0) = 2 := by decide

/-! ### Frames -/

theorem ticks_writeFrameEvents (p : Params) (who : Issuer) (c : Nat) (cmd : Cmd) (v : Word) :
    ticks p (writeFrameEvents p who c cmd v)
      = (ones (writeFrameBits cmd v) * 2 * c + (41 - ones (writeFrameBits cmd v)) * 5 * c) * p.tau + p.frameGap := by
  rw [writeFrameEvents, ticks_append, ticks_cons, ticks_symbols, ticks_frameEnd, length_writeFrameBits]
  simp [ticksOf]

theorem ticks_readFrameEvents (p : Params) (who : Issuer) (c : Nat) (cmd : Cmd) (ds : List SlotDraw) :
    ticks p (readFrameEvents p who c cmd ds)
      = (ones (headerBits cmd false) * 2 * c + (9 - ones (headerBits cmd false)) * 5 * c) * p.tau
        + (ds.map fun d => p.readLow + 2 * c * p.tau + slotWaits p d * p.pollTime).sum + p.frameGap := by
  rw [readFrameEvents, ticks_append, ticks_append, ticks_cons, ticks_symbols, ticks_flatMap, ticks_frameEnd,
    length_headerBits]
  simp [ticksOf, ticks_slotEvents]

/-- Settles O26: the durations are those of the frames' parts, and the bounds are those of a write frame's 1 bits, at least 2 and at
most 41. -/
theorem frameDurations : Obligations.FrameDurations := by
  intro p who c cmd v ds n1 h1
  have units : n1 * 2 * c + (41 - n1) * 5 * c = (n1 * 2 + (41 - n1) * 5) * c := (Nat.add_mul ..).symm
  have least : 2 ≤ n1 := two_le_ones_writeFrameBits cmd v
  have most : n1 ≤ 41 := ones_writeFrameBits_le cmd v
  refine ⟨ticks_writeFrameEvents p who c cmd v, ticks_readFrameEvents p who c cmd ds, ?shortest, ?longest, ?_, ?_⟩
  case shortest => rw [units]; exact Nat.mul_le_mul_right c (by omega)
  case longest => rw [units]; exact Nat.mul_le_mul_right c (by omega)
  · rintro rfl rfl
    rw [units, show n1 = 41 from ones_writeFrameBits_max]
  · rintro rfl rfl
    rw [units, show n1 = 2 from ones_writeFrameBits_min]

end Sys2Proof.Proofs
end

section
/-!
PROOFS. `SEQ_INVALIDATE` (R170): the operation changes nothing but the tag, and a tag that says `Invalidated` lets no program hit.
-/
namespace Sys2Proof.Proofs

open Sys2Proof.Machine Sys2Proof.Laws

theorem decodeRequest_seqInvalidate {r : Request} (h : r.op = 0x15) : decodeRequest r = .ok .seqInvalidate := by
  rw [decodeRequest, h]
  rfl

/-- A response clears `ctl`, so that the opcode a request began with leaves no trace (R45). -/
theorem respond_begin (code : Word) (value : Option Word) (data : Option (List Byte)) (op : Byte) (s : State) :
    respond code value data (Machine.begin op s) = respond code value data s := rfl

theorem invalidate_begin (op : Byte) (s : State) :
    invalidate (Machine.begin op s) = Machine.begin op (invalidate s) := rfl

/-- The operation is the assignment to the tag and the response without a value (R107, R170). -/
theorem exec_seqInvalidate (s : State) : exec .seqInvalidate s = .next (respond 0 none none (invalidate s)) := by
  simp only [exec, execSeqInvalidate, finish, invalidate_begin, respond_begin]

/-- Invalidating twice is the same as once (R170). -/
theorem invalidate_invalidate (s : State) : invalidate (invalidate s) = invalidate s := rfl

/-- A read program is resident only under the tag `ReadSequence` (R161). -/
theorem readProgHit_of_tag_ne {s : State} (h : s.sessionTag ≠ .readSequence) (ai : Bool) : readProgHit ai s = false := by
  simp [readProgHit, h]

/-- A write program is resident only under the tag `WriteSequence` (R161). -/
theorem writeProgHit_of_tag_ne {s : State} (h : s.sessionTag ≠ .writeSequence) (fl : Bool) : writeProgHit fl s = false := by
  simp [writeProgHit, h]

/-- Settles O32: the next state is that of the assignment to the tag, and no program hits under the tag `Invalidated`. -/
theorem seqInvalidateRule : Obligations.SeqInvalidateRule := by
  refine ⟨fun r => decodeRequest_seqInvalidate, exec_seqInvalidate, invalidate_invalidate, fun s ai fl => ⟨?read, ?write⟩⟩
  case read => exact readProgHit_of_tag_ne (by simp) ai
  case write => exact writeProgHit_of_tag_ne (by simp) fl

end Sys2Proof.Proofs
end

section
/-!
PROOFS. `SETPIN` (R262): the model's check of a mask, by `m & (m - 1)`, accepts exactly 0 and the words with one bit set; a mask it
refuses, a session in flight, and a mask that is stored are the three ends of the operation.
-/
namespace Sys2Proof.Proofs

open Sys2Proof.Machine Sys2Proof.Laws

theorem decodeRequest_setPin {r : Request} (h : r.op = 0x60) : decodeRequest r = .ok (.setPin r.opA) := by
  rw [decodeRequest, h]
  rfl

/-! ### Legal masks -/

/-- The bit that a power of two sets lies inside the word that holds it. -/
theorem isPowerOfTwo_toNat_iff (m : Word) : m.toNat.isPowerOfTwo ↔ ∃ k, k < 32 ∧ m = 1#32 <<< k := by
  constructor
  · rintro ⟨k, hk⟩
    have hlt : k < 32 := (Nat.pow_lt_pow_iff_right Nat.one_lt_two).1 (hk ▸ m.isLt)
    exact ⟨k, hlt, BitVec.eq_of_toNat_eq (hk.trans (BitVec.toNat_twoPow_of_lt hlt).symm)⟩
  · rintro ⟨k, hlt, rfl⟩
    exact ⟨k, BitVec.toNat_twoPow_of_lt hlt⟩

/-- The width check of a mask holds of every word, since `GPIO_WIDTH` is the width of a word (R9, R21). -/
theorem legalPin_eq_true_iff_and (m : Word) : legalPin m = true ↔ m &&& (m - 1) = 0 := by
  have fits : m.toNat < 2 ^ Config.gpioWidth := m.isLt
  simp [legalPin, fits]

/-- Clearing the lowest bit set leaves nothing of a word exactly where it has no other (R21, R262). -/
theorem legalPin_iff (m : Word) : legalPin m = true ↔ m = 0 ∨ ∃ k, k < 32 ∧ m = 1#32 <<< k := by
  rw [legalPin_eq_true_iff_and, ← isPowerOfTwo_toNat_iff]
  by_cases h0 : m = 0
  · simp [h0]
  · have hn : m.toNat ≠ 0 := mt (BitVec.toNat_inj (y := 0)).1 h0
    have hle : (1 : Word) ≤ m := by bv_omega
    have hand : (m &&& (m - 1)).toNat = m.toNat &&& (m.toNat - 1) := by rw [BitVec.toNat_and, BitVec.toNat_sub_of_le hle]; rfl
    rw [or_iff_right h0, ← Nat.and_sub_one_eq_zero_iff_isPowerOfTwo hn, ← hand]
    exact (BitVec.toNat_inj (y := 0)).symm

/-! ### The operation -/

theorem inFlight_iff (s : State) : inFlight s = true ↔ s.status = .uploading ∨ s.status = .updating := by simp [inFlight]

theorem exec_setPin_none (s : State) : exec (.setPin none) s = .next (respondErr .parameterMissing s) := rfl

/-- A mask of more than one bit is refused, a session in flight or not (R262). -/
theorem exec_setPin_illegal {m : Word} (h : ¬ legalPin m = true) (s : State) :
    exec (.setPin (some m)) s = .next (respondErr .outOfRange s) := by simp [exec, execSetPin, h]

/-- The pin cannot change under a session in flight (R238, R262). -/
theorem exec_setPin_inFlight {m : Word} {s : State} (h : legalPin m = true) (hs : inFlight s = true) :
    exec (.setPin (some m)) s = .next (respondErr .sessionBusy s) := by simp [exec, execSetPin, h, hs]

/-- "A new line is a new session" (R262). -/
theorem exec_setPin_legal {m : Word} {s : State} (h : legalPin m = true) (hs : ¬ inFlight s = true) :
    exec (.setPin (some m)) s
      = .next (respond 0 none none { s with pinMask := m, sessionTag := .none, flashUnlocked := false }) := by
  simp [exec, execSetPin, h, hs]

/-- Settles O10: the checks of the statement are those of the model, in its order, and every frame fails without a pin. -/
theorem setPinRule : Obligations.SetPinRule := by
  refine ⟨fun r => decodeRequest_setPin, fun s => ⟨exec_setPin_none s, fun m => ?_⟩⟩
  split
  next hm => exact exec_setPin_illegal (mt (legalPin_iff m).1 hm) s
  next hm =>
    have legal : legalPin m = true := (legalPin_iff m).2 (not_not.1 hm)
    split
    next hs => exact exec_setPin_inFlight legal ((inFlight_iff s).2 hs)
    next hs =>
      refine ⟨exec_setPin_legal legal (mt (inFlight_iff s).1 hs), ?_⟩
      rintro rfl who cmd v t hp
      exact ⟨frameWrite_noPin who cmd v hp, frameRead_noPin who cmd hp⟩

end Sys2Proof.Proofs
end

section
/-!
PROOFS. `STATUS` (R247): the response carries the code and the state that stand before it, and only a result is consumed.
-/
namespace Sys2Proof.Proofs

open Sys2Proof.Machine Sys2Proof.Safety Sys2Proof.Laws

theorem decodeRequest_status {r : Request} (h : r.op = 0x44) : decodeRequest r = .ok .status := by
  rw [decodeRequest, h]
  rfl

/-- A result goes to `Idle` once it is read; any other state of the session stands (R247). -/
theorem exec_status (s : State) : exec .status s = .next { respond s.error (some s.status.code) none s with
    status := if s.status = .success ∨ s.status = .failed then .idle else s.status } := by
  rw [exec, execStatus]
  split <;> rfl

/-- An open upload has no error to report (R240, R247). -/
theorem status_of_uploading {s : State} (h : SessionOk s) (hs : s.status = .uploading) : s.error = 0 ∧ s.status.code = 1 :=
  ⟨h.error hs, by rw [hs]; rfl⟩

/-- Settles O12: what `STATUS` does in every state, and what it reports of an upload by the session invariant. -/
theorem statusRule : Obligations.StatusRule :=
  ⟨fun _ => decodeRequest_status, fun s => ⟨exec_status s, status_of_uploading⟩⟩

end Sys2Proof.Proofs
end

section
/-!
PROOFS. The two encodings, read back (R90 to R105): the operand registers of a request that the encoder wrote, the bits of a frame's
fields in send order, and the strings the wire decoder accepts.
-/
namespace Sys2Proof.Proofs

open Sys2Proof.Machine Sys2Proof.Safety Sys2Proof.Laws
open Sys2Proof.Config (Params SlotDraw)

/-! ### Requests -/

@[simp] theorem mkRequest_fields (op : Byte) (a b c : Option Word) (l : Bool) (d : List Byte) :
    (mkRequest op a b c l d).op = op ∧ (mkRequest op a b c l d).last = l ∧ (mkRequest op a b c l d).data = d :=
  ⟨rfl, rfl, rfl⟩

@[simp] theorem opA_mkRequest (op : Byte) (a b c : Option Word) (l : Bool) (d : List Byte) :
    (mkRequest op a b c l d).opA = a := by
  cases a <;> cases b <;> cases c <;> simp [Request.opA, mkRequest]

@[simp] theorem opB_mkRequest (op : Byte) (a b c : Option Word) (l : Bool) (d : List Byte) :
    (mkRequest op a b c l d).opB = b := by
  cases a <;> cases b <;> cases c <;> simp [Request.opB, mkRequest]

@[simp] theorem opC_mkRequest (op : Byte) (a b c : Option Word) (l : Bool) (d : List Byte) :
    (mkRequest op a b c l d).opC = c := by
  cases a <;> cases b <;> cases c <;> simp [Request.opC, mkRequest]

/-- `B[0]` is the flag that was written there (R105). -/
theorem getElem_flagWord (b : Bool) : (flagWord b)[0] = b := by cases b <;> rfl

/-- `B[7:0]` is the byte that was written there (R105). -/
theorem extractLsb'_setWidth (v : Byte) : (v.setWidth 32 : Word).extractLsb' 0 8 = v := by
  refine BitVec.eq_of_getLsbD_eq fun i hi => ?_
  simp [hi, show i < 32 by omega]

/-! ### Frames -/

/-- The strings of a write frame, as the decoder takes them apart (R93, R95). -/
theorem map_writeFrameBits (cmd : Cmd) (v : Word) : (writeFrameBits cmd v).map bitSymbol
    = .s1 :: ((msbBits cmd).map bitSymbol ++ .s1 :: (msbBits v).map bitSymbol) := by
  simp [writeFrameBits, headerBits, bitSymbol]

/-- The strings of a read frame, as the decoder takes them apart (R94, R95). -/
theorem map_headerBits_read (cmd : Cmd) : (headerBits cmd false).map bitSymbol
    = .s1 :: ((msbBits cmd).map bitSymbol ++ [.s0]) := by
  simp [headerBits, bitSymbol]

theorem decodeWire_writeFrame (cmd : Cmd) (v : Word) :
    decodeWire ((writeFrameBits cmd v).map bitSymbol) = .ok (.writeFrame cmd v) := by
  have header := takeBits_msbBits cmd (.s1 :: (msbBits v).map bitSymbol)
  have payload := takeBits_msbBits v []
  rw [List.append_nil] at payload
  obtain ⟨t, ts, ht⟩ := msbBits_ne_nil cmd
  rw [map_writeFrameBits]
  rw [ht] at header ⊢
  rw [List.cons_append] at header ⊢
  simp only [decodeWire, header, payload, assemble_msbBits]

theorem decodeWire_readFrame (cmd : Cmd) :
    decodeWire ((headerBits cmd false).map bitSymbol ++ List.replicate 32 .rs) = .ok (.readFrame cmd) := by
  have header := takeBits_msbBits cmd (.s0 :: List.replicate 32 .rs)
  obtain ⟨t, ts, ht⟩ := msbBits_ne_nil cmd
  rw [map_headerBits_read]
  rw [ht] at header ⊢
  simp only [List.cons_append, List.append_assoc, List.nil_append] at header ⊢
  simp only [decodeWire, header, assemble_msbBits, if_true]

/-- Settles O1: a request by the operands it was written with, a frame by the bits of its fields, a lone symbol or slot at once. -/
theorem decodeEncodeRoundTrip : Obligations.DecodeEncodeRoundTrip := by
  intro i
  cases i with
  | writeFrame cmd value => exact decodeWire_writeFrame cmd value
  | readFrame cmd => exact decodeWire_readFrame cmd
  | seqReadWord a ai =>
    cases ai with
    | none => simp [encode, decode, decodeRequest, plainRequest]
    | some b => simp [encode, decode, decodeRequest, plainRequest, getElem_flagWord]
  | seqWriteByte a b =>
    cases b with
    | none => simp [encode, decode, decodeRequest, plainRequest]
    | some v => simp [encode, decode, decodeRequest, plainRequest, extractLsb'_setWidth]
  | sym1 | sym0 | readSlot => rfl
  | _ => simp [encode, decode, decodeRequest, plainRequest]

/-! ### Strings that decode -/

/-- The symbols read as bits are those bits' symbols. -/
theorem map_of_takeBits : ∀ {n : Nat} {ts rest : List WireTok} {bs : List Bool},
    takeBits n ts = some (bs, rest) → bs.length = n ∧ ts = bs.map bitSymbol ++ rest
  | 0, ts, rest, bs, h => by
    simp only [takeBits, Option.some.injEq, Prod.mk.injEq] at h
    obtain ⟨rfl, rfl⟩ := h
    exact ⟨rfl, rfl⟩
  | n + 1, [], rest, bs, h => by simp [takeBits] at h
  | n + 1, t :: ts, rest, bs, h => by
    rw [takeBits] at h
    split at h
    next b cs rest' hb hn =>
      obtain ⟨hl, rfl⟩ := map_of_takeBits hn
      simp only [Option.some.injEq, Prod.mk.injEq] at h
      obtain ⟨rfl, rfl⟩ := h
      refine ⟨congrArg Nat.succ hl, ?_⟩
      cases t <;> simp_all [symbolBit, bitSymbol]
    next => cases h

/-- As many bits as a value is wide are the bits of some value. -/
theorem exists_msbBits {w : Nat} {bs : List Bool} (h : bs.length = w) : ∃ v : BitVec w, bs = msbBits v := by
  subst h
  refine ⟨BitVec.ofBoolListBE bs, List.ext_getElem (by simp) fun i hi _ => ?_⟩
  simp [msbBits, hi]

/-- The bits of an assembled value are the bits it was assembled from (R65, R96). -/
theorem msbBits_assemble {w : Nat} {bs : List Bool} (h : bs.length = w) : msbBits (assemble w bs) = bs := by
  obtain ⟨v, rfl⟩ := exists_msbBits h
  rw [assemble_msbBits]

/-- Settles O2: along the branches of the decoder, each of which names the symbols of the string it accepts. -/
theorem wireStringsReencode : Obligations.WireStringsReencode := by
  intro w i h
  unfold decodeWire at h
  split at h
  case h_5 rest _ =>
    split at h
    next => cases h
    next cmd body hc =>
      split at h
      next bits hb =>
        cases h
        obtain ⟨hl, rfl⟩ := map_of_takeBits hc
        obtain ⟨hm, rfl⟩ := map_of_takeBits hb
        simp [encode, map_writeFrameBits, msbBits_assemble hl, msbBits_assemble hm]
      next => cases h
    next cmd body hc =>
      split at h
      next hb =>
        cases h
        obtain ⟨hl, rfl⟩ := map_of_takeBits hc
        simp [encode, map_headerBits_read, msbBits_assemble hl, hb]
      next => cases h
    next => cases h
  all_goals cases h
  all_goals rfl

/-- Settles O3, by running the decoder on the words. -/
theorem specWordsDecode : Obligations.SpecWordsDecode := by
  unfold Obligations.SpecWordsDecode
  refine ⟨rfl, rfl, rfl, rfl, rfl, rfl, rfl, rfl, rfl, rfl, rfl⟩

/-! ### The line monitor (R92) -/

/-- The low phases of symbols are those of their bits: the high phase is never driven low (R29, R90). -/
theorem lowPhases_symbols (p : Params) (c : Nat) (bits : List Bool) :
    lowPhases (bits.flatMap (symbolEvents p c)) = bits.map fun b => (if b then 1 else 4) * c * p.tau := by
  induction bits with
  | nil => rfl
  | cons b bits ih =>
    rw [List.flatMap_cons, lowPhases, List.filterMap_append, ← lowPhases, ← lowPhases, ih]
    cases hd : p.highDrive <;> simp [lowPhases, symbolEvents, highOut, hd]

/-- The low phase of a read slot is its low pulse (R91, R123). -/
theorem lowPhases_slots (p : Params) (c : Nat) (ds : List SlotDraw) :
    lowPhases (ds.flatMap (slotEvents p c)) = List.replicate ds.length p.readLow := by
  induction ds with
  | nil => rfl
  | cons d ds ih =>
    rw [List.flatMap_cons, lowPhases, List.filterMap_append, ← lowPhases, ← lowPhases, ih]
    cases hd : seenHigh p d <;> simp [lowPhases, slotEvents, hd, List.replicate_succ]

theorem lowPhases_writeFrame (p : Params) (who : Issuer) (c : Nat) (cmd : Cmd) (v : Word) :
    lowPhases (writeFrameEvents p who c cmd v)
      = (writeFrameBits cmd v).map fun b => (if b then 1 else 4) * c * p.tau := by
  rw [← lowPhases_symbols]
  simp [writeFrameEvents, lowPhases]

theorem lowPhases_readFrame (p : Params) (who : Issuer) (c : Nat) (cmd : Cmd) (ds : List SlotDraw) :
    lowPhases (readFrameEvents p who c cmd ds)
      = ((headerBits cmd false).map fun b => (if b then 1 else 4) * c * p.tau) ++ List.replicate ds.length p.readLow := by
  rw [← lowPhases_symbols, ← lowPhases_slots p c]
  simp [readFrameEvents, lowPhases]

/-- A threshold between the two low phases tells the symbols apart (R92). -/
theorem mapM_monitorBit {thresh c tau : Nat} (h1 : 1 * c * tau < thresh) (h4 : thresh < 4 * c * tau) (bits : List Bool) :
    (bits.map fun b => (if b then 1 else 4) * c * tau).mapM (monitorBit thresh) = some (bits.map bitSymbol) := by
  induction bits with
  | nil => rfl
  | cons b bits ih =>
    have hb : monitorBit thresh ((if b then 1 else 4) * c * tau) = some (bitSymbol b) := by
      cases b with
      | true => simp only [monitorBit, if_true, if_pos h1, bitSymbol]
      | false => simp [monitorBit, bitSymbol, h4, Nat.le_of_lt h4]
    rw [List.map_cons, List.mapM_cons, hb, ih]
    rfl

/-- The ninth symbol of a frame is its separator (R95). -/
theorem getLast?_headerBits (cmd : Cmd) (b : Bool) :
    ((headerBits cmd b).map bitSymbol).getLast? = some (bitSymbol b) := by
  rw [headerBits, List.map_append, List.map_singleton, List.getLast?_concat]

/-- A write frame is read back symbol by symbol, since its separator is 1 (R93). -/
theorem monitorWire_writeFrame (p : Params) (who : Issuer) {c thresh : Nat} (cmd : Cmd) (v : Word)
    (h1 : 1 * c * p.tau < thresh) (h4 : thresh < 4 * c * p.tau) :
    monitorWire thresh (lowPhases (writeFrameEvents p who c cmd v)) = some ((writeFrameBits cmd v).map bitSymbol) := by
  have parts : writeFrameBits cmd v = headerBits cmd true ++ msbBits v := rfl
  rw [lowPhases_writeFrame, parts, List.map_append]
  simp only [monitorWire]
  rw [List.take_left' (by simp), List.drop_left' (by simp), mapM_monitorBit h1 h4, mapM_monitorBit h1 h4]
  simp only [getLast?_headerBits]
  rfl

/-- A read frame is read back by its header and its 32 slots, since its separator is 0 (R94). -/
theorem monitorWire_readFrame (p : Params) (who : Issuer) {c thresh : Nat} (cmd : Cmd) (ds : List SlotDraw)
    (h1 : 1 * c * p.tau < thresh) (h4 : thresh < 4 * c * p.tau) (hr : p.readLow < thresh) :
    monitorWire thresh (lowPhases (readFrameEvents p who c cmd ds))
      = some ((headerBits cmd false).map bitSymbol ++ List.replicate ds.length .rs) := by
  rw [lowPhases_readFrame]
  simp only [monitorWire]
  rw [List.take_left' (by simp), List.drop_left' (by simp), mapM_monitorBit h1 h4]
  simp only [getLast?_headerBits]
  simp [bitSymbol, hr]

/-- Settles O4: the monitor reads the frame's own string, which decodes to the frame; a read slot's low pulse is shorter than two units,
and so than a symbol's low phase. -/
theorem monitorReadsFrames : Obligations.MonitorReadsFrames := by
  intro p who c thresh cmd v ds hv hc h1 h4 hd
  have short : p.readLow < 1 * c * p.tau := by
    have := Nat.mul_le_mul_right p.tau hc
    rw [Nat.one_mul]
    exact hv.readLow_lt.trans_le this
  refine ⟨⟨_, monitorWire_writeFrame p who cmd v h1 h4, decodeWire_writeFrame cmd v⟩,
    ⟨_, monitorWire_readFrame p who cmd ds h1 h4 (short.trans h1), ?_⟩, short, short.trans (h1.trans h4)⟩
  rw [hd]
  exact decodeWire_readFrame cmd

end Sys2Proof.Proofs
end

section
/-!
PROOFS. The decoder's two ends (R100 to R103, R150): which opcodes decode, which instruction a request of a setter's opcode is, and that
only wire formats come from the frame port.
-/
namespace Sys2Proof.Proofs

open Sys2Proof.Machine Sys2Proof.Safety Sys2Proof.Laws

/-- The opcodes that decode are those that R103 does not reserve: each of the 35 in the map, and no other. -/
theorem decodeRequest_isOk_iff (r : Request) : (∃ i, decodeRequest r = .ok i) ↔ reservedOp r.op = false := by
  unfold decodeRequest
  split
  case h_36 =>
    have reserved : reservedOp r.op = true := by
      simp only [reservedOp, List.any_cons, List.any_nil, Bool.or_false, Bool.or_eq_true, decide_eq_true_eq]
      have := r.op.isLt
      grind
    simp [reserved]
  all_goals
    rename_i h
    exact iff_of_true ⟨_, rfl⟩ (by simp [reservedOp, h])

theorem decodeRequest_of_reserved {r : Request} (h : reservedOp r.op = true) : ∃ e, decodeRequest r = .error e := by
  cases hd : decodeRequest r with
  | error e => exact ⟨e, rfl⟩
  | ok i =>
    have := (decodeRequest_isOk_iff r).1 ⟨i, hd⟩
    simp [h] at this

/-- Only opcode 0x60 decodes to `SETPIN` (R101). -/
theorem op_of_decode_setPin {r : Request} {m : Option Word} (h : decodeRequest r = .ok (.setPin m)) : r.op = 0x60 := by
  unfold decodeRequest at h
  split at h
  case h_14 heq => exact BitVec.eq_of_toNat_eq heq
  all_goals cases h

/-- Only opcode 0x61 decodes to `SETCOEFF` (R101). -/
theorem op_of_decode_setCoeff {r : Request} {c : Option Word} (h : decodeRequest r = .ok (.setCoeff c)) :
    r.op = 0x61 := by
  unfold decodeRequest at h
  split at h
  case h_15 heq => exact BitVec.eq_of_toNat_eq heq
  all_goals cases h

/-- What a string at the frame port decodes to is run by its effect there (R150). -/
theorem exec_of_decodeWire {w : List WireTok} {i : Instr} (h : decodeWire w = .ok i) (s : State) :
    exec i s = .next (wireEffect i s) := by
  have he := wireStringsReencode w i h
  cases i
  case sym1 | sym0 | readSlot | writeFrame | readFrame => rfl
  all_goals cases he

end Sys2Proof.Proofs
end

section
/-!
PROOFS. What one step is (R265, R297), said once: `Stepped` lists the actions of the agents, and every invariant of the step follows it.
-/
namespace Sys2Proof.Proofs

open Sys2Proof.Machine Sys2Proof.Safety Sys2Proof.Laws

/-- An action of the terminal is one step, its strings run as instructions or not (R150, R297). -/
theorem terminalCycle_eq (a : TermAct) (s : State) : terminalCycle a s = .next (termAct a s) := by
  cases a with
  | connect | disconnect => rfl
  | issue w =>
    rw [terminalCycle, termAct]
    cases decoded : decodeWire w with
    | ok i =>
      dsimp only
      rw [exec_of_decodeWire decoded s]
      exact (apply_ite Host.Outcome.next ..).symm
    | error e => exact (apply_ite Host.Outcome.next ..).symm

/-- The state with other scripts of the terminal and of the host. -/
def rescript (ti : List (List TermAct)) (hi : List HostAct) (s : State) : State := { s with termIn := ti, hostIn := hi }

/-- How a request that the control loop finds ends: unknown, or run as the instruction it decodes to (R103, R265). -/
inductive Handled (s : State) : Out → Prop
  | unknown : Handled s (.next (refuseUnknown s))
  | run (i : Instr) : decodeRequest (requestOf s) = .ok i → Handled s (exec i s)

theorem handleRequest_handled (s : State) : Handled s (handleRequest s) := by
  unfold handleRequest
  split
  · exact .unknown
  next i hd =>
    split
    · exact .unknown
    · exact .run i hd

/-- What one step can be: one action of one agent (R265, R297). -/
inductive Stepped (s : State) : Out → Prop
  /-- the frame on the line ends (R33) -/
  | masked : s.irqMasked = true → Stepped s (.next (awaitPort s))
  /-- an action of the terminal -/
  | terminal (a : TermAct) (ti : List (List TermAct)) : Stepped s (.next (termAct a { s with termIn := ti }))
  /-- a request enters the command port -/
  | submit (r : Request) (ti : List (List TermAct)) (hi : List HostAct) : r.data.length ≤ s.cfg.maxBinary →
    Stepped s (.next (loadRequest r (rescript ti hi s)))
  /-- a request that the port has no room for -/
  | dropped (ti : List (List TermAct)) (hi : List HostAct) : Stepped s (.next (rescript ti hi s))
  /-- the host has read a response -/
  | ack (ti : List (List TermAct)) (hi : List HostAct) : Stepped s (.next { rescript ti hi s with rspValid := false })
  /-- an iteration of the control loop with no request -/
  | idle (ti : List (List TermAct)) (hi : List HostAct) : Stepped s (.next (watchdogCheck (rescript ti hi s)).2)
  /-- an iteration of the control loop with a request -/
  | request (ti : List (List TermAct)) (hi : List HostAct) (o : Out) : Handled (watchdogCheck (rescript ti hi s)).2 o →
    Stepped s o

theorem controlCycle_stepped (ti : List (List TermAct)) (hi : List HostAct) (s : State) :
    Stepped s (controlCycle (rescript ti hi s)) := by
  unfold controlCycle
  dsimp only
  split
  · exact .request ti hi _ (handleRequest_handled _)
  · exact .idle ti hi

theorem hostCycle_stepped (ti : List (List TermAct)) (s : State) : Stepped s (hostCycle { s with termIn := ti }) := by
  unfold hostCycle
  split
  · exact controlCycle_stepped ti s.hostIn s
  next r hs _ =>
    split
    · exact controlCycle_stepped ti s.hostIn s
    · split
      next hf => exact .submit r ti hs (of_decide_eq_true hf)
      next => exact .dropped ti hs
  next hs _ => exact .ack ti hs
  next hs _ => exact controlCycle_stepped ti hs s

theorem step_stepped (s : State) : Stepped s (step s) := by
  unfold step cycle
  split
  next hm => exact .masked hm
  next =>
    split
    · exact hostCycle_stepped s.termIn s
    next ts _ => exact hostCycle_stepped ts s
    next a as ts _ => rw [terminalCycle_eq]; exact .terminal a (as :: ts)

/-! ### The step of a given agent -/

theorem step_masked {s : State} (h : s.irqMasked = true) : step s = .next (awaitPort s) := by
  rw [step, cycle, if_pos h]

theorem step_terminal {s : State} {a : TermAct} {as : List TermAct} {ts : List (List TermAct)} (h : s.irqMasked = false)
    (ht : s.termIn = (a :: as) :: ts) : step s = .next (termAct a { s with termIn := as :: ts }) := by
  simp [step, cycle, h, ht, terminalCycle_eq]

theorem set_termIn_of_eq {s : State} {ti : List (List TermAct)} (h : s.termIn = ti) : { s with termIn := ti } = s := by
  rw [← h]

/-- Where the terminal has nothing to do, its turn is over and the host acts (R265). -/
theorem step_host {s : State} (h : s.irqMasked = false) (ht : s.termIn = [] ∨ ∃ ts, s.termIn = [] :: ts) :
    step s = hostCycle { s with termIn := s.termIn.tail } := by
  obtain ht | ⟨ts, ht⟩ := ht
  · rw [ht, List.tail_nil, set_termIn_of_eq ht, step, cycle, if_neg (by simp [h])]
    simp [ht]
  · simp [step, cycle, h, ht]

theorem step_control {s : State} (h : s.irqMasked = false) (ht : s.termIn = []) (hh : s.hostIn = []) :
    step s = controlCycle s := by
  simp [step, cycle, h, ht, hostCycle, hh]

theorem controlCycle_request {s : State} (h : s.reqValid = true) :
    controlCycle s = handleRequest (watchdogCheck s).2 := by
  obtain ⟨n, c, k, hw | hw⟩ := watchdogCheck_spec s <;> simp [controlCycle, hw, h]

/-- The watchdog check leaves the request as it is (R246). -/
theorem requestOf_watchdogCheck (s : State) : requestOf (watchdogCheck s).2 = requestOf s ∧
    (watchdogCheck s).2.cfg = s.cfg := by
  obtain ⟨n, c, k, hw | hw⟩ := watchdogCheck_spec s <;> rw [hw] <;> exact ⟨rfl, rfl⟩

theorem handleRequest_ok {s : State} {i : Instr} (hd : decodeRequest (requestOf s) = .ok i)
    (hp : isInternal i = true → s.cfg.testPort = true) : handleRequest s = exec i s := by
  unfold handleRequest
  rw [hd]
  cases hi : isInternal i
  · simp [hi]
  · simp [hp hi]

theorem handleRequest_unknown {s : State} (h : (∃ e, decodeRequest (requestOf s) = .error e) ∨
    ∃ i, decodeRequest (requestOf s) = .ok i ∧ isInternal i = true ∧ s.cfg.testPort = false) :
    handleRequest s = .next (refuseUnknown s) := by
  unfold handleRequest
  obtain ⟨e, hd⟩ | ⟨i, hd, hi, hp⟩ := h
  · rw [hd]
  · simp [hd, hi, hp]

/-- Settles O5: the agents before the control loop have nothing to do; then its iteration runs the request, and else the host acts. -/
theorem stepRunsRequest : Obligations.StepRunsRequest := by
  refine ⟨fun s i hm ht hh hv hd hp => ?_, fun s hm ht => ⟨fun r hs hh hv => ?_, fun hs hh => ?_⟩⟩
  · have control : step s = controlCycle s := by
      obtain hh | ⟨r, hs, hh⟩ := hh
      · exact step_control hm ht hh
      · simp [step, cycle, hm, ht, hostCycle, hh, hv]
    have port := requestOf_watchdogCheck s
    rw [control, controlCycle_request hv]
    exact handleRequest_ok (port.1 ▸ hd) (port.2 ▸ hp)
  · rw [step_host hm ht]
    simp only [hostCycle, hh, hv, fitsPort, decide_eq_true_eq]
    split <;> rfl
  · rw [step_host hm ht]
    simp only [hostCycle, hh]

/-- Settles O6: the terminal's action is the step, and its string's effect at the frame port is the instruction. -/
theorem stepRunsWireString : Obligations.StepRunsWireString := by
  intro s i w as ts hm ht hc hd
  rw [step_terminal hm ht, exec_of_decodeWire hd]
  simp [termAct, hc, hd]

/-- Settles O7: the opcodes by the map, and a step that finds such a request by the end that R103 gives it. -/
theorem unknownOpcodesRefused : Obligations.UnknownOpcodesRefused := by
  refine ⟨decodeRequest_isOk_iff, fun s hm ht hh hv h => ?_⟩
  have port := requestOf_watchdogCheck s
  rw [step_control hm ht hh, controlCycle_request hv, handleRequest_unknown]
  · rfl
  · rw [port.1, port.2]
    exact h.imp_left fun h => decodeRequest_of_reserved h

/-- Settles O9: the port is awaited, which ends the hold of whoever is inside a frame. -/
theorem maskedStepEndsTheFrame : Obligations.MaskedStepEndsTheFrame := by
  intro s hm
  rw [step_masked hm, awaitPort]
  cases s
  dsimp only
  split <;> simp_all

/-- Settles O18: the check reads the clock unless the session is `Idle`, and an expiry does what R246 says of the session it finds. -/
theorem watchdogRule : Obligations.WatchdogRule := by
  intro s hm ht hh hv
  rw [step_control hm ht hh]
  obtain ⟨n, c, k, hr, -⟩ := readClock_spec s
  by_cases hi : s.status = .idle
  · simp [controlCycle, watchdogCheck, hi, hv]
  · rw [if_neg hi, hr]
    simp only [controlCycle, watchdogCheck, hi, hr, if_false]
    by_cases hd : n ≤ s.watchdogDeadline
    · simp [hd, Nat.not_lt.2 hd, hv]
    · have flying : inFlight { s with now := n, clockIn := c, clockCount := k } = inFlight s := rfl
      simp only [if_pos (Nat.not_le.1 hd), if_neg hd, expire, flying, ← inFlight_iff]
      split
      · simp [hv]
        rfl
      · simp [hv]

/-- Settles O52: a turn by its actions, none of which a disconnected terminal can do while `active` is set; a step by the terminal's one
action. -/
theorem disconnectedTerminalIsHarmless : Obligations.DisconnectedTerminalIsHarmless := by
  refine ⟨fun s ha hc => ?_, fun s act as ts hm ht => ⟨?_, ?_, ?_⟩⟩
  · have locked : ∀ (as : List TermAct) (t : State), t.active = true → t.terminalConnected = false → termActs as t = t := by
      intro as t h1 h2
      induction as with
      | nil => rfl
      | cons a as ih => rw [termActs, termAct_locked a h1 h2, ih]
    unfold termTurn
    cases ht : s.termIn with
    | nil => cases s; subst ht; rfl
    | cons t ts => exact locked t _ ha hc
  · rintro rfl
    rw [step_terminal hm ht, termAct, termConnect]
    cases s
    dsimp only
    split <;> simp_all
  · rintro rfl
    rw [step_terminal hm ht]
    rfl
  · rintro ⟨w, rfl⟩ hc
    rw [step_terminal hm ht]
    simp [termAct, hc]

end Sys2Proof.Proofs
end

section
/-!
PROOFS. What one instruction can do to the registers outside the link (R238 to R265), said once (`Effect`), for every state, target and
terminal. The invariants of the step are read off its cases.
-/
namespace Sys2Proof.Proofs

open Sys2Proof.Machine Sys2Proof.Safety Sys2Proof.Laws

/-! ### How an update run leaves the session, for any retry counts -/

/-- How an update run from `s` can end, whatever its retry counts say (`UpdateEnd` without them). -/
structure UpdateLeaves (s t : State) : Prop where
  link : LinkStep { clocked s t with status := t.status, active := false } t
  outcome : (t.status = .success ∧ t.error = 0) ∨ (t.status = .failed ∧ ∃ e : ErrKind, t.error = e.code) ∨
    (t.status = .idle ∧ t.error = ErrKind.timeout.code)

/-- A run in progress is closed by its result. -/
theorem leaves_close {s t : State} (h : Running s t) (e : Word) (st : Status) (d n : Nat) (c : List Nat) (k : Nat)
    (ho : (st = .success ∧ e = 0) ∨ (st = .failed ∧ ∃ x : ErrKind, e = x.code) ∨
      (st = .idle ∧ e = ErrKind.timeout.code)) : UpdateLeaves s { t with
    error := e, status := st, active := false, watchdogDeadline := d, now := n, clockIn := c, clockCount := k } where
  link := by
    obtain ⟨⟨⟩⟩ := h
    constructor
    case toOnlyLink => constructor <;> first | rfl | assumption | exact fun _ => .inr rfl
    all_goals assumption
  outcome := ho

theorem leaves_failSession {s t : State} (h : Running s t) (e : ErrKind) : UpdateLeaves s (failSession e t) := by
  obtain ⟨n, c, k, hr, -⟩ := refresh_spec { t with error := e.code, status := .failed, active := false }
  rw [Machine.failSession, hr]
  exact leaves_close h _ _ _ n c k (.inr (.inl ⟨rfl, e, rfl⟩))

theorem leaves_finishUpdate {s t : State} (h : Running s t) (fl : Bool) : UpdateLeaves s (finishUpdate fl t) := by
  have hl := LinkStep.rel.haltctl (if fl then .reboot else .resume) t
  unfold Machine.finishUpdate
  cases hr : haltctl (if fl then .reboot else .resume) t with
  | err e u =>
    rw [hr] at hl
    exact leaves_failSession (h.link hl) e
  | ok a u =>
    rw [hr] at hl
    obtain ⟨n, c, k, he, -⟩ := refresh_spec { u with error := 0, status := .success, active := false }
    dsimp only
    rw [he]
    exact leaves_close (h.link hl) _ _ _ n c k (.inl ⟨rfl, rfl⟩)

theorem running_retryUpdate {s t : State} (h : Running s t) (e : ErrKind) : Running s (retryUpdate e t) := by
  have changed := h.change e.code (t.currentRetry + 1) t.watchdogDeadline t.now t.clockIn t.clockCount
  exact changed.refresh

/-- What an attempt of a run from `s` leaves. -/
def AttemptLeaves (s : State) : AttemptEnd → Prop
  | .done t => Running s t
  | .failed _ t => Running s t
  | .aborted t => UpdateLeaves s t

theorem watched_leaves {s t : State} (hs : s.status = .updating) (h : Running s t) {k : State → AttemptEnd}
    (hk : ∀ u, Running s u → AttemptLeaves s (k u)) : AttemptLeaves s (watched t k) := by
  have hi : inFlight t = true := by simp [inFlight, (running_status h).trans hs]
  unfold watched watchdogStep
  obtain ⟨n, c, x, hw | hw⟩ := watchdogCheck_spec t
  · rw [hw]
    exact hk _ (h.change t.error t.currentRetry t.watchdogDeadline n c x).refresh
  · rw [hw, hi]
    exact leaves_close h _ .idle t.watchdogDeadline n c x (.inr (.inr ⟨rfl, rfl⟩))

theorem attemptStep_leaves {s t : State} {r : Res Unit} (hs : s.status = .updating) (h : Running s t)
    (hl : LinkStep t r.state) {k : State → AttemptEnd} (hk : ∀ u, Running s u → AttemptLeaves s (k u)) :
    AttemptLeaves s (attemptStep r k) := by
  cases r with
  | ok a u => exact watched_leaves hs (h.link hl) hk
  | err e u => exact h.link hl

theorem attempt_leaves (fl : Bool) (data : List Byte) {s t : State} (hs : s.status = .updating) (h : Running s t) :
    AttemptLeaves s (attempt fl data t) :=
  watched_leaves hs h fun u hu =>
    attemptStep_leaves hs hu (LinkStep.rel.linkInit LinkStep.discard u) fun v hv =>
    attemptStep_leaves hs hv (LinkStep.rel.haltctl _ v) fun w hw =>
    attemptStep_leaves hs hw (LinkStep.rel.blobWrite _ _ _ w) fun _ hx => hx

theorem updateLoop_leaves (fl : Bool) (data : List Byte) {s : State} (hs : s.status = .updating) :
    ∀ (n : Nat) (t : State), Running s t → UpdateLeaves s (updateLoop fl data n t)
  | 0, t, h => by
    have ha := attempt_leaves fl data hs h
    unfold updateLoop
    split <;> rename_i heq <;> rw [heq] at ha
    · exact leaves_finishUpdate ha fl
    · exact leaves_failSession ha _
    · exact ha
  | n + 1, t, h => by
    have ha := attempt_leaves fl data hs h
    unfold updateLoop
    split <;> rename_i heq <;> rw [heq] at ha
    · exact leaves_finishUpdate ha fl
    · exact updateLoop_leaves fl data hs n _ (running_retryUpdate ha _)
    · exact ha

theorem updateRun_leaves (data : List Byte) {s : State} (hs : s.status = .updating) :
    UpdateLeaves s (updateRun data s) :=
  updateLoop_leaves _ data hs _ s (Running.refl s)

/-! ### The effect of an instruction -/

theorem errCode_mem (e : ErrKind) : e.code ∈ resultCodes := by cases e <;> decide

theorem zero_mem_resultCodes : (0 : Word) ∈ resultCodes := by decide

/-- What an instruction can do. -/
inductive Effect (i : Instr) (s t : State) : Prop
  /-- a wire format: only the link (R150) -/
  | wire (h : LinkStep s t)
  /-- a request that leaves the session alone: its frames, and its response -/
  | request (code : Word) (hc : code ∈ resultCodes ∨ code = s.error) (h : OnlyLink s t) (hr : Responded code t)
  /-- a flasher command that was entered and left (R239); `UNBRICK` leaves the target powered -/
  | flasher (code : Word) (power : Bool) (hc : code ∈ resultCodes) (hs : ¬ inFlight s = true)
    (hp : power = s.powerGate ∨ power = true) (h : OnlyLink { s with active := false, powerGate := power } t)
    (hr : Responded code t) (ht : t.terminalConnected = false)
  /-- `STATUS` consumes a result (R247) -/
  | consumed (hs : s.status = .success ∨ s.status = .failed)
    (h : t = { respond s.error (some s.status.code) none s with status := .idle })
  /-- `UPLOAD_BEGIN` opens a session (R240) -/
  | opened (a n : Word) (retries : Option Word) (hok : uploadRangeOk s a n retries = true) (hs : ¬ inFlight s = true)
    (h : t = respond 0 none none (openUpload a n retries (begin 0x42 s)))
  /-- `SETPIN` (R262) -/
  | pin (m : Word) (hi : i = .setPin (some m)) (hm : legalPin m = true)
    (h : t = respond 0 none none { s with pinMask := m, sessionTag := .none, flashUnlocked := false })
  /-- `SETCOEFF` (R263) -/
  | coeff (c : Word) (hi : i = .setCoeff (some c)) (hc : legalCoeff s.cfg c = true)
    (h : t = respond 0 none none { s with timingCoefficient := c })
  /-- a chunk of an upload is stored (R241) -/
  | stored (data : List Byte) (hs : s.status = .uploading) (hn : s.received.toNat + data.length ≤ s.size.toNat)
    (h : t = respond 0 none none (storeChunk data (refresh (begin 0x43 s))))
  /-- an upload ends with `UploadSizeMismatch` (R241), its last chunk stored or not -/
  | mismatch (data : List Byte) (u : State) (hs : s.status = .uploading)
    (hu : u = refresh (begin 0x43 s) ∨ u = storeChunk data (refresh (begin 0x43 s)))
    (h : t = respondErr .uploadSizeMismatch (failSession .uploadSizeMismatch u))
  /-- a complete upload has been used to update the target (R241, R242) -/
  | updated (data bytes : List Byte) (hs : s.status = .uploading)
    (h : t = respond (updateRun bytes { storeChunk data (refresh (begin 0x43 s)) with status := .updating }).error
      (some (updateRun bytes { storeChunk data (refresh (begin 0x43 s)) with status := .updating }).status.code) none
      (updateRun bytes { storeChunk data (refresh (begin 0x43 s)) with status := .updating }))

variable {i : Instr} {s : State} {op : Byte}

theorem Effect.respond {u : State} (code : Word) (v : Option Word) (d : Option (List Byte)) (hc : code ∈ resultCodes)
    (h : OnlyLink s u) : Effect i s (respond code v d u) :=
  .request code (.inl hc) (onlyLink_respond h) (responded_respond code v d u)

theorem Effect.ofBegin {u : State} (code : Word) (v : Option Word) (d : Option (List Byte)) (hc : code ∈ resultCodes)
    (h : LinkStep (Machine.begin op s) u) : Effect i s (Machine.respond code v d u) :=
  .respond code v d hc (onlyLink_begin h.toOnlyLink)

/-- A refused request (R265). -/
theorem Effect.refused (e : ErrKind) : Effect i s (respondErr e s) :=
  .respond _ _ _ (errCode_mem e) (onlyLink_refl s)

theorem Effect.finish {r : Res Unit} (h : LinkStep (Machine.begin op s) r.state) : Effect i s (finish r) := by
  cases r with
  | ok a u => exact .ofBegin _ _ _ zero_mem_resultCodes h
  | err e u => exact .ofBegin _ _ _ (errCode_mem e) h

theorem Effect.finishValue {r : Res Word} (h : LinkStep (Machine.begin op s) r.state) : Effect i s (finishValue r) := by
  cases r with
  | ok a u => exact .ofBegin _ _ _ zero_mem_resultCodes h
  | err e u => exact .ofBegin _ _ _ (errCode_mem e) h

theorem Effect.finishByte {r : Res Byte} (h : LinkStep (Machine.begin op s) r.state) : Effect i s (finishByte r) := by
  cases r with
  | ok a u => exact .ofBegin _ _ _ zero_mem_resultCodes h
  | err e u => exact .ofBegin _ _ _ (errCode_mem e) h

theorem Effect.finishData {r : Res (List Byte)} (h : LinkStep (Machine.begin op s) r.state) :
    Effect i s (finishData r) := by
  cases r with
  | ok a u => exact .ofBegin _ _ _ zero_mem_resultCodes h
  | err e u => exact .ofBegin _ _ _ (errCode_mem e) h

theorem Effect.finishBit {r : Res (Option Bool)} (h : LinkStep (Machine.begin op s) r.state) :
    Effect i s (finishBit r) := by
  rcases r with ⟨_ | b, u⟩ | ⟨e, u⟩
  · exact .ofBegin _ _ _ (errCode_mem .bitTimeout) h
  · exact .ofBegin _ _ _ zero_mem_resultCodes h
  · exact .ofBegin _ _ _ (errCode_mem e) h

/-! ### Flasher commands -/

/-- Between `Enter` and `S.active <- 0` a flasher command touches the link alone (R239). -/
theorem onlyLink_entered {power : Bool} {u : State}
    (h : OnlyLink { enter (Machine.begin op s) with powerGate := power } u) :
    OnlyLink { s with active := false, powerGate := power } (leave u) := by
  obtain ⟨⟩ := h
  constructor <;> first | assumption | rfl | exact fun _ => .inr rfl

theorem entered_disconnected {power : Bool} {u : State}
    (h : OnlyLink { enter (Machine.begin op s) with powerGate := power } u) : (leave u).terminalConnected = false := by
  cases hc : u.terminalConnected with
  | false => exact hc
  | true => rcases h.connected hc with e | e <;> simp at e

/-- A flasher command, by what its body does to the link and the power gate and by how its response is formed. -/
theorem Effect.flasherCommand {α : Type} {body : State → Res α} {fin : Res α → State} (power : Bool)
    (hp : power = s.powerGate ∨ power = true)
    (hb : OnlyLink { enter (Machine.begin op s) with powerGate := power } (body (enter (Machine.begin op s))).state)
    (hf : ∀ r : Res α, ∃ code v d, code ∈ resultCodes ∧ fin r = Machine.respond code v d r.state) :
    Effect i s (flasherCommand op body fin s) := by
  unfold Machine.flasherCommand
  split
  · exact .refused _
  next hs =>
    obtain ⟨code, v, d, hc, he⟩ := hf ((body (enter (Machine.begin op s))).after leave)
    have left : ((body (enter (Machine.begin op s))).after leave).state
        = leave (body (enter (Machine.begin op s))).state := by
      cases body (enter (Machine.begin op s)) <;> rfl
    rw [he, left]
    exact .flasher code power hc hs hp (onlyLink_respond (onlyLink_entered hb)) (responded_respond ..)
      (entered_disconnected (u := (body (enter (Machine.begin op s))).state) hb)

theorem finish_response (r : Res Unit) :
    ∃ code v d, code ∈ resultCodes ∧ finish r = Machine.respond code v d r.state := by
  cases r with
  | ok a u => exact ⟨_, _, _, zero_mem_resultCodes, rfl⟩
  | err e u => exact ⟨_, _, _, errCode_mem e, rfl⟩

theorem finishData_response (r : Res (List Byte)) :
    ∃ code v d, code ∈ resultCodes ∧ finishData r = Machine.respond code v d r.state := by
  cases r with
  | ok a u => exact ⟨_, _, _, zero_mem_resultCodes, rfl⟩
  | err e u => exact ⟨_, _, _, errCode_mem e, rfl⟩

theorem finishWords_response (r : Res (List Word)) :
    ∃ code v d, code ∈ resultCodes ∧ finishWords r = Machine.respond code v d r.state := by
  cases r with
  | ok a u => exact ⟨_, _, _, zero_mem_resultCodes, rfl⟩
  | err e u => exact ⟨_, _, _, errCode_mem e, rfl⟩

/-- The power cycle of `UNBRICK` leaves the target powered, and is no other register's (R259). -/
theorem onlyLink_powerCycle (off on : Nat) (s : State) :
    OnlyLink { s with powerGate := true } (setPower true on (setPower false off s)) := by
  rw [powerCycle_eq]
  constructor <;> first
    | rfl | exact List.suffix_refl _ | exact List.prefix_refl _ | exact List.prefix_append _ _ | exact .inl rfl | exact .inl

theorem onlyLink_unbrickBody (s : State) : OnlyLink { s with powerGate := true } (unbrickBody s).state := by
  have power := onlyLink_powerCycle s.cfg.powerOffTime s.cfg.powerOnTime s
  unfold unbrickBody
  dsimp only
  have tries := LinkStep.rel.unbrickLoop LinkStep.discard
    (setPower true s.cfg.powerOnTime (setPower false s.cfg.powerOffTime s)).cfg.unbrickTries
    (setPower true s.cfg.powerOnTime (setPower false s.cfg.powerOffTime s))
  split
  next u hu =>
    rw [hu] at tries
    exact onlyLink_trans power tries.toOnlyLink
  next u hu =>
    rw [hu] at tries
    have erase : LinkStep u ((runSteps u.cfg.seqOptDefault u).bind fun _ s => flashEraseChip s).state :=
      LinkStep.rel.bind (LinkStep.rel.runSteps _ u) fun _ v => LinkStep.rel.flashEraseChip v
    exact onlyLink_trans power (tries.trans erase).toOnlyLink

/-- A halt, reboot or resume command (R251 to R255). -/
theorem Effect.haltCommand (m : HaltMode) : Effect i s (Machine.flasherCommand op (haltBody m) Machine.finish s) :=
  .flasherCommand s.powerGate (.inl rfl) (LinkStep.rel.haltBody LinkStep.discard m _).toOnlyLink finish_response

/-! ### Upload -/

theorem Effect.acceptChunk {t : State} {data : List Byte} {last : Bool} (hs : s.status = .uploading)
    (h : acceptChunk data last s = .next t) : Effect i s t := by
  unfold Machine.acceptChunk at h
  simp only [refresh_fields, begin_fields] at h
  split at h
  · cases h
    exact .mismatch data _ hs (.inl rfl) rfl
  next hn =>
    split at h
    · cases h
    · split at h
      · cases h
        exact .stored data hs (Nat.not_lt.1 hn) rfl
      · split at h
        · cases h
          exact .mismatch data _ hs (.inr rfl) rfl
        · unfold runUpload at h
          split at h
          · cases h
          next bytes _ =>
            cases h
            exact .updated data bytes hs rfl

/-! ### Every instruction -/

/-- What an instruction does is one of the effects. -/
theorem exec_effect {t : State} (h : exec i s = .next t) : Effect i s t := by
  cases i
  case rawWrite a v =>
    simp only [exec, execRawWrite] at h
    cases h
    split
    · split
      · exact .finish (LinkStep.rel.rawWrite ..)
      · exact .refused _
    · exact .refused _
  case rawRead a =>
    simp only [exec, execRawRead] at h
    cases h
    split
    · split
      · exact .finishValue (LinkStep.rel.rawRead ..)
      · exact .refused _
    · exact .refused _
  case frameWrite a v =>
    simp only [exec, execFrameWrite] at h
    cases h
    split
    · split
      · exact .finish (LinkStep.rel.fw ..)
      · exact .refused _
    · exact .refused _
  case frameRead a =>
    simp only [exec, execFrameRead] at h
    cases h
    split
    · split
      · exact .finishValue (LinkStep.rel.fr ..)
      · exact .refused _
    · exact .refused _
  case phyDelay n =>
    simp only [exec, execPhyDelay] at h
    cases h
    split
    · exact .refused _
    · exact .finish (LinkStep.rel.phyDelay ..)
  case phySend1 => cases h; exact .finish (LinkStep.rel.phySend ..)
  case phySend0 => cases h; exact .finish (LinkStep.rel.phySend ..)
  case phyReadBit => cases h; exact .finishBit (LinkStep.rel.phyReadBit _)
  case seqReadWord a ai =>
    simp only [exec, execSeqReadWord] at h
    cases h
    split
    · exact .finishValue (LinkStep.rel.memReadWord ..)
    · exact .refused _
  case seqWriteWord a v =>
    simp only [exec, execSeqWriteWord] at h
    cases h
    split
    · exact .finish (LinkStep.rel.memWriteWord ..)
    · exact .refused _
  case seqReadByte a =>
    simp only [exec, execSeqReadByte] at h
    cases h
    split
    · exact .finishByte (LinkStep.rel.memReadByte ..)
    · exact .refused _
  case seqWriteByte a b =>
    simp only [exec, execSeqWriteByte] at h
    cases h
    split
    · exact .finish (LinkStep.rel.memWriteByte ..)
    · exact .refused _
  case seqWaitAbstract => cases h; exact .finish (LinkStep.rel.waitAbstract _)
  case seqInvalidate => cases h; exact .finish (LinkStep.rel.invalidate _)
  case flashUnlock => cases h; exact .finish (LinkStep.rel.flashUnlock _)
  case flashWaitNotBusy => cases h; exact .finish (LinkStep.rel.flashWaitNotBusy _)
  case flashErasePages a n =>
    simp only [exec, execFlashErasePages] at h
    cases h
    split
    · exact .finish (LinkStep.rel.flashErasePages ..)
    · exact .refused _
  case flashEraseChip => cases h; exact .finish (LinkStep.rel.flashEraseChip _)
  case flashWriteBlock64 a d =>
    simp only [exec, execFlashWriteBlock64] at h
    cases h
    split
    · exact .finish (LinkStep.rel.flashWriteBlock ..)
    · exact .refused _
  case blobWrite a n d =>
    simp only [exec, execBlobWrite] at h
    cases h
    split
    · exact .finish (LinkStep.rel.blobWrite ..)
    · exact .refused _
  case blobRead a n =>
    simp only [exec, execBlobRead] at h
    cases h
    split
    · exact .finishData (LinkStep.rel.blobRead ..)
    · exact .refused _
  case linkInit => cases h; exact .finish (LinkStep.rel.linkInit LinkStep.discard _)
  case sym1 | sym0 | readSlot | writeFrame | readFrame => cases h; exact .wire (LinkStep.rel.wireEffect ..)
  case haltReset | reboot | resume | rebootBoot | haltNoReset => cases h; exact .haltCommand _
  case unbrick =>
    simp only [exec, execUnbrick] at h
    cases h
    split
    · exact .refused _
    · exact .flasherCommand true (.inr rfl) (onlyLink_unbrickBody _) finish_response
  case chipInfo =>
    cases h
    exact .flasherCommand s.powerGate (.inl rfl) (LinkStep.rel.chipInfoBody LinkStep.discard _).toOnlyLink
      finishWords_response
  case readBlob a n =>
    simp only [exec, execReadBlob] at h
    cases h
    split
    · split
      · exact .refused _
      · exact .flasherCommand s.powerGate (.inl rfl) (LinkStep.rel.readBlobBody LinkStep.discard ..).toOnlyLink
          finishData_response
    · exact .refused _
  case status =>
    simp only [exec, execStatus] at h
    cases h
    split
    next hs => exact .consumed hs rfl
    next => exact .request s.error (.inr rfl) (onlyLink_respond (onlyLink_refl s)) (responded_respond ..)
  case uploadBegin a n retries =>
    simp only [exec, execUploadBegin] at h
    cases h
    split
    next a n =>
      split
      · exact .refused _
      next hok =>
        split
        · exact .refused _
        next hs => exact .opened a n retries (by simpa using hok) hs rfl
    · exact .refused _
  case uploadData data last =>
    simp only [exec, execUploadData] at h
    split at h
    · cases h; exact .refused _
    next hs => exact .acceptChunk (not_not.1 hs) h
  case setPin m =>
    simp only [exec, execSetPin] at h
    cases h
    split
    next m =>
      split
      · exact .refused _
      next hm =>
        split
        · exact .refused _
        · exact .pin m rfl (by simpa using hm) rfl
    · exact .refused _
  case setCoeff c =>
    simp only [exec, execSetCoeff] at h
    cases h
    split
    next c =>
      split
      · exact .refused _
      next hc => exact .coeff c rfl (by simpa using hc) rfl
    · exact .refused _

end Sys2Proof.Proofs
end

section
/-!
PROOFS. The invariants of the step (R9, R31 to R37, R43, R237, R240, R281): a relation that every action of an agent keeps holds between
the states of a step (`StepRel`), and what an instruction does to it is read off its effects.
-/
namespace Sys2Proof.Proofs

open Sys2Proof.Machine Sys2Proof.Safety Sys2Proof.Laws

/-- The relation holds of every action that a step is made of. -/
structure StepRel (R : State → State → Prop) : Prop where
  trans : ∀ {s t u : State}, R s t → R t u → R s u
  port : ∀ s : State, R s (awaitPort s)
  terminal : ∀ a s, R s (termAct a s)
  scripts : ∀ ti hi s, R s (rescript ti hi s)
  submit : ∀ r s, r.data.length ≤ s.cfg.maxBinary → R s (loadRequest r s)
  ack : ∀ s, R s { s with rspValid := false }
  watchdog : ∀ s, R s (watchdogCheck s).2
  unknown : ∀ s, R s (refuseUnknown s)
  run : ∀ i s t, Effect i s t → R s t

theorem StepRel.step {R : State → State → Prop} (h : StepRel R) {s t : State} (hs : step s = .next t) : R s t := by
  have stepped := step_stepped s
  rw [hs] at stepped
  cases stepped with
  | masked _ => exact h.port s
  | terminal a ti => exact h.trans (h.scripts ti s.hostIn s) (h.terminal a _)
  | submit r ti hi hr => exact h.trans (h.scripts ti hi s) (h.submit r _ hr)
  | dropped ti hi => exact h.scripts ti hi s
  | ack ti hi => exact h.trans (h.scripts ti hi s) (h.ack _)
  | idle ti hi => exact h.trans (h.scripts ti hi s) (h.watchdog _)
  | request ti hi _ handled =>
    have checked := h.trans (h.scripts ti hi s) (h.watchdog (rescript ti hi s))
    generalize ho : (Host.Outcome.next t : Out) = o at handled
    cases handled with
    | unknown =>
      cases ho
      exact h.trans checked (h.unknown _)
    | run i _ => exact h.trans checked (h.run i _ _ (exec_effect ho.symm))

/-! ### The configuration and the line -/

/-- Nothing is left on the line, the target keeps its power, and the parameters and the port's bound on the byte string stand. -/
structure LineKept (s t : State) : Prop where
  cfg : t.cfg = s.cfg
  portOwner : t.portOwner = s.portOwner ∨ t.portOwner = .free
  irqMasked : t.irqMasked = s.irqMasked ∨ t.irqMasked = false
  pinDrive : t.pinDrive = s.pinDrive ∨ t.pinDrive = .released ∨ t.pinDrive = highOut s.cfg
  power : t.powerGate = s.powerGate ∨ t.powerGate = true
  ctl : t.ctl = s.ctl ∨ t.ctl = none
  reqData : t.reqData = s.reqData ∨ t.reqData.length ≤ s.cfg.maxBinary

theorem LineKept.trans {s t u : State} (h : LineKept s t) (k : LineKept t u) : LineKept s u where
  cfg := k.cfg.trans h.cfg
  portOwner := k.portOwner.elim (fun e => e ▸ h.portOwner) .inr
  irqMasked := k.irqMasked.elim (fun e => e ▸ h.irqMasked) .inr
  pinDrive := by
    obtain e | e | e := k.pinDrive
    · exact e ▸ h.pinDrive
    · exact .inr (.inl e)
    · exact .inr (.inr (h.cfg ▸ e))
  power := k.power.elim (fun e => e ▸ h.power) .inr
  ctl := k.ctl.elim (fun e => e ▸ h.ctl) .inr
  reqData := k.reqData.elim (fun e => e ▸ h.reqData) fun e => .inr (h.cfg ▸ e)

/-- A state whose line, power and request are another's. -/
theorem LineKept.same {s t : State} (cfg : t.cfg = s.cfg) (port : t.portOwner = s.portOwner)
    (mask : t.irqMasked = s.irqMasked) (pin : t.pinDrive = s.pinDrive) (power : t.powerGate = s.powerGate)
    (ctl : t.ctl = s.ctl ∨ t.ctl = none) (data : t.reqData = s.reqData) : LineKept s t :=
  ⟨cfg, .inl port, .inl mask, .inl pin, .inl power, ctl, .inl data⟩

theorem LineKept.of_onlyLink {s t : State} (h : OnlyLink s t) (hc : t.ctl = s.ctl ∨ t.ctl = none) : LineKept s t :=
  ⟨h.cfg, h.portOwner, h.irqMasked, h.pinDrive, .inl h.powerGate, hc, .inl h.reqData⟩

theorem LineKept.of_linkStep {s t : State} (h : LinkStep s t) : LineKept s t := .of_onlyLink h.toOnlyLink (.inl h.ctl)

theorem LineKept.lineIdle {s t : State} (h : LineKept s t) (hs : LineIdle s) : LineIdle t where
  port := h.portOwner.elim (·.trans hs.port) id
  mask := h.irqMasked.elim (·.trans hs.mask) id
  ctl := h.ctl.elim (·.trans hs.ctl) id
  power := h.power.elim (·.trans hs.power) id
  pin := by
    rw [h.cfg]
    obtain e | e | e := h.pinDrive
    · rw [e]; exact hs.pin
    · exact .inl e
    · rw [e, highOut]
      cases s.cfg.highDrive <;> simp

theorem LineKept.portOk {s t : State} (h : LineKept s t) (hs : PortOk s) : PortOk t where
  data := by
    rw [h.cfg]
    exact h.reqData.elim (fun e => e ▸ hs.data) id

/-- A response ends the operation that began (R45, R265). -/
theorem LineKept.respond {s u : State} {op : Byte} (h : LineKept (Machine.begin op s) u) (code : Word) (v : Option Word)
    (d : Option (List Byte)) : LineKept s (Machine.respond code v d u) :=
  ⟨h.cfg, h.portOwner, h.irqMasked, h.pinDrive, h.power, .inr rfl, h.reqData⟩

theorem LineKept.updated {s u v : State} (hu : LineKept s u) (h : UpdateLeaves u v) : LineKept s v := by
  refine hu.trans (.trans ?_ (.of_linkStep h.link))
  exact .same rfl rfl rfl rfl rfl (.inl rfl) rfl

theorem lineKept_effect {i : Instr} {s t : State} (h : Effect i s t) : LineKept s t := by
  cases h with
  | wire h => exact .of_linkStep h
  | request code hc h hr => exact .of_onlyLink h (.inr hr.ctl)
  | flasher code power hc hs hp h hr ht =>
    refine .trans ?_ (.of_onlyLink h (.inr hr.ctl))
    exact ⟨rfl, .inl rfl, .inl rfl, .inl rfl, hp, .inl rfl, .inl rfl⟩
  | consumed hs h => subst h; exact .same rfl rfl rfl rfl rfl (.inr rfl) rfl
  | opened a n retries hok hs h => subst h; constructor <;> simp [openUpload]
  | pin m hi hm h => subst h; exact .same rfl rfl rfl rfl rfl (.inr rfl) rfl
  | coeff c hi hc h => subst h; exact .same rfl rfl rfl rfl rfl (.inr rfl) rfl
  | stored data hs hn h => subst h; constructor <;> simp
  | mismatch data u hs hu h =>
    subst h
    obtain rfl | rfl := hu <;> constructor <;> simp [failSession]
  | updated data bytes hs h =>
    subst h
    refine .respond (op := 0x43) (.updated ?_ (updateRun_leaves bytes rfl)) ..
    constructor <;> simp

theorem lineKept_step : StepRel LineKept where
  trans := LineKept.trans
  port s := by constructor <;> simp
  terminal a s := .of_linkStep (LinkStep.rel.termAct a s)
  scripts ti hi s := .same rfl rfl rfl rfl rfl (.inl rfl) rfl
  submit r s hr := ⟨rfl, .inl rfl, .inl rfl, .inl rfl, .inl rfl, .inl rfl, .inr hr⟩
  ack s := .same rfl rfl rfl rfl rfl (.inl rfl) rfl
  watchdog s := by
    obtain ⟨n, c, k, hw | hw⟩ := watchdogCheck_spec s <;> rw [hw] <;>
      exact .same rfl rfl rfl rfl rfl (.inl rfl) rfl
  unknown s := .same rfl rfl rfl rfl rfl (.inl rfl) rfl
  run _ _ _ := lineKept_effect

/-- The parameters and the two configuration registers are as before. -/
structure ConfigKept (s t : State) : Prop where
  cfg : t.cfg = s.cfg
  pinMask : t.pinMask = s.pinMask
  coeff : t.timingCoefficient = s.timingCoefficient

theorem ConfigKept.trans {s t u : State} (h : ConfigKept s t) (k : ConfigKept t u) : ConfigKept s u :=
  ⟨k.cfg.trans h.cfg, k.pinMask.trans h.pinMask, k.coeff.trans h.coeff⟩

theorem ConfigKept.of_onlyLink {s t : State} (h : OnlyLink s t) : ConfigKept s t :=
  ⟨h.cfg, h.pinMask, h.timingCoefficient⟩

theorem ConfigKept.configOk {s t : State} (h : ConfigKept s t) (hs : ConfigOk s) : ConfigOk t where
  valid := h.cfg ▸ hs.valid
  pin := h.pinMask ▸ hs.pin
  coeff_ge := h.coeff ▸ hs.coeff_ge
  coeff_le := by rw [h.coeff, h.cfg]; exact hs.coeff_le

/-- Only the setters write the configuration registers (R21, R22). -/
theorem configKept_effect {i : Instr} {s t : State} (h : Effect i s t) : ConfigKept s t ∨
    (∃ m, i = .setPin (some m) ∧ legalPin m = true ∧ t.cfg = s.cfg ∧ t.pinMask = m ∧
      t.timingCoefficient = s.timingCoefficient) ∨
    (∃ c, i = .setCoeff (some c) ∧ legalCoeff s.cfg c = true ∧ t.cfg = s.cfg ∧ t.pinMask = s.pinMask ∧
      t.timingCoefficient = c) := by
  cases h with
  | wire h => exact .inl (.of_onlyLink h.toOnlyLink)
  | request code hc h hr => exact .inl (.of_onlyLink h)
  | flasher code power hc hs hp h hr ht =>
    refine .inl (.trans ?_ (.of_onlyLink h))
    exact ⟨rfl, rfl, rfl⟩
  | consumed hs h => subst h; exact .inl ⟨rfl, rfl, rfl⟩
  | opened a n retries hok hs h => subst h; left; constructor <;> simp [openUpload]
  | pin m hi hm h => subst h; exact .inr (.inl ⟨m, hi, hm, rfl, rfl, rfl⟩)
  | coeff c hi hc h => subst h; exact .inr (.inr ⟨c, hi, hc, rfl, rfl, rfl⟩)
  | stored data hs hn h => subst h; left; constructor <;> simp
  | mismatch data u hs hu h =>
    subst h
    left
    obtain rfl | rfl := hu <;> constructor <;> simp [failSession]
  | updated data bytes hs h =>
    subst h
    left
    have run := (updateRun_leaves bytes (s := { storeChunk data (refresh (Machine.begin 0x43 s)) with
      status := .updating }) rfl).link.toOnlyLink
    refine ConfigKept.trans (ConfigKept.trans ?_ (.of_onlyLink run)) ⟨rfl, rfl, rfl⟩
    constructor <;> simp [clocked]

/-- A step of no instruction leaves the configuration registers alone. -/
theorem configKept_watchdogCheck (s : State) : ConfigKept s (watchdogCheck s).2 := by
  obtain ⟨n, c, k, hw | hw⟩ := watchdogCheck_spec s <;> rw [hw] <;> exact ⟨rfl, rfl, rfl⟩

theorem configOk_step : StepRel fun s t => ConfigOk s → ConfigOk t where
  trans h k := k ∘ h
  port s := ConfigKept.configOk (by constructor <;> simp)
  terminal a s := ConfigKept.configOk (.of_onlyLink (LinkStep.rel.termAct a s).toOnlyLink)
  scripts ti hi s := ConfigKept.configOk ⟨rfl, rfl, rfl⟩
  submit r s _ := ConfigKept.configOk ⟨rfl, rfl, rfl⟩
  ack s := ConfigKept.configOk ⟨rfl, rfl, rfl⟩
  watchdog s := (configKept_watchdogCheck s).configOk
  unknown s := ConfigKept.configOk ⟨rfl, rfl, rfl⟩
  run i s t h hs := by
    obtain kept | ⟨m, -, hm, hc, hp, ht⟩ | ⟨c, -, hl, hc, hp, ht⟩ := configKept_effect h
    · exact kept.configOk hs
    · refine ⟨hc ▸ hs.valid, ?_, ht ▸ hs.coeff_ge, ?_⟩
      · rw [hp]; exact (legalPin_iff m).1 hm
      · rw [ht, hc]; exact hs.coeff_le
    · simp only [legalCoeff, Bool.and_eq_true, decide_eq_true_eq] at hl
      refine ⟨hc ▸ hs.valid, hp ▸ hs.pin, ht ▸ hl.1, ?_⟩
      rw [ht, hc]
      exact hl.2

theorem configKept_checked (ti : List (List TermAct)) (hi : List HostAct) (s : State) :
    ConfigKept s (watchdogCheck (rescript ti hi s)).2 := by
  refine .trans ?_ (configKept_watchdogCheck (rescript ti hi s))
  exact ⟨rfl, rfl, rfl⟩

/-- What a step does to the configuration registers, if its request is not a setter's. -/
theorem step_setters {s t : State} (hs : step s = .next t) :
    (s.reqOp ≠ 0x60 → t.pinMask = s.pinMask) ∧ (s.reqOp ≠ 0x61 → t.timingCoefficient = s.timingCoefficient) := by
  have kept {u : State} (h : ConfigKept s u) : (s.reqOp ≠ 0x60 → u.pinMask = s.pinMask) ∧
      (s.reqOp ≠ 0x61 → u.timingCoefficient = s.timingCoefficient) := ⟨fun _ => h.pinMask, fun _ => h.coeff⟩
  have stepped := step_stepped s
  rw [hs] at stepped
  cases stepped with
  | masked _ => exact kept (by constructor <;> simp)
  | terminal a ti =>
    have term := (LinkStep.rel.termAct a { s with termIn := ti }).toOnlyLink
    refine kept (.trans ?_ (.of_onlyLink term))
    exact ⟨rfl, rfl, rfl⟩
  | submit | dropped | ack => exact kept ⟨rfl, rfl, rfl⟩
  | idle ti hi => exact kept (configKept_checked ti hi s)
  | request ti hi _ handled =>
    have checked := configKept_checked ti hi s
    have port := (requestOf_watchdogCheck (rescript ti hi s)).1
    generalize ho : (Host.Outcome.next t : Out) = o at handled
    cases handled with
    | unknown => cases ho; exact kept (checked.trans ⟨rfl, rfl, rfl⟩)
    | run i hd =>
      rw [port] at hd
      obtain h | ⟨m, rfl, -, -, -, ht⟩ | ⟨c, rfl, -, -, hp, -⟩ := configKept_effect (exec_effect ho.symm)
      · exact kept (checked.trans h)
      · exact ⟨fun h => absurd (op_of_decode_setPin hd) h, fun _ => ht.trans checked.coeff⟩
      · exact ⟨fun _ => hp.trans checked.pinMask, fun h => absurd (op_of_decode_setCoeff hd) h⟩

/-- Settles O54: the line and the configuration along the actions of a step, and the setters by the opcodes that decode to them. -/
theorem stepKeepsConfigAndLine : Obligations.StepKeepsConfigAndLine := by
  refine ⟨fun s t hc hl hs => ?_, fun i s t h => ?_⟩
  · have line := lineKept_step.step hs
    exact ⟨configOk_step.step hs hc, line.lineIdle hl, line.cfg, line.portOk, step_setters hs⟩
  · obtain kept | ⟨m, rfl, -, -, -, ht⟩ | ⟨c, rfl, -, -, hp, -⟩ := configKept_effect (exec_effect h)
    · exact ⟨fun _ => kept.pinMask, fun _ => kept.coeff⟩
    · exact ⟨fun h => absurd rfl (h _), fun _ => ht⟩
    · exact ⟨fun _ => hp, fun h => absurd rfl (h _)⟩

/-! ### The codes -/

theorem codesOk_effect {i : Instr} {s t : State} (h : Effect i s t) (hs : CodesOk s) : CodesOk t := by
  have of_responded {code : Word} {t : State} (hc : code ∈ resultCodes ∨ code = s.error) (he : t.error = s.error)
      (hr : Responded code t) : CodesOk t :=
    ⟨hr.rspCode ▸ hc.elim id fun e => e ▸ hs.error, he ▸ hs.error⟩
  cases h with
  | wire h => exact ⟨h.rspCode ▸ hs.rspCode, h.error ▸ hs.error⟩
  | request code hc h hr => exact of_responded hc h.error hr
  | flasher code power hc _ hp h hr ht => exact of_responded (.inl hc) h.error hr
  | consumed _ h => subst h; exact ⟨hs.error, hs.error⟩
  | opened a n retries hok _ h =>
    subst h
    exact ⟨zero_mem_resultCodes, by simpa [openUpload] using zero_mem_resultCodes⟩
  | pin m hi hm h => subst h; exact ⟨zero_mem_resultCodes, hs.error⟩
  | coeff c hi hc h => subst h; exact ⟨zero_mem_resultCodes, hs.error⟩
  | stored data _ hn h => subst h; exact ⟨zero_mem_resultCodes, by simpa using hs.error⟩
  | mismatch data u _ hu h => subst h; constructor <;> simp [failSession, errCode_mem]
  | updated data bytes _ h =>
    subst h
    have outcome := (updateRun_leaves bytes (s := { storeChunk data (refresh (Machine.begin 0x43 s)) with
      status := .updating }) rfl).outcome
    have mem : (updateRun bytes { storeChunk data (refresh (Machine.begin 0x43 s)) with
        status := .updating }).error ∈ resultCodes := by
      obtain ⟨-, e⟩ | ⟨-, x, e⟩ | ⟨-, e⟩ := outcome <;> rw [e]
      · exact zero_mem_resultCodes
      · exact errCode_mem x
      · exact errCode_mem .timeout
    exact ⟨mem, mem⟩

theorem codesOk_step : StepRel fun s t => CodesOk s → CodesOk t where
  trans h k := k ∘ h
  port s hs := ⟨by simpa using hs.rspCode, by simpa using hs.error⟩
  terminal a s hs := codesOk_effect (i := .status) (.wire (LinkStep.rel.termAct a s)) hs
  scripts ti hi s hs := ⟨hs.rspCode, hs.error⟩
  submit r s _ hs := ⟨hs.rspCode, hs.error⟩
  ack s hs := ⟨hs.rspCode, hs.error⟩
  watchdog s hs := by
    obtain ⟨n, c, k, hw | hw⟩ := watchdogCheck_spec s <;> rw [hw]
    · exact ⟨hs.rspCode, hs.error⟩
    · refine ⟨hs.rspCode, ?_⟩
      dsimp only
      split
      · exact errCode_mem .timeout
      · exact hs.error
  unknown s hs := ⟨errCode_mem .unknownCommand, hs.error⟩
  run _ _ _ := codesOk_effect

/-- Settles O58. -/
theorem stepKeepsCodes : Obligations.StepKeepsCodes := fun _ _ hs h => codesOk_step.step h hs

end Sys2Proof.Proofs
end

section
/-!
PROOFS. The flasher session (R34 to R41, R237 to R246): the invariant along the actions of a step, the transitions of `status`, and that
a state with the invariant never stops the machine.
-/
namespace Sys2Proof.Proofs

open Sys2Proof.Machine Sys2Proof.Safety Sys2Proof.Laws

/-! ### The upload's operands and counters -/

/-- R240's range checks, as bounds on numbers. -/
theorem uploadRangeOk_iff (s : State) (a n : Word) (retries : Option Word) : uploadRangeOk s a n retries = true ↔
    n ≠ 0 ∧ n.toNat ≤ s.cfg.maxBinary ∧ a.toNat + n.toNat ≤ 2 ^ 32 ∧ classify s.cfg a.toNat n.toNat ≠ .mixed ∧
      ∀ r, retries = some r → r.toNat ≤ s.cfg.retryMax := by
  cases retries <;> simp [uploadRangeOk, wraps, and_assoc]

/-- The count of bytes received does not wrap while it stays within the size (R10, R241). -/
theorem toNat_received_add {r n : Word} {l : Nat} (h : r.toNat + l ≤ n.toNat) :
    (r + BitVec.ofNat 32 l).toNat = r.toNat + l := by
  have := n.isLt
  rw [BitVec.toNat_add, BitVec.toNat_ofNat, Nat.mod_eq_of_lt (a := l) (by omega), Nat.mod_eq_of_lt (by omega)]

/-- Every byte up to the end of a chunk that was stored after the bytes received has a value (R241). -/
theorem isSome_read_writeBytes {m : Memory} {r i : Nat} {data : List Byte} (hm : ∀ i < r, (Memory.read m i).isSome)
    (hi : i < r + data.length) : (Memory.read (Memory.writeBytes m r data) i).isSome := by
  by_cases h : i < r
  · rw [Memory.read_writeBytes_of_outside data m r i (.inl h)]
    exact hm i h
  · have hk : i - r < data.length := by omega
    have read := Memory.read_writeBytes data m r (i - r) _ (List.getElem?_eq_getElem hk)
    rw [Nat.add_sub_cancel' (Nat.not_lt.1 h)] at read
    rw [read]
    rfl

/-! ### The invariant -/

/-- The invariant reads no other register than these. -/
theorem sessionOk_same {s t : State} (hs : SessionOk s) (cfg : t.cfg = s.cfg) (status : t.status = s.status)
    (error : t.error = s.error) (offset : t.offset = s.offset) (size : t.size = s.size)
    (budget : t.retryBudget = s.retryBudget) (retry : t.currentRetry = s.currentRetry)
    (received : t.received = s.received) (buffer : t.uploadBuffer = s.uploadBuffer) (active : t.active = s.active)
    (terminal : t.active = true → t.terminalConnected = false) : SessionOk t := by
  obtain ⟨h1, h2, -, h4, h5, h6, h7, h8, h9, h10, h11, h12, h13⟩ := hs
  constructor <;> (try simp only [cfg, status, error, offset, size, budget, retry, received, buffer, active])
  all_goals first | assumption | exact active ▸ terminal

/-- Where no upload is open the invariant asks for the counts and the buffer's form only. -/
theorem sessionOk_closed {t : State} (status : t.status ≠ .uploading) (updating : t.status ≠ .updating)
    (active : t.active = false) (retry : t.currentRetry.toNat ≤ t.retryBudget.toNat)
    (budget : t.retryBudget.toNat ≤ t.cfg.retryMax) (buffer : Memory.wf t.uploadBuffer) : SessionOk t := by
  constructor <;> first | assumption | simp [status, active]

/-- An operation of the link leaves the session alone, and connects no terminal while `active` is set (R297 (b)). -/
theorem sessionOk_of_onlyLink {s t : State} (h : OnlyLink s t) (hs : SessionOk s) : SessionOk t := by
  refine sessionOk_same hs h.cfg h.status h.error h.offset h.size h.retryBudget h.currentRetry h.received h.uploadBuffer
    h.active fun ha => ?_
  rw [h.active] at ha
  cases hc : t.terminalConnected with
  | false => rfl
  | true =>
    obtain e | e := h.connected hc
    · exact absurd (hs.terminal ha) (by simp [e])
    · exact absurd ha (by simp [e])

theorem sessionOk_openUpload {s : State} {a n : Word} {retries : Option Word}
    (h : uploadRangeOk s a n retries = true) : SessionOk (openUpload a n retries (begin 0x42 s)) := by
  obtain ⟨pos, le, range, unmixed, budget⟩ := (uploadRangeOk_iff s a n retries).1 h
  have pos' : 1 ≤ n.toNat := Nat.pos_of_ne_zero (mt (BitVec.toNat_inj (y := 0)).1 pos)
  have legal : (retries.getD Config.defaultRetries).toNat ≤ s.cfg.retryMax := by
    cases retries with
    | none => exact Nat.zero_le _
    | some r => exact budget r rfl
  constructor <;> simp [openUpload, Memory.wf] <;> assumption

theorem sessionOk_storeChunk {s : State} {data : List Byte} (hs : SessionOk s)
    (hn : s.received.toNat + data.length ≤ s.size.toNat) : SessionOk (storeChunk data s) := by
  have received : (storeChunk data s).received.toNat = s.received.toNat + data.length := by
    simpa using toNat_received_add hn
  obtain ⟨h1, h2, h3, h4, h5, h6, h7, h8, h9, h10, h11, h12, h13⟩ := hs
  constructor
  case buffer => simpa using Memory.writeBytes_wf data _ _ h6
  case received => intro _; rw [received]; simpa using hn
  case stored =>
    intro hu i hi
    rw [received] at hi
    simpa using isSome_read_writeBytes (h13 (by simpa using hu)) hi
  all_goals simpa

theorem sessionOk_refresh {s : State} (hs : SessionOk s) (op : Byte) : SessionOk (refresh (begin op s)) :=
  sessionOk_same hs (by simp) (by simp) (by simp) (by simp) (by simp) (by simp) (by simp) (by simp) (by simp) (by simp)
    (by simpa using hs.terminal)

theorem sessionOk_failSession {s : State} (e : ErrKind) (hs : SessionOk s) : SessionOk (failSession e s) := by
  apply sessionOk_closed <;> simp [failSession]
  · exact hs.retry
  · exact hs.budget
  · exact hs.buffer

/-- An update run closes the session within its retry budget (R242, R243). -/
theorem sessionOk_updateEnd {s t : State} (budget : s.retryBudget.toNat ≤ s.cfg.retryMax)
    (buffer : Memory.wf s.uploadBuffer) (h : UpdateEnd s t) : SessionOk t := by
  have link := h.link.toOnlyLink
  have status : t.status ≠ .uploading ∧ t.status ≠ .updating := by
    obtain ⟨e, -⟩ | ⟨e, -⟩ | ⟨e, -⟩ := h.outcome <;> simp [e]
  refine sessionOk_closed status.1 status.2 link.active ?_ ?_ ?_
  · rw [link.retryBudget]; exact h.retries.2
  · rw [link.retryBudget, link.cfg]; exact budget
  · rw [link.uploadBuffer]; exact buffer

theorem sessionOk_respond {u : State} (code : Word) (v : Option Word) (d : Option (List Byte)) (hu : SessionOk u) :
    SessionOk (respond code v d u) := sessionOk_of_onlyLink (onlyLink_respond (onlyLink_refl u)) hu

theorem not_active_of_not_inFlight {s : State} (hs : SessionOk s) (hf : ¬ inFlight s = true) : s.active = false := by
  rw [inFlight_iff, not_or] at hf
  simpa using mt hs.active.1 hf.1

theorem sessionOk_effect {i : Instr} {s t : State} (h : Effect i s t) (hs : SessionOk s) : SessionOk t := by
  cases h with
  | wire h => exact sessionOk_of_onlyLink h.toOnlyLink hs
  | request code hc h hr => exact sessionOk_of_onlyLink h hs
  | flasher code power hc hf hp h hr ht =>
    refine sessionOk_of_onlyLink h (sessionOk_same hs rfl rfl rfl rfl rfl rfl rfl rfl rfl ?_ nofun)
    exact (not_active_of_not_inFlight hs hf).symm
  | consumed hc h =>
    subst h
    have closed : s.active = false := not_active_of_not_inFlight hs (by rw [inFlight_iff]; rcases hc with e | e <;> simp [e])
    exact sessionOk_closed nofun nofun closed hs.retry hs.budget hs.buffer
  | opened a n retries hok _ h => subst h; exact sessionOk_respond _ _ _ (sessionOk_openUpload hok)
  | pin m _ _ h | coeff m _ _ h =>
    subst h
    exact sessionOk_same hs rfl rfl rfl rfl rfl rfl rfl rfl rfl rfl hs.terminal
  | stored data _ hn h =>
    subst h
    exact sessionOk_respond _ _ _ (sessionOk_storeChunk (sessionOk_refresh hs 0x43) (by simpa using hn))
  | mismatch data u _ hu h =>
    subst h
    refine sessionOk_respond _ _ _ ?_
    obtain rfl | rfl := hu
    · exact sessionOk_failSession _ (sessionOk_refresh hs 0x43)
    · apply sessionOk_closed <;> simp [failSession]
      · exact hs.retry
      · exact hs.budget
      · exact Memory.writeBytes_wf data _ _ hs.buffer
  | updated data bytes _ h =>
    subst h
    refine sessionOk_respond _ _ _ (sessionOk_updateEnd ?_ ?_ (updateRun_spec bytes rfl ?_))
    · simpa using hs.budget
    · simpa using Memory.writeBytes_wf data _ _ hs.buffer
    · simpa using hs.retry

theorem sessionOk_step : StepRel fun s t => SessionOk s → SessionOk t where
  trans h k := k ∘ h
  port s hs := sessionOk_same hs (by simp) (by simp) (by simp) (by simp) (by simp) (by simp) (by simp) (by simp) (by simp)
    (by simp) (by simpa using hs.terminal)
  terminal a s := sessionOk_of_onlyLink (LinkStep.rel.termAct a s).toOnlyLink
  scripts ti hi s hs := sessionOk_same hs rfl rfl rfl rfl rfl rfl rfl rfl rfl rfl hs.terminal
  submit r s _ hs := sessionOk_same hs rfl rfl rfl rfl rfl rfl rfl rfl rfl rfl hs.terminal
  ack s hs := sessionOk_same hs rfl rfl rfl rfl rfl rfl rfl rfl rfl rfl hs.terminal
  watchdog s hs := by
    obtain ⟨n, c, k, hw | hw⟩ := watchdogCheck_spec s <;> rw [hw]
    · exact sessionOk_same hs rfl rfl rfl rfl rfl rfl rfl rfl rfl rfl hs.terminal
    · refine sessionOk_closed nofun nofun ?_ hs.retry hs.budget hs.buffer
      dsimp only
      split
      · rfl
      next hf => exact not_active_of_not_inFlight hs hf
  unknown s hs := sessionOk_same hs rfl rfl rfl rfl rfl rfl rfl rfl rfl rfl hs.terminal
  run _ _ _ := sessionOk_effect

/-- Settles O55. -/
theorem stepKeepsSession : Obligations.StepKeepsSession := fun _ _ hs h => sessionOk_step.step h hs

/-! ### No step stops the machine -/

/-- Only `UPLOAD_DATA` can stop the machine, whatever the state. -/
theorem exec_next {i : Instr} (h : ∀ d l, i ≠ .uploadData d l) (s : State) : ∃ t, exec i s = .next t := by
  cases i
  case uploadData d l => exact absurd rfl (h d l)
  all_goals exact ⟨_, rfl⟩

/-- The bytes of a complete upload all have values (R40, U10). -/
theorem runUpload_next {s : State} (hs : SessionOk s) (hu : s.status = .uploading) (hr : s.received = s.size) :
    ∃ t, runUpload s = .next t := by
  obtain ⟨bytes, hb, -⟩ := Memory.readBytes_ok s.uploadBuffer s.size.toNat 0 fun j _ hj =>
    hs.stored hu j (by rw [hr]; omega)
  rw [runUpload, hb]
  exact ⟨_, rfl⟩

/-- A chunk of an open upload stays within the buffer, and a last one completes it or fails the session (R60, R241). -/
theorem acceptChunk_next {s : State} (hs : SessionOk s) (hu : s.status = .uploading) (data : List Byte) (last : Bool) :
    ∃ t, acceptChunk data last s = .next t := by
  unfold acceptChunk
  simp only [refresh_fields, begin_fields]
  split
  · exact ⟨_, rfl⟩
  next hn =>
    have bound := hs.size_le hu
    rw [if_neg (by omega)]
    split
    · exact ⟨_, rfl⟩
    · split
      · exact ⟨_, rfl⟩
      next hr =>
        have stored := sessionOk_storeChunk (data := data) (sessionOk_refresh hs 0x43) (by simpa using Nat.not_lt.1 hn)
        exact runUpload_next stored (by simpa using hu) (not_not.1 hr)

theorem exec_uploadData_next {s : State} (hs : SessionOk s) (data : List Byte) (last : Bool) :
    ∃ t, exec (.uploadData data last) s = .next t := by
  simp only [exec, execUploadData]
  split
  · exact ⟨_, rfl⟩
  next hu => exact acceptChunk_next hs (not_not.1 hu) data last

/-- Settles O56: of the actions of a step only a request can stop the machine, and of the requests only `UPLOAD_DATA`. -/
theorem stepNeverStops : Obligations.StepNeverStops := by
  intro s hs
  have stepped := step_stepped s
  generalize step s = o at stepped
  cases stepped with
  | request ti hi _ handled =>
    have checked : SessionOk (watchdogCheck (rescript ti hi s)).2 :=
      sessionOk_step.trans (sessionOk_step.scripts ti hi s) (sessionOk_step.watchdog _) hs
    cases handled with
    | unknown => exact ⟨_, rfl⟩
    | run i _ =>
      by_cases hi : ∃ d l, i = .uploadData d l
      · obtain ⟨d, l, rfl⟩ := hi
        exact exec_uploadData_next checked d l
      · exact exec_next (fun d l e => hi ⟨d, l, e⟩) _
  | _ => exact ⟨_, rfl⟩

/-! ### The transitions of `status` (R237) -/

/-- What one instruction can do to `status`. -/
def execStatusStep : Status → Status → Bool
  | .idle, .idle | .idle, .uploading => true
  | .uploading, .idle | .uploading, .uploading | .uploading, .success | .uploading, .failed => true
  | .updating, .updating => true
  | .success, .success | .success, .idle | .success, .uploading => true
  | .failed, .failed | .failed, .idle | .failed, .uploading => true
  | _, _ => false

theorem execStatusStep_refl (a : Status) : execStatusStep a a = true := by cases a <;> rfl

/-- A step is the watchdog check, which leaves `status` or expires the session, and then an instruction (R246, R265). -/
theorem statusStep_of_execStatusStep {a b c : Status} (h : b = a ∨ b = .idle) (k : execStatusStep b c = true) :
    statusStep a c = true := by
  obtain rfl | rfl := h
  · cases b <;> cases c <;> simp_all [execStatusStep, statusStep]
  · cases a <;> cases c <;> simp_all [execStatusStep, statusStep]

theorem status_respond (code : Word) (v : Option Word) (d : Option (List Byte)) (s : State) :
    (respond code v d s).status = s.status := rfl

theorem status_effect {i : Instr} {s t : State} (h : Effect i s t) : execStatusStep s.status t.status = true := by
  have same {t : State} (h : t.status = s.status) : execStatusStep s.status t.status = true :=
    h ▸ execStatusStep_refl s.status
  cases h with
  | wire h => exact same h.status
  | request code hc h hr => exact same h.status
  | flasher code power hc hs hp h hr ht => exact same h.status
  | consumed hs h => subst h; obtain e | e := hs <;> rw [e] <;> rfl
  | opened a n retries hok hs h =>
    subst h
    rw [inFlight_iff, not_or] at hs
    have opened : (respond 0 none none (openUpload a n retries (begin 0x42 s))).status = .uploading := by simp [openUpload]
    rw [opened]
    cases hst : s.status with
    | idle | success | failed => rfl
    | uploading => exact absurd hst hs.1
    | updating => exact absurd hst hs.2
  | pin m hi hm h | coeff c hi hc h => subst h; exact same rfl
  | stored data hs hn h => subst h; exact same (by simp)
  | mismatch data u hs hu h => subst h; rw [hs]; simp [failSession, execStatusStep]
  | updated data bytes hs h =>
    subst h
    rw [hs]
    have outcome := (updateRun_leaves bytes (s := { storeChunk data (refresh (begin 0x43 s)) with
      status := .updating }) rfl).outcome
    rw [status_respond]
    obtain ⟨e, -⟩ | ⟨e, -⟩ | ⟨e, -⟩ := outcome <;> rw [e] <;> rfl

theorem status_watchdogCheck (s : State) :
    (watchdogCheck s).2.status = s.status ∨ (watchdogCheck s).2.status = .idle := by
  obtain ⟨n, c, k, hw | hw⟩ := watchdogCheck_spec s <;> rw [hw]
  · exact .inl rfl
  · exact .inr rfl

/-- Settles O57. -/
theorem stepFollowsTransitions : Obligations.StepFollowsTransitions := by
  intro s t hs
  have same {u : State} (h : u.status = s.status) : statusStep s.status u.status = true :=
    statusStep_of_execStatusStep (.inl rfl) (h ▸ execStatusStep_refl s.status)
  have stepped := step_stepped s
  rw [hs] at stepped
  cases stepped with
  | masked _ => exact same (by simp)
  | terminal a ti => exact same (LinkStep.rel.termAct a { s with termIn := ti }).status
  | submit | dropped | ack => exact same rfl
  | idle ti hi =>
    exact statusStep_of_execStatusStep (status_watchdogCheck (rescript ti hi s)) (execStatusStep_refl _)
  | request ti hi _ handled =>
    refine statusStep_of_execStatusStep (status_watchdogCheck (rescript ti hi s)) ?_
    generalize ho : (Host.Outcome.next t : Out) = o at handled
    cases handled with
    | unknown => cases ho; exact execStatusStep_refl _
    | run i _ => exact status_effect (exec_effect ho.symm)

end Sys2Proof.Proofs
end

section
/-!
PROOFS. Refusals, setters and codes (R102, R238, R263, R264, R281), and the state at reset (R55, R320).
-/
namespace Sys2Proof.Proofs

open Sys2Proof.Machine Sys2Proof.Safety Sys2Proof.Laws

/-- A missing operand ends the request, whatever the state (R102). -/
theorem exec_operandMissing {i : Instr} (h : operandMissing i = true) (s : State) :
    exec i s = .next (respondErr .parameterMissing s) := by
  cases i
  case rawWrite a b | frameWrite a b | seqWriteWord a b | readBlob a b | flashErasePages a b | blobRead a b
      | seqReadWord a b | seqWriteByte a b =>
    cases a <;> cases b <;> first | rfl | cases h
  case uploadBegin a b _ | blobWrite a b _ => cases a <;> cases b <;> first | rfl | cases h
  case rawRead a | setPin a | setCoeff a | phyDelay a | frameRead a | seqReadByte a => cases a <;> first | rfl | cases h
  case flashWriteBlock64 a _ => cases a <;> first | rfl | cases h
  all_goals cases h

theorem cmdOf_of_large {a : Word} (h : 128 ≤ a.toNat) : cmdOf a = none := by rw [cmdOf, if_neg (by omega)]

/-- Settles O8: by the match on the operands that each meaning begins with, and the 7-bit check of a command. -/
theorem refusedOperands : Obligations.RefusedOperands := by
  refine ⟨fun i s h => exec_operandMissing h s, fun a v s h => ?_, fun e s => ⟨responded_respond .., _, _, rfl⟩⟩
  simp [exec, execRawWrite, execRawRead, execFrameWrite, execFrameRead, cmdOf_of_large h]

/-- A legal coefficient is within its bounds (R22). -/
theorem legalCoeff_iff (p : Config.Params) (c : Word) : legalCoeff p c = true ↔ ¬ (c.toNat < 2 ∨ p.coeffMax.toNat < c.toNat) := by
  simp only [legalCoeff, Bool.and_eq_true, decide_eq_true_eq]
  omega

/-- Settles O11. -/
theorem setCoeffRule : Obligations.SetCoeffRule := by
  refine fun s => ⟨rfl, fun c => ?_⟩
  simp only [exec, execSetCoeff]
  split
  next h =>
    have illegal : ¬ legalCoeff s.cfg c = true := fun hc => (legalCoeff_iff s.cfg c).1 hc h
    simp [illegal]
  next h => simp [(legalCoeff_iff s.cfg c).2 h]

theorem flasherCommand_busy {α : Type} {s : State} (h : inFlight s = true) (op : Byte) (body : State → Res α)
    (fin : Res α → State) : flasherCommand op body fin s = respondErr .sessionBusy s := by
  rw [flasherCommand, if_pos h]

/-- Settles O51: the check of a session in flight comes right after the operands' own checks. -/
theorem sessionBusyRefused : Obligations.SessionBusyRefused := by
  intro s hs
  have busy : inFlight s = true := (inFlight_iff s).2 hs
  refine ⟨fun i hi => ?_, fun hp => ?_, fun a n h0 hb hw => ?_, fun a n retries hok => ?_, fun m hm => ?_⟩
  · simp only [List.mem_cons, List.not_mem_nil, or_false] at hi
    obtain rfl | rfl | rfl | rfl | rfl | rfl := hi <;> exact congrArg _ (flasherCommand_busy busy ..)
  · simp [exec, execUnbrick, hp, flasherCommand_busy busy]
  · have inRange : ¬ (n = 0 ∨ s.cfg.maxBinary < n.toNat ∨ wraps a.toNat n.toNat = true) := by
      simp only [wraps, decide_eq_true_eq, not_or]
      exact ⟨h0, Nat.not_lt.2 hb, Nat.not_lt.2 hw⟩
    simp only [exec, execReadBlob]
    rw [if_neg inRange, flasherCommand_busy busy]
  · simp [exec, execUploadBegin, hok, busy]
  · exact exec_setPin_inFlight hm busy

/-- The code of an error is minus its place in R281's table. -/
theorem toInt_code_neg (e : ErrKind) : e.code.toInt < 0 := by cases e <;> decide

/-- The inverse of the codes' table (R281). -/
def kindOfCode (w : Word) : Option ErrKind :=
  [ErrKind.bitTimeout, .busFault, .abstractCommandError, .flashBusyTimeout, .flashWriteProtected, .flashUnlockFailed,
    .verifyMismatch, .uploadSizeMismatch, .parameterMissing, .outOfRange, .sessionBusy, .timeout, .initFailure,
    .unimplemented, .unknownCommand, .misaligned][(-w).toNat - 1]?

theorem kindOfCode_code (e : ErrKind) : kindOfCode e.code = some e := by cases e <;> decide

/-- Settles O53: the codes by the table, and no two alike since the table can be read backwards. -/
theorem errorCodes : Obligations.ErrorCodes :=
  ⟨by decide, toInt_code_neg, fun e f h => Option.some.inj (by rw [← kindOfCode_code e, h, kindOfCode_code f])⟩

/-! ### Reset -/

theorem configOk_reset {p : Config.Params} (h : p.Valid) : ConfigOk (State.resetWith p) where
  valid := h
  pin := .inl rfl
  coeff_ge := h.resetCoeff_ge
  coeff_le := h.resetCoeff_le

theorem lineIdle_reset (p : Config.Params) : LineIdle (State.resetWith p) := ⟨rfl, rfl, rfl, .inl rfl, rfl⟩

theorem sessionOk_reset (p : Config.Params) : SessionOk (State.resetWith p) :=
  sessionOk_closed nofun nofun rfl (Nat.le_refl _) (Nat.zero_le _) List.Pairwise.nil

/-- Settles O59. -/
theorem resetState : Obligations.ResetState := by
  refine ⟨fun p hp => ⟨?registers, configOk_reset hp, lineIdle_reset p, ⟨Nat.zero_le _⟩, sessionOk_reset p,
    ⟨zero_mem_resultCodes, zero_mem_resultCodes⟩⟩, rfl, Config.params_valid, Config.params_highDrive⟩
  case registers =>
    refine ⟨rfl, rfl, rfl, rfl, rfl, rfl, rfl, rfl, rfl, rfl, rfl, rfl, rfl, rfl, rfl, rfl, rfl, fun _ => rfl, rfl, rfl, rfl, rfl,
      rfl⟩

end Sys2Proof.Proofs
end

section
/-!
PROOFS. Upload (R240, R241): the session that `UPLOAD_BEGIN` opens, and where `UPLOAD_DATA` stores a chunk or fails the session. A reading
of the clock depends on the clock's own data only, so it can be taken out of any other update.
-/
namespace Sys2Proof.Proofs

open Sys2Proof.Machine Sys2Proof.Safety Sys2Proof.Laws

/-- What a reading of the clock gives depends on the clock alone (R246). -/
theorem readClock_of_clock {s t : State} (now : t.now = s.now) (script : t.clockIn = s.clockIn)
    (rest : t.clockRest = s.clockRest) (count : t.clockCount = s.clockCount) : readClock t = { t with
      now := (readClock s).now, clockIn := (readClock s).clockIn, clockCount := (readClock s).clockCount } := by
  unfold readClock
  rw [script, rest, now, count]
  cases hs : s.clockIn with
  | cons d ds => simp only [← count]
  | nil =>
    cases s.clockRest with
    | some d => simp only [← hs, ← script, ← count]
    | none => simp only [← hs, ← script]

/-- The deadline after a refresh is the reading's (R245). -/
theorem refresh_of_clock {s t : State} (now : t.now = s.now) (script : t.clockIn = s.clockIn)
    (rest : t.clockRest = s.clockRest) (count : t.clockCount = s.clockCount) : refresh t = { t with
      now := (readClock s).now, clockIn := (readClock s).clockIn, clockCount := (readClock s).clockCount
      watchdogDeadline := (readClock s).now + t.cfg.watchdogTimeout } := by
  rw [refresh, readClock_of_clock now script rest count]

theorem openUpload_eq (a n : Word) (retries : Option Word) (op : Byte) (s : State) :
    respond 0 none none (openUpload a n retries (begin op s)) = respond 0 none none { readClock s with
      active := true
      terminalConnected := false
      offset := a
      size := n
      retryBudget := retries.getD 0
      currentRetry := 0
      received := 0
      uploadBuffer := []
      error := 0
      status := .uploading
      watchdogDeadline := (readClock s).now + s.cfg.watchdogTimeout } := by
  obtain ⟨m, c, k, hr, -⟩ := readClock_spec s
  rw [openUpload, refresh_of_clock (s := s), hr]
  all_goals rfl

/-- Settles O13: the checks in R240's order, and the session that is opened. -/
theorem uploadBeginRule : Obligations.UploadBeginRule := by
  intro s a n retries
  have range : uploadRangeOk s a n retries = true ↔ ¬ (n = 0 ∨ s.cfg.maxBinary < n.toNat ∨ 2 ^ 32 < a.toNat + n.toNat ∨
      classify s.cfg a.toNat n.toNat = .mixed ∨ ∃ r, retries = some r ∧ s.cfg.retryMax < r.toNat) := by
    rw [uploadRangeOk_iff]
    push Not
    rfl
  simp only [exec, execUploadBegin, ← inFlight_iff]
  split
  next h => simp [mt range.1 (not_not.2 h)]
  next h =>
    rw [range.2 h]
    split
    next hs => rfl
    next hs => exact congrArg _ (openUpload_eq a n retries 0x42 s)

/-- Settles O14: the bytes are stored behind those received, of which the buffer's laws say what is read back. -/
theorem uploadDataChunk : Obligations.UploadDataChunk := by
  intro s data hs hu hn
  have bound := hs.size_le hu
  refine ⟨s.received + BitVec.ofNat 32 data.length, Memory.writeBytes s.uploadBuffer s.received.toNat data, ?_,
    toNat_received_add hn, fun i b => Memory.read_writeBytes data _ _ i b, fun j => Memory.read_writeBytes_of_outside data _ _ j⟩
  obtain ⟨m, c, k, hr, -⟩ := readClock_spec s
  simp only [exec, execUploadData, acceptChunk, refresh_of_clock (s := s) (t := begin 0x43 s) rfl rfl rfl rfl, hr]
  rw [if_neg (not_not.2 hu), if_neg (by simpa using hn), if_neg (by simp; omega)]
  rfl

/-- A failed session takes its deadline from a reading of its own (R241, R245). -/
theorem failSession_of_clock {s t : State} (e : ErrKind) (now : t.now = s.now) (script : t.clockIn = s.clockIn)
    (rest : t.clockRest = s.clockRest) (count : t.clockCount = s.clockCount) : failSession e t = { t with
      error := e.code
      status := .failed
      active := false
      now := (readClock s).now, clockIn := (readClock s).clockIn, clockCount := (readClock s).clockCount
      watchdogDeadline := (readClock s).now + t.cfg.watchdogTimeout } := by
  rw [failSession, refresh_of_clock (s := s)]
  all_goals assumption

/-- Settles O15: each refusal by the check that makes it, its two refreshes by two readings of the clock. -/
theorem uploadDataMismatch : Obligations.UploadDataMismatch := by
  intro s data last
  obtain ⟨m, c, k, hr, -⟩ := readClock_spec s
  obtain ⟨m', c', k', hr', -⟩ := readClock_spec (readClock s)
  have refreshed := refresh_of_clock (s := s) (t := begin 0x43 s) rfl rfl rfl rfl
  have now : (refresh (begin 0x43 s)).now = (readClock s).now := by rw [refreshed]
  have script : (refresh (begin 0x43 s)).clockIn = (readClock s).clockIn := by rw [refreshed]
  have rest : (refresh (begin 0x43 s)).clockRest = (readClock s).clockRest := by simp
  have count : (refresh (begin 0x43 s)).clockCount = (readClock s).clockCount := by rw [refreshed]
  refine ⟨fun hu => ?_, fun hu hn => ?_, fun hs hu hn => ?_⟩
  · simp [exec, execUploadData, hu]
  · simp only [exec, execUploadData, acceptChunk]
    rw [if_neg (not_not.2 hu), if_pos (by simpa using hn), failSession_of_clock (s := readClock s) _ now script rest count,
      refreshed, hr', hr]
    rfl
  · have bound := hs.size_le hu
    have short : s.received + BitVec.ofNat 32 data.length ≠ s.size := fun h => by
      have := toNat_received_add hn.le
      rw [h] at this
      omega
    simp only [exec, execUploadData, acceptChunk]
    rw [if_neg (not_not.2 hu), if_neg (by simp; omega), if_neg (by simp; omega), if_neg (by simp), if_pos (by simpa using short),
      failSession_of_clock (s := readClock s) (t := storeChunk data (refresh (begin 0x43 s))) _ now script rest count,
      refreshed, hr', hr]
    rfl

end Sys2Proof.Proofs
end

section
/-!
PROOFS. The bit PHY run alone (R120 to R126), on the test port and at the frame port: the equations of `Frames.lean` for one use of the
port, between the begin of a request and its response.
-/
namespace Sys2Proof.Proofs

open Sys2Proof.Machine Sys2Proof.Safety Sys2Proof.Laws
open Sys2Proof.Config (Params SlotDraw)

/-- With a silent terminal a PHY operation of the test port is the operation run alone (R125). -/
theorem phyPort_silent {α : Type} {s : State} (h : s.termIn = []) (f : Nat → State → α × State) :
    phyPort f s = phyAlone .control f s := withTurns_silent h

theorem linkReady_begin {s : State} (h : LinkReady s) (op : Byte) : LinkReady (Machine.begin op s) :=
  ⟨h.pin, h.silent, h.port⟩

theorem exec_phySend {s : State} (h : LinkReady s) (op : Byte) (b : Bool) :
    finish (phySend b (begin op s)) = respond 0 none none (afterSymbol .control b s) := by
  have hb := linkReady_begin h op
  rw [phySend, phyPort_silent hb.silent, phyAlone_symbol _ _ hb.pin hb.port]
  rfl

theorem termSymbol_ready {s : State} (h : LinkReady s) (b : Bool) : termSymbol b s = afterSymbol .terminal b s := by
  rw [termSymbol, phyAlone_symbol _ _ h.pin h.port]
  rfl

/-- A PHY operation of the test port without a pin is refused before the port is taken (R126). -/
theorem phyPort_noPin {α : Type} {s : State} (hp : s.pinMask = 0) (ht : s.termIn = []) (op : Byte)
    (f : Nat → State → α × State) : phyPort f (begin op s) = .err .initFailure (begin op s) := by
  rw [phyPort_silent (s := begin op s) ht, phyAlone_noPin (s := begin op s) _ _ hp]

/-- Settles O19: a symbol alone, by issuer, and the test port without a pin. -/
theorem phySymbols : Obligations.PhySymbols := by
  intro s
  refine ⟨fun h => ⟨congrArg _ (exec_phySend h 0x02 true), congrArg _ (exec_phySend h 0x03 false),
    congrArg _ (termSymbol_ready h true), congrArg _ (termSymbol_ready h false)⟩, fun hp ht => ?_⟩
  simp [exec, execPhySend1, execPhySend0, execPhyReadBit, execPhyDelay, phySend, phyReadBit, phyDelay, phyPort_noPin hp ht, finish,
    finishBit, respondErr_begin]

/-- Settles O20: the port is taken and freed around the hold. -/
theorem phyDelayRule : Obligations.PhyDelayRule := by
  intro s n h
  have hb := linkReady_begin h 0x01
  simp only [exec, execPhyDelay, phyDelay]
  rw [phyPort_silent hb.silent, phyAlone_delay _ _ hb.pin hb.port]
  simp only [finish, ← h.port]
  rfl

/-- Settles O21: one slot by its answer, for both issuers, and its duration. -/
theorem phyReadSlot : Obligations.PhyReadSlot := by
  intro s d h hd
  obtain ⟨rest, hs⟩ : ∃ rest, s.slotIn = d :: rest := by
    cases hs : s.slotIn with
    | nil => simp [hs] at hd
    | cons x rest => exact ⟨rest, by simpa [hs] using hd⟩
  have hb := linkReady_begin h 0x04
  refine ⟨?_, ?_, ticks_slotEvents _ _ _⟩
  · simp only [exec, execPhyReadBit, phyReadBit]
    rw [phyPort_silent hb.silent, phyAlone_slot _ hb.pin hb.port hs]
    cases seen : (seenHigh s.cfg d).isSome <;> simp only [begin_fields, seen] <;> rfl
  · simp only [exec, execReadSlot, wireEffect, termSlot]
    rw [phyAlone_slot _ h.pin h.port hs]
    rfl

end Sys2Proof.Proofs
end

section
/-!
PROOFS. Frames by issuer (R93, R94, R144, R146, R147, R150): the equations of `Frames.lean` under the test port, the raw register
commands, which drop a resident program first, and the terminal.
-/
namespace Sys2Proof.Proofs

open Sys2Proof.Machine Sys2Proof.Safety Sys2Proof.Laws
open Sys2Proof.Config (Params SlotDraw)

/-- A register number names the command of the same value (R96). -/
theorem cmdOf_eq_some {a : Word} {cmd : Cmd} (h : a.toNat = cmd.toNat) : cmdOf a = some cmd := by
  have := cmd.isLt
  rw [cmdOf, if_pos (by omega)]
  exact congrArg some (BitVec.eq_of_toNat_eq (by simp; omega))

/-- What a raw register command's invalidation leaves (R146, R147). -/
theorem dropProgram_eq (s : State) : dropProgram s = { s with sessionTag := tagDropped s.sessionTag } := by
  unfold dropProgram
  split
  next h => rcases h with h | h <;> rw [h] <;> rfl
  next h =>
    have kept : tagDropped s.sessionTag = s.sessionTag := by
      cases tag : s.sessionTag <;> simp_all [tagDropped]
    rw [kept]

theorem linkReady_tag {s : State} (h : LinkReady s) (tag : SessionTag) : LinkReady { s with sessionTag := tag } :=
  ⟨h.pin, h.silent, h.port⟩

/-- Settles O23: the write frame's equation under each issuer. -/
theorem writeFrameRule : Obligations.WriteFrameRule := by
  intro s a v cmd h ha
  refine ⟨?_, ?_, ?_⟩
  · simp only [exec, execFrameWrite, cmdOf_eq_some ha]
    rw [fw_ready (linkReady_begin h 0x05)]
    rfl
  · simp only [exec, execRawWrite, cmdOf_eq_some ha, rawWrite, dropProgram_eq]
    rw [fw_ready (linkReady_tag (linkReady_begin h 0x40) _)]
    rfl
  · simp only [exec, execWriteFrame, wireEffect, termWrite]
    rw [frameWrite_eq _ _ _ (linkReady_tag h .terminal).pin (linkReady_tag h .terminal).port]
    rfl

/-- Settles O24: the answered read frame's equation under each issuer. -/
theorem readFrameRule : Obligations.ReadFrameRule := by
  intro s a v cmd ds rest h ha hs hv
  refine ⟨?_, ?_, ?_⟩
  · simp only [exec, execFrameRead, cmdOf_eq_some ha]
    rw [fr_ready (linkReady_begin h 0x06) cmd hs hv]
    rfl
  · simp only [exec, execRawRead, cmdOf_eq_some ha, rawRead, dropProgram_eq]
    rw [fr_ready (linkReady_tag (linkReady_begin h 0x41) _) cmd hs hv]
    rfl
  · simp only [exec, execReadFrame, wireEffect, termRead]
    rw [frameRead_ok _ cmd h.pin h.port hs hv]

/-- Settles O25: the read frame that times out, under each issuer. -/
theorem readFrameBusFault : Obligations.ReadFrameBusFault := by
  intro s a cmd ds rest d h ha hs hl hds hd
  refine ⟨?_, ?_, ?_, rfl, rfl⟩
  · simp only [exec, execFrameRead, cmdOf_eq_some ha]
    rw [fr_ready_busFault (linkReady_begin h 0x06) cmd hs hl hds hd]
    rfl
  · simp only [exec, execRawRead, cmdOf_eq_some ha, rawRead, dropProgram_eq]
    rw [fr_ready_busFault (linkReady_tag (linkReady_begin h 0x41) _) cmd hs hl hds hd]
    rfl
  · simp only [exec, execReadFrame, wireEffect, termRead]
    rw [frameRead_busFault _ cmd h.pin h.port hs hl hds hd]

end Sys2Proof.Proofs
end

section
/-!
PROOFS. Words and ranges (R66, R193, R197, R199): words are packed little-endian; the chunks of a range, and the accesses of a blob, cover
it in order.
-/
namespace Sys2Proof.Proofs

open Sys2Proof.Machine Sys2Proof.Safety Sys2Proof.Laws

theorem wordBytes_packWord (b0 b1 b2 b3 : Byte) : wordBytes (packWord b0 b1 b2 b3) = [b0, b1, b2, b3] := by
  simp only [wordBytes, packWord, List.cons.injEq, and_true]
  refine ⟨?_, ?_, ?_, ?_⟩ <;> (ext i hi; grind)

theorem packWord_wordBytes (w : Word) : packWord (w.extractLsb' 0 8) (w.extractLsb' 8 8) (w.extractLsb' 16 8)
    (w.extractLsb' 24 8) = w := by
  ext i hi
  grind [packWord]

/-- Settles O44: packing and unpacking are inverse to each other. -/
theorem wordsAreLittleEndian : Obligations.WordsAreLittleEndian := by
  refine ⟨fun b0 b1 b2 b3 => ?_, fun ws => ?_⟩
  · have bytes := wordBytes_packWord b0 b1 b2 b3
    simp only [wordBytes, List.cons.injEq, and_true] at bytes
    obtain ⟨h0, h1, h2, h3⟩ := bytes
    exact ⟨h0, h1, h2, h3, wordBytes_packWord b0 b1 b2 b3⟩
  · induction ws with
    | nil => rfl
    | cons w ws ih =>
      simp only [List.flatMap_cons, wordBytes, List.cons_append, List.nil_append, packWords, packWord_wordBytes]
      exact congrArg _ ih

/-- A chunk is the range's first 64-aligned address or a later one, by 64 each (R193). -/
theorem mem_chunks {a n c : Nat} : c ∈ chunks a n ↔ ∃ k, k < (a % 64 + n + 63) / 64 ∧ c = a - a % 64 + 64 * k := by
  simp only [chunks, List.mem_map, List.mem_range, eq_comm]

/-- Settles O42: the chunks are those of `mem_chunks`. -/
theorem chunksCoverRange : Obligations.ChunksCoverRange := by
  intro a n hn
  refine ⟨by simp [chunks], fun c hc => ?_, fun k c d hc hd => ?_, fun x hx hn => ?_⟩
  · obtain ⟨k, hk, rfl⟩ := mem_chunks.1 hc
    omega
  · simp only [chunks, List.getElem?_map, Option.map_eq_some_iff, List.getElem?_eq_some_iff, List.getElem_range] at hc hd
    grind
  · refine ⟨x - x % 64, mem_chunks.2 ⟨x / 64 - a / 64, ?_, ?_⟩, ?_, ?_⟩ <;> omega

/-- The bytes that a word access stores are stored at its address and the three after it. -/
theorem accessBytes_word (p : Nat) (b0 b1 b2 b3 : Byte) : accessBytes (.word (BitVec.ofNat 32 p) (packWord b0 b1 b2 b3)) =
    [(BitVec.ofNat 32 p, b0), (BitVec.ofNat 32 (p + 1), b1), (BitVec.ofNat 32 (p + 2), b2), (BitVec.ofNat 32 (p + 3), b3)] := by
  simp [accessBytes, wordBytes_packWord, ← BitVec.ofNat_add]

/-- A byte access followed by accesses that cover the rest covers the whole. -/
theorem byteAccess_cover {p : Nat} {b : Byte} {rest : List Byte} {xs : List RamWrite}
    (h : xs.flatMap accessBytes = rest.mapIdx fun i b => (BitVec.ofNat 32 (p + 1 + i), b)) :
    (RamWrite.byte (BitVec.ofNat 32 p) b :: xs).flatMap accessBytes =
      (b :: rest).mapIdx fun i b => (BitVec.ofNat 32 (p + i), b) := by
  rw [List.flatMap_cons, h, List.mapIdx_cons]
  simp only [accessBytes, List.cons_append, List.nil_append, Nat.add_zero, Nat.add_assoc, Nat.add_comm 1]

theorem ramWrites_cover (fuel p : Nat) (data : List Byte) : data.length ≤ fuel →
    (ramWrites fuel p data).flatMap accessBytes = data.mapIdx fun i b => (BitVec.ofNat 32 (p + i), b) := by
  induction fuel, p, data using ramWrites.induct with
  | case1 p data =>
    intro h
    rw [List.eq_nil_of_length_eq_zero (Nat.le_zero.1 h)]
    rfl
  | case2 fuel p => exact fun _ => rfl
  | case3 fuel p b0 aligned b1 b2 b3 rest ih =>
    intro h
    simp only [List.length_cons] at h
    rw [ramWrites, if_pos aligned, List.flatMap_cons, ih (by omega), accessBytes_word]
    simp only [List.mapIdx_cons, List.cons_append, List.nil_append, Nat.add_zero, Nat.zero_add, Nat.reduceAdd, Nat.add_assoc,
      Nat.add_comm 4]
  | case4 fuel p b0 rest aligned short ih =>
    intro h
    rw [ramWrites, if_pos aligned]
    · exact byteAccess_cover (ih (Nat.le_of_succ_le_succ h))
    · exact short
  | case5 fuel p b0 rest unaligned ih =>
    intro h
    rw [show ramWrites (fuel + 1) p (b0 :: rest) = .byte (BitVec.ofNat 32 p) b0 :: ramWrites fuel (p + 1) rest from if_neg unaligned]
    exact byteAccess_cover (ih (Nat.le_of_succ_le_succ h))

theorem blobReads_cover : ∀ (fuel p n : Nat), n ≤ fuel →
    (blobReads fuel p n).flatMap accessAddresses = (List.range n).map fun i => BitVec.ofNat 32 (p + i) := by
  intro fuel
  induction fuel with
  | zero =>
    intro p n h
    rw [Nat.le_zero.1 h]
    rfl
  | succ fuel ih =>
    intro p n h
    rw [blobReads]
    split
    next h0 => simp [h0]
    next h0 =>
      split
      next word =>
        obtain ⟨m, rfl⟩ := Nat.exists_eq_add_of_le word.2
        rw [List.flatMap_cons, ih _ _ (by omega), List.range_add, Nat.add_sub_cancel_left]
        simp [accessAddresses, List.range_succ, ← BitVec.ofNat_add, Nat.add_assoc]
      next =>
        obtain ⟨m, rfl⟩ := Nat.exists_eq_add_of_le (Nat.one_le_iff_ne_zero.2 h0)
        rw [List.flatMap_cons, ih _ _ (by omega), List.range_add, Nat.add_sub_cancel_left]
        simp [accessAddresses, Nat.add_assoc]

/-- Settles O43: the length of the data, and of the range, are fuel enough. -/
theorem blobAccessesCover : Obligations.BlobAccessesCover :=
  ⟨fun p data => ramWrites_cover _ p data le_rfl, fun p n => blobReads_cover n p n le_rfl⟩

end Sys2Proof.Proofs
end

section
/-!
PROOFS. The flash engine's commands (R190 to R201): what `Flash.lean`, `Script.lean` and `Verify.lean` say of the operations, between the
begin of a request and its response, which change neither the frames sent nor the cache.
-/
namespace Sys2Proof.Proofs

open Sys2Proof.Machine Sys2Proof.Safety Sys2Proof.Laws
open Sys2Proof.Config (Params SlotDraw)

/-! ### From a run to the response -/

theorem sent_response {c : Word} {v : Option Word} {d : Option (List Byte)} {op : Byte} {s u : State} {as : List Act}
    (h : Sent (begin op s) u as) : Sent s (respond c v d u) as := ⟨h.frames, h.cache⟩

theorem sends_response {c : Word} {v : Option Word} {d : Option (List Byte)} {op : Byte} {s u : State} {as : List Act}
    (h : Sends (begin op s) u as) : Sends s (respond c v d u) as := ⟨h.frames, fun k => sent_response (h.silent k)⟩

/-- The response to a request whose operation has run: with `c` the code it carries. -/
theorem ran_response (c : Word) (v : Option Word) (d : Option (List Byte)) {op : Byte} {s u : State} {as : List Act}
    (h : Ran (begin op s) u as) : Responded c (respond c v d u) ∧ OnlyLink s (respond c v d u) ∧ Sends s (respond c v d u) as :=
  ⟨responded_respond c v d u, onlyLink_respond (onlyLink_begin h.step.toOnlyLink), sends_response h.sends⟩

/-- With a silent terminal the acts are all that is sent. -/
theorem sent_of_ran {c : Word} {v : Option Word} {d : Option (List Byte)} {op : Byte} {s u : State} {as : List Act}
    (h : Ran (begin op s) u as) (silent : s.termIn = []) : Sent s (respond c v d u) as := sent_response (h.sends.silent silent)

/-- A command without a value whose operation completes. -/
theorem runs_finish {op : Byte} {s : State} {r : Res Unit} {as : List Act} (h : Runs r (begin op s) () as) :
    ∃ u, finish r = respond 0 none none u ∧ Ran (begin op s) u as := by
  obtain ⟨u, rfl, hu⟩ := h
  exact ⟨u, rfl, hu⟩

/-- After the unlock, acts that leave the lock alone leave it open (R200). -/
theorem ensured_append {p : Params} {s t : State} {as : List Act} (h : Ran s t (ensureActs p s.flashUnlocked ++ as))
    (keep : ∀ a ∈ as, keepsLock a = true) : t.flashUnlocked = true := by
  rw [h.unlocked, traceCache_append, traceCache_unlocked as _ keep, ensureActs]
  cases e : s.flashUnlocked
  · rfl
  · exact e

/-! ### Unlock and busy poll (R190 to R192) -/

theorem keyWrites_aligned {s : State} (h : s.cfg.Valid) : ∀ w ∈ keyWrites s, aligned4 w.1 = true := by
  simp only [keyWrites, List.flatMap_cons, List.flatMap_nil, List.cons_append, List.nil_append, List.forall_mem_cons,
    aligned_of_peripheral h.flashKeyr, aligned_of_peripheral h.flashObkeyr, aligned_of_peripheral h.flashModekeyr, true_and,
    List.not_mem_nil, false_implies, implies_true]

/-- The unlock's key writes and its read of the lock register, which the target answers with `v`: the verdict follows. -/
theorem script_flashUnlock {p : Params} {ds rest : List SlotDraw} {v : Word} {s : State} (hl : aligned4 p.lockReg = true)
    (hv : Answers p ds v) (h : Script p (List.replicate (7 * 32) zeroDraw ++ ds ++ rest) s) :
    ∃ t, Ran s t (keyActs p ++ [.readWord p.lockReg false v]) ∧
      flashUnlock s = if v &&& p.lockMask = 0 then .ok () { t with flashUnlocked := true } else .err .flashUnlockFailed t := by
  have script : Script p (List.replicate ((keyWrites s).length * 32) zeroDraw ++ (List.replicate (1 * 32) zeroDraw ++ (ds ++ rest))) s := by
    rwa [List.append_assoc, zeros_split 6 1] at h
  obtain ⟨t, ht, ranKeys, scriptT⟩ := script_memWrites (keyWrites s) script (keyWrites_aligned (h.cfg ▸ h.valid))
  obtain ⟨u, hu, ranLock, scriptU⟩ := script_memReadWord (a := p.lockReg) false (v := v) scriptT hv hl
  have acts : (keyWrites s).map (fun w => Act.writeWord w.1 w.2) = keyActs p := by simp [keyWrites, keyActs, h.cfg]
  refine ⟨u, acts ▸ ranKeys.trans ranLock, ?_⟩
  rw [flashUnlock, ht]
  simp only [Res.bind, scriptT.cfg, hu, scriptU.cfg]
  by_cases unlocked : v &&& p.lockMask = 0
  · rw [if_neg (not_not.2 unlocked), if_pos unlocked]
  · rw [if_pos unlocked, if_neg unlocked]

/-- Settles O35: against zeros by `runs_flashUnlock`; against given answers by the scripts of the unlock and of the poll. -/
theorem flashUnlockCompletes : Obligations.FlashUnlockCompletes := by
  intro s
  refine ⟨fun h => ⟨?_, ?_⟩, fun ds rest v h hv hl hs ha => ?_, fun rs rest result h hv hs hp => ?_⟩
  · obtain ⟨u, hu, ran⟩ := runs_finish (runs_flashUnlock (ZeroTarget.begin h 0x20) rfl)
    obtain ⟨responded, link, sends⟩ := ran_response 0 none none ran
    exact ⟨_, congrArg Host.Outcome.next hu, responded, link, ran.unlocked, sends⟩
  · obtain ⟨u, hu, ran⟩ := runs_finish (runs_busy false (ZeroTarget.begin h 0x21) rfl)
    obtain ⟨responded, link, sends⟩ := ran_response 0 none none ran
    exact ⟨_, congrArg Host.Outcome.next hu, responded, link, ran.unlocked, sends⟩
  · have script := LinkReady.script (linkReady_begin h 0x20) hv hs
    obtain ⟨u, ran, hu⟩ := script_flashUnlock hl ha script
    by_cases unlocked : v &&& s.cfg.lockMask = 0
    · have ran' := ran.trans (ran_unlock u)
      obtain ⟨responded, link, -⟩ := ran_response 0 none none ran'
      refine ⟨respond 0 none none { u with flashUnlocked := true }, ?_, link, ?_⟩
      · simp only [exec, execFlashUnlock, hu, if_pos unlocked, finish]
      · rw [if_pos unlocked]
        exact ⟨responded, rfl, by simpa using sent_of_ran ran' h.silent⟩
    · obtain ⟨responded, link, -⟩ := ran_response ErrKind.flashUnlockFailed.code none none ran
      refine ⟨respondErr .flashUnlockFailed u, ?_, link, ?_⟩
      · simp only [exec, execFlashUnlock, hu, if_neg unlocked, finish]
      · rw [if_neg unlocked]
        exact ⟨responded, ran.unlocked, sent_of_ran ran h.silent⟩
  · have script := LinkReady.script (linkReady_begin h 0x21) hv hs
    obtain ⟨u, hu, ran, -⟩ := (script_waitBusy hp script).finish
    obtain ⟨responded, link, -⟩ := ran_response (codeOf result) none none ran
    exact ⟨_, congrArg Host.Outcome.next hu, responded, link, ran.keeps (statusActs_keep _ _), sent_of_ran ran h.silent⟩

/-! ### Erase (R193, R195) -/

theorem exec_flashErasePages_zero (a : Word) (s : State) :
    exec (.flashErasePages (some a) (some 0)) s = .next (respond 0 none none s) := rfl

theorem exec_flashErasePages_refused {a n : Word} {s : State} (hn : n ≠ 0)
    (h : 2 ^ 32 < a.toNat + n.toNat ∨ classify s.cfg a.toNat n.toNat ≠ .flash) :
    exec (.flashErasePages (some a) (some n)) s = .next (respondErr .outOfRange s) := by
  have length : n.toNat ≠ 0 := fun e => hn (BitVec.eq_of_toNat_eq e)
  have refused : (wraps a.toNat n.toNat || classify s.cfg a.toNat n.toNat != .flash) = true := by simpa [wraps] using h
  simp only [exec, execFlashErasePages, flashErasePages, begin_fields, if_neg length, if_pos refused, finish, respondErr_begin]

theorem eraseChunks_keep (p : Params) (cs : List Nat) : ∀ x ∈ cs.flatMap (eraseChunkActs p), keepsLock x = true := by
  intro x hx
  obtain ⟨c, -, hx⟩ := List.mem_flatMap.1 hx
  exact eraseChunkActs_keep p c x hx

theorem eraseChipActs_keep (p : Params) : ∀ x ∈ eraseChipActs p, keepsLock x = true := by
  simp [eraseChipActs, chipStartActs, idleActs, keepsLock]

/-- With the flash unlocked a page erase is the erase of its chunks. -/
theorem flashErasePages_unlocked {a n : Nat} {s : State} (hn : n ≠ 0) (hw : a + n ≤ 2 ^ 32) (hf : classify s.cfg a n = .flash)
    (hu : s.flashUnlocked = true) : flashErasePages a n s = runEach eraseChunk (chunks a n) s := by
  rw [flashErasePages, if_neg hn, if_neg (by simpa [wraps, hf] using hw), ensureUnlocked, if_pos hu]
  rfl

/-- The two commands of a chip erase and its poll, with the flash unlocked (R195). -/
theorem script_flashEraseChip {p : Params} {rs : Reads} {rest : List SlotDraw} {result : Option ErrKind} {s : State}
    (hu : s.flashUnlocked = true) (hp : PollEnds p true Config.massPollLimit rs result)
    (h : Script p (List.replicate (2 * 32) zeroDraw ++ (readScript rs ++ rest)) s) :
    Ends (flashEraseChip s) s result (chipStartActs p ++ statusActs p rs) (Script p rest) := by
  have control : aligned4 p.flashCtlr = true := aligned_of_peripheral h.valid.flashCtlr
  obtain ⟨t, ht, ranT, scriptT⟩ := script_write (n := 1) p.crMer h control
  obtain ⟨u, hu', ranU, scriptU⟩ := script_write (n := 0) (p.crMer ||| p.crStrt) scriptT control
  have poll := script_waitBusy hp (s := u) (rest := rest) (by simpa using scriptU)
  have erase : flashEraseChip s = waitBusy true Config.massPollLimit u := by
    rw [flashEraseChip, ensureUnlocked, if_pos hu]
    simp only [Res.bind, h.cfg, ht, scriptT.cfg, hu']
  rw [erase]
  exact Ends.from (ranT.trans ranU) poll

/-- Settles O36: refusals; against zeros and against given answers by the laws of the two erases. -/
theorem flashEraseCompletes : Obligations.FlashEraseCompletes := by
  intro s a n
  refine ⟨fun h => h ▸ exec_flashErasePages_zero a s, exec_flashErasePages_refused, fun hn hw hf h => ?_, fun h => ?_,
    fun h hv hu => ⟨fun rs rest result hs hp => ?_, fun ds rest acts result hn hw hf he hs => ?_⟩⟩
  · have length : n.toNat ≠ 0 := fun e => hn (BitVec.eq_of_toNat_eq e)
    obtain ⟨u, hu, ran⟩ := runs_finish (runs_flashErasePages (ZeroTarget.begin h 0x22) rfl length hw hf)
    have unlocked := ensured_append ran (eraseChunks_keep _ _)
    obtain ⟨responded, link, sends⟩ := ran_response 0 none none ran
    exact ⟨_, congrArg Host.Outcome.next hu, responded, link, unlocked, sends⟩
  · obtain ⟨u, hu, ran⟩ := runs_finish (runs_flashEraseChip (ZeroTarget.begin h 0x23) rfl)
    have unlocked := ensured_append ran (eraseChipActs_keep _)
    obtain ⟨responded, link, sends⟩ := ran_response 0 none none ran
    exact ⟨_, congrArg Host.Outcome.next hu, responded, link, unlocked, sends⟩
  · have script := LinkReady.script (linkReady_begin h 0x23) hv hs
    rw [List.append_assoc] at script
    obtain ⟨u, hu, ran, -⟩ := (script_flashEraseChip (s := begin 0x23 s) hu hp script).finish
    obtain ⟨responded, link, -⟩ := ran_response (codeOf result) none none ran
    exact ⟨_, congrArg Host.Outcome.next hu, responded, link, sent_of_ran ran h.silent⟩
  · have length : n.toNat ≠ 0 := fun e => hn (BitVec.eq_of_toNat_eq e)
    have script := LinkReady.script (linkReady_begin h 0x22) hv hs
    obtain ⟨t, ht, ran, scriptT⟩ := (script_eraseChunks he script).finish
    obtain ⟨responded, link, -⟩ := ran_response (codeOf result) none none ran
    refine ⟨_, ?_, responded, link, (ran.keeps (eraseEnds_keep he)).trans hu, scriptT.slots, sent_of_ran ran h.silent⟩
    rw [← ht, ← flashErasePages_unlocked (s := begin 0x22 s) length hw hf hu]
    rfl

/-! ### Block program (R194) -/

theorem exec_flashWriteBlock64_misaligned {a : Word} {s : State} (h : a.toNat % 64 ≠ 0) (data : List Byte) :
    exec (.flashWriteBlock64 (some a) data) s = .next (respondErr .misaligned s) := by
  simp only [exec, execFlashWriteBlock64, flashWriteBlock, if_pos h, finish, respondErr_begin]

theorem exec_flashWriteBlock64_outOfRange {a : Word} {s : State} {data : List Byte} (ha : a.toNat % 64 = 0)
    (h : data.length = 0 ∨ 64 < data.length ∨ classify s.cfg a.toNat 64 ≠ .flash) :
    exec (.flashWriteBlock64 (some a) data) s = .next (respondErr .outOfRange s) := by
  simp only [exec, execFlashWriteBlock64, flashWriteBlock, if_neg (not_not.2 ha), begin_fields]
  split
  next => simp only [finish, respondErr_begin]
  next length =>
    rw [if_pos (by tauto)]
    simp only [finish, respondErr_begin]

/-- Settles O37: the refusals in their order, and the program of the block after the unlock. -/
theorem writeBlockRule : Obligations.WriteBlockRule := by
  intro s a data
  split
  next h => exact exec_flashWriteBlock64_misaligned h data
  next aligned =>
    split
    next h => exact exec_flashWriteBlock64_outOfRange (not_not.1 aligned) h
    next range =>
      intro h
      push Not at range
      obtain ⟨nonempty, short, flash⟩ := range
      obtain ⟨u, hu, ran⟩ := runs_finish (runs_flashWriteBlock (ZeroTarget.begin h 0x24) rfl (not_not.1 aligned) nonempty short flash)
      have unlocked := ensured_append ran (programActs_keep _ _ _)
      obtain ⟨responded, link, sends⟩ := ran_response 0 none none ran
      exact ⟨_, congrArg Host.Outcome.next hu, responded, link, unlocked, sends⟩

end Sys2Proof.Proofs
end

section
/-!
PROOFS. The blob commands (R196 to R201): their refusals, a RAM range, and a flash range against zeros and against given answers, block by
block.
-/
namespace Sys2Proof.Proofs

open Sys2Proof.Machine Sys2Proof.Safety Sys2Proof.Laws
open Sys2Proof.Config (Params SlotDraw)

theorem toNat_ne_zero {n : Word} (h : n ≠ 0) : n.toNat ≠ 0 := fun e => h (BitVec.eq_of_toNat_eq e)

/-! ### `BLOB_WRITE` by its checks (R196) -/

theorem blobWrite_mismatched {a n : Nat} {data : List Byte} (hn : n ≠ 0) (h : data.length ≠ n) (s : State) :
    blobWrite a n data s = .err .uploadSizeMismatch s := by rw [blobWrite, if_neg hn, if_pos h]

theorem blobWrite_outOfRange {a n : Nat} {data : List Byte} (hn : n ≠ 0) (hd : data.length = n) {s : State}
    (h : 2 ^ 32 < a + n ∨ classify s.cfg a n = .mixed) : blobWrite a n data s = .err .outOfRange s := by
  rw [blobWrite, if_neg hn, if_neg (not_not.2 hd), wraps]
  split
  next => rfl
  next inside => rw [h.resolve_left (by simpa using inside)]

theorem blobWrite_nonFlash {a n : Nat} {data : List Byte} (hn : n ≠ 0) (hd : data.length = n) (hw : a + n ≤ 2 ^ 32) {s : State}
    (h : classify s.cfg a n = .nonFlash) : blobWrite a n data s = blobWriteRam a data s := by
  rw [blobWrite, if_neg hn, if_neg (not_not.2 hd), if_neg (by simpa [wraps] using hw), h]

theorem blobWrite_flash {a n : Nat} {data : List Byte} (hn : n ≠ 0) (hd : data.length = n) (hw : a + n ≤ 2 ^ 32) {s : State}
    (h : classify s.cfg a n = .flash) : blobWrite a n data s = blobWriteFlash a data s := by
  rw [blobWrite, if_neg hn, if_neg (not_not.2 hd), if_neg (by simpa [wraps] using hw), h]

theorem exec_blobWrite (a n : Word) (data : List Byte) (s : State) :
    exec (.blobWrite (some a) (some n) data) s = .next (finish (blobWrite a.toNat n.toNat data (begin 0x25 s))) := rfl

/-- Settles O38: the refusals in their order, and a RAM range by `runs_blobWriteRam`. -/
theorem blobWriteRamCompletes : Obligations.BlobWriteRamCompletes := by
  intro s a n data
  split
  next h => rw [h]; rfl
  next hn =>
    have length := toNat_ne_zero hn
    split
    next h => rw [exec_blobWrite, blobWrite_mismatched length h, finish, respondErr_begin]
    next hd =>
      split
      next h => rw [exec_blobWrite, blobWrite_outOfRange (s := begin 0x25 s) length (not_not.1 hd) h, finish, respondErr_begin]
      next range =>
        push Not at range hd
        intro hf h
        obtain ⟨u, hu, ran⟩ := runs_finish (runs_blobWriteRam (ZeroTarget.begin h 0x25) a.toNat data)
        obtain ⟨responded, link, sends⟩ := ran_response 0 none none ran
        rw [exec_blobWrite, blobWrite_nonFlash (s := begin 0x25 s) length hd range.1 hf]
        exact ⟨_, congrArg Host.Outcome.next hu, responded, link, ran.keeps (ramActs_keep _ _), sends⟩

/-! ### A flash block against given answers (R198, R201) -/

theorem wordsData_length (rs : Reads) : (wordsData rs).length = 4 * rs.length := by
  induction rs with
  | nil => rfl
  | cons r rs ih => simp only [wordsData, List.flatMap_cons, List.length_append, wordData, List.length_cons, List.length_nil] at *; omega

theorem blockRun_content_length (a : Nat) (data : List Byte) (b : BlockRun) : (b.content a data).length = 64 := by
  simp [BlockRun.content]

/-- A range of whole blocks: the content is the block's bytes of the data. -/
theorem blockRun_content_whole {a : Nat} {data : List Byte} {b : BlockRun} (whole : a % 64 = 0 ∧ data.length % 64 = 0)
    (hm : b.base ∈ chunks a data.length) (old : b.old = []) : b.content a data = blockSlice a b.base data := by
  have := blockContent_eq hm
  rw [blockContent, if_pos whole] at this
  rw [this, BlockRun.content, old]
  rfl

/-- Else the content is the data spliced into the bytes read back. -/
theorem blockRun_content_splice (a : Nat) (data : List Byte) {b : BlockRun} (old : b.old.length = 16) :
    b.content a data = splice a b.base data (wordsData b.old) := by
  have length : (wordsData b.old).length = 64 := by rw [wordsData_length, old]
  refine List.ext_getElem (by simp [BlockRun.content, splice, length]) fun i h1 h2 => ?_
  have hi : i < (wordsData b.old).length := by simpa [splice] using h2
  simp only [BlockRun.content, splice, List.getElem_map, List.getElem_range, List.getElem_mapIdx]
  rw [List.getD_eq_getElem _ 0 hi]
  split
  next inside =>
    rw [List.getD_eq_getElem _ _ (by omega : b.base + i - a < data.length), List.getD_eq_getElem _ _ (by omega)]
  next => rfl

/-- The write of one block, whose attempts read back what `b` says. -/
theorem script_blobFlashBlock {p : Params} {a : Nat} {data : List Byte} {b : BlockRun} {rest : List SlotDraw} {s : State}
    (hn : 1 ≤ data.length) (hf : classify p a data.length = .flash) (hm : b.base ∈ chunks a data.length)
    (hb : b.Verifies p a data) (hu : s.flashUnlocked = true) (h : Script p (b.script ++ rest) s) :
    Goes (blobFlashBlock a data b.base s) s () (b.acts p a data) (Script p rest) := by
  obtain ⟨flash, inside, aligned⟩ := chunk_flash h.valid hn hf hm
  have attempts : ∀ t : State, t.flashUnlocked = true → Script p ((b.failed ++ [b.last]).flatMap attemptScript ++ rest) t →
      Goes (writeVerify b.base (b.content a data) p.verifyRetries t) t () _ (Script p rest) := fun t ht hs =>
    script_writeVerify flash inside aligned (blockRun_content_length a data b) hb.last hb.same b.failed _ ht hb.retries hb.failed hs
  rw [BlockRun.script, List.append_assoc] at h
  rw [blobFlashBlock, BlockRun.acts]
  split
  next whole =>
    have old : b.old = [] := by
      have := hb.old.length
      rw [if_pos whole] at this
      exact List.eq_nil_of_length_eq_zero this
    have blockActs : readActs (blobReads 64 b.base 64) b.old = [] := by simp [readActs, old]
    rw [blockActs, List.nil_append, h.cfg, ← blockRun_content_whole whole hm old]
    refine attempts s hu ?_
    rwa [old] at h
  next part =>
    have old : ReadsOk p 16 b.old := by
      have := hb.old
      rwa [if_neg part] at this
    refine Goes.bind (script_blockRead aligned inside old h) fun t ran scriptT => ?_
    rw [scriptT.cfg, ← blockRun_content_splice a data old.length]
    exact attempts t ((ran.keeps (readActs_keep _ _)).trans hu) scriptT

theorem blockRun_acts_keep (p : Params) (a : Nat) (data : List Byte) (b : BlockRun) : ∀ x ∈ b.acts p a data, keepsLock x = true := by
  intro x hx
  simp only [BlockRun.acts, List.mem_append, List.mem_flatMap] at hx
  obtain hx | ⟨back, -, (hx | hx) | hx⟩ := hx
  · exact readActs_keep _ _ x hx
  · exact eraseChunkActs_keep _ _ x hx
  · exact programActs_keep _ _ _ x hx
  · exact readActs_keep _ _ x hx

/-- The blocks of a range, one after the other. -/
theorem script_blobFlashBlocks {p : Params} {a : Nat} {data : List Byte} {rest : List SlotDraw} (hn : 1 ≤ data.length)
    (hf : classify p a data.length = .flash) (bs : List BlockRun) : ∀ {s : State}, (∀ b ∈ bs, b.base ∈ chunks a data.length) →
    (∀ b ∈ bs, b.Verifies p a data) → s.flashUnlocked = true → Script p (bs.flatMap BlockRun.script ++ rest) s →
    Goes (runEach (blobFlashBlock a data) (bs.map BlockRun.base) s) s () (bs.flatMap (BlockRun.acts p a data)) (Script p rest) := by
  induction bs with
  | nil => exact fun _ _ _ h => Goes.ok () h
  | cons b bs ih =>
    intro s hm hb hu h
    rw [List.forall_mem_cons] at hm hb
    rw [List.flatMap_cons, List.append_assoc] at h
    exact Goes.bind (script_blobFlashBlock hn hf hm.1 hb.1 hu h) fun t ran scriptT =>
      ih hm.2 hb.2 ((ran.keeps (blockRun_acts_keep p a data b)).trans hu) scriptT

/-- Settles O39: zeros verify, the first other block fails after its retries, and given answers verify block by block. -/
theorem blobWriteFlashVerifies : Obligations.BlobWriteFlashVerifies := by
  intro s a n data hn hd hw hf
  have some_byte : 1 ≤ data.length := by have := toNat_ne_zero hn; omega
  have flash : classify s.cfg a.toNat data.length = .flash := hd.symm ▸ hf
  have write : ∀ u, finish (blobWriteFlash a.toNat data (begin 0x25 s)) = u →
      exec (.blobWrite (some a) (some n) data) s = .next u := fun u hu => by
    rw [exec_blobWrite, blobWrite_flash (s := begin 0x25 s) (toNat_ne_zero hn) hd hw hf, hu]
  simp only [← hd]
  refine ⟨fun h hz => ?_, fun h hz => ?_, fun bs rest h hv hu hbs hb hs => ?_⟩
  · obtain ⟨u, hu, ran⟩ := runs_finish (runs_blobWriteFlash (ZeroTarget.begin h 0x25) rfl some_byte flash hz)
    have unlocked := ensured_append ran (zeroBlocksActs_keep _ _ _ _)
    obtain ⟨responded, link, sends⟩ := ran_response 0 none none ran
    exact ⟨_, write _ hu, responded, link, unlocked, sends⟩
  · obtain ⟨before, c, after, split, zero, other⟩ := newBlock_first (a := a.toNat) hz
    obtain ⟨u, hu, ran⟩ := blobWriteFlash_mismatch (ZeroTarget.begin h 0x25) rfl some_byte flash split zero other
    have keep : ∀ p : Params, ∀ x ∈ zeroBlocksActs p a.toNat data.length before ++ (spliceActs a.toNat data.length c ++
        (List.replicate (p.verifyRetries + 1) (attemptActs p c (newBlock a.toNat c data))).flatten), keepsLock x = true := by
      intro p x hx
      simp only [List.mem_append, List.mem_flatten, List.mem_replicate] at hx
      obtain hx | hx | ⟨l, ⟨-, rfl⟩, hx⟩ := hx
      · exact zeroBlocksActs_keep _ _ _ _ x hx
      · exact spliceActs_keep _ _ _ x hx
      · exact attemptActs_keep _ _ _ x hx
    have unlocked : u.flashUnlocked = true := ensured_append (by simpa only [List.append_assoc] using ran) (keep _)
    obtain ⟨responded, link, sends⟩ := ran_response ErrKind.verifyMismatch.code none none ran
    rw [Nat.add_comm 1]
    exact ⟨before, after, c, _, split, zero, other, write _ (congrArg finish hu), responded, link, unlocked, sends⟩
  · have script := LinkReady.script (linkReady_begin h 0x25) hv hs
    obtain ⟨u, hu', ran, scriptU⟩ := script_blobFlashBlocks some_byte flash bs
      (fun b hm => hbs ▸ List.mem_map_of_mem hm) hb (s := begin 0x25 s) hu script
    obtain ⟨responded, link, -⟩ := ran_response 0 none none ran
    refine ⟨_, write (respond 0 none none u) ?_, responded, link, ?_, scriptU.slots, sent_of_ran ran h.silent⟩
    · rw [blobWriteFlash, ensureUnlocked, if_pos (show (begin 0x25 s).flashUnlocked = true from hu)]
      simp only [Res.bind]
      rw [← hbs, hu']
      rfl
    · refine (ran.keeps fun x hx => ?_).trans hu
      obtain ⟨b, -, hx⟩ := List.mem_flatMap.1 hx
      exact blockRun_acts_keep _ _ _ _ x hx

/-! ### `BLOB_READ` (R199) -/

theorem exec_blobRead (a n : Word) (s : State) :
    exec (.blobRead (some a) (some n)) s = .next (finishData (blobRead a.toNat n.toNat (begin 0x26 s))) := rfl

/-- Settles O40: the refusal, and the bytes of zeros or of given reads. -/
theorem blobReadRule : Obligations.BlobReadRule := by
  intro s a n
  split
  next h =>
    have refused : wraps a.toNat n.toNat = true := decide_eq_true h
    rw [exec_blobRead, blobRead, if_pos refused, finishData, respond_begin]
  next inside =>
    refine ⟨fun h => ?_, fun rs rest h hv ho hs => ?_⟩
    · obtain ⟨u, hu, ran⟩ := runs_blobRead (ZeroTarget.begin h 0x26) (Nat.not_lt.1 inside)
      obtain ⟨responded, link, sends⟩ := ran_response 0 none (some (List.replicate n.toNat 0)) ran
      refine ⟨_, ?_, responded, link, rfl, ran.keeps (blobReadActs_keep _ _), sends⟩
      rw [exec_blobRead, hu]
      rfl
    · have script := LinkReady.script (linkReady_begin h 0x26) hv hs
      obtain ⟨u, hu, ran, scriptU⟩ := script_blobRead (Nat.not_lt.1 inside) ho script
      obtain ⟨responded, link, -⟩ := ran_response 0 none (some (readData (blobReads n.toNat a.toNat n.toNat) rs)) ran
      refine ⟨_, ?_, responded, link, rfl, ran.keeps (readActs_keep _ _), scriptU.slots, sent_of_ran ran h.silent⟩
      rw [exec_blobRead, hu]
      rfl

end Sys2Proof.Proofs
end

section
/-!
PROOFS. The sequencer's operations as equations (R161 to R168), with a pin configured and a silent terminal, for every answer of the target:
the parts of an access on from `Sequencer.lean`, each access, and the completion poll over busy reads.
-/
namespace Sys2Proof.Proofs

open Sys2Proof.Machine Sys2Proof.Safety Sys2Proof.Laws
open Sys2Proof.Config (Params SlotDraw)

/-! ### Frames and the registers that they do not read -/

theorem afterWrites_begin (op : Byte) (ws : List (Cmd × Word)) : ∀ s : State,
    afterWrites ws (begin op s) = begin op (afterWrites ws s) := by
  induction ws with
  | nil => exact fun _ => rfl
  | cons w ws ih => exact fun s => ih (afterWrite .control w.1 w.2 s)

theorem afterReads_begin (op : Byte) (cmd : Cmd) (rs : List (List SlotDraw × Word)) : ∀ s : State,
    afterReads cmd rs (begin op s) = begin op (afterReads cmd rs s) := by
  induction rs with
  | nil => exact fun _ => rfl
  | cons r rs ih => exact fun s => ih (afterRead .control cmd r.1 (some r.2) s)

/-- The frames do not read the cache: a program's tag set before them is set after them. -/
theorem afterWrites_readTag (ai : Bool) (ws : List (Cmd × Word)) : ∀ s : State,
    afterWrites ws { s with sessionTag := .readSequence, autoIncrementActive := ai } =
      { afterWrites ws s with sessionTag := .readSequence, autoIncrementActive := ai } := by
  induction ws with
  | nil => exact fun _ => rfl
  | cons w ws ih => exact fun s => ih (afterWrite .control w.1 w.2 s)

theorem afterWrites_writeTag (fl : Bool) (ws : List (Cmd × Word)) : ∀ s : State,
    afterWrites ws { s with sessionTag := .writeSequence, lastWriteWasFlash := fl } =
      { afterWrites ws s with sessionTag := .writeSequence, lastWriteWasFlash := fl } := by
  induction ws with
  | nil => exact fun _ => rfl
  | cons w ws ih => exact fun s => ih (afterWrite .control w.1 w.2 s)

/-! ### The parts of an access -/

theorem fw_afterWrites {s : State} (h : LinkReady s) (cmd : Cmd) (v : Word) : fw cmd v s = .ok () (afterWrites [(cmd, v)] s) :=
  fw_ready h cmd v

/-- R162, R163: the program of a word read is resident, or is made so. -/
theorem prepareRead_ready {s : State} (h : LinkReady s) (a : Word) (ai : Bool) :
    prepareRead a ai s = .ok (decide ((s.sessionTag = .readSequence ∧ s.autoIncrementActive = ai) ∧ s.cachedAddress = a))
      { afterWrites (if s.sessionTag = .readSequence ∧ s.autoIncrementActive = ai then []
          else reprogramFrames s.cfg (if ai then s.cfg.progReadInc else s.cfg.progReadPlain) (some s.cfg.autoRead)) s with
        sessionTag := .readSequence, autoIncrementActive := ai } := by
  by_cases resident : s.sessionTag = .readSequence ∧ s.autoIncrementActive = ai
  · have hit : readProgHit ai s = true := by simpa [readProgHit] using resident
    have known : addrHit a s = decide ((s.sessionTag = .readSequence ∧ s.autoIncrementActive = ai) ∧ s.cachedAddress = a) := by
      simp [addrHit, resident, beq_eq_decide]
    have same : s = { s with sessionTag := .readSequence, autoIncrementActive := ai } := by rw [← resident.1, ← resident.2]
    rw [prepareRead, if_pos hit, if_pos resident, known]
    exact congrArg (Res.ok _) same
  · have miss : ¬ readProgHit ai s = true := by simpa [readProgHit] using resident
    rw [prepareRead, if_neg miss, reprogram_ready _ _ h]
    simp only [resident, if_false, false_and, decide_false]
    rfl

/-- R162, R165: the program of a word write is resident, or is made so. -/
theorem prepareWrite_ready {s : State} (h : LinkReady s) (a : Word) (fl : Bool) :
    prepareWrite a fl s = .ok (decide ((s.sessionTag = .writeSequence ∧ s.lastWriteWasFlash = fl) ∧ s.cachedAddress = a))
      { afterWrites (if s.sessionTag = .writeSequence ∧ s.lastWriteWasFlash = fl then []
          else reprogramFrames s.cfg (if fl then s.cfg.progWriteFlash else s.cfg.progWriteRam) (some s.cfg.autoWrite)) s with
        sessionTag := .writeSequence, lastWriteWasFlash := fl } := by
  by_cases resident : s.sessionTag = .writeSequence ∧ s.lastWriteWasFlash = fl
  · have hit : writeProgHit fl s = true := by simpa [writeProgHit] using resident
    have known : addrHit a s = decide ((s.sessionTag = .writeSequence ∧ s.lastWriteWasFlash = fl) ∧ s.cachedAddress = a) := by
      simp [addrHit, resident, beq_eq_decide]
    have same : s = { s with sessionTag := .writeSequence, lastWriteWasFlash := fl } := by rw [← resident.1, ← resident.2]
    rw [prepareWrite, if_pos hit, if_pos resident, known]
    exact congrArg (Res.ok _) same
  · have miss : ¬ writeProgHit fl s = true := by simpa [writeProgHit] using resident
    rw [prepareWrite, if_neg miss, reprogram_ready _ _ h]
    simp only [resident, if_false, false_and, decide_false]
    rfl

theorem sendAddress_ready {s : State} (h : LinkReady s) (known : Bool) (a : Word) :
    sendAddress known a s = .ok () (afterWrites (if known then [] else [(s.cfg.dmData1, a)]) s) := by
  cases known
  · exact fw_ready h _ a
  · rfl

theorem ok_bind {α β : Type} (a : α) (s : State) (f : α → State → Res β) : (Res.ok a s).bind f = f a s := rfl

/-- The target's completion poll reads `v`, which is neither busy nor in error. -/
structure PollOk (p : Params) (ds : List SlotDraw) (v : Word) : Prop where
  valid : p.Valid
  answers : Answers p ds v
  notBusy : v &&& p.csBusy = 0
  noError : v &&& p.csErr = 0

/-- The execute frame and its poll, with the answers that are left (R163, R168). -/
theorem execute_poll {s : State} (h : LinkReady s) {ds rest : List SlotDraw} {v : Word} (hs : s.slotIn = ds ++ rest)
    (hp : PollOk s.cfg ds v) :
    execute s = .ok () (afterRead .control s.cfg.dmAbstractCs ds (some v) (afterWrites [(s.cfg.dmCommand, s.cfg.cmdExec)] s)) ∧
    LinkReady (afterRead .control s.cfg.dmAbstractCs ds (some v) (afterWrites [(s.cfg.dmCommand, s.cfg.cmdExec)] s)) ∧
    (afterRead .control s.cfg.dmAbstractCs ds (some v) (afterWrites [(s.cfg.dmCommand, s.cfg.cmdExec)] s)).slotIn = rest := by
  refine ⟨execute_ready h hp.valid.absPollLimit hs hp.answers hp.notBusy hp.noError,
    LinkReady.afterRead (LinkReady.afterWrites _ h) _ _ _ _, ?_⟩
  simp [hs]

/-! ### The accesses -/

/-- A word read once its program is resident: the address unless it is known, the execute step and the data (R163). -/
theorem readFrom_ready {s : State} (h : LinkReady s) (known : Bool) (a next : Word) {ds1 ds2 rest : List SlotDraw} {v1 v2 : Word}
    (hs : s.slotIn = ds1 ++ ds2 ++ rest) (h1 : PollOk s.cfg ds1 v1) (h2 : Answers s.cfg ds2 v2) :
    ((sendAddress known a s).bind fun _ s => (execute s).bind fun _ s => (fr s.cfg.dmData0 s).bind fun v s =>
        .ok v { s with cachedAddress := next }) =
      .ok v2 { afterRead .control s.cfg.dmData0 ds2 (some v2) (afterRead .control s.cfg.dmAbstractCs ds1 (some v1)
          (afterWrites ((if known then [] else [(s.cfg.dmData1, a)]) ++ [(s.cfg.dmCommand, s.cfg.cmdExec)]) s)) with
        cachedAddress := next } := by
  rw [sendAddress_ready h, ok_bind, afterWrites_append]
  have ready := LinkReady.afterWrites (if known then [] else [(s.cfg.dmData1, a)]) h
  have slots := (afterWrites_slotIn (if known then [] else [(s.cfg.dmData1, a)]) s).trans (hs.trans (List.append_assoc ..))
  have cfg := afterWrites_cfg (if known then [] else [(s.cfg.dmData1, a)]) s
  generalize afterWrites (if known then [] else [(s.cfg.dmData1, a)]) s = t at *
  rw [← cfg] at h1 h2 ⊢
  obtain ⟨run, ready, slots⟩ := execute_poll ready slots h1
  rw [run, ok_bind, fr_ready ready _ slots h2]
  rfl

/-- A word write once its program is resident: the address unless it is known, the data and the execute step (R165). -/
theorem writeTo_ready {s : State} (h : LinkReady s) (known : Bool) (a v : Word) {ds rest : List SlotDraw} {v1 : Word}
    (hs : s.slotIn = ds ++ rest) (h1 : PollOk s.cfg ds v1) :
    ((sendAddress known a s).bind fun _ s => (fw s.cfg.dmData0 v s).bind fun _ s => (execute s).bind fun _ s =>
        .ok () { s with cachedAddress := a + 4 }) =
      .ok () { afterRead .control s.cfg.dmAbstractCs ds (some v1) (afterWrites ((if known then [] else [(s.cfg.dmData1, a)])
          ++ [(s.cfg.dmData0, v), (s.cfg.dmCommand, s.cfg.cmdExec)]) s) with cachedAddress := a + 4 } := by
  rw [sendAddress_ready h, ok_bind, afterWrites_append]
  have ready := LinkReady.afterWrites (if known then [] else [(s.cfg.dmData1, a)]) h
  have slots := (afterWrites_slotIn (if known then [] else [(s.cfg.dmData1, a)]) s).trans hs
  have cfg := afterWrites_cfg (if known then [] else [(s.cfg.dmData1, a)]) s
  generalize afterWrites (if known then [] else [(s.cfg.dmData1, a)]) s = t at *
  rw [← cfg] at h1 ⊢
  rw [fw_afterWrites ready, ok_bind]
  obtain ⟨run, -, -⟩ := execute_poll (LinkReady.afterWrites [(t.cfg.dmData0, v)] ready) ((afterWrites_slotIn _ t).trans slots)
    (by simpa using h1)
  rw [run]
  rfl

/-- R163, R168: a word read. -/
theorem memReadWord_ready {s : State} (h : LinkReady s) {a : Word} (aligned : aligned4 a = true) (ai : Bool)
    {ds1 ds2 rest : List SlotDraw} {v1 v2 : Word} (hs : s.slotIn = ds1 ++ ds2 ++ rest) (h1 : PollOk s.cfg ds1 v1)
    (h2 : Answers s.cfg ds2 v2) :
    memReadWord a ai s = .ok v2 { afterRead .control s.cfg.dmData0 ds2 (some v2) (afterRead .control s.cfg.dmAbstractCs ds1 (some v1)
        (afterWrites ((if s.sessionTag = .readSequence ∧ s.autoIncrementActive = ai then []
            else reprogramFrames s.cfg (if ai then s.cfg.progReadInc else s.cfg.progReadPlain) (some s.cfg.autoRead))
          ++ (if (s.sessionTag = .readSequence ∧ s.autoIncrementActive = ai) ∧ s.cachedAddress = a then [] else [(s.cfg.dmData1, a)])
          ++ [(s.cfg.dmCommand, s.cfg.cmdExec)]) s)) with
      sessionTag := .readSequence, autoIncrementActive := ai, cachedAddress := if ai then a + 4 else a } := by
  rw [memReadWord, if_neg (by simp [aligned]), prepareRead_ready h]
  generalize (if s.sessionTag = .readSequence ∧ s.autoIncrementActive = ai then ([] : List (Cmd × Word)) else _) = program
  have prepared : LinkReady { afterWrites program s with sessionTag := .readSequence, autoIncrementActive := ai } := by
    have := LinkReady.afterWrites program h
    exact ⟨this.pin, this.silent, this.port⟩
  have cfg := afterWrites_cfg program s
  have run := readFrom_ready prepared (decide ((s.sessionTag = .readSequence ∧ s.autoIncrementActive = ai) ∧ s.cachedAddress = a)) a
    (if ai then a + 4 else a) ((afterWrites_slotIn program s).trans hs) (cfg.symm ▸ h1) (cfg.symm ▸ h2)
  rw [ok_bind, run, List.append_assoc, afterWrites_append program, afterWrites_readTag]
  simp only [Res.onErr, cfg, decide_eq_true_eq]
  rfl

/-- R165, R168: a word write. -/
theorem memWriteWord_ready {s : State} (h : LinkReady s) {a : Word} (aligned : aligned4 a = true) (v : Word)
    {ds rest : List SlotDraw} {v1 : Word} (hs : s.slotIn = ds ++ rest) (h1 : PollOk s.cfg ds v1) {fl : Bool}
    (hf : isFlash s.cfg a = fl) :
    memWriteWord a v s = .ok () { afterRead .control s.cfg.dmAbstractCs ds (some v1)
        (afterWrites ((if s.sessionTag = .writeSequence ∧ s.lastWriteWasFlash = fl then []
            else reprogramFrames s.cfg (if fl then s.cfg.progWriteFlash else s.cfg.progWriteRam) (some s.cfg.autoWrite))
          ++ (if (s.sessionTag = .writeSequence ∧ s.lastWriteWasFlash = fl) ∧ s.cachedAddress = a then [] else [(s.cfg.dmData1, a)])
          ++ [(s.cfg.dmData0, v), (s.cfg.dmCommand, s.cfg.cmdExec)]) s) with
      sessionTag := .writeSequence, lastWriteWasFlash := fl, cachedAddress := a + 4 } := by
  rw [memWriteWord, if_neg (by simp [aligned]), hf, prepareWrite_ready h]
  generalize (if s.sessionTag = .writeSequence ∧ s.lastWriteWasFlash = fl then ([] : List (Cmd × Word)) else _) = program
  have prepared : LinkReady { afterWrites program s with sessionTag := .writeSequence, lastWriteWasFlash := fl } := by
    have := LinkReady.afterWrites program h
    exact ⟨this.pin, this.silent, this.port⟩
  have cfg := afterWrites_cfg program s
  have run := writeTo_ready prepared (decide ((s.sessionTag = .writeSequence ∧ s.lastWriteWasFlash = fl) ∧ s.cachedAddress = a)) a v
    ((afterWrites_slotIn program s).trans hs) (cfg.symm ▸ h1)
  rw [ok_bind, run, List.append_assoc, afterWrites_append program, afterWrites_writeTag]
  simp only [Res.onErr, cfg, decide_eq_true_eq]
  rfl

/-- R166, R167: the one-shot program. -/
theorem reprogram_once {s : State} (h : LinkReady s) (prog : List Word) :
    reprogram prog none s = .ok () { afterWrites (reprogramFrames s.cfg prog none) s with sessionTag := .invalidated } ∧
    LinkReady { afterWrites (reprogramFrames s.cfg prog none) s with sessionTag := .invalidated } :=
  ⟨reprogram_ready prog none h, linkReady_tag (LinkReady.afterWrites _ h) _⟩

/-- R166: a byte read. -/
theorem memReadByte_ready {s : State} (h : LinkReady s) (a : Word) {ds1 ds2 rest : List SlotDraw} {v1 v2 : Word}
    (hs : s.slotIn = ds1 ++ ds2 ++ rest) (h1 : PollOk s.cfg ds1 v1) (h2 : Answers s.cfg ds2 v2) :
    memReadByte a s = .ok (v2.extractLsb' 0 8) { afterRead .control s.cfg.dmData0 ds2 (some v2)
        (afterRead .control s.cfg.dmAbstractCs ds1 (some v1) (afterWrites (reprogramFrames s.cfg s.cfg.progRByte none
          ++ [(s.cfg.dmData1, a), (s.cfg.dmCommand, s.cfg.cmdExec)]) s)) with sessionTag := .invalidated } := by
  obtain ⟨run, ready⟩ := reprogram_once h s.cfg.progRByte
  have cfg := afterWrites_cfg (reprogramFrames s.cfg s.cfg.progRByte none) s
  have slots := (afterWrites_slotIn (reprogramFrames s.cfg s.cfg.progRByte none) s).trans (hs.trans (List.append_assoc ..))
  rw [memReadByte, run, ok_bind, afterWrites_append]
  generalize afterWrites (reprogramFrames s.cfg s.cfg.progRByte none) s = t at *
  rw [← cfg] at h1 h2 ⊢
  rw [fw_afterWrites ready, ok_bind]
  obtain ⟨poll, ready, slots⟩ := execute_poll (LinkReady.afterWrites [(t.cfg.dmData1, a)] ready) slots h1
  rw [poll, ok_bind, fr_ready ready _ slots h2]
  rfl

/-- R167: a byte write. -/
theorem memWriteByte_ready {s : State} (h : LinkReady s) (a : Word) (b : Byte) {ds1 rest : List SlotDraw} {v1 : Word}
    (hs : s.slotIn = ds1 ++ rest) (h1 : PollOk s.cfg ds1 v1) :
    memWriteByte a b s = .ok () { afterRead .control s.cfg.dmAbstractCs ds1 (some v1) (afterWrites (reprogramFrames s.cfg
        s.cfg.progWByte none ++ [(s.cfg.dmData1, a), (s.cfg.dmData0, b.setWidth 32), (s.cfg.dmCommand, s.cfg.cmdExec)]) s) with
      sessionTag := .invalidated } := by
  obtain ⟨run, ready⟩ := reprogram_once h s.cfg.progWByte
  have cfg := afterWrites_cfg (reprogramFrames s.cfg s.cfg.progWByte none) s
  have slots := (afterWrites_slotIn (reprogramFrames s.cfg s.cfg.progWByte none) s).trans hs
  rw [memWriteByte, run, ok_bind, afterWrites_append]
  generalize afterWrites (reprogramFrames s.cfg s.cfg.progWByte none) s = t at *
  rw [← cfg] at h1 ⊢
  rw [fw_afterWrites ready, ok_bind]
  have addressed := LinkReady.afterWrites [(t.cfg.dmData1, a)] ready
  rw [fw_afterWrites addressed, ok_bind]
  obtain ⟨poll, -, -⟩ := execute_poll (LinkReady.afterWrites [(t.cfg.dmData0, b.setWidth 32)] addressed) slots h1
  exact congrArg (fun r : Res Unit => r.after invalidate) poll

/-! ### The commands -/

/-- Settles O27. -/
theorem wordReadRule : Obligations.WordReadRule := by
  intro s a v1 v2 ai ds1 ds2 rest h hv ha hs h1 h2 hb he resident frames
  have run : memReadWord a ai (begin 0x10 s) = .ok v2 { afterRead .control s.cfg.dmData0 ds2 (some v2)
      (afterRead .control s.cfg.dmAbstractCs ds1 (some v1) (afterWrites frames (begin 0x10 s))) with
        sessionTag := .readSequence, autoIncrementActive := ai, cachedAddress := if ai then a + 4 else a } :=
    memReadWord_ready (linkReady_begin h 0x10) ((aligned4_iff a).2 ha) ai hs ⟨hv, h1, hb, he⟩ h2
  clear_value frames
  simp only [exec, execSeqReadWord, run, afterWrites_begin]
  rfl

/-- Settles O28. -/
theorem wordWriteRule : Obligations.WordWriteRule := by
  intro s a v v1 ds1 rest h hv ha hs h1 hb he fl resident frames
  have flash : isFlash s.cfg a = fl := by
    rw [show fl = _ from Bool.decide_and ..]
    rfl
  clear_value fl
  have run : memWriteWord a v (begin 0x11 s) = .ok () { afterRead .control s.cfg.dmAbstractCs ds1 (some v1)
      (afterWrites frames (begin 0x11 s)) with
        sessionTag := .writeSequence, lastWriteWasFlash := fl, cachedAddress := a + 4 } :=
    memWriteWord_ready (linkReady_begin h 0x11) ((aligned4_iff a).2 ha) v hs ⟨hv, h1, hb, he⟩ flash
  clear_value frames
  simp only [exec, execSeqWriteWord, run, afterWrites_begin]
  rfl

/-- Settles O29. -/
theorem byteAccessRule : Obligations.ByteAccessRule := by
  intro s a v1 v2 b ds1 ds2 rest h hv hs h1 h2 hb he
  have read := memReadByte_ready (linkReady_begin h 0x12) a hs ⟨hv, h1, hb, he⟩ h2
  have write := memWriteByte_ready (linkReady_begin h 0x13) a b (hs.trans (List.append_assoc ..)) ⟨hv, h1, hb, he⟩
  simp only [begin_fields, afterWrites_begin] at read write
  simp only [exec, execSeqReadByte, execSeqWriteByte, read, write]
  exact ⟨rfl, rfl⟩

/-! ### The completion poll (R168) -/

theorem afterReads_ready (cmd : Cmd) (rs : List (List SlotDraw × Word)) : ∀ {s : State}, LinkReady s → LinkReady (afterReads cmd rs s) := by
  induction rs with
  | nil => exact fun h => h
  | cons r rs ih => exact fun h => ih (LinkReady.afterRead h .control cmd r.1 (some r.2))

theorem afterReads_cfg (cmd : Cmd) (rs : List (List SlotDraw × Word)) : ∀ s : State, (afterReads cmd rs s).cfg = s.cfg := by
  induction rs with
  | nil => exact fun _ => rfl
  | cons r rs ih => exact fun s => ih (afterRead .control cmd r.1 (some r.2) s)

/-- Busy reads use up their answers and as many of the poll's reads. -/
theorem pollAbstract_busy (n : Nat) (rest : List SlotDraw) (busy : List (List SlotDraw × Word)) : ∀ {s : State}, LinkReady s →
    (∀ r ∈ busy, Answers s.cfg r.1 r.2 ∧ r.2 &&& s.cfg.csBusy ≠ 0) → s.slotIn = busy.flatMap (fun r => r.1) ++ rest →
    pollAbstract (busy.length + n) s = pollAbstract n (afterReads s.cfg.dmAbstractCs busy s) ∧
      (afterReads s.cfg.dmAbstractCs busy s).slotIn = rest := by
  induction busy with
  | nil =>
    intro s _ _ hs
    rw [List.length_nil, Nat.zero_add]
    exact ⟨rfl, hs⟩
  | cons r busy ih =>
    intro s h hb hs
    rw [List.forall_mem_cons] at hb
    obtain ⟨⟨answers, isBusy⟩, hb⟩ := hb
    rw [List.flatMap_cons, List.append_assoc] at hs
    obtain ⟨poll, slots⟩ := ih (LinkReady.afterRead h .control s.cfg.dmAbstractCs r.1 (some r.2)) hb (by simp [hs])
    refine ⟨?_, slots⟩
    rw [List.length_cons, Nat.add_right_comm, pollAbstract, fr_ready h _ hs answers, ok_bind]
    exact (if_neg isBusy).trans poll

/-- The read that is not busy ends the poll; an error is cleared. -/
theorem pollAbstract_last (n : Nat) {s : State} (h : LinkReady s) {ds rest : List SlotDraw} {v : Word} (hs : s.slotIn = ds ++ rest)
    (ha : Answers s.cfg ds v) (hv : v &&& s.cfg.csBusy = 0) : pollAbstract (n + 1) s =
      if v &&& s.cfg.csErr = 0 then .ok () (afterRead .control s.cfg.dmAbstractCs ds (some v) s)
      else .err .abstractCommandError
        (afterWrite .control s.cfg.dmAbstractCs s.cfg.csErrClear (afterRead .control s.cfg.dmAbstractCs ds (some v) s)) := by
  rw [pollAbstract, fr_ready h _ hs ha, ok_bind, fw_ready (LinkReady.afterRead h _ _ _ _), ok_bind]
  refine (if_pos hv).trans ?_
  by_cases clear : v &&& s.cfg.csErr = 0
  · rw [if_pos clear]
    exact if_neg (not_not.2 clear)
  · rw [if_neg clear]
    exact if_pos clear

/-- Settles O30: the busy reads by `pollAbstract_busy`, then the limit or the read that ends the poll. -/
theorem abstractPollRule : Obligations.AbstractPollRule := by
  intro s busy rest h hb hs
  have poll := fun n => pollAbstract_busy n rest busy (linkReady_begin h 0x14) hb hs
  simp only [begin_fields, afterReads_begin] at poll
  refine ⟨fun limit => ?_, fun ds rest' v limit hrest ha hv => ?_⟩
  · have run := (poll 0).1
    rw [Nat.add_zero, limit] at run
    simp only [exec, execSeqWaitAbstract, waitAbstract, begin_fields, run]
    rfl
  · obtain ⟨n, limit⟩ := Nat.exists_eq_add_of_lt limit
    obtain ⟨run, slots⟩ := poll (n + 1)
    rw [← Nat.add_assoc, ← limit] at run
    have ready := afterReads_ready s.cfg.dmAbstractCs busy h
    have cfg := afterReads_cfg s.cfg.dmAbstractCs busy s
    simp only [exec, execSeqWaitAbstract, waitAbstract, begin_fields, run]
    generalize afterReads s.cfg.dmAbstractCs busy s = u at *
    rw [← cfg] at ha hv ⊢
    rw [pollAbstract_last n (linkReady_begin ready 0x14) (slots.trans hrest) ha hv]
    by_cases clear : v &&& u.cfg.csErr = 0
    · simp only [begin_fields, if_pos clear]
      rfl
    · simp only [begin_fields, if_neg clear]
      rfl

end Sys2Proof.Proofs
end

section
/-!
PROOFS. What the sequencer's accesses leave in the cache whatever the target and the terminal do (R28, R52, R169), and runs of accesses at
increasing addresses (R172).
-/
namespace Sys2Proof.Proofs

open Sys2Proof.Machine Sys2Proof.Safety Sys2Proof.Laws
open Sys2Proof.Config (Params SlotDraw)

/-! ### Results taken apart -/

variable {α β : Type}

theorem bind_eq_ok {r : Res α} {f : α → State → Res β} {b : β} {u : State} (h : r.bind f = .ok b u) :
    ∃ a t, r = .ok a t ∧ f a t = .ok b u := by
  cases r with
  | ok a t => exact ⟨a, t, rfl, h⟩
  | err e t => cases h

theorem onErr_eq_ok {r : Res α} {f : State → State} {a : α} {t : State} (h : r.onErr f = .ok a t) : r = .ok a t := by
  cases r with
  | ok b u => exact h
  | err e u => cases h

theorem onErr_eq_err {r : Res α} {f : State → State} {e : ErrKind} {t : State} (h : r.onErr f = .err e t) :
    ∃ u, r = .err e u ∧ t = f u := by
  cases r with
  | ok a u => cases h
  | err e' u => cases h; exact ⟨u, rfl, rfl⟩

theorem after_eq_err {r : Res α} {f : State → State} {e : ErrKind} {t : State} (h : r.after f = .err e t) :
    ∃ u, r = .err e u ∧ t = f u := by
  cases r with
  | ok a u => cases h
  | err e' u => cases h; exact ⟨u, rfl, rfl⟩

/-! ### The cached address after an error (R169) -/

/-- The frame port's operations leave the cached address alone. -/
theorem addressSame : FrameRel fun s t : State => t.cachedAddress = s.cachedAddress where
  refl _ := rfl
  trans h k := k.trans h
  frameWrite who cmd v s := (cacheSame.frameWrite who cmd v s).1
  frameRead who cmd s := (cacheSame.frameRead who cmd s).1
  symbol who b s := (cacheSame.symbol who b s).1
  slot who s := (cacheSame.slot who s).1
  delay who n s := (cacheSame.delay who n s).1
  wait t s := (cacheSame.wait t s).1
  tag _ _ := rfl
  turn _ _ _ _ := rfl
  connect _ _ := rfl
  disconnect _ := rfl

/-- An operation that ends with an error leaves the cached address as it was. -/
def ErrKeepsAddress (s : State) (r : Res α) : Prop := ∀ e t, r = .err e t → t.cachedAddress = s.cachedAddress

theorem ErrKeepsAddress.of_state {s : State} {r : Res α} (h : r.state.cachedAddress = s.cachedAddress) : ErrKeepsAddress s r := by
  rintro e t rfl
  exact h

theorem ErrKeepsAddress.ok (s : State) (a : α) (t : State) : ErrKeepsAddress s (.ok a t) := fun _ _ h => by cases h

theorem ErrKeepsAddress.bind {s : State} {r : Res α} {f : α → State → Res β} (h : r.state.cachedAddress = s.cachedAddress)
    (k : ∀ a t, ErrKeepsAddress t (f a t)) : ErrKeepsAddress s (r.bind f) := by
  intro e u hu
  cases r with
  | ok a t => exact (k a t e u hu).trans h
  | err x t => cases hu; exact h

theorem prepareRead_address (a : Word) (ai : Bool) (s : State) : (prepareRead a ai s).state.cachedAddress = s.cachedAddress := by
  unfold prepareRead
  split
  · rfl
  · exact addressSame.bind (addressSame.reprogram _ _ s) fun _ _ => rfl

theorem prepareWrite_address (a : Word) (fl : Bool) (s : State) : (prepareWrite a fl s).state.cachedAddress = s.cachedAddress := by
  unfold prepareWrite
  split
  · rfl
  · exact addressSame.bind (addressSame.reprogram _ _ s) fun _ _ => rfl

theorem prepareRead_errors (a : Word) (ai : Bool) (s : State) : ErrorsIn SequencerError (prepareRead a ai s) := by
  unfold prepareRead
  split
  · exact .ok _ s
  · exact (reprogram_errors _ _ s).bind fun _ t => .ok _ _

theorem prepareWrite_errors (a : Word) (fl : Bool) (s : State) : ErrorsIn SequencerError (prepareWrite a fl s) := by
  unfold prepareWrite
  split
  · exact .ok _ s
  · exact (reprogram_errors _ _ s).bind fun _ t => .ok _ _

theorem sendAddress_errors (known : Bool) (a : Word) (s : State) : ErrorsIn SequencerError (sendAddress known a s) := by
  unfold sendAddress
  split
  · exact .ok _ s
  · exact fw_errors _ a s

/-- An operation whose errors are the sequencer's and leave the tag `Invalidated` and the cached address as it was (R169). -/
structure Invalidates (s : State) (r : Res α) : Prop where
  errors : ErrorsIn SequencerError r
  tag : ∀ e t, r = .err e t → t.sessionTag = .invalidated
  address : ErrKeepsAddress s r

theorem Invalidates.onErr {s : State} {r : Res α} (h : ErrorsIn SequencerError r) (k : ErrKeepsAddress s r) :
    Invalidates s (r.onErr invalidate) where
  errors := h.onErr invalidate
  tag e t ht := by obtain ⟨u, -, rfl⟩ := onErr_eq_err ht; rfl
  address e t ht := by obtain ⟨u, hu, rfl⟩ := onErr_eq_err ht; exact k e u hu

theorem Invalidates.after {s : State} {r : Res α} (h : ErrorsIn SequencerError r) (k : ErrKeepsAddress s r) :
    Invalidates s (r.after invalidate) where
  errors := h.after invalidate
  tag e t ht := by obtain ⟨u, -, rfl⟩ := after_eq_err ht; rfl
  address e t ht := by obtain ⟨u, hu, rfl⟩ := after_eq_err ht; exact k e u hu

theorem waitAbstract_invalidates (s : State) : Invalidates s (waitAbstract s) :=
  .onErr (pollAbstract_errors _ s) (.of_state (addressSame.pollAbstract _ s))

theorem memReadByte_invalidates (a : Word) (s : State) : Invalidates s (memReadByte a s) where
  errors := memReadByte_errors a s
  tag e t ht := by obtain ⟨u, -, rfl⟩ := after_eq_err ht; rfl
  address := .of_state (addressSame.memReadByte a s)

theorem memWriteByte_invalidates (a : Word) (b : Byte) (s : State) : Invalidates s (memWriteByte a b s) where
  errors := memWriteByte_errors a b s
  tag e t ht := by obtain ⟨u, -, rfl⟩ := after_eq_err ht; rfl
  address := .of_state (addressSame.memWriteByte a b s)

theorem memReadWord_invalidates {a : Word} (aligned : aligned4 a = true) (ai : Bool) (s : State) :
    Invalidates s (memReadWord a ai s) := by
  rw [memReadWord, if_neg (by simp [aligned])]
  refine .onErr ?_ ?_
  · exact (prepareRead_errors a ai s).bind fun known s => (sendAddress_errors known a s).bind fun _ s =>
      (execute_errors s).bind fun _ s => (fr_errors _ s).bind fun _ _ => .ok _ _
  · exact .bind (prepareRead_address a ai s) fun known s => .bind (addressSame.sendAddress known a s) fun _ s =>
      .bind (addressSame.execute s) fun _ s => .bind (addressSame.fr _ s) fun _ _ => .ok _ _ _

theorem memWriteWord_invalidates {a : Word} (aligned : aligned4 a = true) (v : Word) (s : State) :
    Invalidates s (memWriteWord a v s) := by
  rw [memWriteWord, if_neg (by simp [aligned])]
  refine .onErr ?_ ?_
  · exact (prepareWrite_errors a _ s).bind fun known s => (sendAddress_errors known a s).bind fun _ s =>
      (fw_errors _ v s).bind fun _ s => (execute_errors s).bind fun _ _ => .ok _ _
  · exact .bind (prepareWrite_address a _ s) fun known s => .bind (addressSame.sendAddress known a s) fun _ s =>
      .bind (addressSame.fw _ v s) fun _ s => .bind (addressSame.execute s) fun _ _ => .ok _ _ _

/-- What an error says of the state, as O33 asks (R169). -/
theorem Invalidates.err {s t : State} {r : Res α} {e : ErrKind} (h : Invalidates s r) (ht : r = .err e t) :
    (e ≠ .misaligned → t.sessionTag = .invalidated ∧ t.cachedAddress = s.cachedAddress) ∧ (e = .misaligned → t = s) :=
  ⟨fun _ => ⟨h.tag e t ht, h.address e t ht⟩, fun he => absurd (he ▸ h.errors e t ht) not_sequencerError_misaligned⟩

theorem misaligned_err {s t : State} {e : ErrKind} (h : (Res.err .misaligned s : Res α) = .err e t) :
    (e ≠ .misaligned → t.sessionTag = .invalidated ∧ t.cachedAddress = s.cachedAddress) ∧ (e = .misaligned → t = s) := by
  cases h
  exact ⟨fun h => absurd rfl h, fun _ => rfl⟩

/-! ### The tag after a word access that succeeds (R28, R52) -/

/-- The end of an access whose program is resident at `u`, `pre` having been sent before: the frames after it are not the terminal's
writes, or the tag is `Terminal`. -/
theorem access_end {s u y t : State} {cs pre : List FrameEvent} {prog : SessionTag} (sentBefore : u.frameLog = s.frameLog ++ pre)
    (resident : u.sessionTag = prog) (marks : Marks u y cs) (frames : t.frameLog = y.frameLog) (tag : t.sessionTag = y.sessionTag) :
    ∃ post, sent s t = pre ++ post ∧ (t.sessionTag = .terminal ∨ t.sessionTag = prog ∧ ¬ terminalWrote post) := by
  obtain ⟨post, log, -, ends⟩ := marks
  refine ⟨post, ?_, ?_⟩
  · rw [sent, frames, log, sentBefore, List.append_assoc, List.drop_left]
  · rw [tag, ← resident]
    exact ends

theorem reprogram_upTo {s u : State} {prog : List Word} {on : Word} {resident : Prop} (absent : ¬ resident)
    (h : reprogram prog (some on) s = .ok () u) :
    ∃ pre, u.frameLog = s.frameLog ++ pre ∧ UpToReprogram s.cfg prog on resident pre := by
  obtain ⟨mid, log, frames⟩ := reprogram_last prog on h
  refine ⟨mid ++ [⟨.control, .write s.cfg.dmAbstractAuto on⟩], log.trans (List.append_assoc ..), .inr ⟨absent, ⟨mid, rfl⟩, ?_⟩⟩
  rw [ofControl_append, ← frames]
  rfl

/-- R162, R163: what is sent until the program of a word read is resident. -/
theorem prepareRead_upTo {a : Word} {ai : Bool} {s u : State} {known : Bool} (h : prepareRead a ai s = .ok known u) :
    ∃ pre, u.frameLog = s.frameLog ++ pre ∧ u.sessionTag = .readSequence ∧
      UpToReprogram s.cfg (if ai then s.cfg.progReadInc else s.cfg.progReadPlain) s.cfg.autoRead
        (s.sessionTag = .readSequence ∧ s.autoIncrementActive = ai) pre := by
  rw [prepareRead] at h
  split at h
  next hit =>
    have resident : s.sessionTag = .readSequence ∧ s.autoIncrementActive = ai := by simpa [readProgHit] using hit
    cases h
    exact ⟨[], (List.append_nil _).symm, resident.1, .inl ⟨resident, rfl⟩⟩
  next miss =>
    have absent : ¬ (s.sessionTag = .readSequence ∧ s.autoIncrementActive = ai) := by simpa [readProgHit] using miss
    obtain ⟨_, t, ht, hu⟩ := bind_eq_ok h
    cases hu
    obtain ⟨pre, log, upTo⟩ := reprogram_upTo absent ht
    exact ⟨pre, log, rfl, upTo⟩

/-- R162, R165: what is sent until the program of a word write is resident. -/
theorem prepareWrite_upTo {a : Word} {fl : Bool} {s u : State} {known : Bool} (h : prepareWrite a fl s = .ok known u) :
    ∃ pre, u.frameLog = s.frameLog ++ pre ∧ u.sessionTag = .writeSequence ∧
      UpToReprogram s.cfg (if fl then s.cfg.progWriteFlash else s.cfg.progWriteRam) s.cfg.autoWrite
        (s.sessionTag = .writeSequence ∧ s.lastWriteWasFlash = fl) pre := by
  rw [prepareWrite] at h
  split at h
  next hit =>
    have resident : s.sessionTag = .writeSequence ∧ s.lastWriteWasFlash = fl := by simpa [writeProgHit] using hit
    cases h
    exact ⟨[], (List.append_nil _).symm, resident.1, .inl ⟨resident, rfl⟩⟩
  next miss =>
    have absent : ¬ (s.sessionTag = .writeSequence ∧ s.lastWriteWasFlash = fl) := by simpa [writeProgHit] using miss
    obtain ⟨_, t, ht, hu⟩ := bind_eq_ok h
    cases hu
    obtain ⟨pre, log, upTo⟩ := reprogram_upTo absent ht
    exact ⟨pre, log, rfl, upTo⟩

/-- Settles O33: errors by `Invalidates`, successes by what the frames after the reprogramming leave in the tag. -/
theorem sequencerErrorsInvalidate : Obligations.SequencerErrorsInvalidate := by
  refine ⟨fun s t e a v b ai h => ?_, fun s t a v x ai => ⟨fun h => ?_, fun h => ?_⟩, fun s a b => ⟨?_, ?_⟩⟩
  · by_cases aligned : aligned4 a = true
    · rcases h with h | h | h | h | h
      · exact (memReadWord_invalidates aligned ai s).err h
      · exact (memWriteWord_invalidates aligned v s).err h
      · exact (memReadByte_invalidates a s).err h
      · exact (memWriteByte_invalidates a b s).err h
      · exact (waitAbstract_invalidates s).err h
    · rw [memReadWord_misaligned aligned, memWriteWord_misaligned aligned] at h
      rcases h with h | h | h | h | h
      · exact misaligned_err h
      · exact misaligned_err h
      · exact (memReadByte_invalidates a s).err h
      · exact (memWriteByte_invalidates a b s).err h
      · exact (waitAbstract_invalidates s).err h
  · rw [memReadWord] at h
    split at h
    next => cases h
    next =>
      obtain ⟨known, u, hu, h⟩ := bind_eq_ok (onErr_eq_ok h)
      obtain ⟨_, v, hv, h⟩ := bind_eq_ok h
      obtain ⟨_, w, hw, h⟩ := bind_eq_ok h
      obtain ⟨_, y, hy, h⟩ := bind_eq_ok h
      cases h
      obtain ⟨pre, log, tag, upTo⟩ := prepareRead_upTo hu
      obtain ⟨cs, executed⟩ := marks_execute hw
      have marks := ((okMarks_sendAddress known a u _ _ hv).trans executed).trans (okMarks_fr _ _ _ _ hy)
      obtain ⟨post, frames, ends⟩ := access_end (t := { y with cachedAddress := if ai then a + 4 else a }) log tag marks rfl rfl
      exact ⟨pre, post, frames, upTo, ends⟩
  · rw [memWriteWord] at h
    split at h
    next => cases h
    next =>
      obtain ⟨known, u, hu, h⟩ := bind_eq_ok (onErr_eq_ok h)
      obtain ⟨_, w, hw, h⟩ := bind_eq_ok h
      obtain ⟨_, y, hy, h⟩ := bind_eq_ok h
      obtain ⟨_, z, hz, h⟩ := bind_eq_ok h
      cases h
      obtain ⟨pre, log, tag, upTo⟩ := prepareWrite_upTo hu
      obtain ⟨cs, executed⟩ := marks_execute hz
      have marks := ((okMarks_sendAddress known a u _ _ hw).trans (okMarks_fw _ _ _ _ _ hy)).trans executed
      obtain ⟨post, frames, ends⟩ := access_end (t := { z with cachedAddress := a + 4 }) log tag marks rfl rfl
      exact ⟨pre, post, frames, upTo, ends⟩
  · rw [memReadByte]
    cases (reprogram s.cfg.progRByte none s).bind _ <;> rfl
  · rw [memWriteByte]
    cases (reprogram s.cfg.progWByte none s).bind _ <;> rfl

/-! ### Runs of accesses (R172) -/

theorem add_word_succ (a : Word) (k : Nat) : a + BitVec.ofNat 32 (4 * (k + 1)) = a + 4 + BitVec.ofNat 32 (4 * k) := by
  rw [Nat.mul_succ, Nat.add_comm, BitVec.ofNat_add, BitVec.add_assoc]
  rfl

theorem add_word_zero (a : Word) : a + BitVec.ofNat 32 (4 * 0) = a := BitVec.add_zero a

theorem aligned4_add_word {a : Word} (h : a.toNat % 4 = 0) (k : Nat) : aligned4 (a + BitVec.ofNat 32 (4 * k)) = true := by
  rw [aligned4_iff, BitVec.toNat_add, BitVec.toNat_ofNat]
  omega

/-- Auto-increment word reads at increasing addresses. -/
def readRun (a : Word) (n : Nat) : List Act := (List.range n).map fun k => .readWord (a + BitVec.ofNat 32 (4 * k)) true 0

theorem readRun_succ (a : Word) (n : Nat) : readRun a (n + 1) = .readWord a true 0 :: readRun (a + 4) n := by
  simp only [readRun, List.range_succ_eq_map, List.map_cons, List.map_map, Function.comp_def, add_word_succ, add_word_zero]

/-- With the program resident and the first address cached, each read sends the execute step and its data frame. -/
theorem trace_readRun (p : Params) (n : Nat) : ∀ (a : Word) (c : Cache), c.tag = .readSequence → c.ai = true → c.addr = a →
    trace p c (readRun a n) = ((List.range n).flatMap fun _ => executeFrames p ++ [readOf p.dmData0 0]) ∧
      (traceCache p c (readRun a n)).addr = a + BitVec.ofNat 32 (4 * n) := by
  induction n with
  | zero =>
    intro a c _ _ addr
    exact ⟨rfl, addr.trans (add_word_zero a).symm⟩
  | succ n ih =>
    intro a c tag inc addr
    obtain ⟨frames, last⟩ := ih (a + 4) (actCache p c (.readWord a true 0)) rfl rfl rfl
    have first : actFrames p c (.readWord a true 0) = executeFrames p ++ [readOf p.dmData0 0] := by
      simp [actFrames, tag, inc, addr]
    rw [readRun_succ, add_word_succ, trace, frames, first, List.range_succ_eq_map, List.flatMap_cons, List.flatMap_map]
    exact ⟨rfl, last⟩

/-- Word writes at increasing addresses. -/
def writeRun (a : Word) (ws : List Word) : List (Word × Word) := ws.mapIdx fun k w => (a + BitVec.ofNat 32 (4 * k), w)

theorem writeRun_cons (a w : Word) (ws : List Word) : writeRun a (w :: ws) = (a, w) :: writeRun (a + 4) ws := by
  simp only [writeRun, List.mapIdx_cons, add_word_succ, add_word_zero]

theorem writeRun_aligned {a : Word} (h : a.toNat % 4 = 0) (ws : List Word) : ∀ w ∈ writeRun a ws, aligned4 w.1 = true := by
  intro w hw
  obtain ⟨k, hk, rfl⟩ := List.mem_mapIdx.1 hw
  exact aligned4_add_word h k

/-- With the program resident and the first address cached, each write sends its data frame and the execute step. -/
theorem trace_writeRun (p : Params) (fl : Bool) (ws : List Word) : ∀ (a : Word) (c : Cache), c.tag = .writeSequence → c.fl = fl →
    c.addr = a → (∀ k, k < ws.length → isFlash p (a + BitVec.ofNat 32 (4 * k)) = fl) →
    trace p c ((writeRun a ws).map fun w => .writeWord w.1 w.2) = (ws.flatMap fun w => writesOf [(p.dmData0, w)] ++ executeFrames p) ∧
      (traceCache p c ((writeRun a ws).map fun w => .writeWord w.1 w.2)).addr = a + BitVec.ofNat 32 (4 * ws.length) := by
  induction ws with
  | nil =>
    intro a c _ _ addr _
    exact ⟨rfl, addr.trans (add_word_zero a).symm⟩
  | cons w ws ih =>
    intro a c tag kind addr flash
    have here : isFlash p a = fl := by simpa [add_word_zero] using flash 0 (Nat.succ_pos _)
    obtain ⟨frames, last⟩ := ih (a + 4) (actCache p c (.writeWord a w)) rfl here rfl fun k hk => by
      rw [← add_word_succ]
      exact flash (k + 1) (Nat.succ_lt_succ hk)
    have first : actFrames p c (.writeWord a w) = writesOf [(p.dmData0, w)] ++ executeFrames p := by
      simp [actFrames, tag, kind, addr, here]
    rw [writeRun_cons, List.map_cons, List.length_cons, add_word_succ, trace, frames, first, List.flatMap_cons]
    exact ⟨rfl, last⟩

theorem frameLog_of_sent {s t : State} (h : OnlyLink s t) : t.frameLog = s.frameLog ++ sent s t :=
  (List.prefix_iff_eq_append.1 h.frameLog).symm

/-- Settles O34: the acts of the run, whose frames are those of the fast path. -/
theorem sequentialRuns : Obligations.SequentialRuns := by
  intro s a h hz ha addr
  refine ⟨fun n tag inc => ?_, fun fl ws tag kind flash => ?_⟩
  · obtain ⟨t, ht, ran⟩ := Runs.collect (f := fun k => memReadWord (a + BitVec.ofNat 32 (4 * k)) true) (v := fun _ => 0)
      (g := fun k => [.readWord (a + BitVec.ofNat 32 (4 * k)) true 0]) (List.range n) s hz rfl
      fun k _ t ht _ => runs_memReadWord true ht (aligned4_add_word ha k)
    have acts := ran.sends.silent h.silent
    rw [← List.map_eq_flatMap] at acts
    obtain ⟨frames, last⟩ := trace_readRun s.cfg n a (cacheOf s) tag inc addr
    refine ⟨t, by rw [ht, List.map_const', List.length_range], (congrArg Cache.addr acts.cache).trans last, ?_⟩
    rw [frameLog_of_sent ran.step.toOnlyLink, acts.frames]
    exact congrArg _ frames
  · obtain ⟨t, ht, ran⟩ := runs_memWrites hz (writeRun a ws) (writeRun_aligned ha ws)
    have acts := ran.sends.silent h.silent
    obtain ⟨frames, last⟩ := trace_writeRun s.cfg fl ws a (cacheOf s) tag kind addr flash
    refine ⟨t, ht, (congrArg Cache.addr acts.cache).trans last, ?_⟩
    rw [frameLog_of_sent ran.step.toOnlyLink, acts.frames]
    exact congrArg _ frames

end Sys2Proof.Proofs
end

section
/-!
PROOFS. Two laws of every instruction (R27, R126): what an instruction does to the line and to `flashUnlocked` is what the operations of the
link do, so that each law is one instantiation of the traversal `LinkRel`; the instructions of the session, which are not operations of
the link, are taken one by one.
-/
namespace Sys2Proof.Proofs

open Sys2Proof.Machine Sys2Proof.Safety Sys2Proof.Laws

/-! ### What a change leaves alone -/

/-- The line, the frame port, the target's script and the configured pin are as before. -/
structure LineSame (s t : State) : Prop where
  pinMask : t.pinMask = s.pinMask
  pinDrive : t.pinDrive = s.pinDrive
  portOwner : t.portOwner = s.portOwner
  irqMasked : t.irqMasked = s.irqMasked
  slotIn : t.slotIn = s.slotIn
  slotCount : t.slotCount = s.slotCount
  lineLog : t.lineLog = s.lineLog
  frameLog : t.frameLog = s.frameLog

/-- And so is the lock. -/
structure LockSame (s t : State) : Prop extends LineSame s t where
  flashUnlocked : t.flashUnlocked = s.flashUnlocked

theorem LineSame.refl (s : State) : LineSame s s := by constructor <;> rfl

theorem LineSame.trans {s t u : State} (h : LineSame s t) (k : LineSame t u) : LineSame s u := by
  obtain ⟨⟩ := h
  obtain ⟨⟩ := k
  constructor <;> exact Eq.trans ‹_› ‹_›

theorem LockSame.refl (s : State) : LockSame s s := ⟨.refl s, rfl⟩

theorem lockSame_begin (op : Byte) (s : State) : LockSame s (Machine.begin op s) := by constructor; constructor; all_goals rfl

theorem lockSame_enter (op : Byte) (s : State) : LockSame s (enter (Machine.begin op s)) := by constructor; constructor; all_goals rfl

theorem lockSame_respond (c : Word) (v : Option Word) (d : Option (List Byte)) (s : State) : LockSame s (respond c v d s) := by
  constructor; constructor; all_goals rfl

theorem lockSame_leave (s : State) : LockSame s (leave s) := by constructor; constructor; all_goals rfl

theorem LockSame.trans {s t u : State} (h : LockSame s t) (k : LockSame t u) : LockSame s u :=
  ⟨h.toLineSame.trans k.toLineSame, k.flashUnlocked.trans h.flashUnlocked⟩

/-! ### Instructions that are operations of the link -/

/-- Between what the begin and the end of a request change there is an operation of the link; it discards the link state only if `D`. -/
def ByLink (D : Prop) (s t : State) : Prop := ∃ u v, LockSame s u ∧ LockSame v t ∧
  ∀ R : State → State → Prop, LinkRel R → (D → ∀ s, R s (discardLink s)) → R u v

/-- An operation of the link, by the traversal that it has. -/
abbrev LinkOp {α : Type} (D : Prop) (s : State) (r : Res α) : Prop :=
  ∀ R : State → State → Prop, LinkRel R → (D → ∀ s, R s (discardLink s)) → R s r.state

variable {D : Prop} {op : Byte} {s : State}

theorem ByLink.respond {u : State} (c : Word) (v : Option Word) (d : Option (List Byte))
    (h : ∀ R : State → State → Prop, LinkRel R → (D → ∀ s, R s (discardLink s)) → R (Machine.begin op s) u) :
    ByLink D s (Machine.respond c v d u) := ⟨_, _, lockSame_begin op s, lockSame_respond c v d u, h⟩

theorem ByLink.refused (e : ErrKind) : ByLink D s (respondErr e s) :=
  ⟨s, s, .refl s, lockSame_respond _ _ _ s, fun _ h _ => h.refl s⟩

theorem ByLink.wire (i : Instr) : ByLink D s (wireEffect i s) :=
  ⟨s, _, .refl s, .refl _, fun _ h _ => h.wireEffect i s⟩

theorem ByLink.finish {r : Res Unit} (h : LinkOp D (Machine.begin op s) r) : ByLink D s (finish r) := by
  cases r <;> exact .respond _ _ _ h

theorem ByLink.finishValue {r : Res Word} (h : LinkOp D (Machine.begin op s) r) : ByLink D s (finishValue r) := by
  cases r <;> exact .respond _ _ _ h

theorem ByLink.finishByte {r : Res Byte} (h : LinkOp D (Machine.begin op s) r) : ByLink D s (finishByte r) := by
  cases r <;> exact .respond _ _ _ h

theorem ByLink.finishData {r : Res (List Byte)} (h : LinkOp D (Machine.begin op s) r) : ByLink D s (finishData r) := by
  cases r <;> exact .respond _ _ _ h

theorem ByLink.finishBit {r : Res (Option Bool)} (h : LinkOp D (Machine.begin op s) r) : ByLink D s (finishBit r) := by
  rcases r with ⟨_ | b, u⟩ | ⟨e, u⟩ <;> exact .respond _ _ _ h

/-- A flasher command, by what its body does and by how its response is formed. -/
theorem ByLink.flasherCommand {α : Type} {body : State → Res α} {fin : Res α → State}
    (hb : LinkOp D (enter (Machine.begin op s)) (body (enter (Machine.begin op s))))
    (hf : ∀ r : Res α, ∃ code v d, code ∈ resultCodes ∧ fin r = Machine.respond code v d r.state) :
    ByLink D s (flasherCommand op body fin s) := by
  unfold Machine.flasherCommand
  split
  · exact .refused _
  · obtain ⟨code, v, d, -, he⟩ := hf ((body (enter (Machine.begin op s))).after leave)
    have left : ((body (enter (Machine.begin op s))).after leave).state = leave (body (enter (Machine.begin op s))).state := by
      cases body (enter (Machine.begin op s)) <;> rfl
    rw [he, left]
    exact ⟨_, _, lockSame_enter op s, (lockSame_leave _).trans (lockSame_respond ..), hb⟩

/-- Link init is needed only where the tag is `None` (R261). -/
theorem linkOp_ensureLink (needed : s.sessionTag = .none → D) : LinkOp D s (ensureLink s) := by
  intro R h hd
  unfold ensureLink
  split
  next tag => exact h.linkInit (hd (needed tag)) s
  next => exact h.refl s

theorem linkOp_haltBody (needed : s.sessionTag = .none → D) (m : HaltMode) : LinkOp D s (haltBody m s) := fun R h hd =>
  h.bind (linkOp_ensureLink needed R h hd) fun _ t => h.haltctl m t

theorem linkOp_readBlobBody (needed : s.sessionTag = .none → D) (a n : Nat) : LinkOp D s (readBlobBody a n s) := fun R h hd =>
  h.bind (linkOp_ensureLink needed R h hd) fun _ t => h.bind (h.haltctl _ t) fun _ t => h.bind (h.blobRead a n t) fun _ t =>
    h.bind (h.haltctl _ t) fun _ t => h.refl t

theorem linkOp_chipInfoBody (needed : s.sessionTag = .none → D) : LinkOp D s (chipInfoBody s) := fun R h hd =>
  h.bind (linkOp_ensureLink needed R h hd) fun _ t => h.bind (h.haltctl _ t) fun _ t =>
    h.bind (h.collectEach (fun a t => h.memReadWord a false t) _ t) fun _ t => h.bind (h.haltctl _ t) fun _ t => h.refl t

/-- The instructions that are not one operation of the link: those of the session, the setters, and `UNBRICK`. -/
def ofSession : Instr → Bool
  | .uploadBegin _ _ _ | .uploadData _ _ | .status | .unbrick | .setPin _ | .setCoeff _ => true
  | _ => false

/-- Every other instruction is an operation of the link, which discards the link state only in a link init. -/
theorem exec_byLink {i : Instr} {t : State} (h : exec i s = .next t) (hi : ofSession i = false) :
    ByLink (i = .linkInit ∨ s.sessionTag = .none) s t := by
  cases i
  case rawWrite a v =>
    simp only [exec, execRawWrite] at h
    cases h
    split
    · split
      · exact .finish fun _ h _ => h.rawWrite ..
      · exact .refused _
    · exact .refused _
  case rawRead a =>
    simp only [exec, execRawRead] at h
    cases h
    split
    · split
      · exact .finishValue fun _ h _ => h.rawRead ..
      · exact .refused _
    · exact .refused _
  case frameWrite a v =>
    simp only [exec, execFrameWrite] at h
    cases h
    split
    · split
      · exact .finish fun _ h _ => h.fw ..
      · exact .refused _
    · exact .refused _
  case frameRead a =>
    simp only [exec, execFrameRead] at h
    cases h
    split
    · split
      · exact .finishValue fun _ h _ => h.fr ..
      · exact .refused _
    · exact .refused _
  case phyDelay n =>
    simp only [exec, execPhyDelay] at h
    cases h
    split
    · exact .refused _
    · exact .finish fun _ h _ => h.phyDelay ..
  case phySend1 => cases h; exact .finish fun _ h _ => h.phySend ..
  case phySend0 => cases h; exact .finish fun _ h _ => h.phySend ..
  case phyReadBit => cases h; exact .finishBit fun _ h _ => h.phyReadBit _
  case seqReadWord a ai =>
    simp only [exec, execSeqReadWord] at h
    cases h
    split
    · exact .finishValue fun _ h _ => h.memReadWord ..
    · exact .refused _
  case seqWriteWord a v =>
    simp only [exec, execSeqWriteWord] at h
    cases h
    split
    · exact .finish fun _ h _ => h.memWriteWord ..
    · exact .refused _
  case seqReadByte a =>
    simp only [exec, execSeqReadByte] at h
    cases h
    split
    · exact .finishByte fun _ h _ => h.memReadByte ..
    · exact .refused _
  case seqWriteByte a b =>
    simp only [exec, execSeqWriteByte] at h
    cases h
    split
    · exact .finish fun _ h _ => h.memWriteByte ..
    · exact .refused _
  case seqWaitAbstract => cases h; exact .finish fun _ h _ => h.waitAbstract _
  case seqInvalidate => cases h; exact .finish fun _ h _ => h.invalidate _
  case flashUnlock => cases h; exact .finish fun _ h _ => h.flashUnlock _
  case flashWaitNotBusy => cases h; exact .finish fun _ h _ => h.flashWaitNotBusy _
  case flashErasePages a n =>
    simp only [exec, execFlashErasePages] at h
    cases h
    split
    · exact .finish fun _ h _ => h.flashErasePages ..
    · exact .refused _
  case flashEraseChip => cases h; exact .finish fun _ h _ => h.flashEraseChip _
  case flashWriteBlock64 a d =>
    simp only [exec, execFlashWriteBlock64] at h
    cases h
    split
    · exact .finish fun _ h _ => h.flashWriteBlock ..
    · exact .refused _
  case blobWrite a n d =>
    simp only [exec, execBlobWrite] at h
    cases h
    split
    · exact .finish fun _ h _ => h.blobWrite ..
    · exact .refused _
  case blobRead a n =>
    simp only [exec, execBlobRead] at h
    cases h
    split
    · exact .finishData fun _ h _ => h.blobRead ..
    · exact .refused _
  case linkInit => cases h; exact .finish fun _ h hd => h.linkInit (hd (.inl rfl)) _
  case sym1 | sym0 | readSlot | writeFrame | readFrame => cases h; exact .wire _
  case haltReset | reboot | resume | rebootBoot | haltNoReset =>
    cases h
    exact .flasherCommand (linkOp_haltBody .inr _) finish_response
  case chipInfo =>
    cases h
    exact .flasherCommand (linkOp_chipInfoBody Or.inr) finishWords_response
  case readBlob a n =>
    simp only [exec, execReadBlob] at h
    cases h
    split
    · split
      · exact .refused _
      · exact .flasherCommand (linkOp_readBlobBody (s := enter (Machine.begin 0x45 s)) Or.inr _ _) finishData_response
    · exact .refused _
  case uploadBegin | uploadData | status | unbrick | setPin | setCoeff => cases hi

/-! ### The lock (R27) -/

theorem exec_byLink_unlocked {i : Instr} {t : State} (h : exec i s = .next t) (hi : ofSession i = false) (init : i ≠ .linkInit)
    (tag : s.sessionTag ≠ .none) (unlocked : s.flashUnlocked = true) : t.flashUnlocked = true := by
  obtain ⟨u, v, before, after, byLink⟩ := exec_byLink h hi
  have kept := byLink _ unlockedUp fun discards => absurd discards (not_or.2 ⟨init, tag⟩)
  rw [after.flashUnlocked]
  exact kept (before.flashUnlocked.trans unlocked)

theorem exec_uploadBegin_unlocked {a n r : Option Word} {t : State} (h : exec (.uploadBegin a n r) s = .next t) :
    t.flashUnlocked = s.flashUnlocked := by
  simp only [exec, execUploadBegin] at h
  cases h
  split
  · split
    · rfl
    · split
      · rfl
      · simp [openUpload]
  · rfl

theorem exec_setCoeff_unlocked {c : Option Word} {t : State} (h : exec (.setCoeff c) s = .next t) :
    t.flashUnlocked = s.flashUnlocked := by
  simp only [exec, execSetCoeff] at h
  cases h
  split
  · split <;> rfl
  · rfl

/-- Settles O45: the traversal for the lock, and the instructions of the session that write no part of the link. -/
theorem unlockedIsMonotonic : Obligations.UnlockedIsMonotonic := by
  intro i s t unlocked tag init unbrick pin upload h
  cases i
  case uploadBegin => exact (exec_uploadBegin_unlocked h).trans unlocked
  case status =>
    rw [exec_status] at h
    cases h
    exact unlocked
  case setCoeff => exact (exec_setCoeff_unlocked h).trans unlocked
  case uploadData d l => exact absurd rfl (upload d l)
  case unbrick => exact absurd rfl unbrick
  case setPin m => exact absurd rfl (pin m)
  all_goals exact exec_byLink_unlocked h rfl init tag unlocked

/-! ### No pin (R126, R140) -/

/-- The line gains at most waits and settings of the power gate, and nothing else of it changes. -/
structure Untouched (s t : State) : Prop where
  pinMask : t.pinMask = s.pinMask
  pinDrive : t.pinDrive = s.pinDrive
  portOwner : t.portOwner = s.portOwner
  irqMasked : t.irqMasked = s.irqMasked
  frameLog : t.frameLog = s.frameLog
  slotIn : t.slotIn = s.slotIn
  slotCount : t.slotCount = s.slotCount
  line : ∃ es, t.lineLog = s.lineLog ++ es ∧ ∀ e ∈ es, (∃ n, e = .hold n) ∨ ∃ on, e = .power on

theorem LineSame.untouched {s t : State} (h : LineSame s t) : Untouched s t :=
  ⟨h.pinMask, h.pinDrive, h.portOwner, h.irqMasked, h.frameLog, h.slotIn, h.slotCount,
    [], h.lineLog.trans (List.append_nil _).symm, by simp⟩

theorem Untouched.trans {s t u : State} (h : Untouched s t) (k : Untouched t u) : Untouched s u where
  pinMask := k.pinMask.trans h.pinMask
  pinDrive := k.pinDrive.trans h.pinDrive
  portOwner := k.portOwner.trans h.portOwner
  irqMasked := k.irqMasked.trans h.irqMasked
  frameLog := k.frameLog.trans h.frameLog
  slotIn := k.slotIn.trans h.slotIn
  slotCount := k.slotCount.trans h.slotCount
  line := by
    obtain ⟨es, hes, only⟩ := h.line
    obtain ⟨fs, hfs, only'⟩ := k.line
    refine ⟨es ++ fs, by rw [hfs, hes, List.append_assoc], fun e he => ?_⟩
    rcases List.mem_append.1 he with he | he
    · exact only e he
    · exact only' e he

/-- With no pin configured, `t` differs from `s` on the line at most as `Untouched` says. -/
def Silent (s t : State) : Prop := s.pinMask = 0 → Untouched s t

theorem Silent.of_same {s t : State} (h : LineSame s t) : Silent s t := fun _ => h.untouched

theorem silent_wait (n : Nat) (s : State) : Untouched s (wait n s) :=
  ⟨rfl, rfl, rfl, rfl, rfl, rfl, rfl, [.hold n], rfl, by simp⟩

theorem silent_alone {α : Type} (who : Issuer) (f : Nat → State → α × State) (s : State) : Silent s (phyAlone who f s).state := by
  intro hp
  rw [phyAlone_noPin who f hp]
  exact (LineSame.refl s).untouched

/-- Without a pin every operation of the link ends before it takes the port (R126, R140). -/
theorem silent_linkRel : LinkRel Silent where
  refl s := .of_same (.refl s)
  trans h k hp := (h hp).trans (k ((h hp).pinMask.trans hp))
  frameWrite who cmd v s hp := by
    rw [frameWrite_noPin who cmd v hp]
    exact (LineSame.refl s).untouched
  frameRead who cmd s hp := by
    rw [frameRead_noPin who cmd hp]
    exact (LineSame.refl s).untouched
  symbol who b s := silent_alone who _ s
  slot who s := silent_alone who _ s
  delay who n s := silent_alone who _ s
  wait n s _ := silent_wait n s
  tag s _ := .of_same ⟨rfl, rfl, rfl, rfl, rfl, rfl, rfl, rfl⟩
  turn s _ _ _ := .of_same ⟨rfl, rfl, rfl, rfl, rfl, rfl, rfl, rfl⟩
  connect s _ := .of_same ⟨rfl, rfl, rfl, rfl, rfl, rfl, rfl, rfl⟩
  disconnect s := .of_same ⟨rfl, rfl, rfl, rfl, rfl, rfl, rfl, rfl⟩
  cache s _ _ _ _ := .of_same ⟨rfl, rfl, rfl, rfl, rfl, rfl, rfl, rfl⟩
  unlocked s := .of_same ⟨rfl, rfl, rfl, rfl, rfl, rfl, rfl, rfl⟩

theorem lineSame_discardLink (s : State) : LineSame s (discardLink s) := ⟨rfl, rfl, rfl, rfl, rfl, rfl, rfl, rfl⟩

theorem linkInit_noPin {s : State} (h : s.pinMask = 0) : linkInit s = .err .initFailure (discardLink s) := if_pos h

/-! The session's instructions. -/

theorem lineSame_readClock (s : State) : LineSame s (readClock s) := by constructor <;> simp

theorem lineSame_refresh (s : State) : LineSame s (refresh s) := by constructor <;> simp

theorem lineSame_expire (s : State) : LineSame s (expire s) := by
  unfold expire
  split <;> exact ⟨rfl, rfl, rfl, rfl, rfl, rfl, rfl, rfl⟩

theorem lineSame_watchdogCheck (s : State) : LineSame s (watchdogCheck s).2 := by
  unfold watchdogCheck
  split
  · exact .refl s
  · dsimp only
    split
    · exact (lineSame_readClock s).trans (lineSame_expire _)
    · exact lineSame_readClock s

theorem lineSame_watchdogStep (s : State) : LineSame s (watchdogStep s).2 := by
  have check := lineSame_watchdogCheck s
  unfold watchdogStep
  split
  next t h => rwa [h] at check
  next t h =>
    rw [h] at check
    exact check.trans (lineSame_refresh t)

theorem lineSame_failSession (e : ErrKind) (s : State) : LineSame s (failSession e s) :=
  LineSame.trans (t := { s with error := e.code, status := .failed, active := false }) ⟨rfl, rfl, rfl, rfl, rfl, rfl, rfl, rfl⟩
    (lineSame_refresh _)

theorem lineSame_retryUpdate (e : ErrKind) (s : State) : LineSame s (retryUpdate e s) :=
  LineSame.trans (t := { s with error := e.code, currentRetry := s.currentRetry + 1 }) ⟨rfl, rfl, rfl, rfl, rfl, rfl, rfl, rfl⟩
    (lineSame_refresh _)

/-- Without a pin an attempt ends in its link init, if the watchdog does not end it before (R242). -/
theorem attempt_noPin (flash : Bool) (data : List Byte) {s : State} (h : s.pinMask = 0) :
    ∃ t, LineSame s t ∧ (attempt flash data s = .aborted t ∨ attempt flash data s = .failed .initFailure t) := by
  have step := lineSame_watchdogStep s
  rw [attempt, watched]
  split
  next t ht =>
    rw [ht] at step
    exact ⟨t, step, .inl rfl⟩
  next t ht =>
    rw [ht] at step
    rw [linkInit_noPin (step.pinMask.trans h)]
    exact ⟨_, step.trans (lineSame_discardLink t), .inr rfl⟩

theorem lineSame_updateLoop (flash : Bool) (data : List Byte) (left : Nat) : ∀ {s : State}, s.pinMask = 0 →
    LineSame s (updateLoop flash data left s) := by
  induction left with
  | zero =>
    intro s h
    obtain ⟨t, same, e | e⟩ := attempt_noPin flash data h <;> rw [updateLoop, e]
    · exact same
    · exact same.trans (lineSame_failSession _ t)
  | succ left ih =>
    intro s h
    obtain ⟨t, same, e | e⟩ := attempt_noPin flash data h <;> rw [updateLoop, e]
    · exact same
    · have retried := same.trans (lineSame_retryUpdate .initFailure t)
      exact retried.trans (ih (retried.pinMask.trans h))

theorem lineSame_runUpload {s t : State} (hp : s.pinMask = 0) (h : runUpload s = .next t) : LineSame s t := by
  unfold runUpload at h
  split at h
  · cases h
  · cases h
    have opened : LineSame s { s with status := .updating } := ⟨rfl, rfl, rfl, rfl, rfl, rfl, rfl, rfl⟩
    exact (opened.trans (lineSame_updateLoop _ _ _ hp)).trans (lockSame_respond ..).toLineSame

theorem lineSame_acceptChunk {data : List Byte} {last : Bool} {s t : State} (hp : s.pinMask = 0)
    (h : acceptChunk data last s = .next t) : LineSame s t := by
  have begun : LineSame s (refresh (Machine.begin 0x43 s)) := (lockSame_begin 0x43 s).toLineSame.trans (lineSame_refresh _)
  unfold acceptChunk at h
  dsimp only at h
  generalize refresh (Machine.begin 0x43 s) = u at *
  have stored : LineSame s (storeChunk data u) := begun.trans ⟨rfl, rfl, rfl, rfl, rfl, rfl, rfl, rfl⟩
  split at h
  · cases h
    exact (begun.trans (lineSame_failSession _ u)).trans (lockSame_respond ..).toLineSame
  · split at h
    · cases h
    · split at h
      · cases h
        exact stored.trans (lockSame_respond ..).toLineSame
      · split at h
        · cases h
          exact (stored.trans (lineSame_failSession _ _)).trans (lockSame_respond ..).toLineSame
        · exact stored.trans (lineSame_runUpload (stored.pinMask.trans hp) h)

theorem silent_unbrickBody (s : State) : Silent s (unbrickBody s).state := by
  intro hp
  have power : Untouched s (setPower true s.cfg.powerOnTime (setPower false s.cfg.powerOffTime s)) := by
    rw [powerCycle_eq]
    exact ⟨rfl, rfl, rfl, rfl, rfl, rfl, rfl, _, rfl, by simp⟩
  unfold unbrickBody
  dsimp only
  refine power.trans ?_
  have unpinned := power.pinMask.trans hp
  simp only [setPower_fields]
  generalize setPower true s.cfg.powerOnTime (setPower false s.cfg.powerOffTime s) = u at *
  have tries := silent_linkRel.unbrickLoop (fun s => .of_same (lineSame_discardLink s)) s.cfg.unbrickTries u unpinned
  split
  next v hv => rwa [hv] at tries
  next v hv =>
    rw [hv] at tries
    have erase : Silent v ((runSteps v.cfg.seqOptDefault v).bind fun _ s => flashEraseChip s).state :=
      silent_linkRel.bind (silent_linkRel.runSteps _ v) fun _ w => silent_linkRel.flashEraseChip w
    exact tries.trans (erase (tries.pinMask.trans unpinned))

/-- What O22 asks of the two states. -/
def LineUntouched (s t : State) : Prop :=
  t.pinDrive = s.pinDrive ∧ t.portOwner = s.portOwner ∧ t.irqMasked = s.irqMasked ∧ t.frameLog = s.frameLog ∧
  t.slotIn = s.slotIn ∧ t.slotCount = s.slotCount ∧
  ∃ es, t.lineLog = s.lineLog ++ es ∧ ∀ e ∈ es, (∃ n, e = .hold n) ∨ ∃ on, e = .power on

theorem Untouched.lineUntouched {s t : State} (h : Untouched s t) : LineUntouched s t :=
  ⟨h.pinDrive, h.portOwner, h.irqMasked, h.frameLog, h.slotIn, h.slotCount, h.line⟩

theorem lineUntouched_of_eq {s t : State} (pin : t.pinDrive = s.pinDrive) (port : t.portOwner = s.portOwner)
    (mask : t.irqMasked = s.irqMasked) (frames : t.frameLog = s.frameLog) (slots : t.slotIn = s.slotIn)
    (count : t.slotCount = s.slotCount) (line : t.lineLog = s.lineLog) : LineUntouched s t :=
  ⟨pin, port, mask, frames, slots, count, [], line.trans (List.append_nil _).symm, by simp⟩

theorem LineSame.lineUntouched {s t : State} (h : LineSame s t) : LineUntouched s t := h.untouched.lineUntouched

theorem lineUntouched_respond {c : Word} {v : Option Word} {d : Option (List Byte)} {s t : State} (h : LineUntouched s t) :
    LineUntouched s (respond c v d t) := h

theorem exec_byLink_untouched {i : Instr} {s t : State} (hp : s.pinMask = 0) (h : exec i s = .next t) (hi : ofSession i = false) :
    LineUntouched s t := by
  obtain ⟨u, v, before, after, byLink⟩ := exec_byLink h hi
  have silent := byLink _ silent_linkRel fun _ s => .of_same (lineSame_discardLink s)
  exact ((before.toLineSame.untouched.trans (silent (before.pinMask.trans hp))).trans after.toLineSame.untouched).lineUntouched

theorem exec_unbrick_untouched {s t : State} (hp : s.pinMask = 0) (h : exec .unbrick s = .next t) : LineUntouched s t := by
  simp only [exec, execUnbrick] at h
  cases h
  split
  · exact lineUntouched_of_eq rfl rfl rfl rfl rfl rfl rfl
  · unfold flasherCommand
    split
    · exact lineUntouched_of_eq rfl rfl rfl rfl rfl rfl rfl
    · have body := silent_unbrickBody (enter (Machine.begin 0x46 s)) hp
      cases hr : unbrickBody (enter (Machine.begin 0x46 s)) with
      | ok a u =>
        rw [hr] at body
        exact lineUntouched_respond body.lineUntouched
      | err e u =>
        rw [hr] at body
        exact lineUntouched_respond body.lineUntouched

theorem exec_setPin_untouched {m : Option Word} {s t : State} (h : exec (.setPin m) s = .next t) : LineUntouched s t := by
  simp only [exec, execSetPin] at h
  cases h
  split
  · split
    · exact lineUntouched_of_eq rfl rfl rfl rfl rfl rfl rfl
    · split <;> exact lineUntouched_of_eq rfl rfl rfl rfl rfl rfl rfl
  · exact lineUntouched_of_eq rfl rfl rfl rfl rfl rfl rfl

theorem exec_setCoeff_untouched {c : Option Word} {s t : State} (h : exec (.setCoeff c) s = .next t) : LineUntouched s t := by
  simp only [exec, execSetCoeff] at h
  cases h
  split
  · split <;> exact lineUntouched_of_eq rfl rfl rfl rfl rfl rfl rfl
  · exact lineUntouched_of_eq rfl rfl rfl rfl rfl rfl rfl

theorem exec_uploadBegin_untouched {a n r : Option Word} {s t : State} (h : exec (.uploadBegin a n r) s = .next t) :
    LineUntouched s t := by
  simp only [exec, execUploadBegin] at h
  cases h
  split
  · split
    · exact lineUntouched_of_eq rfl rfl rfl rfl rfl rfl rfl
    · split
      · exact lineUntouched_of_eq rfl rfl rfl rfl rfl rfl rfl
      · apply lineUntouched_of_eq <;> simp [openUpload]
  · exact lineUntouched_of_eq rfl rfl rfl rfl rfl rfl rfl

theorem exec_uploadData_untouched {d : List Byte} {l : Bool} {s t : State} (hp : s.pinMask = 0)
    (h : exec (.uploadData d l) s = .next t) : LineUntouched s t := by
  simp only [exec, execUploadData] at h
  split at h
  · cases h
    exact lineUntouched_of_eq rfl rfl rfl rfl rfl rfl rfl
  · exact (lineSame_acceptChunk hp h).lineUntouched

/-- Settles O22: the traversal for the line, and the instructions of the session one by one. -/
theorem noPinNothingOnTheLine : Obligations.NoPinNothingOnTheLine := by
  intro i s t hp h
  change LineUntouched s t
  cases i
  case uploadBegin => exact exec_uploadBegin_untouched h
  case uploadData => exact exec_uploadData_untouched hp h
  case status =>
    rw [exec_status] at h
    cases h
    exact lineUntouched_of_eq rfl rfl rfl rfl rfl rfl rfl
  case unbrick => exact exec_unbrick_untouched hp h
  case setPin => exact exec_setPin_untouched h
  case setCoeff => exact exec_setCoeff_untouched h
  all_goals exact exec_byLink_untouched hp h rfl

end Sys2Proof.Proofs
end

section
/-!
PROOFS. Link init (R235): whichever way the handshake ends, the cache fields and the lock stay discarded; against a target that answers with
any values it succeeds, against a dead line its first read decides.
-/
namespace Sys2Proof.Proofs

open Sys2Proof.Machine Sys2Proof.Safety Sys2Proof.Laws
open Sys2Proof.Config (Params SlotDraw SeqStep)

/-! ### The handshake -/

/-- A handshake's steps are frames and waits. -/
theorem handshake_rel {R : State → State → Prop} (h : FrameRel R) {xs : List SeqStep} (hx : xs.all SeqStep.isHandshake = true) :
    ∀ s : State, R s (runSteps xs s).state := by
  induction xs with
  | nil => exact h.refl
  | cons x xs ih =>
    intro s
    rw [List.all_cons, Bool.and_eq_true] at hx
    have step : R s (runStep x s).state := by
      cases x with
      | fw cmd v => exact h.fw cmd v s
      | fr cmd => exact h.bind (h.fr cmd s) fun _ t => h.refl t
      | wait n => exact h.wait n s
      | memWriteWord | memReadWord | flashUnlock | flashWaitNotBusy => cases hx.1
    exact h.bind step fun _ t => ih hx.2 t

/-- What link init discards besides the tag. -/
def Discarded (t : State) : Prop := t.autoIncrementActive = false ∧ t.lastWriteWasFlash = false ∧ t.flashUnlocked = false

/-- Link init with a pin, by its handshake (R235). -/
theorem linkInit_pin {s : State} (h : s.pinMask ≠ 0) : linkInit s =
    (((runSteps s.cfg.seqInit (discardLink s)).convert handshakeError).onErr discardLink).bind fun _ s =>
      .ok () { s with sessionTag := .started } := if_neg h

theorem linkInit_of_ok {s u : State} (h : s.pinMask ≠ 0) (hu : runSteps s.cfg.seqInit (discardLink s) = .ok () u) :
    linkInit s = .ok () { u with sessionTag := .started } := by
  rw [linkInit_pin h, hu]
  rfl

theorem linkInit_of_err {s u : State} {e : ErrKind} (h : s.pinMask ≠ 0)
    (hu : runSteps s.cfg.seqInit (discardLink s) = .err e u) : linkInit s = .err (handshakeError e) (discardLink u) := by
  rw [linkInit_pin h, hu]
  rfl

/-- A link init that fails leaves the link state discarded (R235 (c)). -/
theorem linkInit_err {s t : State} {e : ErrKind} (h : linkInit s = .err e t) : t.sessionTag = .none ∧ Discarded t := by
  by_cases pin : s.pinMask = 0
  · rw [linkInit_noPin pin] at h
    cases h
    exact ⟨rfl, rfl, rfl, rfl⟩
  · cases hr : runSteps s.cfg.seqInit (discardLink s) with
    | ok a u =>
      rw [linkInit_of_ok pin hr] at h
      cases h
    | err x u =>
      rw [linkInit_of_err pin hr] at h
      cases h
      exact ⟨rfl, rfl, rfl, rfl⟩

/-- One that succeeds leaves the tag `Started`, and the rest of what was discarded so (R235). -/
theorem linkInit_ok {s t : State} (hv : s.cfg.Valid) (h : linkInit s = .ok () t) : t.sessionTag = .started ∧ Discarded t := by
  by_cases pin : s.pinMask = 0
  · rw [linkInit_noPin pin] at h
    cases h
  · cases hr : runSteps s.cfg.seqInit (discardLink s) with
    | ok a u =>
      rw [linkInit_of_ok pin hr] at h
      cases h
      obtain ⟨-, ai, fl, unlocked⟩ := handshake_rel cacheSame hv.seqInit (discardLink s)
      rw [hr] at ai fl unlocked
      exact ⟨rfl, ai, fl, unlocked⟩
    | err x u =>
      rw [linkInit_of_err pin hr] at h
      cases h

/-! ### A target that answers every read slot -/

theorem answersAll_step {s t : State} (h : AnswersAll s) (k : LinkStep s t) : AnswersAll t where
  script d hd := k.cfg ▸ h.script d (k.slotIn.subset hd)
  rest := by
    obtain ⟨d, hd, answered⟩ := h.rest
    exact ⟨d, k.slotRest.trans hd, k.cfg ▸ answered⟩

/-- Its next answer is an answer, and it goes on answering. -/
theorem answersAll_nextDraw {s : State} (h : AnswersAll s) : ∃ d slots, answered s.cfg d ∧ slots <:+ s.slotIn ∧
    nextDraw s = (d, { s with slotIn := slots, slotCount := s.slotCount }) := by
  cases script : s.slotIn with
  | cons d ds =>
    refine ⟨d, ds, h.script d (script ▸ List.mem_cons_self), List.suffix_cons d ds, ?_⟩
    simp only [nextDraw, script]
  | nil =>
    obtain ⟨d, rest, answered⟩ := h.rest
    refine ⟨d, s.slotIn, answered, script ▸ List.suffix_refl _, ?_⟩
    simp only [nextDraw, script, rest]
    rw [← script, ← rest]

theorem readSlots_answersAll (c : Nat) (n : Nat) : ∀ (v : Word) {s : State}, AnswersAll s → ∃ w, (readSlots c n v s).1 = some w := by
  induction n with
  | zero => exact fun v _ _ => ⟨v, rfl⟩
  | succ n ih =>
    intro v s h
    obtain ⟨d, slots, answered, suffix, draw⟩ := answersAll_nextDraw h
    rw [readSlots, readBit_of_draw draw, if_pos answered]
    exact ih _ ⟨fun x hx => h.script x (suffix.subset hx), h.rest⟩

theorem fr_answersAll (cmd : Cmd) {s : State} (hp : s.pinMask ≠ 0) (h : AnswersAll s) :
    ∃ v t, fr cmd s = .ok v t ∧ Framed s t [readOf cmd v] := by
  have turn := LinkStep.rel.termTurn s
  have pin : (termTurn s).pinMask ≠ 0 := turn.pinMask ▸ hp
  have answers := answersAll_step h turn
  obtain ⟨v, hv⟩ := readSlots_answersAll (termTurn s).timingCoefficient.toNat 32 0
    (s := sendBits (termTurn s).timingCoefficient.toNat (headerBits cmd false) (takePort .control (termTurn s)))
    ⟨by simpa using answers.script, by simpa using answers.rest⟩
  have read : ∃ u, frameRead .control cmd (termTurn s) = .ok v u := by
    rw [frameRead, if_neg pin]
    dsimp only
    cases hr : readSlots (termTurn s).timingCoefficient.toNat 32 0
      (sendBits (termTurn s).timingCoefficient.toNat (headerBits cmd false) (takePort .control (termTurn s))) with
    | mk r u =>
      rw [hr] at hv
      obtain rfl : r = some v := hv
      exact ⟨_, rfl⟩
  obtain ⟨u, hu⟩ := read
  obtain ⟨t, ht, framed⟩ := framed_withTurns ⟨u, hu, framed_frameRead hu⟩
  exact ⟨v, t, ht, framed⟩

/-- A handshake against such a target: it succeeds, and its write frames are sent in order. -/
theorem handshake_answersAll {xs : List SeqStep} (hx : xs.all SeqStep.isHandshake = true) : ∀ {s : State}, s.pinMask ≠ 0 →
    AnswersAll s → ∃ t, runSteps xs s = .ok () t ∧ LinkStep s t ∧ (stepFrames xs).Sublist (sent s t) := by
  induction xs with
  | nil => exact fun {s} _ _ => ⟨s, rfl, .refl s, List.nil_sublist _⟩
  | cons x xs ih =>
    intro s hp h
    rw [List.all_cons, Bool.and_eq_true] at hx
    have step : ∃ t, runStep x s = .ok () t ∧ LinkStep s t ∧ (stepFrames [x]).Sublist (sent s t) := by
      cases x with
      | fw cmd v =>
        obtain ⟨t, ht, framed⟩ := framed_fw cmd v hp
        exact ⟨t, ht, framed.step, framed.frames⟩
      | fr cmd =>
        obtain ⟨v, t, ht, framed⟩ := fr_answersAll cmd hp h
        exact ⟨t, by rw [runStep, ht]; rfl, framed.step, List.nil_sublist _⟩
      | wait n => exact ⟨wait n s, rfl, LinkStep.rel.wait n s, List.nil_sublist _⟩
      | memWriteWord | memReadWord | flashUnlock | flashWaitNotBusy => cases hx.1
    obtain ⟨t, ht, link, frames⟩ := step
    obtain ⟨u, hu, link', frames'⟩ := ih hx.2 (link.pinMask ▸ hp) (answersAll_step h link)
    refine ⟨u, ?_, link.trans link', ?_⟩
    · rw [runSteps, runEach, ht]
      exact hu
    · rw [sent_append link.frameLog link'.frameLog, show stepFrames (x :: xs) = stepFrames [x] ++ stepFrames xs from
        List.filterMap_append (l := [x])]
      exact frames.append frames'

/-! ### A dead line -/

/-- On a dead line a handshake that reads fails at its first read (R144, R235). -/
theorem handshake_dead {xs : List SeqStep} (hx : xs.all SeqStep.isHandshake = true) (reads : ∃ cmd, .fr cmd ∈ xs) : ∀ {s : State},
    DeadLine s → ∃ t, runSteps xs s = .err .busFault t ∧ LinkStep s t := by
  induction xs with
  | nil => simp at reads
  | cons x xs ih =>
    intro s h
    rw [List.all_cons, Bool.and_eq_true] at hx
    have later : ∀ {t : State}, (∀ cmd, x ≠ .fr cmd) → runStep x s = .ok () t → LinkStep s t →
        ∃ u, runSteps (x :: xs) s = .err .busFault u ∧ LinkStep s u := fun {t} other ht link => by
      obtain ⟨u, hu, link'⟩ := ih hx.2 (by
        obtain ⟨cmd, hc⟩ := reads
        exact ⟨cmd, (List.mem_cons.1 hc).resolve_left fun e => other cmd e.symm⟩) (DeadLine.step h link)
      refine ⟨u, ?_, link.trans link'⟩
      rw [runSteps, runEach, ht]
      exact hu
    cases x with
    | fw cmd v =>
      obtain ⟨t, ht, framed⟩ := framed_fw cmd v h.pin
      exact later (by simp) ht framed.step
    | fr cmd =>
      obtain ⟨t, ht, link⟩ := fr_dead h cmd
      refine ⟨t, ?_, link⟩
      rw [runSteps, runEach, runStep, ht]
      rfl
    | wait n => exact later (by simp) rfl (LinkStep.rel.wait n s)
    | memWriteWord | memReadWord | flashUnlock | flashWaitNotBusy => cases hx.1

theorem deadLine_begin {s : State} (h : DeadLine s) (op : Byte) : DeadLine (begin op s) := ⟨h.valid, h.pin, h.script, h.rest⟩

/-- On a dead line a link init whose handshake reads ends with `InitFailure` (R235, R283 (b)). -/
theorem linkInit_dead {s : State} (h : DeadLine s) (reads : ∃ cmd, .fr cmd ∈ s.cfg.seqInit) :
    ∃ t, linkInit s = .err .initFailure t ∧ LinkStep s t := by
  have discard := LinkStep.discard s
  obtain ⟨u, hu, link⟩ := handshake_dead h.valid.seqInit reads (DeadLine.step h discard)
  exact ⟨_, linkInit_of_err h.pin hu, (discard.trans link).trans (LinkStep.discard u)⟩

/-- Settles O46. -/
theorem linkInitRule : Obligations.LinkInitRule := by
  intro s discarded
  refine ⟨fun h => ?_, fun h => ?_, fun hv hp h => ?_, fun h reads => ?_, fun e t h => linkInit_err h⟩
  · simp only [exec, execLinkInit, linkInit_noPin (s := begin 0x27 s) h]
    rfl
  · obtain ⟨u, hu, ran⟩ := runs_linkInit (ZeroTarget.begin h 0x27) rfl
    obtain ⟨tag, cleared⟩ := linkInit_ok (s := begin 0x27 s) h.valid hu
    obtain ⟨responded, link, sends⟩ := ran_response 0 none none ran
    exact ⟨_, congrArg (fun r => Host.Outcome.next (finish r)) hu, responded, link, tag, cleared, sends⟩
  · have discard := LinkStep.discard (begin 0x27 s)
    obtain ⟨u, hu, step, frames⟩ := handshake_answersAll hv.seqInit (s := discardLink (begin 0x27 s)) hp ⟨h.script, h.rest⟩
    have run := linkInit_of_ok (s := begin 0x27 s) hp hu
    obtain ⟨tag, cleared⟩ := linkInit_ok (s := begin 0x27 s) hv run
    have link := (discard.trans step).trans (LinkStep.rel.tag u .started)
    exact ⟨_, congrArg (fun r => Host.Outcome.next (finish r)) run, responded_respond .., onlyLink_respond (onlyLink_begin link.toOnlyLink),
      tag, cleared, frames⟩
  · obtain ⟨u, hu, link⟩ := linkInit_dead (deadLine_begin h 0x27) reads
    obtain ⟨tag, cleared⟩ := linkInit_err hu
    exact ⟨_, congrArg (fun r => Host.Outcome.next (finish r)) hu, responded_respond .., onlyLink_respond (onlyLink_begin link.toOnlyLink),
      tag, cleared⟩

end Sys2Proof.Proofs
end

section
/-!
PROOFS. The flasher commands that run on the link between `Enter` and `S.active <- 0` (R239, R250 to R261): the halt commands, `READ_BLOB` and
`CHIP_INFO`. `Enter` disconnects the terminal, so that the acts of the body are all that is sent.
-/
namespace Sys2Proof.Proofs

open Sys2Proof.Machine Sys2Proof.Safety Sys2Proof.Laws
open Sys2Proof.Config (Params SlotDraw SeqStep)

/-! ### Between `Enter` and the response -/

/-- The state a flasher command's body starts in. -/
abbrev entered (op : Byte) (s : State) : State := enter (begin op s)

theorem quiet_entered (op : Byte) (s : State) : Quiet (entered op s) := .inr ⟨rfl, rfl⟩

theorem zeroTarget_entered {s : State} (h : ZeroTarget s) (op : Byte) : ZeroTarget (entered op s) :=
  ⟨h.valid, h.aligned, h.pin, h.script, h.rest⟩

theorem script_entered {s : State} (hv : s.cfg.Valid) (hp : s.pinMask ≠ 0) (op : Byte) {ds : List SlotDraw} (hs : s.slotIn = ds) :
    Script s.cfg ds (entered op s) := ⟨rfl, hv, hp, quiet_entered op s, hs⟩

theorem not_inFlight {s : State} (h1 : s.status ≠ .uploading) (h2 : s.status ≠ .updating) : ¬ inFlight s = true := by
  rw [inFlight_iff]
  exact not_or.2 ⟨h1, h2⟩

/-- A flasher command whose body succeeds, and is not kept out by a session (R239, R264). -/
theorem flasherCommand_ok {α : Type} {op : Byte} {body : State → Res α} {fin : Res α → State} {s u : State} {a : α}
    (idle : ¬ inFlight s = true) (h : body (entered op s) = .ok a u) : flasherCommand op body fin s = fin (.ok a (leave u)) := by
  rw [flasherCommand, if_neg idle, h]
  rfl

theorem flasherCommand_err {α : Type} {op : Byte} {body : State → Res α} {fin : Res α → State} {s u : State} {e : ErrKind}
    (idle : ¬ inFlight s = true) (h : body (entered op s) = .err e u) : flasherCommand op body fin s = fin (.err e (leave u)) := by
  rw [flasherCommand, if_neg idle, h]
  rfl

/-- What a flasher command that carries the code `c` leaves, its acts being `as` (R239). -/
structure Commanded (c : Word) (s t : State) (as : List Act) : Prop where
  responded : Responded c t
  link : OnlyLink { s with active := false } t
  disconnected : t.terminalConnected = false
  sent : Sent s t as

theorem powered {op : Byte} {s u : State} (h : OnlyLink (entered op s) u) :
    OnlyLink { enter (begin op s) with powerGate := s.powerGate } u := by
  obtain ⟨⟩ := h
  constructor <;> assumption

theorem ran_commanded (c : Word) (v : Option Word) (d : Option (List Byte)) {op : Byte} {s u : State} {as : List Act}
    (h : Ran (entered op s) u as) : Commanded c s (respond c v d (leave u)) as where
  responded := responded_respond ..
  link := onlyLink_respond (onlyLink_entered (u := u) (power := s.powerGate) (powered h.step.toOnlyLink))
  disconnected := entered_disconnected (u := u) (power := s.powerGate) (powered h.step.toOnlyLink)
  sent := by
    have sent := h.quiet (quiet_entered op s)
    exact ⟨sent.frames, sent.cache⟩

/-! ### Halt, reboot and resume (R251 to R255) -/

theorem runs_haltBody (m : HaltMode) {s : State} (h : ZeroTarget s) : Runs (haltBody m s) s () (linkActs s ++ haltActs s.cfg m) :=
  Runs.bind (runs_ensureLink h) fun _ ran => runs_haltctl m (ZeroTarget.step h ran.step) ran.step.cfg

/-- Steps that only send leave the cache as it was (R141). -/
theorem stepsActs_sends_cache (p : Params) {xs : List SeqStep} (h : xs.all sendsOnly = true) (c : Cache) :
    traceCache p c (stepsActs p xs) = c := by
  induction xs with
  | nil => rfl
  | cons x xs ih =>
    rw [List.all_cons, Bool.and_eq_true] at h
    rw [show stepsActs p (x :: xs) = stepActs p x ++ stepsActs p xs from rfl, traceCache_append]
    cases x with
    | fw | wait => exact ih h.2
    | fr | memWriteWord | memReadWord | flashUnlock | flashWaitNotBusy => cases h.1

theorem traceCache_haltActs_tag {p : Params} {m : HaltMode} (h : (haltSteps p m).all sendsOnly = true) (c : Cache) :
    (traceCache p c (haltActs p m)).tag = tagDropped c.tag := by
  rw [haltActs, traceCache_append]
  exact congrArg Cache.tag (stepsActs_sends_cache p h { c with tag := tagDropped c.tag })

theorem traceCache_linkActs_tag (s : State) : (traceCache s.cfg (cacheOf s) (linkActs s)).tag =
    if s.sessionTag = .none then .started else s.sessionTag := by
  rw [linkActs]
  split
  · rw [initActs, traceCache_append]
    rfl
  · rfl

theorem haltCommand (m : HaltMode) (op : Byte) {s : State} (h1 : s.status ≠ .uploading) (h2 : s.status ≠ .updating) (h : ZeroTarget s) :
    ∃ t, flasherCommand op (haltBody m) finish s = t ∧ Commanded 0 s t (linkActs s ++ haltActs s.cfg m) := by
  obtain ⟨u, hu, ran⟩ := runs_haltBody m (zeroTarget_entered h op)
  exact ⟨_, flasherCommand_ok (not_inFlight h1 h2) hu, ran_commanded 0 none none ran⟩

/-- Settles O47: each of the five commands is `haltBody` of its mode; the tag is that of the acts. -/
theorem haltCommandsComplete : Obligations.HaltCommandsComplete := by
  intro s i m hm h1 h2 h
  have command : ∃ op, exec i s = .next (flasherCommand op (haltBody m) finish s) := by
    simp only [List.mem_cons, List.not_mem_nil, or_false, Prod.mk.injEq] at hm
    rcases hm with ⟨rfl, rfl⟩ | ⟨rfl, rfl⟩ | ⟨rfl, rfl⟩ | ⟨rfl, rfl⟩ | ⟨rfl, rfl⟩ <;> exact ⟨_, rfl⟩
  obtain ⟨op, command⟩ := command
  obtain ⟨t, ht, done⟩ := haltCommand m op h1 h2 h
  refine ⟨t, command.trans (congrArg _ ht), done.responded, done.link, done.disconnected, done.sent, fun sends => ?_⟩
  have tag := congrArg Cache.tag done.sent.cache
  rw [traceCache_append, traceCache_haltActs_tag sends, traceCache_linkActs_tag] at tag
  refine tag.trans ?_
  split <;> rfl

/-! ### `READ_BLOB` and `CHIP_INFO` (R258, R260) -/

/-- The acts of a reading command: link init if it is needed, the halt without reset, the reads, and the resume. -/
def framedActs (s : State) (acts : List Act) : List Act :=
  linkActs s ++ haltActs s.cfg .haltNoReset ++ acts ++ haltActs s.cfg .resume

/-- A body of a reading command against zeros, by its reads. -/
theorem runs_framed {α : Type} {reads : State → Res α} {a : α} {acts : List Act} {s : State} (h : ZeroTarget s)
    (hr : ∀ t, ZeroTarget t → t.cfg = s.cfg → Runs (reads t) t a acts) :
    Runs ((ensureLink s).bind fun _ s => (haltctl .haltNoReset s).bind fun _ s => (reads s).bind fun r s =>
      (haltctl .resume s).bind fun _ s => .ok r s) s a (framedActs s acts) := by
  rw [framedActs, List.append_assoc, List.append_assoc]
  refine Runs.next (runs_ensureLink h) h rfl fun t h hc _ => ?_
  refine Runs.next (runs_haltctl .haltNoReset h hc) h hc fun t h hc _ => ?_
  refine Runs.next (hr t h hc) h hc fun t h hc _ => ?_
  exact Runs.map (runs_haltctl .resume h hc) fun _ => a

/-- The same against given answers, where the step lists only send. -/
theorem script_framed {α : Type} {p : Params} {reads : State → Res α} {a : α} {acts : List Act} {ds rest : List SlotDraw} {s : State}
    (hi : p.seqInit.all sendsOnly = true) (hh : (haltSteps p .haltNoReset).all sendsOnly = true)
    (hres : (haltSteps p .resume).all sendsOnly = true)
    (h : Script p (List.replicate 32 zeroDraw ++ (ds ++ (List.replicate 32 zeroDraw ++ rest))) s)
    (hr : ∀ t, Script p (ds ++ (List.replicate 32 zeroDraw ++ rest)) t →
      Goes (reads t) t a acts (Script p (List.replicate 32 zeroDraw ++ rest))) :
    Goes ((ensureLink s).bind fun _ s => (haltctl .haltNoReset s).bind fun _ s => (reads s).bind fun r s =>
      (haltctl .resume s).bind fun _ s => .ok r s) s a (framedActs s acts) (Script p rest) := by
  rw [framedActs, h.cfg, List.append_assoc, List.append_assoc]
  refine Goes.bind (script_ensureLink hi h) fun t _ h => ?_
  refine Goes.bind (script_haltctl .haltNoReset hh h) fun t _ h => ?_
  refine Goes.bind (hr t h) fun t _ h => ?_
  exact Goes.map (script_haltctl .resume hres h) fun _ => a

theorem exec_readBlob_outOfRange {s : State} {a n : Word}
    (h : ¬ (n ≠ 0 ∧ n.toNat ≤ s.cfg.maxBinary ∧ a.toNat + n.toNat ≤ 2 ^ 32)) :
    exec (.readBlob (some a) (some n)) s = .next (respondErr .outOfRange s) := by
  have refused : n = 0 ∨ s.cfg.maxBinary < n.toNat ∨ wraps a.toNat n.toNat = true := by
    rw [wraps, decide_eq_true_eq]
    by_contra hn
    push Not at hn
    exact h hn
  simp only [exec, execReadBlob, if_pos refused]

theorem exec_readBlob_inRange {s : State} {a n : Word} (h : n ≠ 0 ∧ n.toNat ≤ s.cfg.maxBinary ∧ a.toNat + n.toNat ≤ 2 ^ 32) :
    exec (.readBlob (some a) (some n)) s = .next (flasherCommand 0x45 (readBlobBody a.toNat n.toNat) finishData s) := by
  have accepted : ¬ (n = 0 ∨ s.cfg.maxBinary < n.toNat ∨ wraps a.toNat n.toNat = true) := by
    rw [wraps, decide_eq_true_eq]
    push Not
    exact h
  simp only [exec, execReadBlob, if_neg accepted]

/-- The words of `CHIP_INFO`, all aligned, against zeros. -/
theorem runs_chipInfo {p : Params} {s : State} (h : ZeroTarget s) (hc : s.cfg = p) :
    Runs (collectEach (fun a => memReadWord a false) p.chipInfoAddrs s) s (p.chipInfoAddrs.map fun _ => 0)
      (p.chipInfoAddrs.map fun x => .readWord x false 0) := by
  have valid : p.Valid := hc ▸ h.valid
  have run := Runs.collect (f := fun a => memReadWord a false) (v := fun _ => 0) (g := fun x => [.readWord x false 0]) p.chipInfoAddrs
    s h hc fun x hx t ht _ => runs_memReadWord false ht ((aligned4_iff x).2 (valid.chipInfoAddrs x hx))
  rwa [← List.map_eq_flatMap] at run

/-- The same against given answers. -/
theorem script_chipInfo {p : Params} {rs : Reads} {rest : List SlotDraw} {s : State} (ho : ReadsOk p p.chipInfoAddrs.length rs)
    (h : Script p (readScript rs ++ rest) s) :
    Goes (collectEach (fun a => memReadWord a false) p.chipInfoAddrs s) s (List.zipWith (fun _ r => r.2) p.chipInfoAddrs rs)
      (List.zipWith (fun x r => .readWord x false r.2) p.chipInfoAddrs rs) (Script p rest) :=
  script_collect (f := fun a => memReadWord a false) (v := fun _ r => r.2) (g := fun x r => .readWord x false r.2) p.chipInfoAddrs rs
    (fun x hx _ _ _ ha hs => script_memReadWord false hs ha ((aligned4_iff x).2 (h.valid.chipInfoAddrs x hx))) ho h

theorem flatMap_wordBytes_zeros {β : Type} (xs : List β) :
    (xs.map fun _ => (0 : Word)).flatMap wordBytes = List.replicate (4 * xs.length) 0 := by
  induction xs with
  | nil => rfl
  | cons x xs ih =>
    rw [List.map_cons, List.flatMap_cons, ih, List.length_cons, Nat.mul_succ, Nat.add_comm, List.replicate_add]
    rfl

theorem flatMap_wordBytes_reads : ∀ {xs : List Word} {rs : Reads}, rs.length = xs.length →
    (List.zipWith (fun _ r => r.2) xs rs).flatMap wordBytes = wordsData rs
  | [], [], _ => rfl
  | [], _ :: _, h => by cases h
  | _ :: _, [], h => by cases h
  | x :: xs, r :: rs, h => by
    rw [List.zipWith_cons_cons, List.flatMap_cons, flatMap_wordBytes_reads (Nat.succ.inj h)]
    rfl

/-- Settles O48: the refusals, and the two bodies, which differ in their reads, against zeros and against given answers. -/
theorem readCommandsComplete : Obligations.ReadCommandsComplete := by
  intro s a n accesses framed inRange
  refine ⟨exec_readBlob_outOfRange, fun h1 h2 => ⟨fun h => ⟨fun range => ?_, ?_⟩, fun rs rest hv hp hi hpre hhalt hres hs =>
    ⟨fun range ho => ?_, fun ho => ?_⟩⟩⟩
  · obtain ⟨u, hu, ran⟩ := runs_framed (reads := blobRead a.toNat n.toNat) (zeroTarget_entered h 0x45) fun t ht _ =>
      runs_blobRead ht range.2.2
    have done := ran_commanded 0 none (some (List.replicate n.toNat 0)) ran
    refine ⟨_, ?_, done.responded, done.link, done.disconnected, rfl, done.sent⟩
    rw [exec_readBlob_inRange range, flasherCommand_ok (not_inFlight h1 h2) hu]
    rfl
  · obtain ⟨u, hu, ran⟩ := runs_framed (reads := fun s => collectEach (fun a => memReadWord a false) s.cfg.chipInfoAddrs s)
      (zeroTarget_entered h 0x48) fun t ht hc => by
      simp only [hc]
      exact runs_chipInfo ht hc
    have done := ran_commanded 0 none (some (List.replicate (4 * s.cfg.chipInfoAddrs.length) 0)) ran
    refine ⟨_, ?_, done.responded, done.link, done.disconnected, rfl, done.sent⟩
    rw [← flatMap_wordBytes_zeros]
    exact congrArg Host.Outcome.next (flasherCommand_ok (not_inFlight h1 h2) hu)
  all_goals
    have halts : (haltSteps s.cfg .haltNoReset).all sendsOnly = true := by simp [haltSteps, modeSteps, hpre, hhalt]
    have resumes : (haltSteps s.cfg .resume).all sendsOnly = true := by simp [haltSteps, modeSteps, hpre, hres]
    rw [List.append_assoc, List.append_assoc] at hs
  · obtain ⟨u, hu, ran, -⟩ := script_framed (reads := blobRead a.toNat n.toNat) hi halts resumes (script_entered hv hp 0x45 hs)
      fun t ht => script_blobRead range.2.2 ho ht
    have done := ran_commanded 0 none (some (readData accesses rs)) ran
    refine ⟨_, ?_, done.responded, done.link, done.disconnected, rfl, done.sent⟩
    rw [exec_readBlob_inRange range, flasherCommand_ok (not_inFlight h1 h2) hu]
    rfl
  · obtain ⟨u, hu, ran, -⟩ := script_framed (reads := fun s => collectEach (fun a => memReadWord a false) s.cfg.chipInfoAddrs s)
      hi halts resumes (script_entered hv hp 0x48 hs) fun t ht => by
      simp only [ht.cfg]
      exact script_chipInfo ho ht
    have done := ran_commanded 0 none (some (wordsData rs)) ran
    refine ⟨_, ?_, done.responded, done.link, done.disconnected, rfl, done.sent⟩
    rw [← flatMap_wordBytes_reads ho.length]
    exact congrArg Host.Outcome.next (flasherCommand_ok (not_inFlight h1 h2) hu)

end Sys2Proof.Proofs
end

section
/-!
PROOFS. `UNBRICK` (R104, R259): the power cycle, the tries, and what follows the first one that finds the target halted. Between the power
cycle and the response everything is an operation of the link.
-/
namespace Sys2Proof.Proofs

open Sys2Proof.Machine Sys2Proof.Safety Sys2Proof.Laws
open Sys2Proof.Config (Params SlotDraw SeqStep)

/-! ### The power cycle -/

/-- The state after the power cycle, with which the tries begin. -/
def powerCycled (s : State) : State :=
  { entered 0x46 s with
    powerGate := true
    lineLog := s.lineLog ++ [.power false, .hold s.cfg.powerOffTime, .power true, .hold s.cfg.powerOnTime] }

theorem powerCycle_entered (s : State) : setPower true (entered 0x46 s).cfg.powerOnTime
    (setPower false (entered 0x46 s).cfg.powerOffTime (entered 0x46 s)) = powerCycled s := powerCycle_eq _ _ _

theorem zeroTarget_powerCycled {s : State} (h : ZeroTarget s) : ZeroTarget (powerCycled s) :=
  ⟨h.valid, h.aligned, h.pin, h.script, h.rest⟩

theorem deadLine_powerCycled {s : State} (h : DeadLine s) : DeadLine (powerCycled s) := ⟨h.valid, h.pin, h.script, h.rest⟩

theorem script_powerCycled {s : State} (hv : s.cfg.Valid) (hp : s.pinMask ≠ 0) {ds : List SlotDraw} (hs : s.slotIn = ds) :
    Script s.cfg ds (powerCycled s) := ⟨rfl, hv, hp, .inr ⟨rfl, rfl⟩, hs⟩

theorem sent_powerCycled {c : Word} {v : Option Word} {d : Option (List Byte)} {s u : State} {as : List Act}
    (h : Ran (powerCycled s) u as) : Sent s (respond c v d (leave u)) as := by
  have sent := h.quiet (.inr ⟨rfl, rfl⟩)
  exact ⟨sent.frames, sent.cache⟩

/-- The target stays powered, and only the link differs else (R259). -/
theorem onlyLink_powerCycled {s u : State} (h : LinkStep (powerCycled s) u) :
    OnlyLink { s with active := false, powerGate := true } (leave u) ∧ (leave u).terminalConnected = false := by
  have cycle := onlyLink_powerCycle (entered 0x46 s).cfg.powerOffTime (entered 0x46 s).cfg.powerOnTime (entered 0x46 s)
  rw [powerCycle_entered] at cycle
  have link := onlyLink_trans cycle h.toOnlyLink
  exact ⟨onlyLink_entered (op := 0x46) (power := true) link, entered_disconnected (op := 0x46) (power := true) link⟩

theorem exec_unbrick {s : State} (gate : s.cfg.hasPowerGate = true) :
    exec .unbrick s = .next (flasherCommand 0x46 unbrickBody finish s) := by
  simp only [exec, execUnbrick, gate, Bool.not_true, Bool.false_eq_true, if_false]

/-- No try finds the target halted. -/
theorem exec_unbrick_gaveUp {s u : State} (gate : s.cfg.hasPowerGate = true) (idle : ¬ inFlight s = true)
    (tries : unbrickLoop s.cfg.unbrickTries (powerCycled s) = (false, u)) :
    exec .unbrick s = .next (respondErr .initFailure (leave u)) := by
  have body : unbrickBody (entered 0x46 s) = .err .initFailure u := by
    unfold unbrickBody
    dsimp only
    rw [powerCycle_entered, show (powerCycled s).cfg = s.cfg from rfl, tries]
  rw [exec_unbrick gate, flasherCommand_err idle body]
  rfl

/-- A try finds it halted. -/
theorem exec_unbrick_found {s u v : State} (gate : s.cfg.hasPowerGate = true) (idle : ¬ inFlight s = true)
    (tries : unbrickLoop s.cfg.unbrickTries (powerCycled s) = (true, u))
    (rest : ((runSteps u.cfg.seqOptDefault u).bind fun _ s => flashEraseChip s) = .ok () v) :
    exec .unbrick s = .next (respond 0 none none (leave v)) := by
  have body : unbrickBody (entered 0x46 s) = .ok () v := by
    unfold unbrickBody
    dsimp only
    rw [powerCycle_entered, show (powerCycled s).cfg = s.cfg from rfl, tries]
    exact rest
  rw [exec_unbrick gate, flasherCommand_ok idle body]
  rfl

/-! ### Tries that fail -/

/-- A try against zeros, whose status is not halted. -/
theorem runs_unbrickTry {p : Params} {s : State} (h : ZeroTarget s) (hc : s.cfg = p) :
    Runs (unbrickTry s) s 0 (initActs p ++ haltActs p .haltReset ++ [.frame (.read p.dmStatus (some 0))]) := by
  rw [List.append_assoc]
  refine Runs.next (runs_linkInit h hc) h hc fun t h hc _ => ?_
  exact Runs.next (runs_haltctl .haltReset h hc) h hc fun t h hc _ => hc ▸ runs_fr _ h

theorem unbrickLoop_zero {p : Params} (n : Nat) : ∀ {s : State}, ZeroTarget s → s.cfg = p → ∃ t, unbrickLoop n s = (false, t) ∧
    Ran s t (List.replicate n (initActs p ++ haltActs p .haltReset ++ [.frame (.read p.dmStatus (some 0))])).flatten := by
  induction n with
  | zero => exact fun {s} _ _ => ⟨s, rfl, .refl s⟩
  | succ n ih =>
    intro s h hc
    obtain ⟨t, ht, ran⟩ := runs_unbrickTry h hc
    have target := ZeroTarget.step h ran.step
    obtain ⟨u, hu, ran'⟩ := ih target (ran.step.cfg.trans hc)
    have running : ¬ (0 : Word) &&& t.cfg.haltedMask = t.cfg.haltedMask := fun e => target.valid.haltedMask (by simpa using e.symm)
    refine ⟨u, ?_, ran.trans ran'⟩
    rw [unbrickLoop, ht]
    exact (if_neg running).trans hu

/-- Tries that fail as `FailedTry` says. -/
theorem script_failedTries {p : Params} (hi : p.seqInit.all sendsOnly = true) (hh : (haltSteps p .haltReset).all sendsOnly = true)
    (n : Nat) {rest : List SlotDraw} (tries : List FailedTry) : ∀ {s : State}, (∀ x ∈ tries, x.Fails p) →
    Script p (tries.flatMap FailedTry.script ++ rest) s → ∃ t, unbrickLoop (tries.length + n) s = unbrickLoop n t ∧
      Ran s t (tries.flatMap (FailedTry.acts p)) ∧ Script p rest t := by
  induction tries with
  | nil =>
    intro s _ h
    rw [List.length_nil, Nat.zero_add]
    exact ⟨s, rfl, .refl s, h⟩
  | cons x tries ih =>
    intro s hx h
    rw [List.forall_mem_cons] at hx
    rw [List.flatMap_cons, List.append_assoc] at h
    obtain ⟨t, ht, ran, scriptT⟩ := script_failedTry x hx.1 hi hh h
    obtain ⟨u, hu, ran', scriptU⟩ := ih hx.2 scriptT
    refine ⟨u, ?_, ran.trans ran', scriptU⟩
    rw [List.length_cons, Nat.add_right_comm, ht, hu]

/-- A property of the line on which every try ends with an error. -/
theorem unbrickLoop_errors {Z : State → Prop} (hz : ∀ {s t}, Z s → LinkStep s t → Z t)
    (he : ∀ {s}, Z s → ∃ e t, unbrickTry s = .err e t) (n : Nat) : ∀ {s : State}, Z s → ∃ t, unbrickLoop n s = (false, t) ∧ LinkStep s t := by
  induction n with
  | zero => exact fun {s} _ => ⟨s, rfl, .refl s⟩
  | succ n ih =>
    intro s h
    obtain ⟨e, t, ht⟩ := he h
    have step := LinkStep.rel.unbrickTry LinkStep.discard s
    rw [ht] at step
    obtain ⟨u, hu, step'⟩ := ih (hz h step)
    refine ⟨u, ?_, LinkStep.trans step step'⟩
    rw [unbrickLoop, ht]
    exact hu

theorem unbrickTry_noPin {s : State} (h : s.pinMask = 0) : ∃ e t, unbrickTry s = .err e t :=
  ⟨.initFailure, discardLink s, by rw [unbrickTry, linkInit_noPin h]; rfl⟩

theorem unbrickTry_dead {s : State} (h : DeadLine s) : ∃ e t, unbrickTry s = .err e t := by
  have init := LinkStep.rel.linkInit LinkStep.discard s
  rw [unbrickTry]
  cases hr : linkInit s with
  | err e t => exact ⟨e, t, rfl⟩
  | ok a t =>
    rw [hr] at init
    obtain ⟨e, u, hu, -⟩ := haltctl_dead (DeadLine.step (t := t) h init) .haltReset
    refine ⟨e, u, ?_⟩
    rw [ok_bind, hu]
    rfl

/-- Settles O50: no gate; and the loop's end in each of the settings. -/
theorem unbrickGivesUp : Obligations.UnbrickGivesUp := by
  intro s
  refine ⟨fun gate => ?_, fun gate h1 h2 => ?_⟩
  · simp only [exec, execUnbrick, gate, Bool.not_false, if_true]
  · have idle := not_inFlight h1 h2
    have gaveUp : ∀ {u : State}, unbrickLoop s.cfg.unbrickTries (powerCycled s) = (false, u) → LinkStep (powerCycled s) u →
        exec .unbrick s = .next (respondErr .initFailure (leave u)) ∧
        Responded ErrKind.initFailure.code (respondErr .initFailure (leave u)) ∧
        OnlyLink { s with active := false, powerGate := true } (respondErr .initFailure (leave u)) ∧
        (respondErr .initFailure (leave u)).terminalConnected = false := fun tries step => by
      obtain ⟨link, disconnected⟩ := onlyLink_powerCycled step
      exact ⟨exec_unbrick_gaveUp gate idle tries, responded_respond .., onlyLink_respond link, disconnected⟩
    refine ⟨fun h => ?_, fun tries rest hv hp hi hpre hhalt hl hx hs => ?_, fun h => ?_⟩
    · obtain ⟨u, tries, ran⟩ := unbrickLoop_zero s.cfg.unbrickTries (zeroTarget_powerCycled h) rfl
      exact ⟨_, gaveUp tries ran.step, sent_powerCycled ran⟩
    · have halts : (haltSteps s.cfg .haltReset).all sendsOnly = true := by simp [haltSteps, modeSteps, hpre, hhalt]
      obtain ⟨u, loop, ran, script⟩ := script_failedTries hi halts 0 tries hx (script_powerCycled hv hp hs)
      rw [Nat.add_zero, hl] at loop
      exact ⟨_, gaveUp loop ran.step, script.slots, sent_powerCycled ran⟩
    · rcases h with h | h
      · obtain ⟨u, tries, step⟩ := unbrickLoop_errors DeadLine.step unbrickTry_dead s.cfg.unbrickTries (deadLine_powerCycled h)
        exact ⟨_, gaveUp tries step⟩
      · obtain ⟨u, tries, step⟩ := unbrickLoop_errors (Z := fun s => s.pinMask = 0) (fun h step => step.pinMask.trans h)
          unbrickTry_noPin s.cfg.unbrickTries (s := powerCycled s) h
        exact ⟨_, gaveUp tries step⟩

/-! ### The power gate on the line -/

/-- Between `s` and `t` the line gained no setting of the power gate. -/
def NoPower (s t : State) : Prop := ∃ es, t.lineLog = s.lineLog ++ es ∧ ∀ e ∈ es, ∀ on, e ≠ .power on

theorem NoPower.of_same {s t : State} (h : t.lineLog = s.lineLog) : NoPower s t := ⟨[], h.trans (List.append_nil _).symm, by simp⟩

theorem NoPower.trans {s t u : State} (h : NoPower s t) (k : NoPower t u) : NoPower s u := by
  obtain ⟨es, hes, none⟩ := h
  obtain ⟨fs, hfs, none'⟩ := k
  refine ⟨es ++ fs, by rw [hfs, hes, List.append_assoc], fun e he => ?_⟩
  rcases List.mem_append.1 he with he | he
  · exact none e he
  · exact none' e he

theorem noPower_takePort (who : Issuer) (s : State) : NoPower s (takePort who s) := by
  unfold takePort awaitPort
  cases s.portOwner with
  | free => exact ⟨_, rfl, by simp⟩
  | held other => exact ⟨_, List.append_assoc .., by simp⟩

theorem noPower_sendBits (c : Nat) (bits : List Bool) (s : State) : NoPower s (sendBits c bits s) := by
  refine ⟨_, rfl, fun e he on => ?_⟩
  obtain ⟨b, -, he⟩ := List.mem_flatMap.1 he
  rintro rfl
  simp [symbolEvents] at he

theorem noPower_readBit (c : Nat) (s : State) : NoPower s (readBit c s).2 := by
  obtain ⟨d, slots, count, draw, -⟩ := nextDraw_spec s
  rw [readBit_of_draw draw]
  refine ⟨_, rfl, fun e he on => ?_⟩
  rintro rfl
  rw [slotEvents] at he
  cases seen : seenHigh s.cfg d <;> simp [seen] at he

theorem noPower_readSlots (c : Nat) (n : Nat) : ∀ (v : Word) (s : State), NoPower s (readSlots c n v s).2 := by
  induction n with
  | zero => exact fun _ _ => .of_same rfl
  | succ n ih =>
    intro v s
    have slot := noPower_readBit c s
    rw [readSlots]
    split
    next t ht => rwa [ht] at slot
    next b t ht =>
      rw [ht] at slot
      exact slot.trans (ih _ t)

theorem noPower_freePort (who : Issuer) (gap : List LineEvent) (s : State) (h : ∀ e ∈ gap, ∀ on, e ≠ .power on) :
    NoPower s (freePort who gap s) := by
  refine ⟨_, rfl, fun e he on => ?_⟩
  simp only [List.mem_cons, List.mem_append, List.not_mem_nil, or_false] at he
  rcases he with (rfl | he) | rfl
  · simp
  · exact h e he on
  · simp

theorem noPower_frameWrite (who : Issuer) (cmd : Cmd) (v : Word) (s : State) : NoPower s (frameWrite who cmd v s).state := by
  unfold frameWrite
  split
  · exact .of_same rfl
  · exact (noPower_takePort who s).trans ((noPower_sendBits _ _ _).trans (noPower_freePort who _ _ (by simp)))

theorem noPower_frameRead (who : Issuer) (cmd : Cmd) (s : State) : NoPower s (frameRead who cmd s).state := by
  unfold frameRead
  split
  · exact .of_same rfl
  · have slots := (noPower_takePort who s).trans ((noPower_sendBits s.timingCoefficient.toNat (headerBits cmd false) _).trans
      (noPower_readSlots s.timingCoefficient.toNat 32 0 _))
    dsimp only
    have freed := slots.trans (noPower_freePort who [.gap (readSlots s.timingCoefficient.toNat 32 0 (sendBits s.timingCoefficient.toNat
      (headerBits cmd false) (takePort who s))).2.cfg.frameGap] _ (by simp))
    split <;> exact freed

theorem noPower_alone {α : Type} (who : Issuer) (f : Nat → State → α × State) (hf : ∀ c s, NoPower s (f c s).2) (s : State) :
    NoPower s (phyAlone who f s).state := by
  unfold phyAlone
  split
  · exact .of_same rfl
  · exact (noPower_takePort who s).trans ((hf _ _).trans (noPower_freePort who _ _ (by simp)))

/-- No operation of the link sets the power gate. -/
theorem noPower_linkRel : LinkRel NoPower where
  refl _ := .of_same rfl
  trans := NoPower.trans
  frameWrite := noPower_frameWrite
  frameRead := noPower_frameRead
  symbol who b := noPower_alone who _ fun c s => noPower_sendBits c [b] s
  slot who := noPower_alone who _ noPower_readBit
  delay who n := noPower_alone who _ fun _ s => ⟨_, rfl, by simp⟩
  wait _ _ := ⟨_, rfl, by simp⟩
  tag _ _ := .of_same rfl
  turn _ _ _ _ := .of_same rfl
  connect _ _ := .of_same rfl
  disconnect _ := .of_same rfl
  cache _ _ _ _ _ := .of_same rfl
  unlocked _ := .of_same rfl

/-! ### A try that finds the target halted -/

theorem unlocks_of_sendsOnly {xs : List SeqStep} (h : xs.all sendsOnly = true) : unlocks xs = false := by
  rw [unlocks, Bool.eq_false_iff]
  intro hx
  have := List.all_eq_true.1 h _ (List.contains_iff_mem.1 hx)
  cases this

/-- The halted try: its acts, and the lock that its link init leaves closed. -/
theorem script_haltedTry {p : Params} {ds : List SlotDraw} {v : Word} {s : State} (hi : p.seqInit.all sendsOnly = true)
    (hh : (haltSteps p .haltReset).all sendsOnly = true) (hv : Answers p ds v)
    (h : Script p (List.replicate 32 zeroDraw ++ ds) s) :
    ∃ t, unbrickTry s = .ok v t ∧ Ran s t (initActs p ++ haltActs p .haltReset ++ [.frame (.read p.dmStatus (some v))]) ∧
      Script p [] t ∧ t.flashUnlocked = false := by
  obtain ⟨t, ht, ranT, scriptT⟩ := script_linkInit hi h
  obtain ⟨u, hu, ranU, scriptU⟩ := script_haltctl .haltReset hh scriptT
  obtain ⟨w, hw, framed, scriptW⟩ := script_answer [] hv p.dmStatus (s := u) (by rwa [List.append_nil])
  have ran := (ranT.trans ranU).trans (Low.act (.frame (.read p.dmStatus (some v))) framed)
  refine ⟨w, ?_, ran, scriptW, ?_⟩
  · rw [unbrickTry, ht, ok_bind, hu, ok_bind, scriptU.cfg, hw]
  · rw [ran.unlocked, h.cfg, traceCache_append, traceCache_append]
    change (traceCache p (traceCache p (cacheOf s) (initActs p)) (haltActs p .haltReset)).unlocked = false
    rw [haltActs_unlocked, initActs_unlocked h.valid, unlocks_of_sendsOnly hh]
    rfl

/-- The option bytes and the chip erase after it, against zeros (R259). -/
theorem runs_restore {p : Params} {s : State} (h : ZeroTarget s) (hc : s.cfg = p) (hu : s.flashUnlocked = false) :
    ∃ t, ((runSteps p.seqOptDefault s).bind fun _ s => flashEraseChip s) = .ok () t ∧ t.flashUnlocked = true ∧
      Ran s t (stepsActs p p.seqOptDefault ++ (ensureActs p (unlocks p.seqOptDefault) ++ eraseChipActs p)) := by
  obtain ⟨t, ht, ran⟩ := runs_runSteps h hc p.seqOptDefault (hc ▸ h.aligned.opt)
  have unlocked : t.flashUnlocked = unlocks p.seqOptDefault := by
    rw [ran.unlocked, hc, stepsActs_unlocked]
    exact (congrArg (· || _) hu).trans (Bool.false_or _)
  obtain ⟨u, hu', ran'⟩ := runs_flashEraseChip (ZeroTarget.step h ran.step) (ran.step.cfg.trans hc)
  refine ⟨u, ?_, ensured_append ran' (eraseChipActs_keep p), ?_⟩
  · rw [ht, ok_bind, hu']
  · rw [← unlocked]
    exact ran.trans ran'

/-- Settles O49: the failing tries, the one that finds the target halted, and the restore. -/
theorem unbrickCompletes : Obligations.UnbrickCompletes := by
  intro s tries ds v hv ha gate hp h1 h2 hi hpre hhalt hl hx hs hr hds hm
  have halts : (haltSteps s.cfg .haltReset).all sendsOnly = true := by simp [haltSteps, modeSteps, hpre, hhalt]
  obtain ⟨n, hn⟩ := Nat.exists_eq_add_of_lt hl
  rw [List.append_assoc] at hs
  obtain ⟨t, loop, ranT, scriptT⟩ := script_failedTries hi halts (n + 1) tries hx (script_powerCycled hv hp hs)
  obtain ⟨u, try_, ranU, scriptU, locked⟩ := script_haltedTry hi halts hds scriptT
  have target : ZeroTarget u := Script.zeros scriptU ha ((ranT.trans ranU).step.slotRest.trans hr)
  obtain ⟨w, hw, unlocked, ranW⟩ := runs_restore target scriptU.cfg locked
  have ran := (ranT.trans ranU).trans ranW
  have found : unbrickLoop s.cfg.unbrickTries (powerCycled s) = (true, u) := by
    rw [hn, Nat.add_assoc, loop, unbrickLoop, try_]
    exact if_pos (scriptU.cfg.symm ▸ hm)
  obtain ⟨link, disconnected⟩ := onlyLink_powerCycled ran.step
  have quietGate : NoPower (powerCycled s) w := by
    have tries := noPower_linkRel.unbrickLoop (fun _ => .of_same rfl) s.cfg.unbrickTries (powerCycled s)
    rw [found] at tries
    have restore := noPower_linkRel.bind (noPower_linkRel.runSteps s.cfg.seqOptDefault u) fun _ s => noPower_linkRel.flashEraseChip s
    rw [hw] at restore
    exact tries.trans restore
  obtain ⟨es, line, noPower⟩ := quietGate
  refine ⟨respond 0 none none (leave w), es, exec_unbrick_found gate (not_inFlight h1 h2) found (scriptU.cfg.symm ▸ hw),
    responded_respond .., onlyLink_respond link, disconnected, unlocked, ?_, noPower, ?_⟩
  · exact line
  · have sent := sent_powerCycled (c := 0) (v := none) (d := none) ran
    simpa only [List.append_assoc] using sent

end Sys2Proof.Proofs
end

section
/-!
PROOFS. The update run (R242 to R244) on a clock that stands still: an attempt is then one operation of the link, `attemptRun`, and each way
the run can end is a change of the session's own registers.
-/
namespace Sys2Proof.Proofs

open Sys2Proof.Machine Sys2Proof.Safety Sys2Proof.Laws
open Sys2Proof.Config (Params SlotDraw SeqStep)

/-! ### From the last chunk to the run -/

/-- The buffer after the last chunk. -/
abbrev filled (data : List Byte) (s : State) : Memory := Memory.writeBytes s.uploadBuffer s.received.toNat data

/-- The state in which the update of a completed upload starts, at the time `now` of the clock and with `clock` left of its script. -/
def inUpdate (data : List Byte) (now : Nat) (clock : List Nat) (s : State) : State :=
  { s with
    ctl := some 0x43
    status := .updating
    received := s.size
    uploadBuffer := filled data s
    now := now
    clockIn := clock
    watchdogDeadline := now + s.cfg.watchdogTimeout }

theorem received_of_complete {r n : Word} {l : Nat} (h : r.toNat + l = n.toNat) : r + BitVec.ofNat 32 l = n :=
  BitVec.eq_of_toNat_eq ((toNat_received_add h.le).trans h)

/-- The bytes of a completed upload, and that they are all readable. -/
theorem readBytes_filled {s : State} {data : List Byte} (hs : SessionOk s) (up : s.status = .uploading)
    (complete : s.received.toNat + data.length = s.size.toNat) :
    Memory.readBytes (filled data s) 0 s.size.toNat = .ok (uploadedBytes (filled data s) s.size.toNat) ∧
    (((∀ i, i < s.received.toNat → Memory.read s.uploadBuffer i = some 0) ∧ ∀ b ∈ data, b = 0) →
      ∀ b ∈ uploadedBytes (filled data s) s.size.toNat, b = 0) := by
  obtain ⟨bs, read, length, zero⟩ := Memory.readBytes_writeBytes s.uploadBuffer s.received.toNat s.size.toNat data complete (hs.stored up)
  obtain ⟨cs, read', -, bytes⟩ := Memory.readBytes_ok (filled data s) s.size.toNat 0 fun j _ hj =>
    isSome_read_writeBytes (hs.stored up) (by omega)
  obtain rfl : bs = cs := Except.ok.inj (read.symm.trans read')
  have same : bs = uploadedBytes (filled data s) s.size.toNat := by
    refine List.ext_getElem (by simp [uploadedBytes, length]) fun i h1 h2 => ?_
    have value := bytes i bs[i] (List.getElem?_eq_getElem h1)
    rw [Nat.zero_add] at value
    simp [uploadedBytes, value]
  rw [← same]
  exact ⟨read, zero⟩

theorem runUpload_of_bytes {u t : State} {bytes : List Byte} (read : Memory.readBytes u.uploadBuffer 0 u.size.toNat = .ok bytes)
    (run : updateRun bytes { u with status := .updating } = t) :
    runUpload u = .next (respond t.error (some t.status.code) none t) := by
  subst run
  rw [runUpload, read]

/-- A last chunk that leaves no byte missing (R241). -/
theorem acceptChunk_complete {s : State} {data : List Byte}
    (complete : (storeChunk data (refresh (begin 0x43 s))).received = (storeChunk data (refresh (begin 0x43 s))).size)
    (fits : s.received.toNat + data.length ≤ s.size.toNat) (room : s.received.toNat + data.length ≤ s.cfg.maxBinary) :
    acceptChunk data true s = runUpload (storeChunk data (refresh (begin 0x43 s))) := by
  rw [acceptChunk]
  simp only [refresh_fields, begin_fields]
  rw [if_neg (by omega), if_neg (by omega)]
  simp only [Bool.not_true, Bool.false_eq_true, if_false]
  exact if_neg (not_not.2 complete)

/-- The last chunk of an upload runs the update on its bytes, and answers with the session's code and status (R241, R246). -/
theorem exec_lastChunk {s : State} {data : List Byte} (hs : SessionOk s) (up : s.status = .uploading)
    (complete : s.received.toNat + data.length = s.size.toNat) {now : Nat} {clock : List Nat}
    (time : readClock s = { s with now := now, clockIn := clock }) {t : State}
    (run : updateRun (uploadedBytes (filled data s) s.size.toNat) (inUpdate data now clock s) = t) :
    exec (.uploadData data true) s = .next (respond t.error (some t.status.code) none t) := by
  have received := received_of_complete complete
  have bound := hs.size_le up
  have stored : storeChunk data (refresh (begin 0x43 s)) = { inUpdate data now clock s with status := s.status } := by
    rw [refresh_of_clock (s := s) (t := begin 0x43 s) rfl rfl rfl rfl, time, storeChunk, inUpdate]
    simp only [begin_fields, received]
  simp only [exec, execUploadData, if_neg (not_not.2 up)]
  rw [acceptChunk_complete (stored ▸ rfl) (by omega) (by omega), stored]
  exact runUpload_of_bytes (readBytes_filled hs up complete).1 run

/-! ### On a clock that stands still -/

/-- The clock stands still, at the deadline's distance. -/
structure Steady (s : State) : Prop extends ClockStill s where
  deadline : s.watchdogDeadline = s.now + s.cfg.watchdogTimeout

theorem Steady.step {s t : State} (h : Steady s) (k : LinkStep s t) : Steady t where
  script := k.clockIn.trans h.script
  rest := k.clockRest.trans h.rest
  deadline := by rw [k.watchdogDeadline, k.now, k.cfg, h.deadline]

theorem refresh_steady {s : State} (h : Steady s) : refresh s = s := by
  rw [refresh_still h.toClockStill, ← h.deadline]

theorem watched_steady {s : State} (h : Steady s) (k : State → AttemptEnd) : watched s k = k s := by
  rw [watched_still h.toClockStill (h.deadline ▸ Nat.le_add_right _ _), ← h.deadline]

/-- A session that has ended with a code and a status. -/
def closed (code : Word) (st : Status) (s : State) : State := { s with error := code, status := st, active := false }

/-- A session whose attempt has failed, with budget left (R243). -/
def retried (e : ErrKind) (s : State) : State := { s with error := e.code, currentRetry := s.currentRetry + 1 }

theorem failSession_steady {s : State} (h : Steady s) (e : ErrKind) : failSession e s = closed e.code .failed s :=
  refresh_steady (s := closed e.code .failed s) ⟨⟨h.script, h.rest⟩, h.deadline⟩

theorem Steady.retried {s : State} (h : Steady s) (e : ErrKind) : Steady (retried e s) := ⟨⟨h.script, h.rest⟩, h.deadline⟩

theorem retryUpdate_steady {s : State} (h : Steady s) (e : ErrKind) : retryUpdate e s = retried e s := refresh_steady (h.retried e)

/-- The closing halt/reset (R244). -/
theorem finishUpdate_ok {fl : Bool} {s t : State} (h : Steady s) (done : haltctl (closeMode fl) s = .ok () t) :
    finishUpdate fl s = closed 0 .success t := by
  have step := LinkStep.rel.haltctl (closeMode fl) s
  rw [done] at step
  rw [finishUpdate, show (if fl then HaltMode.reboot else HaltMode.resume) = closeMode fl from rfl, done]
  have steady := h.step (t := t) step
  exact refresh_steady (s := closed 0 .success t) ⟨⟨steady.script, steady.rest⟩, steady.deadline⟩

theorem finishUpdate_err {fl : Bool} {s t : State} {e : ErrKind} (h : Steady s) (fails : haltctl (closeMode fl) s = .err e t) :
    finishUpdate fl s = closed e.code .failed t := by
  have step := LinkStep.rel.haltctl (closeMode fl) s
  rw [fails] at step
  rw [finishUpdate, show (if fl then HaltMode.reboot else HaltMode.resume) = closeMode fl from rfl, fails]
  exact failSession_steady (h.step (t := t) step) e

/-- An attempt without its watchdog steps (R242). -/
def attemptRun (fl : Bool) (data : List Byte) (s : State) : Res Unit :=
  (linkInit s).bind fun _ s => (haltctl (openMode fl) s).bind fun _ s => blobWrite s.offset.toNat s.size.toNat data s

theorem attemptRun_link (fl : Bool) (data : List Byte) (s : State) : LinkStep s (attemptRun fl data s).state :=
  LinkStep.rel.bind (LinkStep.rel.linkInit LinkStep.discard s) fun _ t => LinkStep.rel.bind (LinkStep.rel.haltctl _ t) fun _ u =>
    LinkStep.rel.blobWrite _ _ _ u

/-- How an attempt ends whose operation ends so. -/
def endOf : Res Unit → AttemptEnd
  | .ok _ s => .done s
  | .err e s => .failed e s

/-- A step of an attempt is that step of its operation. -/
theorem attemptStep_steady {s : State} {r : Res Unit} {k : State → AttemptEnd} {f : Unit → State → Res Unit} (h : Steady s)
    (link : LinkStep s r.state) (rest : ∀ t, LinkStep s t → k t = endOf (f () t)) : attemptStep r k = endOf (r.bind f) := by
  cases r with
  | ok a t => exact (watched_steady (h.step link) k).trans (rest t link)
  | err e t => rfl

theorem attempt_steady {s : State} (h : Steady s) (fl : Bool) (data : List Byte) :
    attempt fl data s = endOf (attemptRun fl data s) := by
  rw [attempt, watched_steady h]
  refine attemptStep_steady h (LinkStep.rel.linkInit LinkStep.discard s) fun t link => ?_
  refine attemptStep_steady (h.step link) (LinkStep.rel.haltctl _ t) fun u link' => ?_
  have write := LinkStep.rel.blobWrite u.offset.toNat u.size.toNat data u
  cases hw : blobWrite u.offset.toNat u.size.toNat data u with
  | ok a v =>
    rw [hw] at write
    exact watched_steady ((h.step (link.trans link')).step write) _
  | err e v => rfl

/-! ### The loop of attempts -/

variable {fl : Bool} {data : List Byte}

theorem updateLoop_done {s t : State} (h : Steady s) (n : Nat) (done : attemptRun fl data s = .ok () t) :
    updateLoop fl data n s = finishUpdate fl t := by
  cases n <;> rw [updateLoop, attempt_steady h, done] <;> rfl

theorem updateLoop_exhausted {s t : State} {e : ErrKind} (h : Steady s) (fails : attemptRun fl data s = .err e t) :
    updateLoop fl data 0 s = closed e.code .failed t := by
  have link := attemptRun_link fl data s
  rw [fails] at link
  rw [updateLoop, attempt_steady h, fails]
  exact failSession_steady (h.step (t := t) link) e

theorem updateLoop_retried {s t : State} {e : ErrKind} (h : Steady s) (n : Nat) (fails : attemptRun fl data s = .err e t) :
    updateLoop fl data (n + 1) s = updateLoop fl data n (retried e t) := by
  have link := attemptRun_link fl data s
  rw [fails] at link
  rw [updateLoop, attempt_steady h, fails, ← retryUpdate_steady (h.step (t := t) link) e]
  rfl

/-- What an update run leaves alone does not depend on the error and the retries that it counts. -/
theorem linkStep_counted {s t : State} (h : LinkStep s t) (e r : Word) :
    LinkStep { s with error := e, currentRetry := r } { t with error := e, currentRetry := r } := by
  obtain ⟨⟨⟩⟩ := h
  constructor
  case toOnlyLink => constructor <;> first | rfl | assumption
  all_goals assumption

/-- From `s` the run came to `t`, by `n` attempts that failed. -/
def Retried (n : Nat) (s t : State) : Prop :=
  LinkStep { s with error := t.error, currentRetry := s.currentRetry + BitVec.ofNat 32 n } t

theorem Retried.refl (s : State) : Retried 0 s s := by
  have zero : s.currentRetry + BitVec.ofNat 32 0 = s.currentRetry := BitVec.add_zero _
  rw [Retried, zero]
  exact LinkStep.refl s

theorem Retried.link {n : Nat} {s t u : State} (h : Retried n s t) (k : LinkStep t u) : Retried n s u := by
  rw [Retried, k.error]
  exact LinkStep.trans h k

theorem Retried.cons {n : Nat} {s t u : State} {e : ErrKind} (h : LinkStep s t) (k : Retried n (retried e t) u) : Retried (n + 1) s u := by
  have count : (retried e t).currentRetry + BitVec.ofNat 32 n = s.currentRetry + BitVec.ofNat 32 (n + 1) := by
    rw [retried, h.currentRetry, BitVec.add_assoc, Nat.add_comm n 1, BitVec.ofNat_add]
    rfl
  rw [Retried, count] at k
  exact LinkStep.trans (linkStep_counted h u.error _) k

/-- The attempts in the states of `Z` fail, each with an error in `E` and one less to fail. -/
structure Failing (fl : Bool) (data : List Byte) (E : ErrKind → Prop) (Z : Nat → State → Prop) : Prop where
  steady : ∀ {n s}, Z n s → Steady s
  retried : ∀ {n s}, Z n s → ∀ e, Z n (retried e s)
  fails : ∀ {n s}, Z (n + 1) s → ∃ e t, attemptRun fl data s = .err e t ∧ E e ∧ Z n t

variable {E : ErrKind → Prop} {Z : Nat → State → Prop}

/-- Failures within the budget. -/
theorem updateLoop_absorbs (F : Failing fl data E Z) (left after n : Nat) : ∀ {s : State}, Z (after + n) s →
    ∃ t, updateLoop fl data (left + n) s = updateLoop fl data left t ∧ Z after t ∧ Retried n s t := by
  induction n with
  | zero => exact fun {s} h => ⟨s, rfl, h, .refl s⟩
  | succ n ih =>
    intro s h
    have link := attemptRun_link fl data s
    obtain ⟨e, t, fails, -, ht⟩ := F.fails h
    rw [fails] at link
    obtain ⟨u, loop, hu, counted⟩ := ih (F.retried ht e)
    exact ⟨u, (updateLoop_retried (F.steady h) _ fails).trans loop, hu, .cons link counted⟩

/-- One failure more than the budget allows. -/
theorem updateLoop_exhausts (F : Failing fl data E Z) (after n : Nat) {s : State} (h : Z (after + 1 + n) s) :
    ∃ e t, updateLoop fl data n s = closed e.code .failed t ∧ E e ∧ Z after t ∧ Retried n s t := by
  obtain ⟨t, loop, ht, counted⟩ := updateLoop_absorbs F 0 (after + 1) n h
  have link := attemptRun_link fl data t
  obtain ⟨e, u, fails, he, hu⟩ := F.fails ht
  rw [fails] at link
  refine ⟨e, u, ?_, he, hu, counted.link link⟩
  rw [← updateLoop_exhausted (F.steady ht) fails, ← loop, Nat.zero_add]

/-! ### From the run to the response -/

/-- The session registers after an update run of `s` that has ended. -/
def ended (code : Word) (st : Status) (retries : Word) (data : List Byte) (now : Nat) (clock : List Nat) (deadline : Nat) (s : State) :
    State :=
  { s with
    status := st
    error := code
    active := false
    received := s.size
    currentRetry := retries
    uploadBuffer := filled data s
    now := now
    clockIn := clock
    watchdogDeadline := deadline }

/-- What the response to the last chunk leaves, the run having ended with a code and a status. -/
structure Ended (code : Word) (st : Status) (after : State) (t : State) : Prop where
  responded : Responded code t
  status : t.rspValue = st.code
  disconnected : t.terminalConnected = false
  link : OnlyLink after t

theorem quiet_inUpdate {s : State} (hs : SessionOk s) (up : s.status = .uploading) (data : List Byte) (now : Nat) (clock : List Nat) :
    Quiet (inUpdate data now clock s) := .inr ⟨hs.active.2 up, hs.terminal (hs.active.2 up)⟩

/-- The response to the last chunk, by the way the run ends: started at the time `now`, it leaves the clock at `now'`. -/
theorem exec_ended {s v : State} {code e r : Word} {st : Status} {data : List Byte} {now now' : Nat} {clock clock' : List Nat}
    (hs : SessionOk s) (up : s.status = .uploading) (complete : s.received.toNat + data.length = s.size.toNat)
    (time : readClock s = { s with now := now, clockIn := clock })
    (run : updateRun (uploadedBytes (filled data s) s.size.toNat) (inUpdate data now clock s) = closed code st v)
    (h : LinkStep { inUpdate data now clock s with error := e, currentRetry := r, now := now', clockIn := clock' } v) :
    ∃ t, exec (.uploadData data true) s = .next t ∧
      Ended code st (ended code st r data now' clock' (now + s.cfg.watchdogTimeout) s) t ∧
      ∀ as, Sent (inUpdate data now clock s) v as → Sent s t as := by
  refine ⟨_, exec_lastChunk hs up complete time run, ⟨responded_respond .., rfl, ?_, ?_⟩, fun as sent => ⟨sent.frames, sent.cache⟩⟩
  · exact LinkStep.disconnected (t := v) h (hs.active.2 up) (hs.terminal (hs.active.2 up))
  · obtain ⟨⟨⟩⟩ := h
    constructor <;> first | rfl | assumption | exact fun _ => .inr rfl

/-- The same where the clock stands still, after `n` retries. -/
theorem exec_retried {s v : State} {code : Word} {st : Status} {data : List Byte} {n : Nat} (hs : SessionOk s)
    (up : s.status = .uploading) (complete : s.received.toNat + data.length = s.size.toNat) (still : ClockStill s)
    (run : updateRun (uploadedBytes (filled data s) s.size.toNat) (inUpdate data s.now s.clockIn s) = closed code st v)
    (h : Retried n (inUpdate data s.now s.clockIn s) v) :
    ∃ t, exec (.uploadData data true) s = .next t ∧
      Ended code st (ended code st (s.currentRetry + BitVec.ofNat 32 n) data s.now s.clockIn (s.now + s.cfg.watchdogTimeout) s) t ∧
      ∀ as, Sent (inUpdate data s.now s.clockIn s) v as → Sent s t as :=
  exec_ended hs up complete (readClock_still still) run h

/-- After its first attempt, no retry is counted. -/
theorem exec_unretried {s v : State} {code : Word} {st : Status} {data : List Byte} (hs : SessionOk s)
    (up : s.status = .uploading) (complete : s.received.toNat + data.length = s.size.toNat) (still : ClockStill s)
    (run : updateRun (uploadedBytes (filled data s) s.size.toNat) (inUpdate data s.now s.clockIn s) = closed code st v)
    {as : List Act} (h : Ran (inUpdate data s.now s.clockIn s) v as) :
    ∃ t, exec (.uploadData data true) s = .next t ∧
      Ended code st (ended code st s.currentRetry data s.now s.clockIn (s.now + s.cfg.watchdogTimeout) s) t ∧ Sent s t as := by
  obtain ⟨t, ht, result, sends⟩ := exec_ended (e := s.error) (r := s.currentRetry) hs up complete (readClock_still still) run h.step
  exact ⟨t, ht, result, sends as (h.quiet (quiet_inUpdate hs up data s.now s.clockIn))⟩

theorem steady_inUpdate {s : State} (h : ClockStill s) (data : List Byte) : Steady (inUpdate data s.now s.clockIn s) where
  script := h.script
  rest := h.rest
  deadline := rfl

/-! ### An attempt against zeros -/

/-- An upload whose bytes are `data` and that can be written to a target that holds nothing but zeros. -/
structure Writable (data : List Byte) (s : State) : Prop where
  size_pos : 1 ≤ s.size.toNat
  length : data.length = s.size.toNat
  range : s.offset.toNat + s.size.toNat ≤ 2 ^ 32
  kind : classify s.cfg s.offset.toNat s.size.toNat = .nonFlash ∨
    classify s.cfg s.offset.toNat s.size.toNat = .flash ∧ ∀ b ∈ data, b = 0

theorem Writable.step {data : List Byte} {s t : State} (h : Writable data s) (cfg : t.cfg = s.cfg) (offset : t.offset = s.offset)
    (size : t.size = s.size) : Writable data t where
  size_pos := by rw [size]; exact h.size_pos
  length := by rw [size]; exact h.length
  range := by rw [offset, size]; exact h.range
  kind := by rw [cfg, offset, size]; exact h.kind

/-- Its destination is flash. -/
abbrev toFlash (s : State) : Bool := classify s.cfg s.offset.toNat s.size.toNat == .flash

theorem toFlash_step {s t : State} (k : LinkStep s t) : toFlash t = toFlash s := by rw [toFlash, toFlash, k.cfg, k.offset, k.size]

theorem locked_linkInit {p : Params} {s t : State} (h : Ran s t (initActs p)) (hv : p.Valid) (cfg : s.cfg = p) :
    t.flashUnlocked = false := by
  rw [h.unlocked, cfg, initActs_unlocked hv]

theorem unlocks_haltctl {p : Params} {s t : State} {m : HaltMode} (h : Ran s t (haltActs p m)) (cfg : s.cfg = p)
    (locked : s.flashUnlocked = false) : t.flashUnlocked = unlocks (haltSteps p m) := by
  rw [h.unlocked, cfg, haltActs_unlocked]
  exact (congrArg (· || _) locked).trans (Bool.false_or _)

/-- The write of an attempt, after its halt (R196 to R200, R242). -/
theorem runs_updateWrite {p : Params} {data : List Byte} {s : State} (h : ZeroTarget s) (cfg : s.cfg = p) (w : Writable data s)
    (lock : s.flashUnlocked = unlocks (haltSteps p (openMode (toFlash s)))) :
    Runs (blobWrite s.offset.toNat s.size.toNat data s) s () (updateWriteActs p (toFlash s) s.offset.toNat data) := by
  have nonempty : s.size.toNat ≠ 0 := Nat.ne_of_gt w.size_pos
  rcases w.kind with ram | ⟨flash, zero⟩
  · rw [blobWrite_nonFlash nonempty w.length w.range ram, toFlash, ram]
    exact runs_blobWriteRam h _ _
  · rw [toFlash, flash] at lock ⊢
    have write := runs_blobWriteFlash h cfg (w.length ▸ w.size_pos) (w.length ▸ cfg ▸ flash) zero
    rw [blobWrite_flash nonempty w.length w.range flash]
    rwa [lock] at write

/-- The acts of an attempt (R242). -/
def attemptRunActs (p : Params) (fl : Bool) (a : Nat) (data : List Byte) : List Act :=
  initActs p ++ haltActs p (openMode fl) ++ updateWriteActs p fl a data

theorem runs_attemptRun {p : Params} {data : List Byte} {s : State} (h : ZeroTarget s) (cfg : s.cfg = p) (w : Writable data s) :
    Runs (attemptRun (toFlash s) data s) s () (attemptRunActs p (toFlash s) s.offset.toNat data) := by
  rw [attemptRunActs, List.append_assoc]
  refine Runs.next (runs_linkInit h cfg) h cfg fun t ht cfgT ranT => ?_
  refine Runs.next (runs_haltctl _ ht cfgT) ht cfgT fun u hu cfgU ranU => ?_
  have step := ranT.step.trans ranU.step
  rw [← toFlash_step step, ← step.offset] at *
  exact runs_updateWrite hu cfgU (w.step step.cfg step.offset step.size)
    (unlocks_haltctl ranU cfgT (locked_linkInit ranT (cfg ▸ h.valid) cfg))

theorem writable_inUpdate {s : State} {data : List Byte} (hs : SessionOk s) (up : s.status = .uploading)
    (complete : s.received.toNat + data.length = s.size.toNat)
    (kind : classify s.cfg s.offset.toNat s.size.toNat = .nonFlash ∨ classify s.cfg s.offset.toNat s.size.toNat = .flash ∧
      (∀ i, i < s.received.toNat → Memory.read s.uploadBuffer i = some 0) ∧ ∀ b ∈ data, b = 0) (now : Nat) (clock : List Nat) :
    Writable (uploadedBytes (filled data s) s.size.toNat) (inUpdate data now clock s) where
  size_pos := hs.size_pos up
  length := by rw [uploadedBytes, List.length_map, List.length_range]; rfl
  range := hs.range up
  kind := kind.imp_right fun ⟨flash, zero⟩ => ⟨flash, (readBytes_filled hs up complete).2 zero⟩

/-- A run whose next attempt meets zeros succeeds, whatever the budget (R242, R244). -/
theorem updateLoop_succeeds {p : Params} {data : List Byte} {s : State} (steady : Steady s) (h : ZeroTarget s) (cfg : s.cfg = p)
    (w : Writable data s) (n : Nat) : ∃ t, updateLoop (toFlash s) data n s = closed 0 .success t ∧
      Ran s t (attemptRunActs p (toFlash s) s.offset.toNat data ++ haltActs p (closeMode (toFlash s))) := by
  obtain ⟨t, attempted, ran⟩ := runs_attemptRun h cfg w
  obtain ⟨u, finished, ran'⟩ := runs_haltctl (closeMode (toFlash s)) (ZeroTarget.step h ran.step) (ran.step.cfg.trans cfg)
  exact ⟨u, (updateLoop_done steady n attempted).trans (finishUpdate_ok (steady.step ran.step) finished), ran.trans ran'⟩

/-- Settles O16: the first attempt succeeds, and then the closing halt/reset. -/
theorem updateSucceeds : Obligations.UpdateSucceeds := by
  intro s data hs up zeros still complete kind flash buffer
  have target : ZeroTarget (inUpdate data s.now s.clockIn s) := ⟨zeros.valid, zeros.aligned, zeros.pin, zeros.script, zeros.rest⟩
  obtain ⟨v, run, ran⟩ := updateLoop_succeeds (steady_inUpdate still data) target rfl
    (writable_inUpdate hs up complete kind s.now s.clockIn) (s.retryBudget.toNat - s.currentRetry.toNat)
  obtain ⟨t, ht, result, sent⟩ := exec_unretried hs up complete still run ran
  exact ⟨t, ht, result.responded, result.status, result.disconnected, result.link, sent⟩

end Sys2Proof.Proofs
end

section
/-!
PROOFS. A line on which the next read slot times out (R123 (c), R144): whatever operation reads first fails there with `BusFault`, link init
with `InitFailure` (R235). So the attempts of an update fail one by one, until the line answers or the budget is exhausted (R243).
-/
namespace Sys2Proof.Proofs

open Sys2Proof.Machine Sys2Proof.Safety Sys2Proof.Laws
open Sys2Proof.Config (Params SlotDraw SeqStep)

/-! ### Lines on which the next read times out -/

/-- The target's next answers are `ds`, then `r` for ever, and the terminal cannot act. -/
structure Slots (p : Params) (ds : List SlotDraw) (r : Option SlotDraw) (s : State) : Prop extends Script p ds s where
  rest : s.slotRest = r

theorem Slots.step {p : Params} {ds ds' : List SlotDraw} {r : Option SlotDraw} {s t : State} (h : Slots p ds r s) (k : LinkStep s t)
    (slots : t.slotIn = ds') : Slots p ds' r t := ⟨h.toScript.step k slots, k.slotRest.trans h.rest⟩

theorem slots_talks (p : Params) (ds : List SlotDraw) (r : Option SlotDraw) : Talks (Slots p ds r) where
  valid h := (script_talks p ds).valid h.toScript
  fw cmd v s h := by
    obtain ⟨t, ht, framed, script⟩ := (script_talks p ds).fw cmd v h.toScript
    exact ⟨t, ht, framed, h.step framed.step script.slots⟩
  cache h tag addr ai fl := ⟨(script_talks p ds).cache h.toScript tag addr ai fl, h.rest⟩

/-- In the states of `Z` a read frame meets a slot that times out, and leaves a state of `Z'`. -/
structure Mute (p : Params) (Z Z' : State → Prop) : Prop where
  cfg : ∀ {s}, Z s → s.cfg = p
  pin : ∀ {s}, Z s → s.pinMask ≠ 0
  talks : Talks Z
  keeps : ∀ {s t}, Z s → LinkStep s t → t.slotIn = s.slotIn → Z t
  keeps' : ∀ {s t}, Z' s → LinkStep s t → t.slotIn = s.slotIn → Z' t
  read : ∀ cmd {s}, Z s → ∃ t, fr cmd s = .err .busFault t ∧ Ran s t [.frame (.read cmd none)] ∧ Z' t

theorem dead_not_answered (p : Params) (b : Bool) : ¬ answered p (deadDraw b) := by simp [answered, seenHigh, deadDraw]

/-- The next answer is none. -/
theorem mute_cons (p : Params) (b : Bool) (ds : List SlotDraw) (r : Option SlotDraw) :
    Mute p (Slots p (deadDraw b :: ds) r) (Slots p ds r) where
  cfg h := h.cfg
  pin h := h.pin
  talks := slots_talks p _ r
  keeps h k e := h.step k (e.trans h.slots)
  keeps' h k e := h.step k (e.trans h.slots)
  read cmd s h := by
    obtain ⟨t, ht, ran, script⟩ := script_fr_error (dead_not_answered p b) cmd h.toScript
    exact ⟨t, ht, ran, h.step ran.step script.slots⟩

/-- The line never answers again. -/
theorem mute_rest (p : Params) (b : Bool) : Mute p (Slots p [] (some (deadDraw b))) (Slots p [] (some (deadDraw b))) where
  cfg h := h.cfg
  pin h := h.pin
  talks := slots_talks p _ _
  keeps h k e := h.step k (e.trans h.slots)
  keeps' h k e := h.step k (e.trans h.slots)
  read cmd s h := by
    have turn := LinkStep.rel.termTurn s
    have hs := h.step turn ((termTurn_slotIn_quiet h.quiet).trans h.slots)
    obtain ⟨u, hu, frames⟩ : ∃ u, frameRead .control cmd (termTurn s) = .err .busFault u ∧
        sent (termTurn s) u = [⟨.control, .read cmd none⟩] := by
      generalize termTurn s = t at hs
      have draw : ∀ u : State, u.slotIn = [] → u.slotRest = some (deadDraw b) →
          nextDraw u = (deadDraw b, { u with slotIn := u.slotIn, slotCount := u.slotCount }) := fun u h1 h2 => by
        simp only [nextDraw, h1, h2]
      have timeout := draw (sendBits t.timingCoefficient.toNat (headerBits cmd false) (takePort .control t))
        (by simpa using hs.slots) (by simpa using hs.rest)
      rw [frameRead, if_neg hs.pin]
      dsimp only
      rw [readSlots, readBit_of_draw timeout]
      simp only [seenHigh, deadDraw]
      exact ⟨_, rfl, by simp [sent, logFrame]⟩
    have read := LinkStep.frameRead .control cmd (termTurn s)
    have cache := frameRead_cache .control cmd (termTurn s)
    rw [hu] at read cache
    have link : LinkStep s u := turn.trans read
    have logged : sent s u = [⟨.control, .read cmd none⟩] := by
      rw [sent_append turn.frameLog (show LinkStep (termTurn s) u from read).frameLog, frames, sent_same h.quiet.termTurn.1]
      rfl
    have same : cacheOf u = cacheOf s := cache.trans h.quiet.termTurn.2
    refine ⟨u, hu, Low.act (.frame (.read cmd none)) ⟨link, logged ▸ List.Sublist.refl _, Weak.of_eq same, fun _ => ⟨logged, same⟩⟩,
      h.step link (List.suffix_nil.1 (h.slots ▸ link.slotIn))⟩

/-! ### Operations that fail at their first read -/

variable {α β : Type} {p : Params} {Z Z' : State → Prop}

/-- The operation succeeds, in a state of `Z`. -/
def Passes (r : Res α) (Z : State → Prop) : Prop := ∃ a t, r = .ok a t ∧ Z t

/-- The operation ends with `BusFault`, in a state of `Z`. -/
def Dies (r : Res α) (Z : State → Prop) : Prop := ∃ t, r = .err .busFault t ∧ Z t

theorem Dies.bind {r : Res α} (h : Dies r Z) (f : α → State → Res β) : Dies (r.bind f) Z := by
  obtain ⟨t, rfl, ht⟩ := h
  exact ⟨t, rfl, ht⟩

theorem Passes.bind {r : Res α} {f : α → State → Res β} (h : Passes r Z) (k : ∀ a t, Z t → Dies (f a t) Z') : Dies (r.bind f) Z' := by
  obtain ⟨a, t, rfl, ht⟩ := h
  exact k a t ht

theorem Dies.onErr {r : Res α} {f : State → State} (h : Dies r Z) (k : ∀ t, Z t → Z (f t)) : Dies (r.onErr f) Z := by
  obtain ⟨t, rfl, ht⟩ := h
  exact ⟨f t, rfl, k t ht⟩

theorem Mute.invalidate (M : Mute p Z Z') : ∀ t, Z' t → Z' (invalidate t) := fun t h => M.keeps' h (LinkStep.rel.invalidate t) rfl

theorem Mute.fr (M : Mute p Z Z') (cmd : Cmd) {s : State} (h : Z s) : Dies (fr cmd s) Z' :=
  let ⟨t, ht, _, z⟩ := M.read cmd h
  ⟨t, ht, z⟩

theorem Mute.fw (M : Mute p Z Z') (cmd : Cmd) (v : Word) {s : State} (h : Z s) : Passes (fw cmd v s) Z :=
  let ⟨t, ht, _, z⟩ := M.talks.fw cmd v h
  ⟨(), t, ht, z⟩

/-- The completion poll fails at its first read, and invalidates the cache (R168, R169). -/
theorem Mute.waitAbstract_acts (M : Mute p Z Z') {s : State} (h : Z s) :
    ∃ t, waitAbstract s = .err .busFault t ∧ Ran s t [.frame (.read p.dmAbstractCs none), .invalidate] ∧ Z' t := by
  obtain ⟨n, hn⟩ : ∃ n, s.cfg.absPollLimit = n + 1 := Nat.exists_eq_add_of_le' (M.talks.valid h).absPollLimit
  obtain ⟨t, ht, ran, z⟩ := M.read s.cfg.dmAbstractCs h
  rw [M.cfg h] at ran
  refine ⟨Machine.invalidate t, ?_, ran.trans (ran_invalidate t), M.invalidate t z⟩
  rw [Machine.waitAbstract, hn, pollAbstract, ht]
  rfl

theorem Mute.waitAbstract (M : Mute p Z Z') {s : State} (h : Z s) : Dies (waitAbstract s) Z' :=
  let ⟨t, ht, _, z⟩ := M.waitAbstract_acts h
  ⟨t, ht, z⟩

theorem Mute.execute (M : Mute p Z Z') {s : State} (h : Z s) : Dies (execute s) Z' :=
  (M.fw _ _ h).bind fun _ _ ht => M.waitAbstract ht

theorem Mute.sendAddress (M : Mute p Z Z') (known : Bool) (a : Word) {s : State} (h : Z s) : Passes (sendAddress known a s) Z :=
  let ⟨t, ht, _, z⟩ := talks_sendAddress M.talks known a h
  ⟨(), t, ht, z⟩

theorem Mute.prepareRead (M : Mute p Z Z') (a : Word) (ai : Bool) {s : State} (h : Z s) : Passes (prepareRead a ai s) Z := by
  unfold Machine.prepareRead
  split
  · exact ⟨_, s, rfl, h⟩
  · obtain ⟨t, ht, -, z⟩ := talks_reprogram M.talks (progRead s.cfg ai) (some s.cfg.autoRead) h
    rw [ht]
    exact ⟨_, _, rfl, M.talks.cache z _ _ _ _⟩

theorem Mute.prepareWrite (M : Mute p Z Z') (a : Word) (fl : Bool) {s : State} (h : Z s) : Passes (prepareWrite a fl s) Z := by
  unfold Machine.prepareWrite
  split
  · exact ⟨_, s, rfl, h⟩
  · obtain ⟨t, ht, -, z⟩ := talks_reprogram M.talks (progWrite s.cfg fl) (some s.cfg.autoWrite) h
    rw [ht]
    exact ⟨_, _, rfl, M.talks.cache z _ _ _ _⟩

theorem Mute.memReadWord (M : Mute p Z Z') {a : Word} (aligned : aligned4 a = true) (ai : Bool) {s : State} (h : Z s) :
    Dies (memReadWord a ai s) Z' := by
  rw [Machine.memReadWord, aligned]
  refine Dies.onErr ?_ M.invalidate
  refine (M.prepareRead a ai h).bind fun known t ht => (M.sendAddress known a ht).bind fun _ u hu => ?_
  exact (M.execute hu).bind _

theorem Mute.memWriteWord (M : Mute p Z Z') {a : Word} (aligned : aligned4 a = true) (v : Word) {s : State} (h : Z s) :
    Dies (memWriteWord a v s) Z' := by
  rw [Machine.memWriteWord, aligned]
  refine Dies.onErr ?_ M.invalidate
  refine (M.prepareWrite a _ h).bind fun known t ht => (M.sendAddress known a ht).bind fun _ u hu => ?_
  exact (M.fw _ v hu).bind fun _ w hw => (M.execute hw).bind _

theorem Mute.flashUnlock (M : Mute p Z Z') {s : State} (h : Z s) : Dies (flashUnlock s) Z' := by
  have aligned : aligned4 s.cfg.flashKeyr = true := aligned_of_peripheral (M.talks.valid h).flashKeyr
  exact ((M.memWriteWord aligned s.cfg.key1 h).bind _).bind _

theorem Mute.flashWaitNotBusy (M : Mute p Z Z') {s : State} (h : Z s) : Dies (flashWaitNotBusy s) Z' := by
  obtain ⟨n, hn⟩ : ∃ n, s.cfg.busyPollLimit = n + 1 := Nat.exists_eq_add_of_le' (M.talks.valid h).busyPollLimit
  rw [Machine.flashWaitNotBusy, hn, waitBusy]
  exact (M.memReadWord (aligned_of_peripheral (M.talks.valid h).flashStatr) false h).bind _

/-! ### Step lists, link init and the halt/reset controller -/

/-- A step that only sends passes; any other fails, at an aligned address. -/
theorem Mute.runStep (M : Mute p Z Z') {x : SeqStep} (aligned : stepAligned x = true) {s : State} (h : Z s) :
    if sendsOnly x then Passes (runStep x s) Z else Dies (runStep x s) Z' := by
  cases x with
  | fw cmd v => exact M.fw cmd v h
  | fr cmd => exact (M.fr cmd h).bind _
  | memWriteWord a v => exact M.memWriteWord aligned v h
  | memReadWord a => exact (M.memReadWord aligned false h).bind _
  | flashUnlock => exact M.flashUnlock h
  | flashWaitNotBusy => exact M.flashWaitNotBusy h
  | wait n => exact ⟨(), wait n s, rfl, M.keeps h (LinkStep.rel.wait n s) rfl⟩

/-- A step list passes where all its steps only send, and fails at the first that does not. -/
theorem Mute.runSteps (M : Mute p Z Z') : ∀ {xs : List SeqStep}, xs.all stepAligned = true → ∀ {s : State}, Z s →
    if xs.all sendsOnly then Passes (runSteps xs s) Z else Dies (runSteps xs s) Z'
  | [], _, s, h => ⟨(), s, rfl, h⟩
  | x :: xs, aligned, s, h => by
    rw [List.all_cons, Bool.and_eq_true] at aligned
    have step := M.runStep aligned.1 h
    rw [List.all_cons]
    cases hx : sendsOnly x with
    | false =>
      rw [hx] at step
      exact Dies.bind step _
    | true =>
      rw [hx] at step
      obtain ⟨a, t, ht, z⟩ := step
      rw [Machine.runSteps, runEach, ht]
      exact M.runSteps aligned.2 z

theorem Mute.runSteps_bind (M : Mute p Z Z') {xs : List SeqStep} (aligned : xs.all stepAligned = true) {s : State} (h : Z s)
    {f : Unit → State → Res β} (k : ∀ a t, Z t → Dies (f a t) Z') : Dies ((Machine.runSteps xs s).bind f) Z' := by
  have steps := M.runSteps aligned h
  split at steps
  · exact Passes.bind steps k
  · exact Dies.bind steps f

/-- The halt/reset controller reads at the latest in its completion poll (R250). -/
theorem Mute.haltctl (M : Mute p Z Z') (aligned : AlignedConfig p) (m : HaltMode) {s : State} (h : Z s) : Dies (haltctl m s) Z' := by
  have dropped : Z (dropProgram s) := M.keeps h (LinkStep.rel.dropProgram s) (by unfold dropProgram; split <;> rfl)
  rw [Machine.haltctl, M.cfg h]
  refine M.runSteps_bind aligned.pre dropped fun _ t ht => ?_
  have keys : ∀ f : Unit → State → Res Unit, (∀ a t, Z t → Dies (f a t) Z') →
      Dies ((if m = .rebootBoot then Machine.runSteps t.cfg.seqBootKeys t else .ok () t).bind f) Z' := fun f k => by
    split
    · exact M.runSteps_bind (M.cfg ht ▸ aligned.boot) ht k
    · exact k () t ht
  refine keys _ fun _ u hu => ?_
  rw [M.cfg hu]
  exact M.runSteps_bind (aligned.modes m) hu fun _ v hv => M.waitAbstract hv

/-- A handshake that does not read only sends. -/
theorem handshake_sendsOnly {xs : List SeqStep} (hx : xs.all SeqStep.isHandshake = true) : xs.all sendsOnly = !xs.any readsRegister := by
  induction xs with
  | nil => rfl
  | cons x xs ih =>
    rw [List.all_cons, Bool.and_eq_true] at hx
    rw [List.all_cons, List.any_cons, ih hx.2]
    cases x with
    | fw | fr | wait => rfl
    | memWriteWord | memReadWord | flashUnlock | flashWaitNotBusy => cases hx.1

/-- Link init fails where its handshake reads (R235, R283 (b)), and else passes. -/
theorem Mute.linkInit (M : Mute p Z Z') {s : State} (h : Z s) :
    if p.seqInit.any readsRegister then ∃ t, linkInit s = .err .initFailure t ∧ Z' t else Passes (linkInit s) Z := by
  have valid := M.talks.valid h
  have discarded : Z (discardLink s) := M.keeps h (LinkStep.discard s) rfl
  have steps := M.runSteps (handshake_aligned valid.seqInit) discarded
  rw [handshake_sendsOnly valid.seqInit, M.cfg h] at steps
  cases reads : p.seqInit.any readsRegister with
  | true =>
    rw [reads] at steps
    obtain ⟨t, ht, z⟩ := steps
    exact ⟨discardLink t, linkInit_of_err (e := .busFault) (M.pin h) (M.cfg h ▸ ht), M.keeps' z (LinkStep.discard t) rfl⟩
  | false =>
    rw [reads] at steps
    obtain ⟨a, t, ht, z⟩ := steps
    exact ⟨(), _, linkInit_of_ok (M.pin h) (M.cfg h ▸ ht), M.keeps z (LinkStep.rel.tag t .started) rfl⟩

/-! ### Attempts that fail -/

/-- The error of an attempt whose first read times out. -/
def deadError (p : Params) : ErrKind := if p.seqInit.any readsRegister then .initFailure else .busFault

theorem deadError_code (p : Params) : (deadError p).code =
    if p.seqInit.any readsRegister then ErrKind.initFailure.code else ErrKind.busFault.code := apply_ite ..

theorem Mute.attemptRun (M : Mute p Z Z') (aligned : AlignedConfig p) (fl : Bool) (data : List Byte) {s : State} (h : Z s) :
    ∃ t, attemptRun fl data s = .err (deadError p) t ∧ Z' t := by
  have init := M.linkInit h
  rw [Proofs.attemptRun, deadError]
  cases reads : p.seqInit.any readsRegister with
  | true =>
    rw [reads] at init
    obtain ⟨t, ht, z⟩ := init
    exact ⟨t, by rw [ht]; rfl, z⟩
  | false =>
    rw [reads] at init
    exact Passes.bind init fun _ t ht => (M.haltctl aligned _ ht).bind _

theorem Slots.retried {ds : List SlotDraw} {r : Option SlotDraw} {s : State} (h : Slots p ds r s) (e : ErrKind) :
    Slots p ds r (retried e s) := ⟨⟨h.cfg, h.valid, h.pin, h.quiet, h.slots⟩, h.rest⟩

/-- Attempts fail on a line that never answers; with aligned step lists, with one and the same error. -/
theorem failing_rest (p : Params) (b fl : Bool) (data : List Byte) : Failing fl data (fun e => AlignedConfig p → e = deadError p)
    (fun _ s => Slots p [] (some (deadDraw b)) s ∧ Steady s) where
  steady h := h.2
  retried h e := ⟨h.1.retried e, h.2.retried e⟩
  fails {n s} h := by
    have link := attemptRun_link fl data s
    have after : ∀ {t}, LinkStep s t → Slots p [] (some (deadDraw b)) t ∧ Steady t := fun k =>
      ⟨h.1.step k (List.suffix_nil.1 (h.1.slots ▸ k.slotIn)), h.2.step k⟩
    by_cases aligned : AlignedConfig p
    · obtain ⟨t, fails, -⟩ := (mute_rest p b).attemptRun aligned fl data h.1
      rw [fails] at link
      exact ⟨_, t, fails, fun _ => rfl, after link⟩
    · have dead : DeadLine s := ⟨h.1.cfg ▸ h.1.valid, h.1.pin, h.1.slots, b, h.1.rest⟩
      have init := LinkStep.rel.linkInit LinkStep.discard s
      obtain ⟨e, t, fails⟩ : ∃ e t, attemptRun fl data s = .err e t := by
        rw [attemptRun]
        cases hr : linkInit s with
        | err e t => exact ⟨e, t, rfl⟩
        | ok a t =>
          rw [hr] at init
          obtain ⟨e, u, hu, -⟩ := haltctl_dead (DeadLine.step (t := t) dead init) (openMode fl)
          exact ⟨e, u, by rw [ok_bind, hu]; rfl⟩
      rw [fails] at link
      exact ⟨e, t, fails, fun h => absurd h aligned, after link⟩

/-- Each dead slot fails one attempt, before the line answers zeros. -/
theorem failing_cons {p : Params} (aligned : AlignedConfig p) (b fl : Bool) (data : List Byte) :
    Failing fl data (fun e => e = deadError p)
      (fun n s => Slots p (List.replicate n (deadDraw b)) (some zeroDraw) s ∧ Steady s) where
  steady h := h.2
  retried h e := ⟨h.1.retried e, h.2.retried e⟩
  fails {n s} h := by
    have link := attemptRun_link fl data s
    obtain ⟨t, fails, slots⟩ := (mute_cons p b (List.replicate n (deadDraw b)) (some zeroDraw)).attemptRun aligned fl data h.1
    rw [fails] at link
    exact ⟨_, t, fails, rfl, slots, h.2.step link⟩

theorem errCode_ne_zero (e : ErrKind) : e.code ≠ 0 := by cases e <;> decide

/-- As many retries as the budget allows (R243). -/
theorem budget_used {r b : Word} (h : r.toNat ≤ b.toNat) : r + BitVec.ofNat 32 (b.toNat - r.toNat) = b := received_of_complete (by omega)

theorem Retried.same {n : Nat} {s t : State} (h : Retried n s t) : t.cfg = s.cfg ∧ t.offset = s.offset ∧ t.size = s.size :=
  have link : LinkStep _ t := h
  ⟨link.cfg, link.offset, link.size⟩

/-- Settles O17: the loop on a line that never answers, and on one that answers zeros after the dead slots. -/
theorem retryBudgetExhausted : Obligations.RetryBudgetExhausted := by
  intro s data hs up still complete buffer failure failed
  have budget := hs.retry
  have steady := steady_inUpdate still data
  have quiet := quiet_inUpdate hs up data s.now s.clockIn
  refine ⟨fun dead => ?_, fun n b valid aligned pin slots rest kind => ?_⟩
  · obtain ⟨b, rest⟩ := dead.rest
    have line : Slots s.cfg [] (some (deadDraw b)) (inUpdate data s.now s.clockIn s) :=
      ⟨⟨rfl, dead.valid, dead.pin, quiet, dead.script⟩, rest⟩
    obtain ⟨e, v, run, error, -, counted⟩ := updateLoop_exhausts (failing_rest s.cfg b _ (uploadedBytes buffer s.size.toNat)) 0
      (s.retryBudget.toNat - s.currentRetry.toNat) (s := inUpdate data s.now s.clockIn s) ⟨line, steady⟩
    obtain ⟨t, ht, result, -⟩ := exec_retried hs up complete still run counted
    rw [budget_used budget] at result
    exact ⟨t, e.code, ht, result.responded, errCode_mem e, errCode_ne_zero e, fun h => error h ▸ deadError_code s.cfg, result.status,
      result.disconnected, result.link⟩
  · have line : Slots s.cfg (List.replicate n (deadDraw b)) (some zeroDraw) (inUpdate data s.now s.clockIn s) :=
      ⟨⟨rfl, valid, pin, quiet, slots⟩, rest⟩
    have failing := failing_cons aligned b (toFlash (inUpdate data s.now s.clockIn s)) (uploadedBytes buffer s.size.toNat)
    split
    next within =>
      have left : s.retryBudget.toNat - s.currentRetry.toNat = s.retryBudget.toNat - s.currentRetry.toNat - n + n := by omega
      obtain ⟨v, absorbed, ⟨answers, steadyV⟩, counted⟩ := updateLoop_absorbs failing (s.retryBudget.toNat - s.currentRetry.toNat - n) 0 n
        (s := inUpdate data s.now s.clockIn s) ⟨(Nat.zero_add n).symm ▸ line, steady⟩
      obtain ⟨cfg, offset, size⟩ := counted.same
      have writable := (writable_inUpdate hs up complete kind s.now s.clockIn).step cfg offset size
      have dest : toFlash v = toFlash (inUpdate data s.now s.clockIn s) := by rw [toFlash, toFlash, cfg, offset, size]
      obtain ⟨w, succeeds, ran⟩ := updateLoop_succeeds steadyV (answers.zeros aligned answers.rest) answers.cfg writable
        (s.retryBudget.toNat - s.currentRetry.toNat - n)
      rw [dest, ← absorbed, ← left] at succeeds
      obtain ⟨t, ht, result, -⟩ := exec_retried hs up complete still succeeds (counted.link ran.step)
      exact ⟨t, ht, result.disconnected, result.responded, result.status, result.link⟩
    next beyond =>
      obtain ⟨after, more⟩ : ∃ after, n = after + 1 + (s.retryBudget.toNat - s.currentRetry.toNat) :=
        ⟨n - 1 - (s.retryBudget.toNat - s.currentRetry.toNat), by omega⟩
      obtain ⟨e, v, run, rfl, -, counted⟩ := updateLoop_exhausts failing after (s.retryBudget.toNat - s.currentRetry.toNat)
        (s := inUpdate data s.now s.clockIn s) ⟨more ▸ line, steady⟩
      obtain ⟨t, ht, result, -⟩ := exec_retried hs up complete still run counted
      rw [budget_used budget, deadError_code] at result
      exact ⟨t, ht, result.disconnected, result.responded, result.status, result.link⟩

end Sys2Proof.Proofs
end

section
/-!
PROOFS. What ends an update run without a retry: a closing halt/reset that fails (R244), and an expiry of the watchdog between two steps of
an attempt (R246 (b)).
-/
namespace Sys2Proof.Proofs

open Sys2Proof.Machine Sys2Proof.Safety Sys2Proof.Laws
open Sys2Proof.Config (Params SlotDraw SeqStep)

/-! ### A closing halt/reset that fails -/

/-- The act of an access of a RAM write. -/
def ramAct : RamWrite → Act
  | .word a v => .writeWord a v
  | .byte a b => .writeByte a b

theorem ramActs_eq (a : Nat) (data : List Byte) : ramActs a data = (ramWrites data.length a data).map ramAct := by
  refine List.map_congr_left fun x _ => ?_
  cases x <;> rfl

/-- A RAM write, each of whose completion polls reads 0 (R197). -/
theorem script_ramWrites {p : Params} {n a : Nat} {data : List Byte} (xs : List RamWrite) (part : xs ⊆ ramWrites n a data)
    {rest : List SlotDraw} : ∀ {s : State}, Script p (List.replicate (xs.length * 32) zeroDraw ++ rest) s →
    Goes (runEach ramWrite xs s) s () (xs.map ramAct) (Script p rest) := by
  induction xs with
  | nil => exact fun {s} h => Goes.ok () (by simpa using h)
  | cons x xs ih =>
    intro s h
    rw [List.cons_subset] at part
    rw [List.length_cons, Nat.add_comm, zeros_split, Nat.one_mul] at h
    refine Goes.bind (a := ()) (as := [_]) ?_ fun t _ ht => ih part.2 ht
    cases x with
    | word a v => exact script_memWriteWord v h (ramWrites_aligned _ _ _ _ _ part.1)
    | byte a b => exact script_memWriteByte a b h

/-- An attempt to a RAM destination, with step lists that only send, each of its polls reading 0. -/
theorem script_attemptRun {p : Params} {data : List Byte} {s : State} (init : p.seqInit.all sendsOnly = true)
    (halts : (haltSteps p .haltNoReset).all sendsOnly = true) (w : Writable data s)
    (ram : classify s.cfg s.offset.toNat s.size.toNat = .nonFlash) {rest : List SlotDraw}
    (h : Script p (List.replicate ((1 + (ramActs s.offset.toNat data).length) * 32) zeroDraw ++ rest) s) :
    Goes (attemptRun false data s) s () (initActs p ++ haltActs p .haltNoReset ++ ramActs s.offset.toNat data) (Script p rest) := by
  rw [zeros_split, Nat.one_mul] at h
  rw [List.append_assoc]
  refine Goes.bind (script_linkInit init h) fun t ranT ht => ?_
  refine Goes.bind (script_haltctl .haltNoReset halts ht) fun u ranU hu => ?_
  have step := ranT.step.trans ranU.step
  rw [step.offset, step.size, blobWrite_nonFlash (Nat.ne_of_gt w.size_pos) w.length w.range (step.cfg ▸ ram)]
  rw [ramActs_eq]
  refine script_ramWrites _ (List.Subset.refl _) ?_
  simpa [ramActs_eq] using hu

/-- The acts that end the closing halt/reset are sent frames but for the invalidation. -/
theorem trace_append_invalidate (p : Params) (c : Cache) (as : List Act) : trace p c (as ++ [.invalidate]) = trace p c as := by
  rw [trace_append, trace_single]
  exact List.append_nil _

/-- The halt/reset controller on a line that never answers again, with step lists that only send (R250). -/
theorem dead_haltctl_acts {p : Params} {b : Bool} (m : HaltMode) (sends : (haltSteps p m).all sendsOnly = true) {s : State}
    (h : Slots p [] (some (deadDraw b)) s) : ∃ t, haltctl m s = .err .busFault t ∧
      Ran s t (.drop :: stepsActs p (haltSteps p m) ++ [.frame (.read p.dmAbstractCs none), .invalidate]) := by
  obtain ⟨t, ht, ranT, scriptT⟩ := script_haltSteps m sends h.toScript
  obtain ⟨u, hu, ranU, -⟩ := (mute_rest p b).waitAbstract_acts ⟨scriptT, ranT.step.slotRest.trans h.rest⟩
  exact ⟨u, ht.trans hu, ranT.trans ranU⟩

/-- Clause (1) of O60: the attempt succeeds, and the closing poll times out. -/
theorem updateCutShort_close {s : State} {data : List Byte} {b : Bool} (hs : SessionOk s) (up : s.status = .uploading)
    (complete : s.received.toNat + data.length = s.size.toNat) (valid : s.cfg.Valid) (pin : s.pinMask ≠ 0) (still : ClockStill s)
    (ram : classify s.cfg s.offset.toNat s.size.toNat = .nonFlash) (init : s.cfg.seqInit.all sendsOnly = true)
    (halts : (haltSteps s.cfg .haltNoReset).all sendsOnly = true) (resumes : (haltSteps s.cfg .resume).all sendsOnly = true)
    (slots : s.slotIn = List.replicate (32 * (1 + (ramActs s.offset.toNat (uploadedBytes (filled data s) s.size.toNat)).length)) zeroDraw)
    (rest : s.slotRest = some (deadDraw b)) :
    ∃ t, exec (.uploadData data true) s = .next t ∧ Ended ErrKind.busFault.code .failed (ended ErrKind.busFault.code .failed
        s.currentRetry data s.now s.clockIn (s.now + s.cfg.watchdogTimeout) s) t ∧
      sent s t = trace s.cfg (cacheOf s) (initActs s.cfg ++ haltActs s.cfg .haltNoReset
        ++ ramActs s.offset.toNat (uploadedBytes (filled data s) s.size.toNat) ++ .drop :: stepsActs s.cfg (haltSteps s.cfg .resume)
        ++ [.frame (.read s.cfg.dmAbstractCs none)]) := by
  have steady := steady_inUpdate still data
  have writable := writable_inUpdate hs up complete (.inl ram) s.now s.clockIn
  have script : Script s.cfg (List.replicate ((1 + (ramActs s.offset.toNat (uploadedBytes (filled data s) s.size.toNat)).length) * 32)
      zeroDraw ++ []) (inUpdate data s.now s.clockIn s) :=
    ⟨rfl, valid, pin, quiet_inUpdate hs up data s.now s.clockIn, by rw [List.append_nil, Nat.mul_comm]; exact slots⟩
  obtain ⟨v, attempted, ranV, scriptV⟩ := script_attemptRun init halts writable ram script
  obtain ⟨w, fails, ranW⟩ := dead_haltctl_acts .resume resumes (s := v) ⟨scriptV, ranV.step.slotRest.trans rest⟩
  have run := (updateLoop_done steady (s.retryBudget.toNat - s.currentRetry.toNat) attempted).trans
    (finishUpdate_err (fl := false) (steady.step ranV.step) fails)
  have dest : toFlash (inUpdate data s.now s.clockIn s) = false := by
    show (classify s.cfg s.offset.toNat s.size.toNat == .flash) = false
    rw [ram]
    rfl
  rw [← dest] at run
  obtain ⟨t, ht, result, sent⟩ := exec_unretried hs up complete still run (ranV.trans ranW)
  refine ⟨t, ht, result, sent.frames.trans ?_⟩
  refine Eq.trans ?_ (trace_append_invalidate s.cfg (cacheOf s) _)
  simp only [List.append_assoc, List.cons_append, List.nil_append]
  rfl

/-! ### An expiry of the watchdog -/

theorem readClock_cons {s : State} {d : Nat} {ds : List Nat} (h : s.clockIn = d :: ds) :
    readClock s = { s with now := s.now + d, clockIn := ds } := by rw [readClock, h]

/-- `s` at another time. -/
def atTime (now : Nat) (clock : List Nat) (s : State) : State := { s with now := now, clockIn := clock }

/-- The script of a clock that stands still for `k` watchdog steps, at two readings each, and then jumps by `d`. -/
def ticks (k d : Nat) (ds : List Nat) : List Nat := List.replicate (2 * k) 0 ++ d :: ds

/-- The clock jumps past the deadline after `k` more watchdog steps of a run. -/
structure Ticking (k d : Nat) (ds : List Nat) (s : State) : Prop where
  clock : s.clockIn = ticks k d ds
  deadline : s.watchdogDeadline = s.now + s.cfg.watchdogTimeout
  jump : s.cfg.watchdogTimeout < d
  running : s.status = .updating

theorem Ticking.step {k d : Nat} {ds : List Nat} {s t : State} (h : Ticking k d ds s) (link : LinkStep s t) : Ticking k d ds t where
  clock := link.clockIn.trans h.clock
  deadline := by rw [link.watchdogDeadline, link.now, link.cfg, h.deadline]
  jump := by rw [link.cfg]; exact h.jump
  running := link.status.trans h.running

/-- The session after the expiry (R246). -/
def timedOut (d : Nat) (ds : List Nat) (s : State) : State := closed ErrKind.timeout.code .idle (atTime (s.now + d) ds s)

theorem watched_expires {d : Nat} {ds : List Nat} {s : State} (h : Ticking 0 d ds s) (k : State → AttemptEnd) :
    watched s k = .aborted (timedOut d ds s) := by
  have late : s.watchdogDeadline < s.now + d := by rw [h.deadline]; exact Nat.add_lt_add_left h.jump _
  have check : watchdogCheck s = (true, timedOut d ds s) := by
    rw [watchdogCheck, if_neg (by simp [h.running]), show readClock s = atTime (s.now + d) ds s from readClock_cons h.clock]
    dsimp only
    rw [if_pos (show (atTime (s.now + d) ds s).watchdogDeadline < (atTime (s.now + d) ds s).now from late), expire]
    exact congrArg (true, ·) (if_pos ((inFlight_iff _).2 (.inr h.running)))
  rw [watched, watchdogStep, check]

/-- A watchdog step before the jump reads the clock twice, and changes nothing else. -/
theorem watched_ticks {k d : Nat} {ds : List Nat} {s : State} (h : Ticking (k + 1) d ds s) (next : State → AttemptEnd) :
    watched s next = next (atTime s.now (ticks k d ds) s) := by
  have check : watchdogCheck s = (false, atTime s.now (0 :: ticks k d ds) s) := by
    rw [watchdogCheck, if_neg (by simp [h.running]), readClock_cons h.clock]
    dsimp only
    rw [if_neg (by rw [h.deadline]; omega)]
    rfl
  have refreshed : refresh (atTime s.now (0 :: ticks k d ds) s) = atTime s.now (ticks k d ds) s := by
    rw [refresh, readClock_cons rfl]
    dsimp only [atTime]
    rw [Nat.add_zero, ← h.deadline]
  rw [watched, watchdogStep, check]
  dsimp only
  rw [refreshed]

theorem linkStep_atTime {s t : State} (h : LinkStep s t) (now : Nat) (clock : List Nat) :
    LinkStep (atTime now clock s) (atTime now clock t) := by
  obtain ⟨⟨⟩⟩ := h
  constructor
  case toOnlyLink => constructor <;> first | rfl | assumption
  all_goals assumption

/-- From `s` the link came to `t` by the acts `as`, the readings of the clock aside. -/
structure Timed (s t : State) (as : List Act) : Prop where
  now : t.now = s.now
  ran : ∀ now clock, Ran (atTime now clock s) (atTime now clock t) as

theorem Timed.refl (s : State) : Timed s s [] := ⟨rfl, fun now clock => Ran.refl (atTime now clock s)⟩

theorem Timed.cons {s t u : State} {as bs : List Act} {clock : List Nat} (h : Ran (atTime s.now clock s) t as) (k : Timed t u bs) :
    Timed s u (as ++ bs) where
  now := k.now.trans h.step.now
  ran now clock := by
    have first : Ran (atTime now clock s) (atTime now clock t) as := {
      step := linkStep_atTime h.step now clock
      acts := h.acts
      quiet := fun q => have sent := h.quiet q; ⟨sent.frames, sent.cache⟩ }
    exact first.trans (k.ran now clock)

/-- The attempt is cut short by an expiry, after the acts `as`. -/
def Expires (d : Nat) (ds : List Nat) (s : State) (as : List Act) (r : AttemptEnd) : Prop :=
  ∃ t, r = .aborted (timedOut d ds t) ∧ Timed s t as

theorem expires_now {d : Nat} {ds : List Nat} {s : State} (h : Ticking 0 d ds s) (k : State → AttemptEnd) :
    Expires d ds s [] (watched s k) := ⟨s, watched_expires h k, Timed.refl s⟩

/-- A watchdog step that does not expire, a step of the attempt, and what follows. -/
theorem expires_later {k d : Nat} {ds : List Nat} {s : State} {f : State → Res Unit} {next : State → AttemptEnd} {as bs : List Act}
    (h : Ticking (k + 1) d ds s) (op : Runs (f (atTime s.now (ticks k d ds) s)) (atTime s.now (ticks k d ds) s) () as)
    (later : ∀ t, Ran (atTime s.now (ticks k d ds) s) t as → Ticking k d ds t → Expires d ds t bs (watched t next)) :
    Expires d ds s (as ++ bs) (watched s fun s => attemptStep (f s) next) := by
  obtain ⟨t, ht, ran⟩ := op
  have tick : Ticking k d ds (atTime s.now (ticks k d ds) s) := ⟨rfl, h.deadline, h.jump, h.running⟩
  obtain ⟨u, hu, timed⟩ := later t ran (tick.step ran.step)
  refine ⟨u, ?_, .cons ran timed⟩
  rw [watched_ticks h, ht]
  exact hu

theorem zeroTarget_atTime {s : State} (h : ZeroTarget s) (now : Nat) (clock : List Nat) : ZeroTarget (atTime now clock s) :=
  ⟨h.valid, h.aligned, h.pin, h.script, h.rest⟩

/-- An attempt against zeros is cut short at each of its watchdog steps (R242, R246). -/
theorem attempt_expires {p : Params} {d : Nat} {ds : List Nat} {data : List Byte} {k : Nat} {s : State} (h : ZeroTarget s) (cfg : s.cfg = p)
    (w : Writable data s) (steps : k ≤ 3) (tick : Ticking k d ds s) :
    Expires d ds s ([initActs p, haltActs p (openMode (toFlash s)), updateWriteActs p (toFlash s) s.offset.toNat data].take k).flatten
      (attempt (toFlash s) data s) := by
  cases k with
  | zero => exact expires_now tick _
  | succ k =>
    have h1 := zeroTarget_atTime h s.now (ticks k d ds)
    refine expires_later tick (runs_linkInit h1 cfg) fun t ranT tickT => ?_
    have locked := locked_linkInit ranT (cfg ▸ h.valid) cfg
    have targetT := ZeroTarget.step h1 ranT.step
    have cfgT : t.cfg = p := ranT.step.cfg.trans cfg
    cases k with
    | zero => exact expires_now tickT _
    | succ k =>
      have h2 := zeroTarget_atTime targetT t.now (ticks k d ds)
      refine expires_later tickT (runs_haltctl (openMode (toFlash s)) h2 cfgT) fun u ranU tickU => ?_
      have targetU := ZeroTarget.step h2 ranU.step
      have cfgU : u.cfg = p := ranU.step.cfg.trans cfgT
      cases k with
      | zero => exact expires_now tickU _
      | succ k =>
        obtain rfl : k = 0 := by omega
        have offset : u.offset = s.offset := ranU.step.offset.trans ranT.step.offset
        have size : u.size = s.size := ranU.step.size.trans ranT.step.size
        have dest : toFlash u = toFlash s := by rw [toFlash, toFlash, cfgU, cfg, offset, size]
        have lock : u.flashUnlocked = unlocks (haltSteps p (openMode (toFlash u))) := by
          rw [dest]
          exact unlocks_haltctl ranU cfgT locked
        have write := runs_updateWrite (s := atTime u.now (ticks 0 d ds) u) (zeroTarget_atTime targetU _ _) cfgU
          (w.step (cfgU.trans cfg.symm) offset size) lock
        rw [← dest, ← offset]
        exact expires_later (f := fun s => blobWrite s.offset.toNat s.size.toNat data s) tickU write fun v _ tickV => expires_now tickV _

/-- Clause (2) of O60: the run ends with its first attempt. -/
theorem updateCutShort_expiry {s : State} {data : List Byte} {d1 k d : Nat} {ds : List Nat} (hs : SessionOk s) (up : s.status = .uploading)
    (complete : s.received.toNat + data.length = s.size.toNat) (zeros : ZeroTarget s)
    (kind : classify s.cfg s.offset.toNat s.size.toNat = .nonFlash ∨ classify s.cfg s.offset.toNat s.size.toNat = .flash ∧
      (∀ i, i < s.received.toNat → Memory.read s.uploadBuffer i = some 0) ∧ ∀ x ∈ data, x = 0)
    (steps : k ≤ 3) (clock : s.clockIn = d1 :: ticks k d ds) (jump : s.cfg.watchdogTimeout < d) :
    ∃ t, exec (.uploadData data true) s = .next t ∧ Ended ErrKind.timeout.code .idle (ended ErrKind.timeout.code .idle
        s.currentRetry data (s.now + d1 + d) ds (s.now + d1 + s.cfg.watchdogTimeout) s) t ∧
      Sent s t ([initActs s.cfg, haltActs s.cfg (openMode (toFlash s)),
        updateWriteActs s.cfg (toFlash s) s.offset.toNat (uploadedBytes (filled data s) s.size.toNat)].take k).flatten := by
  have target : ZeroTarget (inUpdate data (s.now + d1) (ticks k d ds) s) :=
    ⟨zeros.valid, zeros.aligned, zeros.pin, zeros.script, zeros.rest⟩
  obtain ⟨v, aborted, timed⟩ := attempt_expires target rfl
    (writable_inUpdate hs up complete kind (s.now + d1) (ticks k d ds)) steps ⟨rfl, rfl, jump, rfl⟩
  have run : updateRun (uploadedBytes (filled data s) s.size.toNat) (inUpdate data (s.now + d1) (ticks k d ds) s) = timedOut d ds v := by
    rw [updateRun]
    cases (inUpdate data (s.now + d1) (ticks k d ds) s).retryBudget.toNat
        - (inUpdate data (s.now + d1) (ticks k d ds) s).currentRetry.toNat <;>
      rw [updateLoop, aborted]
  have ran := timed.ran (s.now + d1 + d) ds
  rw [timedOut, timed.now] at run
  obtain ⟨t, ht, result, sends⟩ := exec_ended (e := s.error) (r := s.currentRetry) hs up complete (readClock_cons clock) run ran.step
  have sent := ran.quiet (quiet_inUpdate hs up data (s.now + d1) (ticks k d ds))
  exact ⟨t, ht, result, sends _ ⟨sent.frames, sent.cache⟩⟩

/-- Settles O60. -/
theorem updateCutShort : Obligations.UpdateCutShort := by
  intro s data hs up complete flash buffer bytes
  refine ⟨fun b valid pin still ram init pre halt resume slots rest => ?_, fun d1 k d ds zeros kind steps clock jump => ?_⟩
  · have halts : (haltSteps s.cfg .haltNoReset).all sendsOnly = true := by simp [haltSteps, modeSteps, pre, halt]
    have resumes : (haltSteps s.cfg .resume).all sendsOnly = true := by simp [haltSteps, modeSteps, pre, resume]
    obtain ⟨t, ht, result, sent⟩ := updateCutShort_close hs up complete valid pin still ram init halts resumes slots rest
    exact ⟨t, ht, result.responded, result.status, result.disconnected, result.link, sent⟩
  · obtain ⟨t, ht, result, sent⟩ := updateCutShort_expiry hs up complete zeros kind steps clock jump
    exact ⟨t, ht, result.responded, result.status, result.disconnected, result.link, sent⟩

end Sys2Proof.Proofs
end
